-- ==== Sys2Proof/Word.lean ====
section
/-! DEFINITION. The word types of the Cerora Mevis and their plainest arithmetic (R3, R20). -/

namespace Sys2Proof

/-- A 64-bit word: an instruction, a pointer, a register (R3). -/
abbrev Word := BitVec 64
/-- A 128-bit entry of an age file or a frame slot (R81, R85). -/
abbrev Quad := BitVec 128
/-- One byte of memory (R218). -/
abbrev Byte := BitVec 8

/-- Bits [hi:lo] of `x` as a number (R3). -/
def bitsOf {n : Nat} (x : BitVec n) (hi lo : Nat) : Nat := (x.toNat >>> lo) % 2 ^ (hi + 1 - lo)

/-- Bit `i` of `x` (R3). -/
def bitAt {n : Nat} (x : BitVec n) (i : Nat) : Bool := x.getLsbD i

/-- The low `n` bits of the number `x`, sign-extended (R6). -/
def sxNat (n : Nat) (x : Nat) : Int :=
  let m := x % 2 ^ n
  if n = 0 then 0 else if m < 2 ^ (n - 1) then (m : Int) else (m : Int) - (2 ^ n : Nat)

/-- An exact integer wrapped to `n` bits (R21). -/
def wrapInt (n : Nat) (x : Int) : Nat := (x % ((2 ^ n : Nat) : Int)).toNat

/-- 1 for true, 0 for false. -/
def b2n (b : Bool) : Nat := if b then 1 else 0

/-- The numbers below `n`, rising. -/
abbrev upTo (n : Nat) : List Nat := List.range n

/-- The little-endian bytes of the low `8 * n` bits of a number (R3). -/
def bytesOf : Nat → Nat → List Byte
  | 0, _ => []
  | n + 1, v => BitVec.ofNat 8 v :: bytesOf n (v / 256)

/-- The number that little-endian bytes hold (R3). -/
def ofBytes : List Byte → Nat
  | [] => 0
  | b :: bs => b.toNat + 256 * ofBytes bs

end Sys2Proof
end

