-- ==== Sys2Proof/Syntax.lean ====
section
/-! DEFINITION. The instruction words of the Cerora Mevis as data (R49 to R61), and one constructor of
`Instr` for each row of spec/opcode_table.json: first the instructions a group issues, then the steps
that engines, schedulers, the control processor, links and the outside take. -/

namespace Sys2Proof

/-- A source field (R51): an age of the thread's file or of the uniform file. -/
inductive Src
  | a (k : BitVec 4)
  | g (k : BitVec 4)
deriving DecidableEq, Repr

/-- The operand types of R60, in code order. -/
inductive Ty
  | i8 | n8 | i16 | n16 | i32 | n32 | i64 | n64
  | f16 | bf16 | f32 | f64 | e4m3 | e5m2 | e2m1 | b128
  | i8x16 | n8x16 | i16x8 | n16x8 | i32x4 | n32x4 | f16x8 | bf16x8
  | f32x4 | f64x2 | e4m3x16 | e5m2x16 | k4 | mx4 | mx8a | mx8b
deriving DecidableEq, Repr

/-- Bits [55:49] of every word (R49): uniform form and guard. -/
structure Ctl where
  u : Bool
  ge : Bool
  gp : BitVec 4
  gs : Bool
deriving DecidableEq, Repr

/-- Format Q3 (R53). -/
structure Q3 where
  sa : Src
  sb : Src
  sc : Src
  rm : BitVec 3
  ty : Ty
  pd : BitVec 4
  imm : Bool
  sat : Bool
  mod : BitVec 4
  imm16 : BitVec 16
deriving DecidableEq, Repr

/-- Format QI (R55). -/
structure QI where
  sa : Src
  sb : Src
  fn : BitVec 6
  z : Bool
  imm32 : BitVec 32
deriving DecidableEq, Repr

/-- Format BR (R56). -/
structure BR where
  sa : Src
  sb : Src
  aux : BitVec 4
  kind : BitVec 3
  offs : BitVec 32
deriving DecidableEq, Repr

/-- Format ME (R57). -/
structure ME where
  sa : Src
  sb : Src
  sc : Src
  sz : BitVec 3
  ord : BitVec 2
  scope : BitVec 3
  ack : Bool
  sx : Bool
  mod : BitVec 4
  offset : BitVec 20
deriving DecidableEq, Repr

/-- Format MX (R58). -/
structure MX where
  sa : Src
  sb : Src
  sc : Src
  z : BitVec 2
  ta : BitVec 4
  tb : BitVec 4
  tc : BitVec 3
  acc : Bool
  negp : Bool
  rm : BitVec 3
  imm16 : BitVec 16
deriving DecidableEq, Repr

/-- Format CP (R59). -/
structure CP where
  sa : Src
  sb : Src
  sc : Src
  cq : BitVec 4
  sub : BitVec 4
  imm26 : BitVec 26
deriving DecidableEq, Repr

/-- Format SY (R59); `rsv` is [38:28], which must be zero. -/
structure SY where
  sa : Src
  sb : Src
  rsv : BitVec 11
  sreg : BitVec 12
  imm16 : BitVec 16
deriving DecidableEq, Repr

/-- A byte of physical memory (R218). A scratchpad byte is named by context and rank, because a rank's
scratchpad moves whole (R199). A peer byte is named by the handle of R401. -/
inductive Loc
  | dev (addr : Nat)
  | host (addr : Nat)
  | scr (ctx rank off : Nat)
  | peer (did rctx eidx key off : Nat)
deriving DecidableEq, Repr

/-- What a cluster scheduler chooses for one team (R310, R326, R299): window base, team number, launch
generation, the core of each group. -/
structure Placement where
  wb : Nat
  teamNo : Nat
  gen : Nat
  cores : List Nat
deriving DecidableEq, Repr

/-- The placement at which a load fails (R302): the address added to a shared object's link addresses, the address of
the context's stubs if it has none; with the frames of device memory and the names of the export table that the loader has
left. -/
structure LoadTry where
  vbase : Nat
  stub : Nat
  frames : Nat
  names : Nat
deriving DecidableEq, Repr

/-- Where the loader puts an object (R309, LOAD_NOMEM of R302): the address added to a shared object's
link addresses, the address of the context's stubs if it has none (R311), device frames for the pages and for
new page tables. -/
structure LoadPlan where
  vbase : Nat
  stub : Nat
  frames : List Nat
  tables : List Nat
deriving DecidableEq, Repr

/-- A command packet (R390): the queue it was taken from and its eight words. -/
structure Packet where
  q : Nat
  words : List Word
deriving DecidableEq, Repr

/-- An access of the companion processor to device memory (R397), or its read of a register of the window, whose
address is the register's offset (R385). -/
inductive HostAct
  | read (n : Nat)
  | write (data : List Byte)
  | readRegister
deriving DecidableEq, Repr

/-- What an access through a peer window does (R402, R403). -/
inductive PeerOp
  | load (n : Nat)
  | store (data : List Byte)
  | atomic (n : Nat) (op : Nat) (lanes : List (Nat × Nat))
deriving DecidableEq, Repr

/-- PEER traffic as this package sees it (R402): the remote checks' answer to a waiting group (the failing
lane and cause, or none), the remote performance of an access of this package, the answer to the copy line that is
next (the failing pointer and cause, or none, with the bytes read), or another package's access to this one, with the
rights that its import entry gives. The data of a performance are the bytes that a load read, or the old values that an
atomic found; none for these two, or some for a store, mean that the remote location was poisoned (R216). -/
inductive PeerAct
  | checked (gid : Nat) (fail : Option (Nat × BitVec 8))
  | performed (id part : Nat) (data : List Byte)
  | line (id : Nat) (fail : Option (Nat × BitVec 8)) (data : List Byte)
  | incoming (rctx eidx key off : Nat) (rights : Bool) (op : PeerOp)
deriving DecidableEq, Repr

/-- A link port (R396). -/
inductive Port
  | sill (n : BitVec 1)
  | ridge (n : BitVec 4)
deriving DecidableEq, Repr

/-- A firmware image or patch as the management port delivers it, with the public key of its slot (R413, R414). -/
structure FwImage where
  svn : BitVec 16
  key : List Byte
  keySlot : Nat
  gen : Nat
  body : List Byte
  signature : List Byte
deriving DecidableEq, Repr

/-- The parts of an SPDM request that R415 distinguishes. -/
structure SpdmReq where
  version : Nat
  slot : Nat
  signed : Bool
  index : Nat
  nonce : Nat
deriving DecidableEq, Repr

/-- One constructor for each row of spec/opcode_table.json, in its order. -/
inductive Instr
  /-- R99. Issues and does nothing else; NOP.uni issues on the uniform pipe. -/
  | nop (c : Ctl) (f : SY)
  /-- R100. Pushes a copy of its operand, or an immediate formed by R54 for TY. -/
  | pass (c : Ctl) (f : Q3)
  /-- R101. Pushes a constant built from IMM32 as FN and Z select. -/
  | ldi (c : Ctl) (f : QI)
  /-- R101. Pushes SA with one 32-bit word replaced by IMM32. -/
  | ldih (c : Ctl) (f : QI)
  /-- R102. Copies an age entry into a thread or group frame slot without pushing. -/
  | save (c : Ctl) (f : Q3)
  /-- R102. Pushes the contents of a frame slot onto an age file. -/
  | rest (c : Ctl) (f : Q3)
  /-- R103. Pushes the lane number, or a mask derived from it, as n32. -/
  | lane (c : Ctl) (f : Q3)
  /-- R104. Pushes one thread's age entry onto the uniform file. -/
  | unif (c : Ctl) (f : Q3)
  /-- R110. Branches the whole group to a relative target when the guard holds in an active thread. -/
  | bra (c : Ctl) (f : BR)
  /-- R110. Branches the whole group when a predicate meets the all, any, none or not-all test over AMASK. -/
  | brc (c : Ctl) (f : BR)
  /-- R113. Opens a divergence entry, splitting the active threads between fall-through and taken arms. -/
  | brd (c : Ctl) (f : BR)
  /-- R116. Closes the innermost divergence entry and reconciles age layouts by push count. -/
  | join (c : Ctl) (f : BR)
  /-- R117. Writes a call record to the call stack and enters the callee with a fresh age file. -/
  | call (c : Ctl) (f : BR)
  /-- R117. As CALL with the target taken from a g entry. -/
  | calli (c : Ctl) (f : BR)
  /-- R119. Returns to the caller, rebuilding its age and uniform files from the call record. -/
  | ret (c : Ctl) (f : BR)
  /-- R112. Decrements a group frame counter and branches while it is nonzero. -/
  | loop (c : Ctl) (f : BR)
  /-- R111. Branches the group to the address held in a g entry. -/
  | brx (c : Ctl) (f : BR)
  /-- R127. Ends each participating thread, removing it from EMASK, AMASK and open divergence masks. -/
  | exit (c : Ctl) (f : SY)
  /-- R121. Opens an idempotent region, latching entry state and the first n and m ages. -/
  | region (c : Ctl) (f : SY)
  /-- R128. Traps with BKPT, TPC at the next instruction and TADDR the immediate. -/
  | bkpt (c : Ctl) (f : SY)
  /-- R128. Traps with TRAP, TPC at the next instruction and TADDR the immediate. -/
  | trap (c : Ctl) (f : SY)
  /-- R125. Blocks until each outstanding-operation counter is at or below its limit. -/
  | wait (c : Ctl) (f : SY)
  /-- R126. Makes the group ineligible to issue for a number of cycles. -/
  | nap (c : Ctl) (f : SY)
  /-- R105. Compares two integers and writes a destination predicate. -/
  | pset (c : Ctl) (f : Q3)
  /-- R106. Computes a predicate from three predicates through a truth table. -/
  | plop (c : Ctl) (f : Q3)
  /-- R107. Pushes the predicates as a word, or sets selected predicates from a word. -/
  | pmov (c : Ctl) (f : Q3)
  /-- R108. Gathers a predicate over participating threads into a predicate or a pushed mask, count or first lane. -/
  | pgat (c : Ctl) (f : Q3)
  /-- R109. Pushes one of two operands as a predicate chooses. -/
  | sel (c : Ctl) (f : Q3)
  /-- R120. Writes frame slots f0 to f(k-1) to the call stack and advances CSTK. -/
  | fspill (c : Ctl) (f : ME)
  /-- R120. Lowers CSTK and reloads frame slots from the call stack. -/
  | ffill (c : Ctl) (f : ME)
  /-- R133. Pushes a + b, wrapped or saturated. -/
  | add (c : Ctl) (f : Q3)
  /-- R133. Pushes a - b, wrapped or saturated. -/
  | sub (c : Ctl) (f : Q3)
  /-- R133. Pushes a × b, wrapped or saturated. -/
  | mul (c : Ctl) (f : Q3)
  /-- R134. Pushes the high half of the exact product. -/
  | mulh (c : Ctl) (f : Q3)
  /-- R133. Pushes a × b + c, wrapped or saturated. -/
  | mad (c : Ctl) (f : Q3)
  /-- R134. Pushes a × b + c at double width. -/
  | madw (c : Ctl) (f : Q3)
  /-- R133. Pushes the smaller of two integers. -/
  | min (c : Ctl) (f : Q3)
  /-- R133. Pushes the larger of two integers. -/
  | max (c : Ctl) (f : Q3)
  /-- R135. Pushes the absolute value of a signed integer. -/
  | abs (c : Ctl) (f : Q3)
  /-- R135. Pushes the integer negation of a. -/
  | neg (c : Ctl) (f : Q3)
  /-- R135. Pushes the absolute difference of two integers. -/
  | adif (c : Ctl) (f : Q3)
  /-- R135. Pushes a clamped between b and c. -/
  | clamp (c : Ctl) (f : Q3)
  /-- R136. Pushes the integer quotient truncated toward zero, with defined division by zero. -/
  | div (c : Ctl) (f : Q3)
  /-- R136. Pushes the integer remainder carrying the sign of a. -/
  | rem (c : Ctl) (f : Q3)
  /-- R137. Adds or subtracts with carry or borrow carried in bit w. -/
  | addx (c : Ctl) (f : Q3)
  /-- R138. Pushes the bitwise AND. -/
  | and (c : Ctl) (f : Q3)
  /-- R138. Pushes the bitwise OR. -/
  | or (c : Ctl) (f : Q3)
  /-- R138. Pushes the bitwise XOR. -/
  | xor (c : Ctl) (f : Q3)
  /-- R138. Pushes a AND NOT b. -/
  | andn (c : Ctl) (f : Q3)
  /-- R138. Pushes the bitwise complement. -/
  | not (c : Ctl) (f : Q3)
  /-- R139. Shifts left, optionally saturating. -/
  | shl (c : Ctl) (f : Q3)
  /-- R139. Shifts right with zeros entering. -/
  | shr (c : Ctl) (f : Q3)
  /-- R139. Shifts right with copies of the sign bit entering. -/
  | sar (c : Ctl) (f : Q3)
  /-- R139. Rotates left by n mod w. -/
  | rol (c : Ctl) (f : Q3)
  /-- R140. Extracts a bit field and extends it. -/
  | bfe (c : Ctl) (f : Q3)
  /-- R140. Inserts a bit field of b into a. -/
  | bfi (c : Ctl) (f : Q3)
  /-- R138. Pushes the number of one bits. -/
  | popc (c : Ctl) (f : Q3)
  /-- R138. Pushes the number of leading zero bits. -/
  | clz (c : Ctl) (f : Q3)
  /-- R138. Pushes a with its bits reversed. -/
  | brev (c : Ctl) (f : Q3)
  /-- R141. Computes each result bit from a, b and c through a truth table. -/
  | btab (c : Ctl) (f : Q3)
  /-- R141. Builds each result byte from a selected byte of a and b. -/
  | bpik (c : Ctl) (f : Q3)
  /-- R142. Pushes four 8-bit dot products accumulated into 32-bit lanes. -/
  | dot4 (c : Ctl) (f : Q3)
  /-- R142. Pushes four 16-bit dot products accumulated into 32-bit lanes. -/
  | dot2 (c : Ctl) (f : Q3)
  /-- R143. Rescales four i32 values into a narrow integer type with rounding and zero point. -/
  | rqs (c : Ctl) (f : Q3)
  /-- R144. Q3 form: adds a register offset shifted by s to a pointer's offset field. -/
  | leaReg (c : Ctl) (f : Q3)
  /-- R144. QI form: adds an extended 32-bit immediate shifted by s to a pointer's offset field. -/
  | leaImm (c : Ctl) (f : QI)
  /-- R145. Builds a tagged pointer of a chosen space. -/
  | ptag (c : Ctl) (f : Q3)
  /-- R146. Pushes a field of a pointer or whether it is well formed. -/
  | pfld (c : Ctl) (f : Q3)
  /-- R148. Pushes the rounded floating-point sum. -/
  | fadd (c : Ctl) (f : Q3)
  /-- R148. Pushes the rounded floating-point difference. -/
  | fsub (c : Ctl) (f : Q3)
  /-- R148. Pushes the rounded floating-point product. -/
  | fmul (c : Ctl) (f : Q3)
  /-- R148. Pushes a × b + c rounded once. -/
  | fma (c : Ctl) (f : Q3)
  /-- R151. Pushes the floating-point minimum under the selected NaN rule. -/
  | fmin (c : Ctl) (f : Q3)
  /-- R151. Pushes the floating-point maximum under the selected NaN rule. -/
  | fmax (c : Ctl) (f : Q3)
  /-- R152. Compares floating-point values and writes a predicate. -/
  | fcmp (c : Ctl) (f : Q3)
  /-- R153. Sets a predicate when the class of a is in a mask. -/
  | fcls (c : Ctl) (f : Q3)
  /-- R149. Pushes the rounded reciprocal. -/
  | frcp (c : Ctl) (f : Q3)
  /-- R149. Pushes the rounded reciprocal square root. -/
  | frsq (c : Ctl) (f : Q3)
  /-- R149. Pushes the rounded square root. -/
  | fsqrt (c : Ctl) (f : Q3)
  /-- R149. Pushes the rounded quotient. -/
  | fdiv (c : Ctl) (f : Q3)
  /-- R150. Pushes a faithfully rounded 2^a. -/
  | fex2 (c : Ctl) (f : Q3)
  /-- R150. Pushes a faithfully rounded log2 a. -/
  | flg2 (c : Ctl) (f : Q3)
  /-- R150. Pushes a faithfully rounded sin(π a). -/
  | fsin (c : Ctl) (f : Q3)
  /-- R150. Pushes a faithfully rounded cos(π a). -/
  | fcos (c : Ctl) (f : Q3)
  /-- R150. Pushes a faithfully rounded tanh a. -/
  | ftnh (c : Ctl) (f : Q3)
  /-- R154. Pushes a × 2^b rounded once. -/
  | fscl (c : Ctl) (f : Q3)
  /-- R155. Rounds a to an integral value of the same type. -/
  | frnd (c : Ctl) (f : Q3)
  /-- R156. Pushes four f32 pair dot products accumulated into c, rounded once. -/
  | fdot2 (c : Ctl) (f : Q3)
  /-- R157. Converts elements between scalar or packed types. -/
  | cvt (c : Ctl) (f : Q3)
  /-- R161. Encodes or decodes a block-format block across the group. -/
  | cvtb (c : Ctl) (f : Q3)
  /-- R159. Converts between floating-point values and normalised integers. -/
  | cvtu (c : Ctl) (f : Q3)
  /-- R162. Narrows two entries into one packed entry. -/
  | pack (c : Ctl) (f : Q3)
  /-- R164. Exchanges entries between lanes of one group and writes a predicate. -/
  | lxch (c : Ctl) (f : Q3)
  /-- R165. Reduces over participating threads and pushes the result to each. -/
  | redg (c : Ctl) (f : Q3)
  /-- R166. Forms inclusive or exclusive prefixes over participating threads. -/
  | scan (c : Ctl) (f : Q3)
  /-- R167. Extracts one element of a packed entry as a scalar. -/
  | vext (c : Ctl) (f : Q3)
  /-- R167. Replaces one element of a packed entry. -/
  | vins (c : Ctl) (f : Q3)
  /-- R167. Permutes elements of two entries by byte selectors. -/
  | vperm (c : Ctl) (f : Q3)
  /-- R167. Broadcasts one element or a scalar into every element. -/
  | vsplt (c : Ctl) (f : Q3)
  /-- R174. Joins the group to its gang and waits until the gang is formed and tiles granted. -/
  | gang (c : Ctl) (f : SY)
  /-- R175. GANG #0: waits for delivered operations to be performed, clears GANGREG and leaves the gang. -/
  | gangLeave (c : Ctl) (f : SY)
  /-- R179. Delivers one member's part of the gang's next joint matrix operation to the rendezvous latch. -/
  | mma (c : Ctl) (f : MX)
  /-- R181. Queues the clearing of a tile's extent. -/
  | mmz (c : Ctl) (f : MX)
  /-- R183. Queues a load of a tile's extent from scratchpad with exact widening. -/
  | mmld (c : Ctl) (f : MX)
  /-- R184. Queues a store of a tile's extent to scratchpad with conversion. -/
  | mmst (c : Ctl) (f : MX)
  /-- R185. Pushes, pending, four words of a tile row for each participating thread. -/
  | mmrd (c : Ctl) (f : MX)
  /-- R186. Pushes a snapshot of the engine's view of the gang. -/
  | mmstat (c : Ctl) (f : SY)
  /-- R207. Loads bytes in each participating lane and pushes them pending. -/
  | ld (c : Ctl) (f : ME)
  /-- R209. Stores bytes in each participating lane with global acknowledgement or early forwarding. -/
  | st (c : Ctl) (f : ME)
  /-- R208. Loads like LD but reads zero from sparse pages. -/
  | ldz (c : Ctl) (f : ME)
  /-- R210. Performs an atomic read-modify-write and pushes the old value. -/
  | atom (c : Ctl) (f : ME)
  /-- R210. Performs an atomic read-modify-write without pushing. -/
  | atomn (c : Ctl) (f : ME)
  /-- R212. Compares and swaps, pushing the old value. -/
  | cas (c : Ctl) (f : ME)
  /-- R240. Waits until earlier accesses meet the release conditions at its scope, then lets later accesses issue. -/
  | fence (c : Ctl) (f : ME)
  /-- R381. Takes a block from a pool by die affinity and pushes its pointer and status. -/
  | alloc (c : Ctl) (f : ME)
  /-- R382. Checks and returns blocks to their home bents' pool lists. -/
  | free (c : Ctl) (f : ME)
  /-- R372. Commits a sparse page with a zeroed frame from the commit pool and pushes a status. -/
  | pcommit (c : Ctl) (f : ME)
  /-- R373. Returns a committed page to the sparse state and its frame to the pool. -/
  | pdecommit (c : Ctl) (f : ME)
  /-- R375. Walks the page tables and pushes a description of the leaf entry. -/
  | pquery (c : Ctl) (f : ME)
  /-- R253. Queues a lane copy of one piece per participating lane. -/
  | cpyl (c : Ctl) (f : CP)
  /-- R256. Queues a tensor box copy described by a layout record and pushes a token. -/
  | cpyt (c : Ctl) (f : CP)
  /-- R259. Places a join entry in every named copy queue. -/
  | cpyfJoin (c : Ctl) (f : CP)
  /-- R259. Places an entry that sets or clears a queue's barrier binding. -/
  | cpyfBar (c : Ctl) (f : CP)
  /-- R258. Places an entry that binds or unbinds a queue's completion ring. -/
  | cpyfCring (c : Ctl) (f : CP)
  /-- R259. Retries the faulting line of a FAULTED copy at the head of a queue and pushes a token. -/
  | cpyrResume (c : Ctl) (f : CP)
  /-- R259. Cancels a FAULTED copy at the head of a queue and lets the queue proceed. -/
  | cpyrSkip (c : Ctl) (f : CP)
  /-- R265. Initialises a ring header, breaking pending entries on the old ring. -/
  | rinit (c : Ctl) (f : CP)
  /-- R265. Reserves k granules for the producer and pushes a pending span. -/
  | rclm (c : Ctl) (f : CP)
  /-- R265. Commits a claimed span, releasing earlier accesses and advancing the visible tail. -/
  | rcmt (c : Ctl) (f : CP)
  /-- R265. Releases earlier accesses and places a ring commit in a copy queue, pushing a pending entry. -/
  | rcmtQ (c : Ctl) (f : CP)
  /-- R265. Reserves k granules for the consumer and pushes a pending span. -/
  | rawt (c : Ctl) (f : CP)
  /-- R265. Retires a held span, releasing its granules to the producer. -/
  | rret (c : Ctl) (f : CP)
  /-- R268. Subscribes the bent's loader as producer or storer as consumer of a ring. -/
  | rsub (c : Ctl) (f : CP)
  /-- R265. Moves a ring to CLOSING or CLOSED. -/
  | rclose (c : Ctl) (f : CP)
  /-- R276. Initialises, reinitialises or retires a barrier at a level, optionally with a parent. -/
  | binit (c : Ctl) (f : CP)
  /-- R276. Arrives n times at a barrier with a release and pushes a token. -/
  | barv (c : Ctl) (f : CP)
  /-- R276. Pushes an entry pending until the barrier phase of a token completes. -/
  | bwait (c : Ctl) (f : CP)
  /-- R276. Arrives at a barrier and waits for the phase to complete. -/
  | barw (c : Ctl) (f : CP)
  /-- R276. Announces bytes that copies will count on a barrier. -/
  | bexp (c : Ctl) (f : CP)
  /-- R294. Binds or unbinds an event binding to a source and handler. -/
  | evbind (c : Ctl) (f : CP)
  /-- R295. Sets, ORs or clears bits of the binding mask. -/
  | evmask (c : Ctl) (f : CP)
  /-- R296. Dispatches the most urgent eligible binding of a list, waiting until one exists. -/
  | evwait (c : Ctl) (f : CP)
  /-- R297. Pushes which listed bindings are pending and which would dispatch, without waiting. -/
  | evpoll (c : Ctl) (f : CP)
  /-- R298. Latches a SOFT binding of the own group or of a group named by handle. -/
  | evraise (c : Ctl) (f : CP)
  /-- R295. Clears latched edge bits. -/
  | evclr (c : Ctl) (f : CP)
  /-- R300. Releases and hands messages to the event router for groups named by handle, pushing pending statuses. -/
  | msend (c : Ctl) (f : CP)
  /-- R301. Removes the oldest mailbox message, optionally waiting while empty. -/
  | mrecv (c : Ctl) (f : CP)
  /-- R332. Appends threads with their arguments to spawn bins keyed by slice and entry. -/
  | spawn (c : Ctl) (f : CP)
  /-- R335. Refills the team budget and saves the team when a preceding candidate needs its cluster. -/
  | yield (c : Ctl) (f : CP)
  /-- R348. Pushes the value of a system register. -/
  | srd (c : Ctl) (f : SY)
  /-- R348. Writes a system register from a g entry. -/
  | swr (c : Ctl) (f : SY)
  /-- R348. Leaves a trap handler, restoring state from the trap record and resuming at TPC. -/
  | tret (c : Ctl) (f : SY)
  /-- R348. Masks traps and marks the group as in a handler. -/
  | tmaskMask (c : Ctl) (f : SY)
  /-- R348. Unmasks traps, delivers held traps and lets a held pre-emption proceed. -/
  | tmaskUnmask (c : Ctl) (f : SY)
  /-- R348. Sets a segment base and limit register. -/
  | segset (c : Ctl) (f : SY)
  /-- R369. Turns page written bits into D bits over a range and pushes the count. -/
  | harvest (c : Ctl) (f : SY)
  /-- R368. Invalidates translations of a range or raises the generation, then retries suspended faults. -/
  | tinv (c : Ctl) (f : SY)
  /-- R315. Invalidates instruction-cache lines of a range or of the context after earlier stores are performed. -/
  | icinv (c : Ctl) (f : SY)
  /-- R348. Fires the package's common snapshot trigger with a tag. -/
  | snapt (c : Ctl) (f : SY)
  /-- R348. After an armed single step, the group traps with STEP once the stepped instruction completes. -/
  | step (gid : Nat)
  /-- R79. A waiting group's awaited condition holds; WREASON clears and the blocked instruction completes. -/
  | groupWake (gid : Nat)
  /-- R83. Data of a pending load, atomic or engine read arrives and fills its entry or is discarded. -/
  | loadDataArrive (id part : Nat)
  /-- R80. When the exit drain ends with all counters zero, the group retires and frees its slot. -/
  | exitRetire (gid : Nat)
  /-- R123. A group suspended by PFAULT restarts at its region entry from its latches once the page is served. -/
  | regionRestart (gid : Nat)
  /-- R364. A translation miss walks the page tables, sets A and fills a translation. -/
  | tlbWalk (ctx cl page : Nat)
  /-- R236. The home gives a store its place in coherence order. -/
  | storeOrder (id : Nat)
  /-- R232. An ST.f becomes readable by every observer of the storing bent. -/
  | storeForward (id : Nat)
  /-- R231. A store is globally performed and its acknowledgement reaches the core. -/
  | storeAcknowledge (id : Nat)
  /-- R213. A combined atomic request is performed at the location's ordering point in lane order. -/
  | atomicPerform (id : Nat)
  /-- R237. The mesh reports a tower or link on a store's path down and the store is declared lost. -/
  | storeLossPathDown (id : Nat)
  /-- R237. A store's acknowledgement outstanding for 65,536 cycles is declared lost. -/
  | storeAckTimeout (id : Nat)
  /-- R238. WDOG cycles after a loss without a covering instruction, ACKLOST is delivered asynchronously. -/
  | acklostExpire (id : Nat)
  /-- R126. A nap's cycle count runs out and the group becomes eligible to issue. -/
  | napExpiry (gid : Nat)
  /-- R358. A wait's watchdog count reaches PERIOD and the group takes WDOG asynchronously. -/
  | wdog (gid : Nat)
  /-- R329. A team's remaining budget reaches zero and every group takes BUDGET. -/
  | budget (ctx team : Nat)
  /-- R173. Tiles awaited by a fully joined gang become free and are granted, completing the members' GANG. -/
  | gangTileGrant (gang : Nat)
  /-- R179. The engine finishes a complete joint operation, updating the tile, CTL and DONE. -/
  | jointOpPerform (gang : Nat)
  /-- R187. An MMZ, MMLD, MMST or MMRD is performed by the engine and stops counting. -/
  | tileOpPerform (gang id : Nat)
  /-- R248. A copy reaches the head of its queue and its reads begin. -/
  | copyStart (id : Nat)
  /-- R253. One line operation of a copy is performed. -/
  | copyLine (id : Nat)
  /-- R250. A copy's writes are globally performed and it reports by barrier count, record, token and event. -/
  | copyCompletion (id : Nat)
  /-- R259. All queues named by a join entry reach it and proceed together. -/
  | copyJoinRelease (id : Nat)
  /-- R265. A pending claim is granted once space and the commit window allow. -/
  | ringClaimGrant (id : Nat)
  /-- R265. A pending await resolves when the visible tail covers it, or with END on a closed ring. -/
  | ringAwaitResolve (id : Nat)
  /-- R265. A copy queue performs a queued ring commit after its earlier entries. -/
  | ringQueuedCommit (id : Nat)
  /-- R268. The bent's loader claims, fills and commits one box of a subscription. -/
  | loaderBox (id : Nat)
  /-- R268. The bent's storer awaits, writes to the tensor and retires one box of a subscription. -/
  | storerBox (id : Nat)
  /-- R277. A parent's release reaches a raised child barrier and completes its phase. -/
  | barrierParentRelease (child : Loc)
  /-- R278. Loss of a combiner slot, mesh link or tower breaks the barrier and its tree. -/
  | barrierCombinerLost (bar : Loc)
  /-- R282. A TIMER binding's period elapses and its edge is latched. -/
  | timerEdge (gid : Nat) (n : BitVec 4)
  /-- R288. A woken EVWAIT dispatches an eligible binding, pushing number and payload and jumping to its handler. -/
  | eventDispatch (gid : Nat)
  /-- R300. The event router writes a message into a target mailbox when room exists, or reports NOGROUP. -/
  | mailDeliver (id : Nat)
  /-- R332. A bin's timer counts SPT cycles and moves its fill stage to the launch stage. -/
  | spawnBinTimer (bin : Nat)
  /-- R333. A launch stage launches as one group once a slot is free. -/
  | spawnBinLaunch (bin : Nat) (p : Placement)
  /-- R328. A cluster scheduler selects and places the next candidate team. -/
  | teamPlace (cl : Nat) (p : Placement)
  /-- R324. A slice's deadline passes on a cluster and it becomes OVERDUE there. -/
  | deadlineExpire (cl ctx seq : Nat)
  /-- R408. At the end of each 1,024-cycle period the power manager updates the headroom level H. -/
  | powerPeriod (bent : BitVec 3) (watts : Nat) (hot : Bool)
  /-- R336. The control processor grants a partition to a context and restores or starts its work. -/
  | partitionGrant (ctx : Nat) (clusters : List Nat) (cores : List (Nat × Nat))
  /-- R337. A draining context has no resident or yielded group and frees its partition. -/
  | contextDrained (ctx : Nat)
  /-- R352. Every group has halted and state reaches shadow storage; the context becomes SAVED. -/
  | contextHalted (ctx : Nat)
  /-- R351. The soft pre-emption timer expires and the request escalates to hard. -/
  | softTimeout (ctx : Nat)
  /-- R352. The hard pre-emption timer expires and the context is forcibly reset. -/
  | hardTimeout (ctx : Nat)
  /-- R354. A forced reset finishes and the context becomes IDLE or ABSENT. -/
  | resetDone (ctx : Nat)
  /-- R309. A load finishes checking, relocates, initialises linkage and becomes READY. -/
  | loadComplete (ctx obj : Nat) (plan : LoadPlan)
  /-- R302. A load fails a check at the placement that the loader chose, and the object is removed with its status. -/
  | loadReject (ctx obj : Nat) (tried : LoadTry)
  /-- R309. No team launched before an Unload remains; linkage is reset and the object freed. -/
  | codeObjectDrained (ctx obj : Nat)
  /-- R379. The unexpected loss of a tower acts as a forced offline that evacuates nothing. -/
  | towerLoss (bent : BitVec 3)
  /-- R387. A host write of ADMQ reads a descriptor and starts the admin queue. -/
  | admqWrite (v : Word)
  /-- R388. A doorbell write sets a queue's tail and makes packets eligible. -/
  | doorbell (q : Nat) (tail : BitVec 32)
  /-- R412. A write of PCSEL selects counter events and zeroes every counter. -/
  | pcselWrite (v : Word)
  /-- R411. Writing 1 to VALID clears the snapshot record's VALID and LOST. -/
  | snapValidClear
  /-- R385. A write to a host-visible register with no behaviour of its own. -/
  | registerWrite (off : Nat) (v : Word)
  /-- R390. The NOP packet completes with result 0. -/
  | nopPacket (p : Packet)
  /-- R390. Creates a context from an address-space record and root region. -/
  | ctxnew (p : Packet)
  /-- R390. Destroys a context. -/
  | ctxdel (p : Packet)
  /-- R386. Creates a command queue from a descriptor. -/
  | qnew (p : Packet)
  /-- R392. Deletes a command queue after it drains. -/
  | qdel (p : Packet)
  /-- R302. Starts loading a code object into the context. -/
  | load (p : Packet)
  /-- R309. Starts draining a loaded code object. -/
  | unload (p : Packet)
  /-- R322. Creates a slice of a kernel and reports acceptance, then its end. -/
  | launch (p : Packet)
  /-- R349. Requests soft or hard pre-emption of the context with timers. -/
  | preempt (p : Packet)
  /-- R390. Invalidates translations of a range or raises the generation, as TINV. -/
  | tinvq (p : Packet)
  /-- R390. Adds checked frames to a context's commit pool lists. -/
  | poolAdd (p : Packet)
  /-- R390. Removes frames from a context's commit pool into an array. -/
  | poolTake (p : Packet)
  /-- R376. Retries the walk of a group suspended on a fault. -/
  | retry (p : Packet)
  /-- R377. Moves a device page or run to a frame on another bent. -/
  | migrate (p : Packet)
  /-- R378. Takes a bent offline, evacuating its pages, forced or unforced. -/
  | offline (p : Packet)
  /-- R390. After earlier packets end, stores a value with a release at .sys. -/
  | signal (p : Packet)
  /-- R390. Blocks the queue until a memory word meets a condition. -/
  | waitmem (p : Packet)
  /-- R395. Writes the live entity state at one instant and journals a marker. -/
  | census (p : Packet)
  /-- R391. A packet of unknown KIND completes with BADKIND. -/
  | badkind (p : Packet)
  /-- R392. A blocked queue's AFTER or WAITMEM condition holds and the packet is taken. -/
  | queueUnblock (q : Nat)
  /-- R397. A companion-processor access to device memory is ordered at the line's home. -/
  | hostAccess (addr : Nat) (act : HostAct)
  /-- R402. A PEER access is checked and performed at the remote package and reported back. -/
  | peerRemoteAccess (act : PeerAct)
  /-- R396. A flit that fails its CRC is replayed from the sender's buffer. -/
  | flitReplay (port : Port) (replays : Nat)
  /-- R399. A training attempt succeeds and the port comes UP. -/
  | trainOk (port : Port)
  /-- R399. A training attempt fails; the port retries or is fenced. -/
  | trainFail (port : Port)
  /-- R399. A port retraining for 65,536 cycles is fenced. -/
  | retrainTimeout (port : Port)
  /-- R398. After a route's UP set changes, held accesses proceed once earlier ones are performed. -/
  | routeHoldRelease (did : BitVec 5)
  /-- R409. Standby power arrives and the security controller runs its boot ROM. -/
  | standbyOn
  /-- R409. Loss of standby power loses all state. -/
  | standbyOff
  /-- R409. Main power arrives and firmware authentication starts. -/
  | mainOn
  /-- R409. Loss of main power returns the package to STANDBY. -/
  | mainOff
  /-- R413. Firmware authentication succeeds and bring-up training starts. -/
  | authOk
  /-- R413. No firmware image is accepted and the package fails. -/
  | authFail
  /-- R409. Bring-up training finishes and the package becomes READY. -/
  | trainDone
  /-- R409. Bring-up training fails and the package enters FAILED. -/
  | bootTrainFail
  /-- R410. An MCTP control message is answered on the management port. -/
  | mctpControl
  /-- R410. Returns package state, failure cause, active slot and SVN. -/
  | status
  /-- R410. Sets the package's domain identifier. -/
  | setdid (did : BitVec 8)
  /-- R410. Sets the route mask for one domain identifier. -/
  | setroute (did : BitVec 8) (mask : BitVec 16)
  /-- R399. Enables a port, starting training. -/
  | linkEnable (port : Port)
  /-- R399. Fences a port. -/
  | linkFence (port : Port)
  /-- R399. Unfences a port, starting training. -/
  | linkUnfence (port : Port)
  /-- R399. Disables a port. -/
  | linkDisable (port : Port)
  /-- R410. Takes a bent offline as the OFFLINE packet does. -/
  | mgmtOffline (bent : BitVec 8) (force : Bool)
  /-- R408. Sets one bent's power cap. -/
  | bcap (bent : BitVec 8) (watts : Nat)
  /-- R411. Fires the common snapshot trigger with a tag. -/
  | snap (tag : BitVec 16)
  /-- R410. Reads the snapshot record and clears VALID. -/
  | snapread
  /-- R413. Writes a firmware image to the inactive slot after checking it. -/
  | fwstage (img : FwImage)
  /-- R409. Raises the Reset event, returning the package to BOOT. -/
  | mgmtReset
  /-- R414. Authenticates an expansion patch and marks it pending. -/
  | patch (img : FwImage)
  /-- R410. Raises the fused minimum SVN to the active image's. -/
  | fwcommit
  /-- R415. SPDM request answered with the supported versions. -/
  | getVersion (r : SpdmReq)
  /-- R415. SPDM request answered with the responder's capabilities. -/
  | getCapabilities (r : SpdmReq)
  /-- R415. SPDM request negotiating ECDSA P-384 with SHA-384. -/
  | negotiateAlgorithms (r : SpdmReq)
  /-- R415. SPDM request answered with certificate chain digests. -/
  | getDigests (r : SpdmReq)
  /-- R415. SPDM request answered with the slot 0 certificate chain. -/
  | getCertificate (r : SpdmReq)
  /-- R415. SPDM request answered with a signed challenge response. -/
  | challenge (r : SpdmReq)
  /-- R415. SPDM request answered with signed measurements. -/
  | getMeasurements (r : SpdmReq)
  /-- R415. Any other SPDM request receives ERROR UnsupportedRequest. -/
  | spdmUnsupportedRequest (r : SpdmReq)
  /-- R216. An uncorrectable soft error in device memory or a scratchpad poisons the affected location, so that later
  uses of its data fault with POISON. -/
  | uncorrectableSoftError (loc : Loc)
  /-- R397. A companion-processor write to a host memory line arrives at its Sill port, which invalidates every L1 copy
  the line filter records and then orders the write. -/
  | companionHostLineWrite (line : Nat) (data : List Byte)
deriving DecidableEq, Repr

end Sys2Proof
end

