-- ==== Sys2Proof/Config.lean ====
section
/-! DEFINITION. What the manual leaves open: opaque constants that nothing can evaluate. Each is applied
to what it may depend on, or to the counter `fresh` of the state. A statement about one holds for every
value. -/

namespace Sys2Proof.Config

/-- R150: which of the two neighbours of the exact result a faithfully rounded function returns; it
depends on the function, the type and the operand only. True picks the upper one. -/
opaque elemUpper : Nat → Nat → Nat → Bool

/-- R69, R316: whether a fetch that finds a stale instruction line returns the new word. -/
opaque fetchNew : Nat → Bool

/-- R366: whether an access that finds a stale translation uses the new entry. -/
opaque transNew : Nat → Bool

/-- R324: at which cycle of the bring-up a cluster powers up. -/
opaque cycStart : Nat → Nat → Nat

/-- R355: where the save area of a context's rank lies in device memory. -/
opaque saveArea : Nat → Nat → Nat

/-- R413: the fused hash of a key slot's public key. -/
opaque fusedHash : Nat → List (BitVec 8)

/-- R415: the DeviceID key, derived from the fused secret; the alias key, derived from that secret and measurements 1
and 2. -/
opaque deviceIdKey : List (BitVec 8)
opaque aliasKey : List Nat → List Nat → List (BitVec 8)

/-- R415: what measurement 1 measures, the security controller's firmware; the expansion table of the generation, which
patches change. -/
opaque controllerFirmware : List Nat
opaque baseTable : List Nat

/-- R415: the bytes of an SPDM response, its signatures and certificates among them, by the request, its parameters
with what it reports, and the controller's keys. -/
opaque identityBytes : Nat → List Nat → List (BitVec 8) → List (BitVec 8)

/-- R410: the bytes that answer an MCTP control message. -/
opaque mctpBytes : Nat → List (BitVec 8)

/-- R385: where the journal ring lies. -/
opaque journalBase : BitVec 64

/-- R394, R400: the JKIND of the record of a port's transition into FENCED, with its payload. -/
opaque fencedKind : Nat
opaque fencedPayload : Nat → List Nat

/-- R378: the frames of the evacuation reserve and of the host evacuation reserve. -/
opaque evacFrames : List Nat
opaque hostFrames : List Nat

/-- R379, R394: where the reserve holds the list of a context's stranded pages, and its entry for a page. -/
opaque strandList : Nat → BitVec 64
opaque strandEntry : Nat → BitVec 64

/-- R395: the codes of a census entry, which the manual does not number: an entity's type, and a state of its table, by
its place there. -/
opaque censusType : Nat → BitVec 8
opaque censusState : Nat → Nat → BitVec 8

/-- A value that the manual leaves open: applied to the counter `fresh` of the state. -/
opaque freeQuad : Nat → BitVec 128

/-- R173: a word of a tile whose contents a kill lost, by the kill and the word. -/
opaque tileWord : Nat → Nat → BitVec 32

end Sys2Proof.Config
end

