-- ==== Sys2Proof/WellFormed.lean ====
section
/-! DEFINITION. Check 2 of R62: every field of an instruction holds a legal code, unused and reserved
fields are zero (R52), the uniform bit and the guard agree with R50 and the U column of R64. -/

namespace Sys2Proof

/-- System registers (R65). -/
inductive SReg
  | tid | lane | gidx | team | nteam | ngrp | rank | bent | core | ghandle | cyc
  | emask | amask | mode | flags | gangreg | engstat | headrm | evpend | evmaskr
  | cstk | cslim | tcause | tpc | taddr | trgn | tvec
  | seg (n : Nat) | segl (n : Nat)
  | wreason | wdog | slice | budget | deadln
deriving DecidableEq, Repr

/-- The register an SREG number names (R65). -/
def SReg.ofNum (n : Nat) : Option SReg :=
  match n with
  | 0x000 => some .tid | 0x001 => some .lane | 0x002 => some .gidx | 0x003 => some .team
  | 0x004 => some .nteam | 0x005 => some .ngrp | 0x006 => some .rank | 0x007 => some .bent
  | 0x008 => some .core | 0x009 => some .ghandle | 0x00A => some .cyc
  | 0x00B => some .emask | 0x00C => some .amask | 0x010 => some .mode | 0x011 => some .flags
  | 0x012 => some .gangreg | 0x013 => some .engstat | 0x014 => some .headrm
  | 0x020 => some .evpend | 0x021 => some .evmaskr | 0x030 => some .cstk | 0x031 => some .cslim
  | 0x040 => some .tcause | 0x041 => some .tpc | 0x042 => some .taddr | 0x043 => some .trgn
  | 0x044 => some .tvec
  | 0x050 => some (.seg 0) | 0x051 => some (.seg 1) | 0x052 => some (.seg 2) | 0x053 => some (.seg 3)
  | 0x054 => some (.segl 0) | 0x055 => some (.segl 1) | 0x056 => some (.segl 2) | 0x057 => some (.segl 3)
  | 0x060 => some .wreason | 0x061 => some .wdog
  | 0x070 => some .slice | 0x071 => some .budget | 0x072 => some .deadln
  | _ => none

/-- SWR of the register is encodable: the R65 column does not say ILLFLD. -/
def SReg.writable : SReg → Bool
  | .mode | .flags | .cstk | .cslim | .tcause | .tpc | .taddr | .trgn | .tvec
  | .wdog | .slice | .budget | .deadln => true
  | _ => false

/-- SWR of the register is privileged (R65, R66). -/
def SReg.privileged : SReg → Bool
  | .tcause | .tpc | .taddr | .trgn | .tvec | .slice | .budget | .deadln => true
  | _ => false

/-- SRD of the register exists with U = 1 (R65). -/
def SReg.uniformOk : SReg → Bool
  | .tid | .lane => false
  | _ => true

/-- The raw number of a source field, for the fields that hold a number (R56, R106). -/
def Src.num : Src → Nat
  | .a k => k.toNat
  | .g k => 16 + k.toNat

def Src.isG : Src → Bool
  | .a _ => false
  | .g _ => true

/-- The field is zero (R52). -/
def Src.zero (x : Src) : Bool := x == .a 0

/-! ### Classes of types (R60, R131) -/

def Ty.isSI : Ty → Bool
  | .i8 | .n8 | .i16 | .n16 | .i32 | .n32 | .i64 | .n64 => true
  | _ => false

def Ty.isPI : Ty → Bool
  | .i8x16 | .n8x16 | .i16x8 | .n16x8 | .i32x4 | .n32x4 => true
  | _ => false

def Ty.isSF : Ty → Bool
  | .f16 | .bf16 | .f32 | .f64 => true
  | _ => false

def Ty.isPF : Ty → Bool
  | .f16x8 | .bf16x8 | .f32x4 | .f64x2 => true
  | _ => false

def Ty.isInt (t : Ty) : Bool := t.isSI || t.isPI
def Ty.isFp (t : Ty) : Bool := t.isSF || t.isPF
def Ty.isF8x16 (t : Ty) : Bool := t == .e4m3x16 || t == .e5m2x16
def Ty.isBlock (t : Ty) : Bool := t == .k4 || t == .mx4 || t == .mx8a || t == .mx8b

/-- Signed integer types (R20). -/
def Ty.signed : Ty → Bool
  | .i8 | .i16 | .i32 | .i64 | .i8x16 | .i16x8 | .i32x4 => true
  | _ => false

/-- Element width in bits (R20, R22). -/
def Ty.width : Ty → Nat
  | .i8 | .n8 | .i8x16 | .n8x16 | .e4m3 | .e5m2 | .e4m3x16 | .e5m2x16 | .mx8a | .mx8b => 8
  | .i16 | .n16 | .i16x8 | .n16x8 | .f16 | .bf16 | .f16x8 | .bf16x8 => 16
  | .i32 | .n32 | .i32x4 | .n32x4 | .f32 | .f32x4 => 32
  | .i64 | .n64 | .f64 | .f64x2 => 64
  | .e2m1 | .k4 | .mx4 => 4
  | .b128 => 128

/-- Elements in an entry: 1 for a scalar (R20, R130). -/
def Ty.count : Ty → Nat
  | .i8x16 | .n8x16 | .e4m3x16 | .e5m2x16 => 16
  | .i16x8 | .n16x8 | .f16x8 | .bf16x8 => 8
  | .i32x4 | .n32x4 | .f32x4 => 4
  | .f64x2 => 2
  | _ => 1

def Ty.isPacked (t : Ty) : Bool := t.count != 1

/-- The TY code of R60. -/
def Ty.code : Ty → BitVec 5
  | .i8 => 0 | .n8 => 1 | .i16 => 2 | .n16 => 3 | .i32 => 4 | .n32 => 5 | .i64 => 6 | .n64 => 7
  | .f16 => 8 | .bf16 => 9 | .f32 => 10 | .f64 => 11 | .e4m3 => 12 | .e5m2 => 13 | .e2m1 => 14 | .b128 => 15
  | .i8x16 => 16 | .n8x16 => 17 | .i16x8 => 18 | .n16x8 => 19 | .i32x4 => 20 | .n32x4 => 21
  | .f16x8 => 22 | .bf16x8 => 23 | .f32x4 => 24 | .f64x2 => 25 | .e4m3x16 => 26 | .e5m2x16 => 27
  | .k4 => 28 | .mx4 => 29 | .mx8a => 30 | .mx8b => 31

/-- The type a TY code names (R60). -/
def Ty.ofCode (c : BitVec 5) : Ty :=
  match c.toNat with
  | 0 => .i8 | 1 => .n8 | 2 => .i16 | 3 => .n16 | 4 => .i32 | 5 => .n32 | 6 => .i64 | 7 => .n64
  | 8 => .f16 | 9 => .bf16 | 10 => .f32 | 11 => .f64 | 12 => .e4m3 | 13 => .e5m2 | 14 => .e2m1
  | 15 => .b128 | 16 => .i8x16 | 17 => .n8x16 | 18 => .i16x8 | 19 => .n16x8 | 20 => .i32x4
  | 21 => .n32x4 | 22 => .f16x8 | 23 => .bf16x8 | 24 => .f32x4 | 25 => .f64x2 | 26 => .e4m3x16
  | 27 => .e5m2x16 | 28 => .k4 | 29 => .mx4 | 30 => .mx8a | _ => .mx8b

/-! ### The guard and the U column (R50, R64) -/

/-- The U column of R64. -/
inductive UCol
  | zero | one | both
deriving DecidableEq, Repr

/-- R50, with `guard` false for the instructions that R97 forbids a guard. -/
def Ctl.ok (c : Ctl) (u : UCol) (guard : Bool := true) : Bool :=
  (match u with | .zero => !c.u | .one => c.u | .both => true) &&
  !(c.u && c.ge) && (c.ge || (c.gp == 0 && !c.gs)) && (guard || !c.ge)

/-- A used source agrees with U (R51); an unused one is zero (R52). -/
def srcOk (c : Ctl) (used : Bool) (x : Src) : Bool :=
  if used then !c.u || x.isG else x.zero

/-- R54: the type has an immediate form and IMM16 is legal for it. -/
def immOk (t : Ty) (v : BitVec 16) : Bool :=
  if t == .i8x16 || t == .n8x16 then
    bitsOf v 15 8 == (if bitAt v 7 then 0xFF else 0)
  else t.isInt || t.isFp

/-- R54: an index immediate has [15:8] zero. -/
def indexImmOk (v : BitVec 16) : Bool := v.toNat < 256

/-- What a Q3 instruction accepts (R53, R131). Fields left out of a rule must be zero. -/
structure Q3Rule where
  u : UCol := .both
  guard : Bool := true
  ty : Ty → Bool
  sa : Bool := true
  sb : Bool := false
  sc : Bool := false
  /-- legality of the immediate form -/
  imm : Ty → BitVec 16 → Bool := fun _ _ => false
  rm : Bool := false
  sat : Bool := false
  pd : Bool := false
  mod : BitVec 4 → Bool := fun m => m == 0
  /-- legality of IMM16 with IMM = 0 -/
  k : BitVec 16 → Bool := fun v => v == 0

/-- A Q3 word obeys a rule. -/
def Q3.ok (f : Q3) (c : Ctl) (r : Q3Rule) : Bool :=
  c.ok r.u r.guard && r.ty f.ty && srcOk c r.sa f.sa &&
  (if f.imm then r.imm f.ty f.imm16 && f.sb.zero else srcOk c r.sb f.sb && r.k f.imm16) &&
  srcOk c r.sc f.sc && (if r.rm then f.rm != 7 else f.rm == 0) && (r.sat || !f.sat) &&
  (r.pd || f.pd == 0) && r.mod f.mod

/-- The types a list names. -/
def tyIn (l : List Ty) (t : Ty) : Bool := l.contains t

/-- A MOD or IMM16 value at most `n`. -/
def atMost {w : Nat} (n : Nat) (v : BitVec w) : Bool := v.toNat ≤ n

/-- Two sources, b may be immediate: the plain arithmetic shape of R133 and R138. -/
def rule2 (ty : Ty → Bool) (sat : Bool := false) : Q3Rule := { ty, sb := true, imm := immOk, sat }
def rule3 (ty : Ty → Bool) (sat : Bool := false) : Q3Rule := { rule2 ty sat with sc := true }
def rule1 (ty : Ty → Bool) (sat : Bool := false) : Q3Rule := { ty, sat }

/-- The rounding floating-point shapes of R147. -/
def fp2 (mods : Nat) : Q3Rule := { rule2 Ty.isFp true with rm := true, mod := atMost mods }
def fp1 (sat : Bool := false) : Q3Rule := { rule1 Ty.isFp sat with rm := true }
/-- FEX2, FLG2, FSIN, FCOS, FTNH (R147, R150). -/
def fpElem (sat : Bool := false) : Q3Rule := rule1 (fun t => t.isFp && t != .f64 && t != .f64x2) sat

/-- i types of SI and PI (R135, R139). -/
def tySigned (t : Ty) : Bool := t.signed
def tyLogic (t : Ty) : Bool := t.isInt || t == .b128
/-- The element types of R167. -/
def tyVec (t : Ty) : Bool := t.isPI || t.isPF || t.isF8x16

/-- A scalar type CVT converts (R157). -/
def Ty.cvtScalar (t : Ty) : Bool := t.isSI || t.isSF || t == .e4m3 || t == .e5m2 || t == .e2m1
/-- A packed type CVT converts (R157). -/
def Ty.cvtPacked (t : Ty) : Bool := t.isPI || t.isPF || t.isF8x16

/-- The part P of CVT and CVTU (R157). -/
def cvtPart (f : Q3) : Nat := bitsOf f.imm16 6 5
/-- The source type of CVT, CVTU and CVTB. -/
def cvtSrc (f : Q3) : Ty := Ty.ofCode (f.imm16.extractLsb' 0 5)

/-- R158: the limit of P. -/
def cvtPartOk (ns nd p : Nat) : Bool :=
  let k := min ns nd
  if ns = nd then p == 0 else if ns > nd then p < ns / k else p < nd / k

/-- CVT (R157, R158). -/
def cvtOk (c : Ctl) (f : Q3) : Bool :=
  let st := cvtSrc f
  ((f.ty.cvtScalar && st.cvtScalar) || (f.ty.cvtPacked && st.cvtPacked)) &&
  cvtPartOk st.count f.ty.count (cvtPart f) &&
  f.ok c { ty := fun _ => true, sc := st.count < f.ty.count, rm := true, sat := true,
           k := fun v => v.toNat < 128 }

def cvtuFloat (t : Ty) : Bool := tyIn [.f16, .bf16, .f32, .f16x8, .bf16x8, .f32x4] t
def cvtuInt (t : Ty) : Bool := tyIn [.i8, .n8, .i16, .n16, .i8x16, .n8x16, .i16x8, .n16x8] t

/-- CVTU (R159). -/
def cvtuOk (c : Ctl) (f : Q3) : Bool :=
  let st := cvtSrc f
  ((cvtuFloat f.ty && cvtuInt st) || (cvtuInt f.ty && cvtuFloat st)) &&
  f.ty.isPacked == st.isPacked && cvtPartOk st.count f.ty.count (cvtPart f) &&
  f.ok c { ty := fun _ => true, sc := st.count < f.ty.count, rm := true, k := fun v => v.toNat < 128 }

/-- CVTB (R160). -/
def cvtbOk (c : Ctl) (f : Q3) : Bool :=
  let dec := f.mod == 3
  tyIn [.f16, .bf16, .f32] (cvtSrc f) && (dec || !c.u) &&
  (f.mod != 1 || f.ty == .mx8a || f.ty == .mx8b) &&
  f.ok c { ty := Ty.isBlock, sb := dec, sc := dec && (f.ty == .mx8a || f.ty == .mx8b),
           rm := f.mod != 2, mod := atMost 3, k := fun v => v.toNat < (if dec then 1024 else 32) }

/-- PACK (R162). -/
def packOk (c : Ctl) (f : Q3) : Bool :=
  let int := tyIn [.i8x16, .n8x16, .i16x8, .n16x8] f.ty
  f.ok c { ty := tyIn [.i8x16, .n8x16, .i16x8, .n16x8, .f16x8, .bf16x8, .e4m3x16, .e5m2x16],
           sb := true, rm := !int, sat := true,
           mod := atMost (if int || f.ty.isF8x16 then 1 else 0) }

/-- REDG and SCAN (R165, R166): `op` is the operation code. -/
def reduceOk (c : Ctl) (f : Q3) (op : Nat) : Bool :=
  op ≤ 5 && (op < 3 || f.ty.isInt) && f.rm != 6 &&
  f.ok c { u := .zero, ty := fun t => t.isInt || t.isFp, rm := op == 0 && f.ty.isFp,
           sat := op == 0 && f.ty.isInt, mod := fun _ => true }

/-- A QI word (R55). -/
def QI.ok (f : QI) (c : Ctl) (sa : Bool) (fn : BitVec 6 → Bool) (z : Bool) : Bool :=
  c.ok .both && srcOk c sa f.sa && f.sb.zero && fn f.fn && (z || !f.z)

/-- A BR word (R56): SA is unused unless `sa`, SB holds a number when `sb`. -/
def BR.ok (f : BR) (c : Ctl) (guard sa sb : Bool) (aux kind : Nat) (offs : Bool) : Bool :=
  c.ok .zero guard && (if sa then f.sa.isG else f.sa.zero) && (sb || f.sb.zero) &&
  f.aux.toNat ≤ aux && f.kind.toNat ≤ kind && (offs || f.offs == 0)

/-- Selector j of a JOIN (R56). -/
def joinSel (f : BR) (j : Nat) : Nat := bitsOf f.offs (4 * j + 3) (4 * j)
def joinN (f : BR) : Nat := f.aux.toNat
def joinD (f : BR) : Nat := bitsOf f.offs 27 24

/-- The limits of JOIN (R56). -/
def joinOk (f : BR) : Bool :=
  let n := joinN f; let d := joinD f
  (d == n || (n < d && d - n ≤ 4)) && bitsOf f.offs 31 28 == 0 &&
  (upTo 6).all fun j => if j < n && d != n then joinSel f j < d else joinSel f j == 0

/-- The ME fields of one instruction (R57, R206). -/
structure MERule where
  u : UCol := .both
  sa : Bool := true
  sb : Bool := false
  sc : Bool := false
  sz : Nat → Bool := fun z => z == 0
  ord : Nat → Bool := fun o => o == 0
  scope : Bool := false
  ack : Bool := false
  sx : Bool := false
  mod : Nat → Bool := fun m => m == 0
  offset : Bool := true

def ME.ok (f : ME) (c : Ctl) (r : MERule) : Bool :=
  c.ok r.u && srcOk c r.sa f.sa && srcOk c r.sb f.sb && srcOk c r.sc f.sc && r.sz f.sz.toNat &&
  r.ord f.ord.toNat && (if r.scope then f.scope != 7 && (f.scope != 0 || f.ord == 0) else f.scope == 0) &&
  (r.ack || !f.ack) && (!f.sx || (r.sx && f.sz.toNat ≤ 2)) && r.mod f.mod.toNat && (r.offset || f.offset == 0)

def ruleLoad : MERule := { sz := (· ≤ 4), ord := (· ≤ 1), scope := true, sx := true }

/-- Matrix type codes (R60). -/
def mtBlock (t : BitVec 4) : Bool := 6 ≤ t.toNat && t.toNat ≤ 9
/-- The memory types of MMLD and MMST (R172). -/
def mtMem (t : BitVec 4) : Bool := [0, 1, 2, 3, 8, 9].contains t.toNat

/-- MMLD and MMST (R172, R182). -/
def mmMemOk (f : MX) (c : Ctl) (rm : Bool) : Bool :=
  c.ok .one && f.sa.isG && (if f.ta == 8 || f.ta == 9 then f.sb.isG else f.sb.zero) && f.sc.zero &&
  mtMem f.ta && f.tb == 0 && f.tc == 0 && (!f.acc || f.ta == 0) && !f.negp &&
  (if rm then f.rm != 7 else f.rm == 0) && f.imm16.toNat % 16 == 0

/-- An MX word that uses only Z and IMM16 (MMZ, MMRD; R172). -/
def mmPlainOk (f : MX) (c : Ctl) (u : UCol) (imm : Nat) : Bool :=
  c.ok u && f.sa.zero && f.sb.zero && f.sc.zero && f.ta == 0 && f.tb == 0 && f.tc == 0 && !f.acc &&
  !f.negp && f.rm == 0 && f.imm16.toNat ≤ imm

/-- The CP fields of one instruction (R59). A used source must be a g entry. -/
def CP.ok (f : CP) (c : Ctl) (u : UCol) (sa sb sc cq : Bool) (sub : BitVec 4 → Bool)
    (imm : BitVec 26 → Bool) : Bool :=
  c.ok u && (if sa then f.sa.isG else f.sa.zero) && (if sb then f.sb.isG else f.sb.zero) &&
  (if sc then f.sc.isG else f.sc.zero) && (cq || f.cq == 0) && sub f.sub && imm f.imm26

/-- An SY word (R59). -/
def SY.ok (f : SY) (c : Ctl) (u : UCol) (guard sa sb sreg : Bool) (imm : BitVec 16 → Bool) : Bool :=
  c.ok u guard && (if sa then f.sa.isG else f.sa.zero) && (if sb then f.sb.isG else f.sb.zero) &&
  f.rsv == 0 && (sreg || f.sreg == 0) && imm f.imm16

/-- EVBIND (R293). -/
def evbindOk (f : CP) (c : Ctl) : Bool :=
  let kind := f.sub.toNat
  let handler := f.imm26.toNat >>> 8
  let j := bitsOf f.imm26 6 4
  c.ok .one && f.sb.zero && f.sc.zero && kind ≤ 8 && !bitAt f.imm26 7 &&
  (f.sa.zero || (f.sa.isG && handler == 0)) && ([1, 4, 5, 6].contains kind || j == 0) &&
  (kind == 2 || f.cq == 0) && (kind != 0 || (f.sa.zero && handler == 0))

/-- BINIT (R275). -/
def binitOk (f : CP) (c : Ctl) : Bool :=
  let level := bitsOf f.sub 1 0
  let par := bitAt f.sub 2
  level != 3 && !bitAt f.sub 3 && !(par && (f.imm26 == 0 || level == 2)) &&
  f.ok c .one true par false false (fun _ => true) (fun t => t.toNat < 2 ^ 20)

/-- Check 2 of R62. The steps that are not instructions carry no encoding and are always well formed. -/
def Instr.wf : Instr → Bool
  | .nop c f => f.ok c .both true false false false (· == 0)
  | .pass c f =>
    if f.imm then f.ok c { ty := fun _ => true, sa := false, imm := immOk }
    else f.ok c { ty := (· == .b128) }
  | .ldi c f => f.ok c false (atMost 2) (f.fn == 1)
  | .ldih c f => f.ok c true (atMost 2) false
  | .save c f =>
    f.ok c { ty := (· == .i8), k := fun v => if c.u then 16 ≤ v.toNat && v.toNat < 24 else v.toNat ≤ 11 }
  | .rest c f =>
    f.ok c { ty := (· == .i8), sa := false,
             k := fun v => (16 ≤ v.toNat && v.toNat < 24) || (!c.u && v.toNat ≤ 11) }
  | .lane c f => f.ok c { u := .zero, ty := (· == .i8), sa := false, mod := atMost 2 }
  | .unif c f =>
    f.ok c { u := .one, ty := (· == .i8), sa := false, mod := atMost 1,
             k := fun v => v.toNat < (if f.mod == 0 then 512 else 16) }
  | .bra c f => f.ok c true false false 0 0 true
  | .brc c f => f.ok c false false false 15 3 true
  | .brd c f => f.ok c false false false 15 1 true && bitsOf f.offs 15 0 != 0
  | .join c f => f.ok c false false false 6 0 true && joinOk f
  | .call c f => f.ok c false false true 8 7 true && f.sb.num ≤ 16
  | .calli c f => f.ok c false true true 8 7 false && f.sb.num ≤ 16
  | .ret c f => f.ok c false false false 8 7 false
  | .loop c f => f.ok c false false false 7 0 true
  | .brx c f => f.ok c true true false 0 0 false
  | .exit c f => f.ok c .zero true false false false (· == 0)
  | .region c f => f.ok c .zero false false false false
      (fun v => v.toNat < 32 && bitsOf v 2 0 ≤ 4 && bitsOf v 4 3 ≤ 2)
  | .bkpt c f => f.ok c .zero true false false false (fun _ => true)
  | .trap c f => f.ok c .zero true false false false (fun _ => true)
  | .wait c f => f.ok c .zero true false false false (fun _ => true)
  | .nap c f => f.ok c .zero true false false false (fun _ => true)
  | .pset c f =>
    if f.mod.toNat ≤ 5 then f.ok c { rule2 Ty.isSI with u := .zero, pd := true, mod := fun _ => true }
    else f.ok c { u := .zero, ty := Ty.isSI, sa := false, pd := true, mod := atMost 7 }
  | .plop c f =>
    c.ok .zero && f.ty == .i8 && !f.sa.isG && !f.sb.isG && !f.sc.isG && f.rm == 0 && !f.imm && !f.sat &&
    f.mod == 0 && f.imm16.toNat < 256
  | .pmov c f =>
    f.ok c { u := .zero, ty := (· == .i8), sa := f.mod == 1, mod := atMost 1,
             k := fun v => f.mod == 1 || v == 0 }
  | .pgat c f =>
    f.ok c { u := .zero, ty := (· == .i8), sa := false, pd := f.mod.toNat ≤ 2, mod := atMost 5,
             k := atMost 15 }
  | .sel c f => f.ok c { rule2 (fun t => t.code.toNat ≤ 0x1B) with u := .zero, pd := true, mod := atMost 1 }
  | .fspill c f => f.ok c { u := .zero, sa := false, mod := fun m => 1 ≤ m && m ≤ 6, offset := false }
  | .ffill c f => f.ok c { u := .zero, sa := false, mod := fun m => 1 ≤ m && m ≤ 6, offset := false }
  | .add c f => f.ok c (rule2 Ty.isInt true)
  | .sub c f => f.ok c (rule2 Ty.isInt true)
  | .mul c f => f.ok c (rule2 Ty.isInt true)
  | .mulh c f => f.ok c (rule2 Ty.isInt)
  | .mad c f => f.ok c (rule3 Ty.isInt true)
  | .madw c f => f.ok c (rule3 (tyIn [.i8, .n8, .i16, .n16, .i32, .n32]) true)
  | .min c f => f.ok c (rule2 Ty.isInt)
  | .max c f => f.ok c (rule2 Ty.isInt)
  | .abs c f => f.ok c (rule1 tySigned true)
  | .neg c f => f.ok c (rule1 Ty.isInt true)
  | .adif c f => f.ok c (rule2 Ty.isInt true)
  | .clamp c f => f.ok c (rule3 Ty.isInt)
  | .div c f => f.ok c (rule2 Ty.isInt true)
  | .rem c f => f.ok c (rule2 Ty.isInt)
  | .addx c f => f.ok c { rule2 (tyIn [.n32, .n64]) with sc := !bitAt f.mod 0, mod := atMost 3 }
  | .and c f => f.ok c (rule2 tyLogic)
  | .or c f => f.ok c (rule2 tyLogic)
  | .xor c f => f.ok c (rule2 tyLogic)
  | .andn c f => f.ok c (rule2 tyLogic)
  | .not c f => f.ok c (rule1 tyLogic)
  | .shl c f => f.ok c (rule2 tyLogic true)
  | .shr c f => f.ok c (rule2 tyLogic)
  | .sar c f => f.ok c (rule2 tySigned)
  | .rol c f => f.ok c (rule2 tyLogic)
  | .bfe c f => f.ok c { rule2 Ty.isSI with imm := fun _ _ => true }
  | .bfi c f => f.ok c { ty := Ty.isSI, sb := true, sc := true }
  | .popc c f => f.ok c (rule1 tyLogic)
  | .clz c f => f.ok c (rule1 tyLogic)
  | .brev c f => f.ok c (rule1 tyLogic)
  | .btab c f => f.ok c { ty := tyLogic, sb := true, sc := true, k := atMost 255 }
  | .bpik c f => f.ok c { ty := (· == .b128), sb := true, sc := true }
  | .dot4 c f => f.ok c { ty := tyIn [.i8x16, .n8x16], sb := true, sc := true, sat := true, mod := atMost 1 }
  | .dot2 c f => f.ok c { ty := tyIn [.i16x8, .n16x8], sb := true, sc := true, sat := true, mod := atMost 1 }
  | .rqs c f =>
    f.ok c { ty := tyIn [.i8x16, .n8x16, .i16x8, .n16x8], sb := true, sc := true, rm := true, sat := true,
             k := atMost (if f.ty.width == 8 then 3 else 1) }
  | .leaReg c f => f.ok c { ty := tyIn [.i32, .n32, .i64, .n64], sb := true, k := atMost 63 }
  | .leaImm c f => f.ok c true (fun fn => bitAt fn 5) true
  | .ptag c f =>
    f.ok c { ty := (· == .n64), sb := f.mod != 0, imm := fun t v => f.mod != 0 && immOk t v, mod := atMost 3 }
  | .pfld c f => f.ok c { ty := (· == .n64), mod := atMost 3 }
  | .fadd c f => f.ok c (fp2 3)
  | .fsub c f => f.ok c (fp2 3)
  | .fmul c f => f.ok c (fp2 3)
  | .fma c f => f.ok c { fp2 7 with sc := true }
  | .fmin c f => f.ok c { rule2 Ty.isFp with mod := atMost 1 }
  | .fmax c f => f.ok c { rule2 Ty.isFp with mod := atMost 1 }
  | .fcmp c f => f.ok c { rule2 Ty.isSF with pd := true, mod := fun _ => true }
  | .fcls c f => f.ok c { ty := Ty.isSF, pd := true, k := atMost 1023 }
  | .frcp c f => f.ok c (fp1 true)
  | .frsq c f => f.ok c fp1
  | .fsqrt c f => f.ok c fp1
  | .fdiv c f => f.ok c { fp2 0 with mod := (· == 0) }
  | .fex2 c f => f.ok c (fpElem true)
  | .flg2 c f => f.ok c fpElem
  | .fsin c f => f.ok c fpElem
  | .fcos c f => f.ok c fpElem
  | .ftnh c f => f.ok c fpElem
  | .fscl c f => f.ok c { fp2 0 with imm := fun _ _ => true }
  | .frnd c f => f.ok c fp1
  | .fdot2 c f => f.ok c { ty := tyIn [.f16x8, .bf16x8], sb := true, sc := true, rm := true, sat := true }
  | .cvt c f => cvtOk c f
  | .cvtb c f => cvtbOk c f
  | .cvtu c f => cvtuOk c f
  | .pack c f => packOk c f
  | .lxch c f =>
    !f.sa.isG && f.ok c { u := .zero, ty := (· == .b128), sb := true, imm := fun _ v => indexImmOk v,
                          pd := true, mod := atMost 3 }
  | .redg c f => reduceOk c f f.mod.toNat
  | .scan c f => reduceOk c f (f.mod.toNat % 8)
  | .vext c f => f.ok c { ty := tyVec, sb := true, imm := fun _ v => indexImmOk v }
  | .vins c f => f.ok c { ty := tyVec, sb := true, k := fun v => v.toNat < f.ty.count }
  | .vperm c f => f.ok c { ty := tyVec, sb := true, sc := true }
  | .vsplt c f =>
    f.ok c { ty := tyVec, mod := atMost 1, k := fun v => v.toNat < (if f.mod == 0 then f.ty.count else 1) }
  | .gang c f => f.ok c .one false false false false
      (fun v => bitsOf v 1 0 != 0 && bitsOf v 7 4 != 0 && bitsOf v 3 2 == 0 && bitsOf v 15 8 == 0)
  | .gangLeave c f => f.ok c .one false false false false (· == 0)
  | .mma c f =>
    c.ok .zero && srcOk c (mtBlock f.ta || mtBlock f.tb) f.sc && f.ta.toNat ≤ 9 && f.tb.toNat ≤ 9 &&
    f.tc.toNat ≤ 1 && f.rm == 0 && f.imm16 == 0
  | .mmz c f => mmPlainOk f c .one 0
  | .mmld c f => mmMemOk f c false
  | .mmst c f => mmMemOk f c true
  | .mmrd c f => mmPlainOk f c .zero 31
  | .mmstat c f => f.ok c .one false false false false (· == 0)
  | .ld c f => f.ok c ruleLoad
  | .st c f => f.ok c { sb := true, sz := (· ≤ 4), ord := fun o => o == 0 || o == 2, scope := true, ack := true }
  | .ldz c f => f.ok c ruleLoad
  | .atom c f =>
    f.ok c { sb := true, sz := fun z => z == 2 || z == 3, ord := fun _ => true, scope := true, mod := (· ≤ 13) }
  | .atomn c f =>
    f.ok c { sb := true, sz := fun z => z == 2 || z == 3, ord := fun o => o == 0 || o == 2, scope := true,
             mod := fun m => 1 ≤ m && m ≤ 13 }
  | .cas c f =>
    f.ok c { sb := true, sc := true, sz := fun z => z == 2 || z == 3, ord := fun _ => true, scope := true }
  | .fence c f => f.ok c { u := .zero, sa := false, ord := fun o => 1 ≤ o, scope := true, offset := false }
  | .alloc c f => f.ok c { sb := true }
  | .free c f => f.ok c { sb := true }
  | .pcommit c f => f.ok c {}
  | .pdecommit c f => f.ok c {}
  | .pquery c f => f.ok c {}
  | .cpyl c f =>
    let bar := bitAt f.imm26 0
    c.ok .zero && !f.sa.isG && (if bar then f.sb.isG else f.sb.zero) && f.sc.zero &&
    bitsOf f.sub 1 0 != 3 && f.imm26.toNat ≤ 1
  | .cpyt c f => f.ok c .one true true true true (fun _ => true) (fun v => v.toNat < 65536)
  | .cpyfJoin c f => f.ok c .one false false false false (· == 0) (fun v => v != 0 && v.toNat < 65536)
  | .cpyfBar c f => f.ok c .one (f.imm26 == 0) false false true (· == 1) (atMost 1)
  | .cpyfCring c f => f.ok c .one (f.imm26 != 0) false false true (· == 2) (atMost 20)
  | .cpyrResume c f => f.ok c .one false false false true (· == 0) (· == 0)
  | .cpyrSkip c f => f.ok c .one false false false true (· == 1) (· == 0)
  | .rinit c f => f.ok c .one true false false false (· == 0) (atMost 15)
  | .rclm c f => f.ok c .one true false false false (· == 0) (fun k => 1 ≤ k.toNat && k.toNat ≤ 256)
  | .rcmt c f => f.ok c .one true true false false (fun m => m == 0 || m == 2) (· == 0)
  | .rcmtQ c f => f.ok c .one true true false true (fun m => m == 1 || m == 3) (· == 0)
  | .rawt c f => f.ok c .one true false false false (· == 0) (fun k => 1 ≤ k.toNat && k.toNat ≤ 65536)
  | .rret c f => f.ok c .one true true false false (· == 0) (· == 0)
  | .rsub c f => f.ok c .one true true false false (atMost 1) (· == 0)
  | .rclose c f => f.ok c .one true false false false (· == 0) (· == 0)
  | .binit c f => binitOk f c
  | .barv c f => f.ok c .one true false false false (· == 0) (fun n => 1 ≤ n.toNat && n.toNat < 65536)
  | .bwait c f => f.ok c .one true true false false (· == 0) (· == 0)
  | .barw c f => f.ok c .one true false false false (· == 0) (fun n => 1 ≤ n.toNat && n.toNat < 65536)
  | .bexp c f =>
    let r := f.sub == 1
    f.ok c .one true r false false (atMost 1) (fun v => if r then v == 0 else v.toNat % 4 == 0)
  | .evbind c f => evbindOk f c
  | .evmask c f => f.ok c .one false false false false (atMost 2) (fun v => v.toNat < 65536)
  | .evwait c f => f.ok c .one false false false false (· == 0) (fun v => v != 0 && v.toNat < 65536)
  | .evpoll c f => f.ok c .one false false false false (· == 0) (fun v => v != 0 && v.toNat < 65536)
  | .evraise c f => f.ok c .one (!f.sa.zero) false false false (· == 0) (atMost 15)
  | .evclr c f => f.ok c .one false false false false (· == 0) (fun v => v.toNat < 65536)
  | .msend c f =>
    c.ok .both && srcOk c true f.sa && srcOk c true f.sb && f.sc.zero && f.cq == 0 &&
    1 ≤ f.sub.toNat && f.sub.toNat ≤ 4 && f.imm26 == 0
  | .mrecv c f => f.ok c .one false false false false (atMost 1) (· == 0)
  | .spawn c f =>
    c.ok .zero && f.sb.zero && f.sc.zero && f.cq == 0 && !bitAt f.sub 0 && f.sub.toNat / 2 ≤ 4 &&
    f.imm26.toNat < 16 && f.imm26.toNat + f.sub.toNat / 2 ≤ 16
  | .yield c f => f.ok c .one false false false false (· == 0) (· == 0)
  | .srd c f =>
    f.ok c .both true false false true (· == 0) &&
    (match SReg.ofNum f.sreg.toNat with | none => false | some r => !c.u || r.uniformOk)
  | .swr c f =>
    f.ok c .one false true false true (· == 0) &&
    (match SReg.ofNum f.sreg.toNat with | none => false | some r => r.writable)
  | .tret c f => f.ok c .one false false false false (· == 0)
  | .tmaskMask c f => f.ok c .one false false false false (· == 1)
  | .tmaskUnmask c f => f.ok c .one false false false false (· == 0)
  | .segset c f => f.ok c .one false true true false (atMost 3)
  | .harvest c f => f.ok c .one false true false false (· != 0)
  | .tinv c f => f.ok c .one false (f.imm16 != 0) false false (fun _ => true)
  | .icinv c f => f.ok c .one false (f.imm16 != 0) false false (fun _ => true)
  | .snapt c f => f.ok c .one false false false false (fun _ => true)
  | _ => true

end Sys2Proof
end

