-- ==== Sys2Proof/Machine/State.lean ====
section
/-! DEFINITION. The state of the package as plain data: what every chapter of the manual gives the
machine, and the few fields of the model's own (agenda, cur, resume, fresh, nextId). Docstrings name the
rule of spec/ that gives a field. -/

namespace Sys2Proof.Machine

/-! ### Names -/

/-- The states of a group (R79). -/
inductive GState
  | ready | waiting | saved | retired
deriving DecidableEq, Repr

/-- Wait reasons (R357). -/
inductive WReason
  | none | age | cnt | fence | bar | rspace | rdata | event | gang | cpyq | mailf | spawnf
  | callsp | pflt | nap | swap | peer
deriving DecidableEq, Repr

/-- Trap causes (R341). -/
inductive Cause
  | illop | illfld | illcmb | priv | divuni | joinlay | dstkovf | cstkovf
  | align | space | bounds | pfault | pfaultnr | pprot | poison | acklost | pagelost | dfree
  | gangbrk | gangmis | budget | wdog | bkpt | trap | step | fpexc
deriving DecidableEq, Repr

/-- An entry of an age file: a value, or the number of the operation that will give it one (R83). -/
inductive Entry
  | val (v : Quad)
  | pend (id : Nat)
deriving DecidableEq, Repr

/-- One thread (R81, R85, R86, R88) with its part of the region latches (R89, R90). `ages` lists the ages
that are not void, the newest first, so its length is VD (R82). -/
structure Thread where
  ages : List Entry
  frames : List Quad
  preds : BitVec 16
  pcnt : Nat
  latch : List Quad
  rpred : BitVec 16
deriving DecidableEq, Repr

/-- An open divergence slot (R93). -/
structure Div where
  jaddr : Word
  trel : Int
  mask : BitVec 32
  phase : Bool
  outer : Nat
deriving DecidableEq, Repr

/-- An event binding (R283) with the descriptor and the source that the router registered (R284) and the
cycles a TIMER has counted toward its next edge (R282). -/
structure Binding where
  kind : Nat
  q : Nat
  j : Nat
  haddr : Word
  desc : Quad
  loc : Option Loc
  count : Nat
deriving DecidableEq, Repr

/-- GANGREG (R170). -/
structure GangReg where
  done : Nat
  seq : Nat
  gid : Nat
  own : BitVec 4
  memb : Nat
  gst : Nat
  gsz : Nat
deriving DecidableEq, Repr

/-- How a group of a spawn bin or of a placed team starts and sees itself (R87). -/
structure Identity where
  gidx : Nat
  team : BitVec 32
  nteam : BitVec 32
  ngrp : Nat
  spawned : Bool
  g16 : Bool
deriving DecidableEq, Repr

/-- Where a group stands in a single step (R348): `paused` while a handler runs that an asynchronous trap entered,
with the address of a step that was due and CSTK as that handler's TRET restores it. -/
inductive StepArm
  | off
  | armed
  | due (addr : Word)
  | paused (addr : Option Word) (cstk : Word)
deriving DecidableEq, Repr

/-- What a release carries to the observers that synchronise with it (R226, R227): the releasing group, its
team and bent, the scope of the release, and the stores that happen-before it and are not globally performed. -/
structure Carry where
  gid : Nat
  ctx : Nat
  teamNo : Nat
  bent : Nat
  scope : Nat
  ids : List Nat
deriving DecidableEq, Repr

/-- A group: its save record (R89 to R92), its trap and segment registers (R339, R340, R196), and the
deliveries it owes (R216, R238, R255, R342). -/
structure Group where
  gid : Nat
  ctx : Nat
  teamNo : Nat
  ident : Identity
  /-- physical cluster and core (R11, R19) -/
  cl : Nat
  core : Nat
  /-- logical rank (R197) -/
  rank : Nat
  st : GState
  pc : Word
  emask : BitVec 32
  amask : BitVec 32
  threads : List Thread
  gages : List Entry
  gframes : List Quad
  glatch : List Quad
  /-- open divergence slots, slot 0 first -/
  dstk : List Div
  mode : BitVec 32
  flags : BitVec 32
  gang : GangReg
  evpend : BitVec 16
  evmask : BitVec 16
  evbind : List Binding
  mbhead : Nat
  /-- messages held, the oldest first -/
  mbox : List Word
  cstk : Word
  cslim : Word
  wdog : BitVec 32
  wdcnt : Nat
  wreason : WReason
  cdepth : Nat
  prv : Bool
  tmk : Bool
  hnd : Bool
  ropen : Bool
  rpc : Word
  ramask : BitVec 32
  rdepth : Nat
  rcnt : Nat
  rln : Nat
  rlg : Nat
  tcause : BitVec 32
  tpc : Word
  taddr : Word
  trgn : Word
  tvec : Word
  segs : List Word
  segls : List (BitVec 32)
  /-- held asynchronous traps with their TADDR (R342) -/
  held : List (Cause × Word)
  step : StepArm
  /-- in the exit drain (R80) -/
  drain : Bool
  /-- pending positions written into trap records: operation and place (R343) -/
  recs : List (Nat × Loc)
  /-- poisoned stores to deliver, oldest first (R216) -/
  stPoison : List (Nat × Word)
  /-- faulted lane copies to deliver: copy, code, address (R255) -/
  cpFault : List (Nat × Cause × Word)
  /-- stores that must be globally performed before the group's releases at device scope: the operation that
  learned of the store, and the store (R226, R227) -/
  sawFwd : List (Nat × Nat)
  /-- what values that the group read carry, until a FENCE makes the reads acquires (R227, R240) -/
  heard : List Carry
  /-- the group's last release FENCE at each scope: scope and operation (R226) -/
  fences : List (Nat × Nat)
  /-- the remote checks' answer to the access the group waits with (R402) -/
  peerOk : Option (Option (Nat × BitVec 8))
  /-- the faulting virtual address and access kind of a suspension (R376) -/
  fault : Option (Word × Nat)
  /-- a retry of that fault succeeded: the region restarts (R123, R376) -/
  served : Bool
  /-- what the watchdog needs of the wait (R357): the operation behind the pending entry that the group last waited to
  read, the package whose link a PEER access waits for, the limits of a wait with CNT, or the operation of an MMA -/
  awaits : Nat
  /-- where the save record lies in device memory, once it has left shadow storage (R355) -/
  area : Option Loc
deriving DecidableEq, Repr

/-! ### Memory traffic -/

/-- The states of a store that still counts (R236); `visible` is performed at a single ordering point
(R230) and not yet acknowledged. -/
inductive StState
  | issued | ordered | forwarded | visible | lost
deriving DecidableEq, Repr

/-- One single-copy-atomic part of one lane's store (R205, R219). -/
structure StoreRec where
  id : Nat
  /-- the number of the instruction: the unit CST counts -/
  op : Nat
  gid : Nat
  ctx : Nat
  bent : Nat
  /-- the Ridge port it left on, 16 for a PEER pointer of the package itself: another observer (R220, R398, R403) -/
  port : Option Nat
  loc : Loc
  bytes : List Byte
  /-- ST.a -/
  ack : Bool
  /-- the write of an atomic -/
  atomic : Bool
  /-- release scope, 0 for none -/
  rel : Nat
  st : StState
  /-- place in coherence order, 0 before it has one -/
  place : Nat
  /-- cycles since issue, then since the loss (R237, R238) -/
  age : Nat
  ptr : Word
  /-- what the store carries since it was ordered (R227) -/
  carry : List Carry
deriving DecidableEq, Repr

/-- What a pending load or result entry awaits (R83, R205, R216). -/
inductive LoadWork
  /-- the low and high parts of a load still to be read: location, bytes, bytes read -/
  | read (lo hi : Option (List Byte)) (loc : Loc) (n : Nat) (sx : Bool)
  | value (v : Quad)
  | poisoned (addr : Word) (delivered : Bool)
deriving DecidableEq, Repr

/-- One lane's pending load, or the answer of an atomic or of an engine read (R207, R210, R185). -/
structure LoadRec where
  id : Nat
  op : Nat
  gid : Nat
  bent : Nat
  /-- the port of a PEER access, as in a store -/
  port : Option Nat
  /-- acquire scope, 0 for none -/
  acq : Nat
  /-- counts in CLD; an MMRD's entry counts in CTL (R187) -/
  cld : Bool
  ptr : Word
  work : LoadWork
deriving DecidableEq, Repr

/-- One lane of a combined atomic request (R215). -/
structure AtomLane where
  pend : Option Nat
  d : Nat
  cmp : Nat
deriving DecidableEq, Repr

/-- One combined request of an ATOM, ATOMN or CAS (R210, R212, R215). -/
structure AtomRec where
  id : Nat
  op : Nat
  gid : Nat
  ctx : Nat
  bent : Nat
  /-- the port of a PEER access, as in a store -/
  port : Option Nat
  /-- cycles since issue (R237) -/
  age : Nat
  loc : Loc
  width : Nat
  /-- the MOD code of R210; 16 is CAS -/
  code : Nat
  acq : Nat
  rel : Nat
  ptr : Word
  lanes : List AtomLane
deriving DecidableEq, Repr

/-- The queries of chapter 16, which are performed when their answer arrives (R371). -/
inductive QueryKind
  | alloc | pcommit | pdecommit | pquery
deriving DecidableEq, Repr

/-- One lane of a query: pending entry, virtual address, SB. -/
structure QueryRec where
  id : Nat
  op : Nat
  gid : Nat
  kind : QueryKind
  lanes : List (Nat × Word × Quad)
deriving DecidableEq, Repr

/-- What pointer checks need of the group that issued (R196 to R198). -/
structure AddrCtx where
  ctx : Nat
  rank : Nat
  cl : Nat
  /-- the core whose L1 TLB serves the access; none for an engine -/
  core : Option Nat
  wb : Nat
  wsize : Nat
  segs : List Word
  segls : List (BitVec 32)
deriving DecidableEq, Repr

/-- A cached translation (R364), in the L1 TLB of a core or, with no core, in the L2 TLB of the cluster. The
entries of each TLB stand newest first. -/
structure TlbRec where
  cl : Nat
  core : Option Nat
  asid : Nat
  gen : Nat
  /-- first 64 KiB page and pages covered -/
  vpn : Nat
  span : Nat
  entry : Word
deriving DecidableEq, Repr

/-- A line of a core's L1 instruction cache (R314): its tags, with the address of its first byte, the
physical line it was filled from, and its sixteen words. -/
structure ICacheRec where
  cl : Nat
  core : Nat
  asid : Nat
  gen : Nat
  va : Nat
  loc : Loc
  words : List Word
deriving DecidableEq, Repr

/-- A line of a bent's shared instruction level (R314): its physical line, its words, and the cores (cluster,
core) that hold a copy. -/
structure ILineRec where
  bent : Nat
  loc : Loc
  words : List Word
  cores : List (Nat × Nat)
deriving DecidableEq, Repr

/-- A line that a core's L1 data cache holds (R202): the 128 bytes of device or host memory at `loc`. It never
differs from memory, so its bytes are memory's. -/
structure DCacheRec where
  cl : Nat
  core : Nat
  loc : Loc
deriving DecidableEq, Repr

/-! ### Gangs and engines -/

/-- The fields that the members' MMA must agree on (R179). -/
structure MmaParam where
  ta : Nat
  tb : Nat
  tc : Nat
  z : Nat
  acc : Bool
  negp : Bool
deriving DecidableEq, Repr

/-- One member's part of a joint operation: rows of A, columns of B and metadata, a lane each (R179). -/
structure MmaPart where
  memb : Nat
  rows : List Quad
  cols : List Quad
  metas : List (BitVec 32)
deriving DecidableEq, Repr

/-- A latched joint operation, numbered from 1 (R179). -/
structure JointOp where
  n : Nat
  param : MmaParam
  parts : List MmaPart
  /-- the order in which the engine's gangs completed their operations, 0 while partial (R178) -/
  done : Nat
deriving DecidableEq, Repr

/-- A tile operation that is not performed yet (R181 to R185). -/
inductive TileKind
  | mmz
  | mmld (base meta' : Loc) (ta : Nat) (raw : Bool) (pitch : Nat)
  | mmst (base meta' : Loc) (ta : Nat) (raw : Bool) (pitch : Nat) (rm dph : Nat)
  /-- column quad and the pending entry of each lane -/
  | mmrd (q : Nat) (lanes : List (Nat × Nat))
deriving DecidableEq, Repr

structure TileOp where
  id : Nat
  gid : Nat
  memb : Nat
  /-- joint operations the member had delivered (R178) -/
  after : Nat
  z : Nat
  kind : TileKind
deriving DecidableEq, Repr

structure Member where
  gid : Nat
  memb : Nat
  delivered : Nat
  left : Bool
deriving DecidableEq, Repr

/-- A gang that is not DISBANDED (R173). -/
structure Gang where
  key : Nat
  ctx : Nat
  teamNo : Nat
  /-- GIDX div Gs -/
  gid : Nat
  cl : Nat
  /-- engine of the cluster -/
  eng : Nat
  size : Nat
  w : Nat
  sz : Nat
  own : BitVec 4
  members : List Member
  /-- tiles granted -/
  granted : Bool
  broken : Bool
  /-- the order in which gangs completed their joins, 0 before (R174) -/
  joined : Nat
  ops : List JointOp
  performed : Nat
  tileOps : List TileOp
  /-- the gang is saved and on no engine; its tiles: number, `lost` and words (R192) -/
  away : Bool
  saved : List (Nat × Nat × List (Nat × BitVec 32))
  /-- where the saved tiles lie in device memory, once they have left shadow storage (R355) -/
  area : Option Loc := none
deriving DecidableEq, Repr

/-- An accumulator tile of an engine (R176, R177): words by 128 * row + column, absent words zero. -/
structure Tile where
  cl : Nat
  eng : Nat
  z : Nat
  owner : Option Nat
  lastCtx : Option Nat
  words : List (Nat × BitVec 32)
  /-- a kill lost the contents: argument of the free words, 0 for none (R173) -/
  lost : Nat
deriving DecidableEq, Repr

/-! ### Copies, rings, barriers, messages -/

/-- One element of a copy: destination and source pointers as the lane supplied them or as R257 computes
them; no source means `fill`. -/
structure Move where
  dst : Word
  src : Option Word
  fill : List Byte
  n : Nat
deriving DecidableEq, Repr

/-- The layout record as CPYT read it (R256). -/
structure Layout where
  ctrl : Word
  fillv : Word
  box : Word
  ext4 : Word
  strides : List Word
deriving DecidableEq, Repr

/-- A tensor copy's operands (R257). -/
structure Tensor where
  layout : Layout
  base : Word
  ext : Word
  boxp : Word
  start : List Int
deriving DecidableEq, Repr

/-- A ring span: ring, first granule, granules (R263). -/
structure Span where
  start : Nat
  k : Nat
deriving DecidableEq, Repr

/-- What a queue entry does (R253, R256, R259, R265). -/
inductive CopyKind
  | moves (l : List Move)
  | join (mask : BitVec 16)
  | bindBar (p : Option Word)
  | bindRing (p : Option (Word × Nat))
  | commit (ring : Loc) (ptr : Word) (teamNo : Nat) (s : Span) (pend : Nat)
deriving DecidableEq, Repr

/-- The states of a copy that is still in its queue (R248); `moved` is a copy whose last line is
performed. -/
inductive CopyState
  | queued | running | faulted | moved
deriving DecidableEq, Repr

/-- An entry of a copy queue (R246). -/
structure CopyRec where
  id : Nat
  gid : Nat
  /-- the issuing group is in its CCP (R250) -/
  counts : Bool
  /-- the issue order of the group, against its acquires -/
  op : Nat
  ctx : Nat
  rank : Nat
  q : Nat
  num : Nat
  kind : CopyKind
  isLane : Bool
  actx : AddrCtx
  rel : Bool
  record : Bool
  /-- the barrier the copy counts on: none, its own, or its queue's QBAR -/
  bar : Bool
  ownBar : Option Word
  counted : Nat
  scope : Nat
  /-- token: group and pending entry -/
  token : Option (Nat × Nat)
  st : CopyState
  bytes : Nat
  /-- what the release of a queued commit carries, as its RCMT issued it (R227, R265) -/
  carry : List Carry := []
deriving DecidableEq, Repr

/-- The bindings and counts of one copy queue (R247, R258). -/
structure CopyQueue where
  ctx : Nat
  rank : Nat
  q : Nat
  accepted : Nat
  qbar : Option (Word × AddrCtx)
  qring : Option (Word × Nat × AddrCtx)
  recs : Nat
deriving DecidableEq, Repr

/-- A pending ring entry (R263, R270). -/
inductive RingWaitKind
  | claim | await | sub
deriving DecidableEq, Repr

structure RingWait where
  id : Nat
  gid : Nat
  teamNo : Nat
  ring : Loc
  ptr : Word
  kind : RingWaitKind
  span : Span
deriving DecidableEq, Repr

/-- A loader or storer subscription (R268). -/
structure Sub where
  id : Nat
  bent : Nat
  slot : Nat
  load : Bool
  ctx : Nat
  gid : Nat
  pend : Nat
  ring : Loc
  ringPtr : Word
  actx : AddrCtx
  layout : Layout
  tbase : Word
  ext : Word
  c4 : Int
  start : List Int
  step1 : List Int
  step2 : List Int
  per : Nat
  count : Nat
  done : Nat
  k : Nat
  /-- the box is claimed or awaited: its first granule -/
  claim : Option Nat
deriving DecidableEq, Repr

/-- A pending BWAIT or BARW entry (R274). -/
structure BarWait where
  id : Nat
  gid : Nat
  bar : Loc
  ptr : Word
  ph : Nat
deriving DecidableEq, Repr

/-- A child barrier that has arrived upward (R277); `now` holds until its parent is initialised anew. -/
structure Raised where
  child : Loc
  parent : Loc
  now : Bool
deriving DecidableEq, Repr

/-- A combiner slot in use (R272): `none` is a device combiner's, by die in `die`. -/
structure Combiner where
  bar : Loc
  ctx : Nat
  bent : Option Nat
  die : Nat
deriving DecidableEq, Repr

/-- A message in the event router (R300). -/
structure Msg where
  id : Nat
  op : Nat
  gid : Nat
  ctx : Nat
  target : Word
  data : Word
  scope : Nat
deriving DecidableEq, Repr

/-- A spawn bin of a rank (R332); a flushed bin has no key. -/
structure Bin where
  id : Nat
  ctx : Nat
  rank : Nat
  /-- slice and entry address -/
  key : Option (Nat × Word)
  fill : List (List Quad)
  /-- slice and entry address of the threads in the launch stage -/
  lkey : Nat × Word
  launch : List (List Quad)
  timer : Nat
  used : Nat
  /-- the order in which the fill stage filled or its time ran out, 0 for neither -/
  due : Nat
  /-- the order in which the stage that now launches filled -/
  filled : Nat
deriving DecidableEq, Repr

/-! ### Contexts and what system software creates -/

inductive CtxState
  | idle | running | draining | saving | saved | resetting
deriving DecidableEq, Repr

structure Context where
  id : Nat
  st : CtxState
  root : Nat
  asid : Nat
  gen : Nat
  evac : Bool
  rcb : Word
  prio : Nat
  tvec : Word
  wdog : BitVec 32
  ncl : Nat
  fring : Word
  lgf : Nat
  fcount : Nat
  nextSeq : Nat
  nextObj : Nat
  /-- physical cluster of each rank, empty without a partition -/
  ranks : List Nat
  /-- ranks a saved context must get back -/
  savedRanks : Nat
  ts : Option Nat
  th : Option Nat
  thSet : Nat
  hard : Bool
  /-- order of its request for a partition (R336) -/
  req : Nat
  destroy : Bool
  /-- ranks whose saved state is in the shadow of a cluster: rank and cluster (R355) -/
  shadow : List (Nat × Nat)
  pool : List (List Nat)
  /-- address of the resolver stub, once the loader has installed the stubs (R311) -/
  stub : Option Nat
  /-- CTXDEL packets that wait for the forced reset: queue, index, tag, nocpl (R390) -/
  dels : List (Nat × Nat × Nat × Bool)
deriving DecidableEq, Repr

/-- A rank's scratchpad (R199): it moves with the rank. -/
structure Scratch where
  ctx : Nat
  rank : Nat
  mem : List Host.Cell
deriving DecidableEq, Repr

inductive ObjState
  | loading | ready | draining
deriving DecidableEq, Repr

/-- A linkage entry (R311): its address, its symbol, and whether the object itself defines that. -/
structure LinkEntry where
  addr : Nat
  name : List Byte
  own : Bool
deriving DecidableEq, Repr

/-- A code object (R302 to R311, R427). The READY objects of a context stand in the order in which they
became so. -/
structure CodeObj where
  ctx : Nat
  num : Nat
  st : ObjState
  image : Word
  len : Nat
  q : Nat
  index : Nat
  tag : Nat
  nocpl : Bool
  /-- header word and entry address of each kernel (R307) -/
  kernels : List (Word × Word)
  exports : List (List Byte × Word)
  linkage : List LinkEntry
  /-- mapped pages -/
  mapped : List Nat
  /-- text ranges: virtual address, bytes -/
  text : List (Nat × Nat)
  /-- the load report: note types, with GENERATOR's descriptor (R305) -/
  notes : List (Nat × Nat)
  /-- UNLOAD and LAUNCH packets held until the load ends: queue, index, words (R309) -/
  held : List (Nat × Nat × List Word)
  /-- numbers of the teams launched before the Unload that remain -/
  before : List Nat
deriving DecidableEq, Repr

inductive SliceState
  | waiting | launching | launched | done | killed
deriving DecidableEq, Repr

/-- A slice (R322, R323) with the effective values of its regions (R320). -/
structure Slice where
  ctx : Nat
  seq : Nat
  st : SliceState
  hdr : Word
  entry : Word
  args : Word
  teams : Nat
  aff : BitVec 8
  deadline : Nat
  tbudget : Nat
  ecls : Nat
  rsv : Nat
  spt : Nat
  prio : Nat
  /-- nodes from the slice's region to the root: address, effective CLUST and SCRATCH, FDOM -/
  chain : List (Nat × Nat × Nat × Bool)
  nextTeam : Nat
  finished : Nat
  /-- ranks of teams whose groups have retired and that wait for spawned groups (R323) -/
  retiring : List Nat
  q : Nat
  index : Nat
  tag : Nat
  nocpl : Bool
deriving DecidableEq, Repr

/-- A slice on a cluster's candidate list (R324, R326). -/
structure Cand where
  cl : Nat
  ctx : Nat
  seq : Nat
  dl : Nat
  overdue : Bool
deriving DecidableEq, Repr

/-- A team that is resident, saved or yielded (R310, R325, R329, R330). -/
structure Team where
  ctx : Nat
  no : Nat
  gen : Nat
  seq : Nat
  index : Nat
  cl : Nat
  rank : Nat
  wb : Nat
  wsize : Nat
  hdr : Word
  rem : Int
  dl : Nat
  overdue : Bool
  prio : Nat
  ecls : Nat
  spawned : Bool
  yielded : Bool
  /-- YIELD waits for the groups' boundaries (R335) -/
  yielding : Bool
  /-- BUDGET is due (R329) -/
  budgetDue : Bool
deriving DecidableEq, Repr

inductive QState
  | idle | running | blocked | draining
deriving DecidableEq, Repr

/-- A command queue (R386, R388, R392). -/
structure Queue where
  id : Nat
  ctx : Nat
  st : QState
  desc : Word
  ring : Word
  cpl : Word
  lgs : Nat
  lgc : Nat
  prio : Nat
  aff : BitVec 8
  rcb : Word
  head : Nat
  tail : Nat
  ncpl : Nat
  /-- words of the packet that blocks the queue, and whether it has been taken: a WAITMEM (R392, R394) -/
  blocked : List Word
  taken : Bool
  /-- times passed over, and the order of its last turn (R389) -/
  passed : Nat
  turn : Nat
  /-- packets that have not ended: index (R390) -/
  live : List Nat
  /-- QDEL packets that wait for the drain: queue, index, tag, nocpl -/
  dels : List (Nat × Nat × Nat × Bool)
deriving DecidableEq, Repr

/-! ### The package -/

inductive PkgState
  | off | standby | boot | ready | failed
deriving DecidableEq, Repr

inductive PortState
  | off | training | up | retraining | fenced
deriving DecidableEq, Repr

/-- A link port (R396, R399). -/
structure PortRec where
  port : Port
  st : PortState
  tries : Nat
  cycles : Nat
deriving DecidableEq, Repr

/-- A bent's power manager and loader state (R8, R327, R378, R408). -/
structure Bent where
  online : Bool
  h : Nat
  hseq : Nat
  bcap : Nat
  period : Nat
  narrow : List (Nat × Nat)
deriving DecidableEq, Repr

/-- A cluster's counters (R324, R411) and expansion table (R318). -/
structure Cluster where
  cl : Nat
  cyc : Word
  perf : List Word
  patch : Nat
deriving DecidableEq, Repr

/-- The snapshot register and records (R411). -/
structure Snap where
  tag : BitVec 16
  lost : Nat
  seq : Nat
  busy : Bool
  valid : Bool
  /-- clusters whose record is still to be latched -/
  recs : List (Nat × List Word)
deriving DecidableEq, Repr

/-- An answer of the management port or of the SPDM responder (R410, R415). -/
structure Reply where
  code : Nat
  status : Nat
  data : List Nat
  bytes : List Byte
deriving DecidableEq, Repr

/-- What the alias key was derived from at the last BOOT, beside the fused secret: measurements 1 and 2 (R415). -/
structure BootKey where
  controller : List Nat
  image : List Nat
deriving DecidableEq, Repr

/-- Firmware slots, fuses and patches (R413, R414, R318). -/
structure Firmware where
  slotA : Option FwImage
  slotB : Option FwImage
  /-- slot A is active -/
  activeA : Bool
  /-- an image has been staged for the next bring-up -/
  staged : Bool
  minSvn : Nat
  revoked : BitVec 4
  /-- the fused hash of each slot's public key -/
  keyHashes : List (List Byte)
  /-- patches authenticated since power-up, oldest first -/
  patches : List FwImage
deriving DecidableEq, Repr

/-- The choice of what acts next: a group issues, the control processor takes a packet, a step of another
agent happens, a cycle passes, or the core of a group fills an instruction line ahead of its fetch (R69). -/
inductive Choice
  | issue (gid : Nat)
  | take (q : Nat)
  | event (i : Instr)
  | tick
  | prefetch (gid va : Nat)
deriving DecidableEq, Repr

/-- The package. -/
structure State where
  /-- package power state and the cause of a failed boot (R409) -/
  pkg : PkgState
  failCause : Nat
  /-- firmware was accepted in this bring-up (R409) -/
  authed : Bool
  fw : Firmware
  /-- the key derived at the last BOOT; the DeviceID key is Config.deviceIdKey (R415) -/
  bootKey : Option BootKey
  ports : List PortRec
  did : BitVec 5
  routes : List (BitVec 16)
  /-- routes whose UP ports have changed (R398) -/
  held : List Nat
  snap : Snap
  pcsel : Word
  admq : Word
  jbase : Word
  jlg : Nat
  jnext : Nat
  bents : List Bent
  clusters : List Cluster
  /-- device memory, host memory, scratchpads (R15, R384, R13) -/
  dev : List Host.Cell
  host : List Host.Cell
  scratch : List Scratch
  /-- poisoned ranges: first byte, bytes (R216) -/
  poison : List (Loc × Nat)
  /-- what the values of these bytes carry (R227): first byte, bytes, carries -/
  carries : List (Loc × Nat × List Carry)
  /-- pages written since the last HARVEST: device or host 64 KiB frame (R369) -/
  written : List Loc
  evacReserve : List Nat
  hostReserve : List Nat
  tlb : List TlbRec
  /-- the L1 instruction caches and the bents' shared instruction levels (R314), newest first -/
  icache : List ICacheRec
  ilines : List ILineRec
  /-- the L1 data caches (R202), newest first -/
  dcache : List DCacheRec
  stores : List StoreRec
  loads : List LoadRec
  atoms : List AtomRec
  queries : List QueryRec
  groups : List Group
  teams : List Team
  gangs : List Gang
  tiles : List Tile
  copies : List CopyRec
  cqueues : List CopyQueue
  /-- headers on which a ring instruction has acted (R262), for the breaks of R270 -/
  rings : List Loc
  ringWaits : List RingWait
  subs : List Sub
  barWaits : List BarWait
  combiners : List Combiner
  /-- children that arrived upward, with their parents, and releases on their way down (R277) -/
  raised : List Raised
  releases : List (Loc × Loc)
  /-- team barriers on which an instruction has acted, and their parents (R273) -/
  bparents : List (Loc × Loc)
  /-- the team that ran a barrier's BINIT (R272): context, number and generation -/
  bteams : List (Loc × Nat × Nat × Nat)
  /-- barriers whose upward arrival waits for the releases of their phase (R280) -/
  upward : List Loc
  msgs : List Msg
  bins : List Bin
  /-- the launch generation of the last team that had a number: context, number, generation (R299) -/
  teamGens : List (Nat × Nat × Nat)
  ctxs : List Context
  objs : List CodeObj
  slices : List Slice
  cands : List Cand
  queues : List Queue
  replies : List Reply
  hostReplies : List (List Byte)
  peerReplies : List (Nat × List Byte)
  /-- the model's own: whose turn it is, the issuing group, the groups whose blocked instruction is issued
  again before anything else happens -/
  agenda : List Choice
  cur : Nat
  resume : List Nat
  /-- the model's own: argument of the next free value; number of the next operation -/
  fresh : Nat
  nextId : Nat
deriving DecidableEq, Repr

/-- Why the machine stops. -/
inductive Fault
  /-- An access of the companion processor names device memory beyond 1 TiB (R15, R397). Raised by HOST_ACCESS;
  safe: the hardware gives such an address no byte. -/
  | noMemory
deriving DecidableEq, Repr

/-- Why the model does not go on. -/
inductive Refusal
  /-- The instruction has no meaning yet. Raised by Dispatch only; safe. -/
  | notModelled (mnemonic : String)
deriving DecidableEq, Repr

/-- The answer of a step. -/
abbrev Res := Host.Outcome State Fault Refusal

/-! ### Reset -/

def Bent.reset : Bent := { online := true, h := 7, hseq := 0, bcap := 937, period := 0, narrow := [] }

def Cluster.reset (cl : Nat) : Cluster := { cl, cyc := 0, perf := List.replicate 8 0, patch := 0 }

def Snap.reset : Snap := { tag := 0, lost := 0, seq := 0, busy := false, valid := false, recs := [] }

def Firmware.reset : Firmware :=
  { slotA := none, slotB := none, activeA := true, staged := false, minSvn := 0, revoked := 0,
    keyHashes := (List.range 4).map Config.fusedHash, patches := [] }

/-- Ports 0 and 1 of the Sill link and 0 to 15 of the Ridge links, all OFF (R396, R409). -/
def portsReset : List PortRec :=
  ([0, 1].map fun n => { port := .sill n, st := .off, tries := 0, cycles := 0 }) ++
  ((List.range 16).map fun n => { port := .ridge (BitVec.ofNat 4 n), st := .off, tries := 0, cycles := 0 })

/-- The package with no power (R409): nothing is created, memory lists nothing. Values that the manual
does not state are the assumption log's 1 to 11. -/
def State.reset : State :=
  { pkg := .off, failCause := 0, authed := false, fw := Firmware.reset, bootKey := none, ports := portsReset, did := 0,
    routes := List.replicate 32 0, held := [], snap := Snap.reset, pcsel := 0, admq := 0, jbase := 0,
    jlg := 16, jnext := 0, bents := List.replicate 8 Bent.reset,
    clusters := (List.range 192).map Cluster.reset, dev := [], host := [], scratch := [], poison := [], carries := [],
    written := [], evacReserve := [], hostReserve := [], tlb := [], icache := [], ilines := [], dcache := [], stores := [],
    loads := [], atoms := [], queries := [], groups := [], teams := [], gangs := [], tiles := [],
    copies := [], cqueues := [], rings := [], ringWaits := [], subs := [], barWaits := [], combiners := [],
    raised := [], releases := [], bparents := [], bteams := [], upward := [], msgs := [], bins := [], teamGens := [], ctxs := [],
    objs := [], slices := [],
    cands := [], queues := [], replies := [], hostReplies := [], peerReplies := [], agenda := [],
    cur := 0, resume := [], fresh := 0, nextId := 1 }

end Sys2Proof.Machine
end

