-- ==== Sys2Proof/Machine/Float.lean ====
section
/-! DEFINITION. Floating-point and block formats: decoding, exact results, rounding (R22 to R40), and the
elementary functions (R149, R150). Everything is exact arithmetic on numerals. -/

namespace Sys2Proof.Machine

/-! ### Formats (R22) -/

/-- How a format uses its largest exponent. -/
inductive FKind
  | ieee | e4m3 | e2m1
deriving DecidableEq, Repr

structure FFmt where
  eb : Nat
  fb : Nat
  kind : FKind
deriving DecidableEq, Repr

def fmtF16 : FFmt := ⟨5, 10, .ieee⟩
def fmtBf16 : FFmt := ⟨8, 7, .ieee⟩
def fmtF32 : FFmt := ⟨8, 23, .ieee⟩
def fmtF64 : FFmt := ⟨11, 52, .ieee⟩
def fmtE4m3 : FFmt := ⟨4, 3, .e4m3⟩
def fmtE5m2 : FFmt := ⟨5, 2, .ieee⟩
def fmtE2m1 : FFmt := ⟨2, 1, .e2m1⟩

/-- The format of a type's elements; block types give their element codes (R35). -/
def tyFmt : Ty → FFmt
  | .f16 | .f16x8 => fmtF16
  | .bf16 | .bf16x8 => fmtBf16
  | .f64 | .f64x2 => fmtF64
  | .e4m3 | .e4m3x16 | .mx8a => fmtE4m3
  | .e5m2 | .e5m2x16 | .mx8b => fmtE5m2
  | .e2m1 | .k4 | .mx4 => fmtE2m1
  | _ => fmtF32

def FFmt.bias (f : FFmt) : Nat := 2 ^ (f.eb - 1) - 1
def FFmt.signBit (f : FFmt) (neg : Bool) : Nat := b2n neg * 2 ^ (f.eb + f.fb)
/-- The code of the largest finite magnitude. -/
def FFmt.maxCode (f : FFmt) : Nat :=
  match f.kind with
  | .ieee => (2 ^ f.eb - 1) * 2 ^ f.fb - 1
  | .e4m3 => 0x7E
  | .e2m1 => 7
/-- The code that stands for infinity: ∞, or NaN in e4m3 (R32), or the largest value in e2m1. -/
def FFmt.infCode (f : FFmt) : Nat :=
  match f.kind with
  | .ieee => (2 ^ f.eb - 1) * 2 ^ f.fb
  | .e4m3 => 0x7F
  | .e2m1 => 7
/-- The canonical NaN (R23). -/
def FFmt.nanCode (f : FFmt) : Nat :=
  match f.kind with
  | .ieee => (2 ^ f.eb - 1) * 2 ^ f.fb + 2 ^ (f.fb - 1)
  | .e4m3 => 0x7F
  | .e2m1 => 0
/-- NaNs of the format carry payloads and quiet bits (R23). -/
def FFmt.payload (f : FFmt) : Bool := f.kind == .ieee && f.fb ≥ 7
/-- The exponent of the least normal value. -/
def FFmt.emin (f : FFmt) : Int := 1 - (f.bias : Int)

/-- A decoded element: `fin neg m e` is (-1)^neg × m × 2^e. -/
inductive FVal
  | nan (neg : Bool) (frac fb : Nat) (sig : Bool)
  | inf (neg : Bool)
  | fin (neg : Bool) (m : Nat) (e : Int)
deriving DecidableEq, Repr

/-- Decode a code (R22, R23); `ftzi` reads a subnormal as zero (R25). -/
def fDecode (f : FFmt) (ftzi : Bool) (x : Nat) : FVal :=
  let neg := x / 2 ^ (f.eb + f.fb) % 2 == 1
  let ef := x / 2 ^ f.fb % 2 ^ f.eb
  let fr := x % 2 ^ f.fb
  if f.kind = .ieee ∧ ef = 2 ^ f.eb - 1 then
    if fr = 0 then .inf neg
    else if f.payload then .nan neg fr f.fb (fr < 2 ^ (f.fb - 1)) else .nan neg 0 f.fb false
  else if f.kind = .e4m3 ∧ ef = 15 ∧ fr = 7 then .nan neg 0 f.fb false
  else if ef = 0 then
    if fr = 0 ∨ ftzi then .fin neg 0 0 else .fin neg fr (f.emin - f.fb)
  else .fin neg (2 ^ f.fb + fr) ((ef : Int) - f.bias - f.fb)

def FVal.isNan : FVal → Bool
  | .nan .. => true
  | _ => false
def FVal.isSig : FVal → Bool
  | .nan _ _ _ s => s
  | _ => false
def FVal.isZero : FVal → Bool
  | .fin _ 0 _ => true
  | _ => false
def FVal.isInf : FVal → Bool
  | .inf _ => true
  | _ => false
def FVal.sign : FVal → Bool
  | .nan n .. => n
  | .inf n => n
  | .fin n .. => n
def FVal.negate : FVal → FVal
  | .nan n a b c => .nan (!n) a b c
  | .inf n => .inf (!n)
  | .fin n m e => .fin (!n) m e

/-! ### Flags as FLAGS numbers them (R46) -/

abbrev flNX : Nat := 1
abbrev flUF : Nat := 2
abbrev flOF : Nat := 4
abbrev flDZ : Nat := 8
abbrev flIV : Nat := 16
abbrev flVOIDR : Nat := 32
abbrev flSATF : Nat := 64

/-- What rounding and special values depend on: effective rounding (R27), index of R29, MODE bits, SAT. -/
structure FEnv where
  rm : Nat
  idx : Nat
  ftzi : Bool
  ftzo : Bool
  nanp : Bool
  sat : Bool
deriving DecidableEq, Repr

/-! ### Rounding (R27 to R29) -/

/-- The threshold table D of R29. -/
def ditherD : List Nat :=
  [0, 16, 8, 24, 4, 20, 12, 28, 2, 18, 10, 26, 6, 22, 14, 30,
   1, 17, 9, 25, 5, 21, 13, 29, 3, 19, 11, 27, 7, 23, 15, 31]

/-- Whether a magnitude with integer part `i` and discarded fraction r/d rounds away from zero. -/
def roundsAway (rm idx : Nat) (neg : Bool) (i r d : Nat) : Bool :=
  if r = 0 then false
  else match rm with
    | 1 => 2 * r > d || (2 * r == d && i % 2 == 1)
    | 3 => neg
    | 4 => !neg
    | 5 => 2 * r ≥ d
    | 6 => 32 * r / d > (ditherD[idx % 32]?).getD 0
    | _ => false

/-- n/d × 2^e as a fraction of 2^q. -/
def scaleTo (n d : Nat) (e q : Int) : Nat × Nat :=
  if q ≤ e then (n * 2 ^ (e - q).toNat, d) else (n, d * 2 ^ (q - e).toNat)

/-- Round n/d × 2^e to a multiple of 2^q: the multiple, and whether it is exact. -/
def roundAt (rm idx : Nat) (neg : Bool) (n d : Nat) (e q : Int) : Nat × Bool :=
  let s := scaleTo n d e q
  let i := s.1 / s.2
  let r := s.1 % s.2
  (i + b2n (roundsAway rm idx neg i r s.2), r == 0)

/-- floor(log2(n/d × 2^e)) for n > 0. -/
def floorLog2 (n d : Nat) (e : Int) : Int :=
  let a := Nat.log2 n
  let b := Nat.log2 d
  (a : Int) - b + e - (if n * 2 ^ b < d * 2 ^ a then 1 else 0)

/-- The code of the magnitude i × 2^q, where q is the quantum of its binade or the subnormal one. -/
def fEncode (f : FFmt) (i : Nat) (q : Int) : Nat :=
  let (i, q) := if i = 2 ^ (f.fb + 1) then (2 ^ f.fb, q + 1) else (i, q)
  if i < 2 ^ f.fb then i
  else (q + f.fb + f.bias).toNat * 2 ^ f.fb + (i - 2 ^ f.fb)

/-- The largest finite magnitude as m × 2^e. -/
def FFmt.maxFin (f : FFmt) : Nat × Int :=
  match fDecode f false f.maxCode with
  | .fin _ m e => (m, e)
  | _ => (0, 0)

/-- i × 2^q exceeds the largest finite magnitude. -/
def aboveMax (f : FFmt) (i : Nat) (q : Int) : Bool :=
  let m := f.maxFin
  let s := scaleTo i 1 q m.2
  s.1 > m.1 * s.2

/-- The overflow of R28 and R32: the code and the flags. -/
def fOverflow (f : FFmt) (v : FEnv) (neg : Bool) : Nat × Nat :=
  if v.sat ∨ f.kind = .e2m1 then (f.signBit neg + f.maxCode, flNX + flSATF)
  else
    let fin := v.rm == 2 || (v.rm == 3 && !neg) || (v.rm == 4 && neg)
    (f.signBit neg + (if fin then f.maxCode else f.infCode), flOF + flNX)

/-- Round (-1)^neg × n/d × 2^e to a format: code and flags (R25 to R29). -/
def fRound (f : FFmt) (v : FEnv) (neg : Bool) (n d : Nat) (e : Int) : Nat × Nat :=
  if n = 0 then (f.signBit neg, 0)
  else
    let lg := floorLog2 n d e
    let qn := lg - f.fb
    let qs := f.emin - f.fb
    let q := max qn qs
    let r := roundAt v.rm v.idx neg n d e q
    if aboveMax f r.1 q then fOverflow f v neg
    else
      let tiny := lg < f.emin &&
        !(lg == f.emin - 1 && (roundAt v.rm v.idx neg n d e qn).1 == 2 ^ (f.fb + 1))
      let small := q == qs && r.1 < 2 ^ f.fb && r.1 != 0
      if v.ftzo && small then (f.signBit neg, flUF + flNX)
      else
        (f.signBit neg + fEncode f r.1 q, if r.2 then 0 else flNX + (if tiny then flUF else 0))

/-! ### NaNs (R23, R24) -/

/-- The NaN result for operands of which one is a NaN. -/
def nanResult (f : FFmt) (v : FEnv) (ops : List FVal) : Nat :=
  if !v.nanp || !f.payload then f.nanCode
  else match ops.find? FVal.isNan with
    | some (.nan neg fr fb _) =>
      let p := if f.fb ≤ fb then fr / 2 ^ (fb - f.fb) else fr * 2 ^ (f.fb - fb)
      let p := p % 2 ^ (f.fb - 1) + 2 ^ (f.fb - 1)
      f.signBit neg + (2 ^ f.eb - 1) * 2 ^ f.fb + p
    | _ => f.nanCode

def nanFlags (ops : List FVal) : Nat := if ops.any FVal.isSig then flIV else 0

/-- An exact result before rounding. -/
inductive FX
  /-- a NaN made from operands that are not NaN -/
  | invalid
  | inf (neg : Bool)
  /-- ∞ from division by zero -/
  | pole (neg : Bool)
  | num (neg : Bool) (n d : Nat) (e : Int)
deriving DecidableEq, Repr

def fFinish (f : FFmt) (v : FEnv) : FX → Nat × Nat
  | .invalid => (f.nanCode, flIV)
  | .inf neg => (f.signBit neg + f.infCode, 0)
  | .pole neg => (f.signBit neg + f.infCode, flDZ)
  | .num neg n d e => fRound f v neg n d e

/-- NaN operands first, else the exact result. -/
def fWith (f : FFmt) (v : FEnv) (ops : List FVal) (x : FX) : Nat × Nat :=
  if ops.any FVal.isNan then (nanResult f v ops, nanFlags ops) else fFinish f v x

/-! ### Exact arithmetic (R148) -/

/-- An exact sum of finite terms; a zero sum is +0, or -0 under .rdn, and zeros of one sign keep it. -/
def sumFin (rm : Nat) (l : List (Bool × Nat × Int)) : FX :=
  let e := l.foldl (fun a t => min a t.2.2) ((l.headD (false, 0, 0)).2.2)
  let tot : Int := l.foldl (fun a t =>
    let x : Int := t.2.1 * 2 ^ (t.2.2 - e).toNat
    if t.1 then a - x else a + x) 0
  if tot = 0 then
    .num (if l.all (·.1) then true else if l.all (fun t => !t.1) then false else rm == 3) 0 1 0
  else .num (tot < 0) tot.natAbs 1 e

/-- A product: its sign and magnitude, an infinity, or 0 × ∞. -/
inductive FTerm
  | bad
  | inf (neg : Bool)
  | fin (neg : Bool) (m : Nat) (e : Int)
deriving DecidableEq, Repr

def fTerm : FVal → FTerm
  | .nan .. => .bad
  | .inf n => .inf n
  | .fin n m e => .fin n m e

def fProd (a b : FVal) : FTerm :=
  match a, b with
  | .fin n m e, .fin n' m' e' => .fin (n != n') (m * m') (e + e')
  | .inf n, .inf n' => .inf (n != n')
  | .inf n, .fin n' m _ => if m = 0 then .bad else .inf (n != n')
  | .fin n m _, .inf n' => if m = 0 then .bad else .inf (n != n')
  | _, _ => .bad

/-- The exact sum of terms, with opposite infinities and 0 × ∞ invalid. -/
def sumTerms (rm : Nat) (l : List FTerm) : FX :=
  if l.any (· == .bad) then .invalid
  else if l.any (· == .inf false) then (if l.any (· == .inf true) then .invalid else .inf false)
  else if l.any (· == .inf true) then .inf true
  else sumFin rm (l.filterMap fun t => match t with | .fin n m e => some (n, m, e) | _ => none)

def fAdd (f : FFmt) (v : FEnv) (a b : FVal) : Nat × Nat := fWith f v [a, b] (sumTerms v.rm [fTerm a, fTerm b])

def fMul (f : FFmt) (v : FEnv) (a b : FVal) : Nat × Nat :=
  fWith f v [a, b] (match fProd a b with
    | .bad => .invalid
    | .inf n => .inf n
    | .fin n m e => .num n m 1 e)

/-- FMA: 0 × ∞ is invalid even beside a quiet NaN (R148). -/
def fMa (f : FFmt) (v : FEnv) (a b c : FVal) : Nat × Nat :=
  if !a.isNan && !b.isNan && fProd a b == .bad then (f.nanCode, flIV)
  else fWith f v [a, b, c] (sumTerms v.rm [fProd a b, fTerm c])

def fDiv (f : FFmt) (v : FEnv) (a b : FVal) : Nat × Nat :=
  fWith f v [a, b] (match a, b with
    | .inf _, .inf _ => .invalid
    | .inf n, .fin n' _ _ => .inf (n != n')
    | .fin n _ _, .inf n' => .num (n != n') 0 1 0
    | .fin n m e, .fin n' m' e' =>
      if m' = 0 then (if m = 0 then .invalid else .pole (n != n'))
      else .num (n != n') m m' (e - e')
    | _, _ => .invalid)

/-- Integer square root: `k` more bits to try. -/
def isqrtAux : Nat → Nat → Nat → Nat
  | 0, _, r => r
  | k + 1, n, r =>
    let r' := r + 2 ^ k
    isqrtAux k n (if r' * r' ≤ n then r' else r)
def isqrt (n : Nat) : Nat := isqrtAux (Nat.log2 n / 2 + 1) n 0

/-- √(m × 2^e) with a sticky last bit. -/
def sqrtExact (m : Nat) (e : Int) : FX :=
  let sh : Nat := 280 + (if (e % 2) = 0 then 0 else 1)
  let m' := m * 2 ^ sh
  let r := isqrt m'
  .num false (2 * r + (if r * r = m' then 0 else 1)) 1 ((e - sh) / 2 - 1)

/-- 1 / √(m × 2^e) with a sticky last bit. -/
def rsqrtExact (m : Nat) (e : Int) : FX :=
  let m := if e % 2 = 0 then m else 2 * m
  let e := if e % 2 = 0 then e else e - 1
  let r := isqrt (2 ^ 512 / m)
  .num false (2 * r + (if r * r * m = 2 ^ 512 then 0 else 1)) 1 (-(e / 2) - 257)

def fSqrt (f : FFmt) (v : FEnv) (a : FVal) : Nat × Nat :=
  fWith f v [a] (match a with
    | .fin n m e => if m = 0 then .num n 0 1 0 else if n then .invalid else sqrtExact m e
    | .inf n => if n then .invalid else .inf false
    | .nan .. => .invalid)

def fRsq (f : FFmt) (v : FEnv) (a : FVal) : Nat × Nat :=
  fWith f v [a] (match a with
    | .fin n m e => if m = 0 then .pole n else if n then .invalid else rsqrtExact m e
    | .inf n => if n then .invalid else .num false 0 1 0
    | .nan .. => .invalid)

def fRcp (f : FFmt) (v : FEnv) (a : FVal) : Nat × Nat := fDiv f v (.fin false 1 0) a

/-- a × 2^b (R154). -/
def fScl (f : FFmt) (v : FEnv) (a : FVal) (b : Int) : Nat × Nat :=
  let b := max (-100000) (min b 100000)
  fWith f v [a] (match a with
    | .fin n m e => .num n m 1 (e + b)
    | .inf n => .inf n
    | .nan .. => .invalid)

/-- Rounded to an integral value of the same type; no NX, no UF (R155). -/
def fRnd (f : FFmt) (v : FEnv) (a : FVal) : Nat × Nat :=
  match a with
  | .fin n m e => ((fRound f v n (roundAt v.rm v.idx n m 1 e 0).1 1 0).1, 0)
  | _ => fWith f v [a] (.inf a.sign)

/-! ### Comparison (R151, R152) -/

/-- A finite value or infinity as a pair that orders like the reals: -1, 0, 1 for -∞, finite, +∞. -/
def fLess (a b : FVal) : Bool :=
  match a, b with
  | .inf n, .inf n' => n && !n'
  | .inf n, .fin .. => n
  | .fin .., .inf n' => !n'
  | .fin n m e, .fin n' m' e' =>
    let q := min e e'
    let x : Int := m * 2 ^ (e - q).toNat
    let y : Int := m' * 2 ^ (e' - q).toNat
    (if n then -x else x) < (if n' then -y else y)
  | _, _ => false
def fEq (a b : FVal) : Bool := !a.isNan && !b.isNan && !fLess a b && !fLess b a

/-- The code of an operand as it is read: a flushed subnormal is a zero. -/
def fCode (f : FFmt) (ftzi : Bool) (x : Nat) : Nat :=
  match fDecode f ftzi x with
  | .fin n 0 _ => f.signBit n
  | _ => x % 2 ^ (f.eb + f.fb + 1)

/-- A result that no rounding made, with FTZO applied: a nonzero subnormal becomes a zero of its sign (R25). -/
def fFlush (f : FFmt) (v : FEnv) (r : Nat × Nat) : Nat × Nat :=
  match fDecode f false r.1 with
  | .fin n m _ => if v.ftzo && m ≠ 0 && m < 2 ^ f.fb then (f.signBit n, r.2 ||| (flUF + flNX)) else r
  | _ => r

/-- Minimum (`mx` false) or maximum of two codes; `nan` selects the second NaN rule of R151. -/
def fMinMax (f : FFmt) (v : FEnv) (mx nan : Bool) (x y : Nat) : Nat × Nat := fFlush f v <|
  let a := fDecode f v.ftzi x
  let b := fDecode f v.ftzi y
  let cx := fCode f v.ftzi x
  let cy := fCode f v.ftzi y
  let fl := nanFlags [a, b]
  if a.isNan && b.isNan || nan && (a.isNan || b.isNan) then (nanResult f v [a, b], fl)
  else if a.isNan then (cy, fl)
  else if b.isNan then (cx, fl)
  else
    let aLess := fLess a b || (fEq a b && a.isZero && b.isZero && a.sign && !b.sign)
    let bLess := fLess b a || (fEq a b && a.isZero && b.isZero && b.sign && !a.sign)
    if mx then (if aLess then cy else cx, fl) else (if bLess then cy else cx, fl)

/-- FCMP: the predicate and the flags (R152). -/
def fCompare (cond : Nat) (sig : Bool) (a b : FVal) : Bool × Nat :=
  let un := a.isNan || b.isNan
  let fl := if nanFlags [a, b] ≠ 0 ∨ (sig && un && 2 ≤ cond && cond ≤ 5) then flIV else 0
  let r := match cond with
    | 0 => fEq a b
    | 1 => !fEq a b
    | 2 => fLess a b
    | 3 => !un && !fLess b a
    | 4 => fLess b a
    | 5 => !un && !fLess a b
    | 6 => un
    | _ => !un
  (r, fl)

/-- The class bit of R153. -/
def fClass (f : FFmt) (x : Nat) : Nat :=
  match fDecode f false x with
  | .nan _ _ _ s => if s then 0 else 1
  | .inf n => if n then 2 else 9
  | .fin n m _ =>
    if m = 0 then (if n then 5 else 6)
    else if m < 2 ^ f.fb then (if n then 4 else 7) else (if n then 3 else 8)

/-! ### Conversions (R32, R33) -/

/-- Between floating-point formats. -/
def fConvert (f : FFmt) (v : FEnv) (a : FVal) : Nat × Nat :=
  match a with
  | .nan .. =>
    if f.kind = .e2m1 then (0, flIV) else (nanResult f v [a], nanFlags [a])
  | .inf n =>
    if f.kind = .e2m1 then (f.signBit n + f.maxCode, flSATF)
    else if f.kind = .e4m3 then
      (if v.sat then (f.signBit n + f.maxCode, flSATF) else (f.signBit n + f.nanCode, flIV))
    else if f.fb = 2 ∧ v.sat then (f.signBit n + f.maxCode, flSATF)
    else (f.signBit n + f.infCode, 0)
  | .fin n m e => fRound f v n m 1 e

/-- An integer to a format. -/
def fOfInt (f : FFmt) (v : FEnv) (x : Int) : Nat × Nat := fRound f v (x < 0) x.natAbs 1 0

/-- The range of an integer type of width w. -/
def intMin (sg : Bool) (w : Nat) : Int := if sg then -(2 ^ (w - 1) : Nat) else 0
def intMax (sg : Bool) (w : Nat) : Int := if sg then (2 ^ (w - 1) : Nat) - 1 else (2 ^ w : Nat) - 1

/-- A format to an integer type (R33): value wrapped to the width, flags. -/
def fToInt (sg : Bool) (w : Nat) (v : FEnv) (a : FVal) : Nat × Nat :=
  match a with
  | .nan .. => (0, flIV)
  | .inf n => (wrapInt w (if n then intMin sg w else intMax sg w), flIV)
  | .fin n m e =>
    let r := roundAt v.rm v.idx n m 1 e 0
    let x : Int := if n then -(r.1 : Int) else r.1
    if x < intMin sg w then (wrapInt w (intMin sg w), flIV)
    else if intMax sg w < x then (wrapInt w (intMax sg w), flIV)
    else (wrapInt w x, if r.2 then 0 else flNX)

/-- R159, a float to a normalised integer. -/
def fToNorm (sg : Bool) (w : Nat) (v : FEnv) (a : FVal) : Nat × Nat :=
  let lim := if sg then 2 ^ (w - 1) - 1 else 2 ^ w - 1
  let out (n : Bool) (i : Nat) (fl : Nat) : Nat × Nat := (wrapInt w (if n then -(i : Int) else i), fl)
  match a with
  | .nan .. => (0, flIV)
  | .inf n => if n && !sg then (0, flSATF) else out n lim flSATF
  | .fin n m e =>
    if m = 0 then (0, 0)
    else if n && !sg then (0, flSATF)
    else if fLess (.fin false 1 0) (.fin false m e) then out n lim flSATF
    else
      let r := roundAt v.rm v.idx n (m * lim) 1 e 0
      out n r.1 (if r.2 then 0 else flNX)

/-- R159, a normalised integer to a float. The manual says 'clamped' of the float-to-integer rows alone: the value
-2^(w-1), which max(..., -1) changes, sets no SATF (DESIGN CHOICE, log 115). -/
def fOfNorm (sg : Bool) (w : Nat) (f : FFmt) (v : FEnv) (x : Int) : Nat × Nat :=
  let lim := if sg then 2 ^ (w - 1) - 1 else 2 ^ w - 1
  fRound f v (x < 0) (Nat.min x.natAbs lim) lim 0

/-! ### Elementary functions (R149, R150): fixed point with `fxBits` fraction bits -/

def fxBits : Nat := 768
def fxOne : Nat := 2 ^ fxBits
def fxMul (a b : Nat) : Nat := a * b / fxOne

/-- Σ x^(2k+1) / (2k+1), k < n, all positive: atanh x. -/
def atanhSeries (x : Nat) : Nat :=
  let x2 := fxMul x x
  ((upTo 260).foldl (fun (p : Nat × Nat) k => (p.1 + p.2 / (2 * k + 1), fxMul p.2 x2)) (0, x)).1
/-- Σ (-1)^k / ((2k+1) n^(2k+1)): atan (1/n). -/
def atanInv (n : Nat) : Nat :=
  let r := (upTo 200).foldl (fun (p : Nat × Nat × Nat) k =>
    if k % 2 = 0 then (p.1 + p.2.2 / (2 * k + 1), p.2.1, p.2.2 / (n * n))
    else (p.1, p.2.1 + p.2.2 / (2 * k + 1), p.2.2 / (n * n))) (0, 0, fxOne / n)
  r.1 - r.2.1
def fxPi : Nat := 4 * (4 * atanInv 5 - atanInv 239)
def fxLn2 : Nat := 2 * atanhSeries (fxOne / 3)
/-- exp x for 0 ≤ x < 1. -/
def expSeries (x : Nat) : Nat :=
  ((upTo 170).foldl (fun (p : Nat × Nat) k => (p.1 + p.2, fxMul p.2 x / (k + 1))) (0, fxOne)).1
/-- (sin x, cos x) for 0 ≤ x < 2. -/
def sinCosSeries (x : Nat) : Nat × Nat :=
  let r := (upTo 190).foldl (fun (p : (Nat × Nat) × (Nat × Nat) × Nat) k =>
    let t := p.2.2
    let nx := fxMul t x / (k + 1)
    match k % 4 with
    | 0 => (p.1, (p.2.1.1 + t, p.2.1.2), nx)
    | 1 => ((p.1.1 + t, p.1.2), p.2.1, nx)
    | 2 => (p.1, (p.2.1.1, p.2.1.2 + t), nx)
    | _ => ((p.1.1, p.1.2 + t), p.2.1, nx)) ((0, 0), (0, 0), fxOne)
  (r.1.1 - r.1.2, r.2.1.1 - r.2.1.2)

/-- The magnitude m × 2^e in fixed point. -/
def fxOf (m : Nat) (e : Int) : Nat :=
  let k := e + fxBits
  if 0 ≤ k then m * 2 ^ k.toNat else m / 2 ^ (-k).toNat

/-- An exact or a bracketed result of an elementary function; `near neg n e` lies just above n × 2^e in
magnitude and is not representable. -/
inductive EX
  | spec (x : FX)
  | near (neg : Bool) (n : Nat) (e : Int)
  | over
deriving DecidableEq, Repr

/-- 2^a (R149, R150). -/
def exp2X (neg : Bool) (m : Nat) (e : Int) : EX :=
  let i := if e ≥ 0 then m * 2 ^ (min e 40).toNat else m / 2 ^ (-e).toNat
  let isInt := e ≥ 0 || m % 2 ^ (-e).toNat == 0
  if 4096 ≤ i then (if neg then .near false 1 (-4096) else .over)
  else if isInt then .spec (.num false 1 1 (if neg then -(i : Int) else i))
  else
    let fr := fxOf m e % fxOne
    if neg then .near false (expSeries (fxMul (fxOne - fr) fxLn2)) (-(i : Int) - 1 - fxBits)
    else .near false (expSeries (fxMul fr fxLn2)) ((i : Int) - fxBits)

/-- log2 of m × 2^e, m > 0. -/
def log2X (m : Nat) (e : Int) : EX :=
  let k := Nat.log2 m
  let ex : Int := k + e
  if m = 2 ^ k then .spec (.num (ex < 0) ex.natAbs 1 0)
  else
    let x := fxOf m (-(k : Int))
    let z := (x - fxOne) * fxOne / (x + fxOne)
    let fr := 2 * atanhSeries z * fxOne / fxLn2
    let tot : Int := ex * fxOne + fr
    .near (tot < 0) tot.natAbs (-(fxBits : Int))

/-- sin(π x) and cos(π x) for a magnitude m × 2^e: the reduced argument in fixed point, modulo 2. -/
def piReduced (m : Nat) (e : Int) : Nat := (if e ≥ 1 then 0 else fxOf m e) % (2 * fxOne)

/-- sin of π r / fxOne for r < fxOne: sign always +; exact at the halves. -/
def sinPiPos (r : Nat) : EX :=
  if r = 0 then .spec (.num false 0 1 0)
  else if 2 * r = fxOne then .spec (.num false 1 1 0)
  else
    let r' := if 2 * r < fxOne then r else fxOne - r
    .near false (sinCosSeries (fxMul r' fxPi)).1 (-(fxBits : Int))

def cosPiPos (r : Nat) : EX :=
  if r = 0 then .spec (.num false 1 1 0)
  else if 2 * r = fxOne then .spec (.num false 0 1 0)
  else if 2 * r < fxOne then .near false (sinCosSeries (fxMul r fxPi)).2 (-(fxBits : Int))
  else .near true (sinCosSeries (fxMul (fxOne - r) fxPi)).2 (-(fxBits : Int))

def EX.flip (b : Bool) : EX → EX
  | .near n x e => .near (n != b) x e
  | .spec (.num n x d e) => if x = 0 then .spec (.num n x d e) else .spec (.num (n != b) x d e)
  | x => x

/-- sin(π x): an integer n ≠ 0 gives +0 for n > 0, -0 for n < 0 (R149). -/
def sinPiX (neg : Bool) (m : Nat) (e : Int) : EX :=
  let r := piReduced m e
  if r % fxOne = 0 then .spec (.num neg 0 1 0)
  else (sinPiPos (r % fxOne)).flip (neg != (fxOne ≤ r))

def cosPiX (m : Nat) (e : Int) : EX :=
  let r := piReduced m e
  (cosPiPos (r % fxOne)).flip (fxOne ≤ r)

/-- tanh of m × 2^e, m > 0. -/
def tanhX (neg : Bool) (m : Nat) (e : Int) : EX :=
  if fLess (.fin false 63 0) (.fin false m e) then .near neg (2 ^ 200 - 1) (-200)
  else
    let y := 2 * fxOf m e * fxOne / fxLn2
    let k := y / fxOne
    let ex := expSeries (fxMul (y % fxOne) fxLn2) * 2 ^ k
    .near neg ((ex - fxOne) * fxOne / (ex + fxOne)) (-(fxBits : Int))

/-- A faithful result: one of the two neighbours, as `up` chooses (R150). -/
def fFaithful (f : FFmt) (v : FEnv) (up : Bool) (neg : Bool) (n : Nat) (e : Int) : Nat × Nat :=
  let q := max (floorLog2 n 1 e - f.fb) (f.emin - f.fb)
  let s := scaleTo n 1 e q
  let i := s.1 / s.2 + b2n up
  let small := q == f.emin - f.fb && i < 2 ^ f.fb
  if small && v.ftzo && i != 0 then (f.signBit neg, flUF + flNX)
  else (f.signBit neg + fEncode f i q, flNX + (if small then flUF else 0))

/-- Finish an elementary function; `fn`, `ty` and `x` name the operand for the free choice. -/
def fElem (f : FFmt) (v : FEnv) (fn ty x : Nat) : EX → Nat × Nat
  | .spec r => fFinish f { v with rm := 1 } r
  | .near neg n e =>
    if aboveMax f (n / 2 ^ (Nat.log2 n - Nat.min (Nat.log2 n) 64)) (e + (Nat.log2 n - Nat.min (Nat.log2 n) 64 : Nat))
    then fOverflow f { v with rm := 1 } neg
    else fFaithful f v (Config.elemUpper fn ty x != neg) neg n e
  | .over => fOverflow f { v with rm := 1 } false

def fEx2 (f : FFmt) (v : FEnv) (ty x : Nat) : Nat × Nat :=
  match fDecode f v.ftzi x with
  | .fin n m e =>
    match exp2X n m e with
    | .spec (.num _ _ _ e') =>
      if e' < f.emin - f.fb then fElem f v 0 ty x (.near false 1 (-4096)) else fElem f v 0 ty x (.spec (.num false 1 1 e'))
    | r => fElem f v 0 ty x r
  | .inf n => if n then (0, 0) else (f.infCode, 0)
  | a => fWith f v [a] .invalid

def fLg2 (f : FFmt) (v : FEnv) (ty x : Nat) : Nat × Nat :=
  match fDecode f v.ftzi x with
  | .fin n m e => if m = 0 then fFinish f v (.pole true) else if n then (f.nanCode, flIV) else fElem f v 1 ty x (log2X m e)
  | .inf n => if n then (f.nanCode, flIV) else (f.infCode, 0)
  | a => fWith f v [a] .invalid

def fSinPi (f : FFmt) (v : FEnv) (ty x : Nat) : Nat × Nat :=
  match fDecode f v.ftzi x with
  | .fin n m e => if m = 0 then (f.signBit n, 0) else fElem f v 2 ty x (sinPiX n m e)
  | .inf _ => (f.nanCode, flIV)
  | a => fWith f v [a] .invalid

def fCosPi (f : FFmt) (v : FEnv) (ty x : Nat) : Nat × Nat :=
  match fDecode f v.ftzi x with
  | .fin _ m e => fElem f v 3 ty x (cosPiX m e)
  | .inf _ => (f.nanCode, flIV)
  | a => fWith f v [a] .invalid

def fTanh (f : FFmt) (v : FEnv) (ty x : Nat) : Nat × Nat :=
  match fDecode f v.ftzi x with
  | .fin n m e => if m = 0 then (f.signBit n, 0) else fElem f v 4 ty x (tanhX n m e)
  | .inf n => fFinish f v (.num n 1 1 0)
  | a => fWith f v [a] .invalid

/-! ### Block formats (R35 to R40) -/

/-- The value of an element code under a metadata word; a NaN scale gives `none` (R36, R39). -/
def blockVal (t : Ty) (md code : Nat) : FVal :=
  if t = .k4 then
    let e := md / 4 % 256
    let fr := md % 4
    let m5 := md / 1024 % 32
    if e = 255 then .nan false 0 2 false
    else if code % 16 = 8 then
      (if m5 = 0 then .fin true 0 0
       else .fin (md / 2 ^ 15 % 2 == 1) ((4 + m5 % 4) * (4 + fr)) ((m5 / 4 : Int) - 4 + e - 129))
    else match fDecode fmtE2m1 false (code % 16) with
      | .fin n m x => .fin n (m * (4 + fr)) (x + e - 129)
      | y => y
  else
    let e := md % 256
    if e = 255 then .nan false 0 2 false
    else match fDecode (tyFmt t) false code with
      | .fin n m x => .fin n m (x + e - 127)
      | y => y

/-- An encoded block: codes, metadata word, flags of the codes, flags of the metadata. -/
structure Block where
  codes : List Nat
  md : Nat
  fl : Nat
  mdFl : Nat
deriving DecidableEq, Repr

/-- The numerically greatest magnitude (n, e) of a list, 0 for none. -/
def maxMag (l : List FVal) : FVal :=
  l.foldl (fun b x => match x with
    | .fin _ m e => if fLess b (.fin false m e) then .fin false m e else b
    | _ => b) (.fin false 0 0)

/-- A code that an instruction delivers without an operation of its own on it (R165, R166): a NaN gives the
NaN result of R24 and, signalling, IV (R23); any other code is flushed as R25 says. DEDUCED, log 81: the
manual does not say what a reduction does with a value that meets no other. -/
def fDeliver (f : FFmt) (v : FEnv) (r : Nat × Nat) : Nat × Nat :=
  let x := fDecode f false r.1
  if x.isNan then (nanResult f v [x], r.2 ||| nanFlags [x]) else fFlush f v r

/-- A zero result has sign 0 (R37, R40). -/
def unsignZero (f : FFmt) (c : Nat) : Nat := if c % 2 ^ (f.eb + f.fb) = 0 then 0 else c

/-- Whether a decoded element equals its source, for NX (R40). DESIGN CHOICE, log 90: the two are compared as
numbers, so a -0.0 that is encoded as 0b0000 raises no NX. -/
def sameNum (a b : FVal) : Bool := fEq a b

/-- R37. `env i` is the rounding of position i. -/
def encodeMx (t : Ty) (env : Nat → FEnv) (xs : List FVal) : Block :=
  let f := tyFmt t
  if xs.any fun x => x.isNan || x.isInf then
    { codes := xs.map fun _ => 0, md := 0xFF, fl := flIV, mdFl := flIV }
  else
    let emax : Int := match f.kind with | .e2m1 => 2 | .e4m3 => 8 | .ieee => 15
    let e : Int := match maxMag xs with
      | .fin _ m x => if m = 0 then 127 else max 0 (min 254 (floorLog2 m 1 x - emax + 127))
      | _ => 127
    let rs := xs.mapIdx fun i x => match x with
      | .fin n m k => fRound f { env i with sat := true, ftzo := false } n m 1 (k - (e - 127))
      | _ => (0, 0)
    let codes := rs.map fun r => unsignZero f r.1
    let fl := rs.foldl (fun a r => a ||| (r.2 &&& (flNX ||| flSATF))) 0
    { codes, md := e.toNat, fl, mdFl := 0 }

/-- S = (4 + F) × 2^(E - 129) as (4 + F, E - 129), by its rank 4E + F. -/
def k4Scale (k : Nat) : Nat × Int := (4 + k % 4, (k / 4 : Int) - 129)
/-- The spare magnitude of a code as a pair (R39). -/
def k4Spare (m5 : Nat) : Nat × Int := (4 + m5 % 4, (m5 / 4 : Int) - 4)

/-- The M5 code nearest n × 2^e over S, ties to the even code; above 56 the last, clamped. -/
def k4NearSpare (n : Nat) (e : Int) (s : Nat × Int) : Nat × Bool :=
  -- compare 2n × 2^e with (spare k + spare (k+1)) × S
  let twice (a : Nat × Int) (b : Nat × Int) : FX := sumFin 1 [(false, a.1, a.2), (false, b.1, b.2)]
  let x : FVal := .fin false (2 * n) e
  let k := (upTo 30).foldl (fun k i =>
    let c := i + 1
    match twice (k4Spare c) (k4Spare (c + 1)) with
    | .num _ a _ q =>
      let mid : FVal := .fin false (a * s.1) (q + s.2)
      if fLess mid x || (fEq mid x && (c + 1) % 2 == 0) then c + 1 else k
    | _ => k) 1
  let big := fLess (.fin false (56 * s.1) s.2) (.fin false n e)
  (k, big)

/-- R40. -/
def encodeK4 (env : Nat → FEnv) (xs : List FVal) : Block :=
  if xs.any fun x => x.isNan || x.isInf then
    { codes := xs.map fun _ => 0, md := 0xFF * 4, fl := flIV, mdFl := flIV }
  else
    let mag (x : FVal) : FVal := match x with | .fin _ m e => .fin false m e | y => y
    let m1 := maxMag xs
    let j1 := xs.findIdx fun x => fEq (mag x) m1
    let m2 := maxMag (xs.eraseIdx j1)
    let t := if m2.isZero then m1 else m2
    let start : Nat := match t with
      | .fin _ m e => if m = 0 then 0 else (max 0 (floorLog2 m 1 e - 3 + 127)).toNat
      | _ => 0
    let fits (k : Nat) : Bool := !fLess (.fin false (6 * (k4Scale k).1) (k4Scale k).2) t
    let k := match (upTo 20).find? fun i => fits (4 * start + i) with
      | some i => Nat.min (4 * start + i) 1019
      | none => 1019
    let s := k4Scale k
    let spare := fLess (.fin false (6 * s.1) s.2) m1
    let sp := match m1 with | .fin _ m e => k4NearSpare m e s | _ => (1, false)
    let sg := match xs[j1]? with | some x => x.sign | none => false
    let md := k + (if spare then sp.1 * 2 ^ 10 + b2n sg * 2 ^ 15 else 0)
    let codes := xs.mapIdx fun i x => match x with
      | .fin n m e =>
        if spare && i == j1 then 8
        else unsignZero fmtE2m1 (fRound fmtE2m1 { env i with sat := true, ftzo := false } n m s.1 (e - s.2)).1
      | _ => 0
    let nx := (xs.zip codes).any fun p => !sameNum p.1 (blockVal .k4 md p.2)
    let satf := if spare && sp.2 then flSATF else 0
    { codes, md, fl := (if nx then flNX else 0) ||| satf, mdFl := satf }

def encodeBlock (t : Ty) (env : Nat → FEnv) (xs : List FVal) : Block :=
  if t = .k4 then encodeK4 env xs else encodeMx t env xs

end Sys2Proof.Machine
end

