-- ==== Sys2Proof/Decode.lean ====
section
/-! DEFINITION. The decoder, total on every 64-bit word (R49 to R64), the decoder of command packets
(R390), and after them the encoder, written from the same tables. -/

namespace Sys2Proof

/-! ### Fields of a word -/

def Src.ofBits (x : BitVec 5) : Src :=
  if x.getLsbD 4 then .g (x.extractLsb' 0 4) else .a (x.extractLsb' 0 4)

/-- The 5-bit field at bit `lo` (R51). -/
def srcAt (w : Word) (lo : Nat) : Src := Src.ofBits (w.extractLsb' lo 5)

/-- Bits [55:49] (R49). -/
def Ctl.ofWord (w : Word) : Ctl :=
  { u := w.getLsbD 55, ge := w.getLsbD 54, gp := w.extractLsb' 50 4, gs := w.getLsbD 49 }

/-- R53. -/
def Q3.ofWord (w : Word) : Q3 :=
  { sa := srcAt w 44, sb := srcAt w 39, sc := srcAt w 34, rm := w.extractLsb' 31 3,
    ty := Ty.ofCode (w.extractLsb' 26 5), pd := w.extractLsb' 22 4, imm := w.getLsbD 21,
    sat := w.getLsbD 20, mod := w.extractLsb' 16 4, imm16 := w.extractLsb' 0 16 }

/-- R55. -/
def QI.ofWord (w : Word) : QI :=
  { sa := srcAt w 44, sb := srcAt w 39, fn := w.extractLsb' 33 6, z := w.getLsbD 32,
    imm32 := w.extractLsb' 0 32 }

/-- R56. -/
def BR.ofWord (w : Word) : BR :=
  { sa := srcAt w 44, sb := srcAt w 39, aux := w.extractLsb' 35 4, kind := w.extractLsb' 32 3,
    offs := w.extractLsb' 0 32 }

/-- R57. -/
def ME.ofWord (w : Word) : ME :=
  { sa := srcAt w 44, sb := srcAt w 39, sc := srcAt w 34, sz := w.extractLsb' 31 3,
    ord := w.extractLsb' 29 2, scope := w.extractLsb' 26 3, ack := w.getLsbD 25, sx := w.getLsbD 24,
    mod := w.extractLsb' 20 4, offset := w.extractLsb' 0 20 }

/-- R58. -/
def MX.ofWord (w : Word) : MX :=
  { sa := srcAt w 44, sb := srcAt w 39, sc := srcAt w 34, z := w.extractLsb' 32 2,
    ta := w.extractLsb' 28 4, tb := w.extractLsb' 24 4, tc := w.extractLsb' 21 3, acc := w.getLsbD 20,
    negp := w.getLsbD 19, rm := w.extractLsb' 16 3, imm16 := w.extractLsb' 0 16 }

/-- R59. -/
def CP.ofWord (w : Word) : CP :=
  { sa := srcAt w 44, sb := srcAt w 39, sc := srcAt w 34, cq := w.extractLsb' 30 4,
    sub := w.extractLsb' 26 4, imm26 := w.extractLsb' 0 26 }

/-- R59. -/
def SY.ofWord (w : Word) : SY :=
  { sa := srcAt w 44, sb := srcAt w 39, rsv := w.extractLsb' 28 11, sreg := w.extractLsb' 16 12,
    imm16 := w.extractLsb' 0 16 }

/-! ### The opcode map -/

/-- The instruction an assigned opcode names (R64), with its fields as they stand; `none` is check 1 of
R62. Rows that share an opcode are told apart by the field that their chapter names. -/
def decodeRaw (w : Word) : Option Instr :=
  let c := Ctl.ofWord w
  match bitsOf w 63 56 with
  | 0x00 => some (.nop c (SY.ofWord w))
  | 0x01 => some (.pass c (Q3.ofWord w))
  | 0x02 => some (.ldi c (QI.ofWord w))
  | 0x03 => some (.ldih c (QI.ofWord w))
  | 0x04 => some (.save c (Q3.ofWord w))
  | 0x05 => some (.rest c (Q3.ofWord w))
  | 0x06 => some (.lane c (Q3.ofWord w))
  | 0x07 => some (.unif c (Q3.ofWord w))
  | 0x08 => some (.bra c (BR.ofWord w))
  | 0x09 => some (.brc c (BR.ofWord w))
  | 0x0A => some (.brd c (BR.ofWord w))
  | 0x0B => some (.join c (BR.ofWord w))
  | 0x0C => some (.call c (BR.ofWord w))
  | 0x0D => some (.calli c (BR.ofWord w))
  | 0x0E => some (.ret c (BR.ofWord w))
  | 0x0F => some (.loop c (BR.ofWord w))
  | 0x10 => some (.brx c (BR.ofWord w))
  | 0x11 => some (.exit c (SY.ofWord w))
  | 0x12 => some (.region c (SY.ofWord w))
  | 0x13 => some (.bkpt c (SY.ofWord w))
  | 0x14 => some (.trap c (SY.ofWord w))
  | 0x15 => some (.wait c (SY.ofWord w))
  | 0x16 => some (.nap c (SY.ofWord w))
  | 0x17 => some (.pset c (Q3.ofWord w))
  | 0x18 => some (.plop c (Q3.ofWord w))
  | 0x19 => some (.pmov c (Q3.ofWord w))
  | 0x1A => some (.pgat c (Q3.ofWord w))
  | 0x1B => some (.sel c (Q3.ofWord w))
  | 0x1C => some (.fspill c (ME.ofWord w))
  | 0x1D => some (.ffill c (ME.ofWord w))
  | 0x30 => some (.add c (Q3.ofWord w))
  | 0x31 => some (.sub c (Q3.ofWord w))
  | 0x32 => some (.mul c (Q3.ofWord w))
  | 0x33 => some (.mulh c (Q3.ofWord w))
  | 0x34 => some (.mad c (Q3.ofWord w))
  | 0x35 => some (.madw c (Q3.ofWord w))
  | 0x36 => some (.min c (Q3.ofWord w))
  | 0x37 => some (.max c (Q3.ofWord w))
  | 0x38 => some (.abs c (Q3.ofWord w))
  | 0x39 => some (.neg c (Q3.ofWord w))
  | 0x3A => some (.adif c (Q3.ofWord w))
  | 0x3B => some (.clamp c (Q3.ofWord w))
  | 0x4C => some (.div c (Q3.ofWord w))
  | 0x4D => some (.rem c (Q3.ofWord w))
  | 0x4B => some (.addx c (Q3.ofWord w))
  | 0x3C => some (.and c (Q3.ofWord w))
  | 0x3D => some (.or c (Q3.ofWord w))
  | 0x3E => some (.xor c (Q3.ofWord w))
  | 0x3F => some (.andn c (Q3.ofWord w))
  | 0x40 => some (.not c (Q3.ofWord w))
  | 0x41 => some (.shl c (Q3.ofWord w))
  | 0x42 => some (.shr c (Q3.ofWord w))
  | 0x43 => some (.sar c (Q3.ofWord w))
  | 0x44 => some (.rol c (Q3.ofWord w))
  | 0x45 => some (.bfe c (Q3.ofWord w))
  | 0x46 => some (.bfi c (Q3.ofWord w))
  | 0x47 => some (.popc c (Q3.ofWord w))
  | 0x48 => some (.clz c (Q3.ofWord w))
  | 0x49 => some (.brev c (Q3.ofWord w))
  | 0x4A => some (.btab c (Q3.ofWord w))
  | 0x4E => some (.bpik c (Q3.ofWord w))
  | 0x4F => some (.dot4 c (Q3.ofWord w))
  | 0x50 => some (.dot2 c (Q3.ofWord w))
  | 0x51 => some (.rqs c (Q3.ofWord w))
  | 0x52 => some (if bitAt w 38 then .leaImm c (QI.ofWord w) else .leaReg c (Q3.ofWord w))
  | 0x53 => some (.ptag c (Q3.ofWord w))
  | 0x54 => some (.pfld c (Q3.ofWord w))
  | 0x60 => some (.fadd c (Q3.ofWord w))
  | 0x61 => some (.fsub c (Q3.ofWord w))
  | 0x62 => some (.fmul c (Q3.ofWord w))
  | 0x63 => some (.fma c (Q3.ofWord w))
  | 0x64 => some (.fmin c (Q3.ofWord w))
  | 0x65 => some (.fmax c (Q3.ofWord w))
  | 0x66 => some (.fcmp c (Q3.ofWord w))
  | 0x67 => some (.fcls c (Q3.ofWord w))
  | 0x68 => some (.frcp c (Q3.ofWord w))
  | 0x69 => some (.frsq c (Q3.ofWord w))
  | 0x6A => some (.fsqrt c (Q3.ofWord w))
  | 0x6B => some (.fdiv c (Q3.ofWord w))
  | 0x6C => some (.fex2 c (Q3.ofWord w))
  | 0x6D => some (.flg2 c (Q3.ofWord w))
  | 0x6E => some (.fsin c (Q3.ofWord w))
  | 0x6F => some (.fcos c (Q3.ofWord w))
  | 0x70 => some (.ftnh c (Q3.ofWord w))
  | 0x71 => some (.fscl c (Q3.ofWord w))
  | 0x72 => some (.frnd c (Q3.ofWord w))
  | 0x73 => some (.fdot2 c (Q3.ofWord w))
  | 0x74 => some (.cvt c (Q3.ofWord w))
  | 0x75 => some (.cvtb c (Q3.ofWord w))
  | 0x76 => some (.cvtu c (Q3.ofWord w))
  | 0x77 => some (.pack c (Q3.ofWord w))
  | 0x78 => some (.lxch c (Q3.ofWord w))
  | 0x79 => some (.redg c (Q3.ofWord w))
  | 0x7A => some (.scan c (Q3.ofWord w))
  | 0x7B => some (.vext c (Q3.ofWord w))
  | 0x7C => some (.vins c (Q3.ofWord w))
  | 0x7D => some (.vperm c (Q3.ofWord w))
  | 0x7E => some (.vsplt c (Q3.ofWord w))
  | 0x90 => some (if bitsOf w 1 0 = 0 then .gangLeave c (SY.ofWord w) else .gang c (SY.ofWord w))
  | 0x91 => some (.mma c (MX.ofWord w))
  | 0x92 => some (.mmz c (MX.ofWord w))
  | 0x93 => some (.mmld c (MX.ofWord w))
  | 0x94 => some (.mmst c (MX.ofWord w))
  | 0x95 => some (.mmrd c (MX.ofWord w))
  | 0x96 => some (.mmstat c (SY.ofWord w))
  | 0xA0 => some (.ld c (ME.ofWord w))
  | 0xA1 => some (.st c (ME.ofWord w))
  | 0xA2 => some (.ldz c (ME.ofWord w))
  | 0xA3 => some (.atom c (ME.ofWord w))
  | 0xA4 => some (.atomn c (ME.ofWord w))
  | 0xA5 => some (.cas c (ME.ofWord w))
  | 0xA6 => some (.fence c (ME.ofWord w))
  | 0xA7 => some (.alloc c (ME.ofWord w))
  | 0xA8 => some (.free c (ME.ofWord w))
  | 0xA9 => some (.pcommit c (ME.ofWord w))
  | 0xAA => some (.pdecommit c (ME.ofWord w))
  | 0xAB => some (.pquery c (ME.ofWord w))
  | 0xC0 => some (.cpyl c (CP.ofWord w))
  | 0xC1 => some (.cpyt c (CP.ofWord w))
  | 0xC2 => some (match bitsOf w 29 26 with
    | 1 => .cpyfBar c (CP.ofWord w)
    | 2 => .cpyfCring c (CP.ofWord w)
    | _ => .cpyfJoin c (CP.ofWord w))
  | 0xC3 => some (if bitsOf w 29 26 = 1 then .cpyrSkip c (CP.ofWord w) else .cpyrResume c (CP.ofWord w))
  | 0xC4 => some (.rinit c (CP.ofWord w))
  | 0xC5 => some (.rclm c (CP.ofWord w))
  | 0xC6 => some (if bitAt w 26 then .rcmtQ c (CP.ofWord w) else .rcmt c (CP.ofWord w))
  | 0xC7 => some (.rawt c (CP.ofWord w))
  | 0xC8 => some (.rret c (CP.ofWord w))
  | 0xC9 => some (.rsub c (CP.ofWord w))
  | 0xCA => some (.rclose c (CP.ofWord w))
  | 0xCB => some (.binit c (CP.ofWord w))
  | 0xCC => some (.barv c (CP.ofWord w))
  | 0xCD => some (.bwait c (CP.ofWord w))
  | 0xCE => some (.barw c (CP.ofWord w))
  | 0xCF => some (.bexp c (CP.ofWord w))
  | 0xD0 => some (.evbind c (CP.ofWord w))
  | 0xD1 => some (.evmask c (CP.ofWord w))
  | 0xD2 => some (.evwait c (CP.ofWord w))
  | 0xD3 => some (.evpoll c (CP.ofWord w))
  | 0xD4 => some (.evraise c (CP.ofWord w))
  | 0xD5 => some (.evclr c (CP.ofWord w))
  | 0xD6 => some (.msend c (CP.ofWord w))
  | 0xD7 => some (.mrecv c (CP.ofWord w))
  | 0xD8 => some (.spawn c (CP.ofWord w))
  | 0xD9 => some (.yield c (CP.ofWord w))
  | 0xE0 => some (.srd c (SY.ofWord w))
  | 0xE1 => some (.swr c (SY.ofWord w))
  | 0xE2 => some (.tret c (SY.ofWord w))
  | 0xE3 => some (if bitAt w 0 then .tmaskMask c (SY.ofWord w) else .tmaskUnmask c (SY.ofWord w))
  | 0xE4 => some (.segset c (SY.ofWord w))
  | 0xE5 => some (.harvest c (SY.ofWord w))
  | 0xE6 => some (.tinv c (SY.ofWord w))
  | 0xE7 => some (.icinv c (SY.ofWord w))
  | 0xE8 => some (.snapt c (SY.ofWord w))
  | _ => none

/-- Why a word is no instruction (R62, checks 1 and 2). -/
inductive DecodeError
  | illop
  | illfld
deriving DecidableEq, Repr

/-- Checks 1 and 2 of R62 on a word. -/
def decodeWord (w : Word) : Except DecodeError Instr :=
  match decodeRaw w with
  | none => .error .illop
  | some i => if i.wf then .ok i else .error .illfld

/-- The word that eight bytes hold, the lowest address first (R3, R49). -/
def wordOfBytes (bs : List Byte) : Word := BitVec.ofNat 64 (ofBytes bs)

/-- The instruction at eight bytes of memory (R49). -/
def decodeBytes (bs : List Byte) : Except DecodeError Instr := decodeWord (wordOfBytes bs)

/-- The instruction read from `w` laid out as memory holds it; bits above `nbits` are zero. -/
def decodeTableWord (nbits w : Nat) : Option Instr :=
  match decodeBytes (bytesOf 8 (w % 2 ^ nbits)) with
  | .ok i => some i
  | .error _ => none

/-- Word `k` of a packet. -/
def Packet.word (p : Packet) (k : Nat) : Word := p.words.getD k 0

/-- The KIND of a packet (R390). -/
def Packet.kind (p : Packet) : Nat := bitsOf (p.word 0) 7 0

/-- The packet row a KIND names (R390); POOL is two rows, by its take bit. -/
def decodePacket (p : Packet) : Instr :=
  match p.kind with
  | 0x00 => .nopPacket p
  | 0x01 => .ctxnew p
  | 0x02 => .ctxdel p
  | 0x03 => .qnew p
  | 0x04 => .qdel p
  | 0x05 => .load p
  | 0x06 => .unload p
  | 0x07 => .launch p
  | 0x08 => .preempt p
  | 0x09 => .tinvq p
  | 0x0A => if bitAt (p.word 1) 16 then .poolTake p else .poolAdd p
  | 0x0B => .retry p
  | 0x0C => .migrate p
  | 0x0D => .offline p
  | 0x0E => .signal p
  | 0x0F => .waitmem p
  | 0x10 => .census p
  | _ => .badkind p

/-! ### The encoder -/

def Src.bits : Src → BitVec 5
  | .a k => 0#1 ++ k
  | .g k => 1#1 ++ k

def bit1 (b : Bool) : BitVec 1 := BitVec.ofBool b

def Ctl.bits (c : Ctl) : BitVec 7 := bit1 c.u ++ bit1 c.ge ++ c.gp ++ bit1 c.gs

def Q3.bits (f : Q3) : BitVec 49 :=
  f.sa.bits ++ f.sb.bits ++ f.sc.bits ++ f.rm ++ f.ty.code ++ f.pd ++ bit1 f.imm ++ bit1 f.sat ++
  f.mod ++ f.imm16

def QI.bits (f : QI) : BitVec 49 := f.sa.bits ++ f.sb.bits ++ f.fn ++ bit1 f.z ++ f.imm32

def BR.bits (f : BR) : BitVec 49 := f.sa.bits ++ f.sb.bits ++ f.aux ++ f.kind ++ f.offs

def ME.bits (f : ME) : BitVec 49 :=
  f.sa.bits ++ f.sb.bits ++ f.sc.bits ++ f.sz ++ f.ord ++ f.scope ++ bit1 f.ack ++ bit1 f.sx ++ f.mod ++
  f.offset

def MX.bits (f : MX) : BitVec 49 :=
  f.sa.bits ++ f.sb.bits ++ f.sc.bits ++ f.z ++ f.ta ++ f.tb ++ f.tc ++ bit1 f.acc ++ bit1 f.negp ++
  f.rm ++ f.imm16

def CP.bits (f : CP) : BitVec 49 :=
  f.sa.bits ++ f.sb.bits ++ f.sc.bits ++ f.cq ++ f.sub ++ f.imm26

def SY.bits (f : SY) : BitVec 49 := f.sa.bits ++ f.sb.bits ++ f.rsv ++ f.sreg ++ f.imm16

/-- A word from its opcode, bits [55:49] and bits [48:0] (R49). -/
def word (opc : BitVec 8) (c : Ctl) (body : BitVec 49) : Word := opc ++ c.bits ++ body

/-- The word of an instruction; the steps that are not instructions have none. -/
def encode : Instr → Option Word
  | .nop c f => some (word 0x00 c f.bits)
  | .pass c f => some (word 0x01 c f.bits)
  | .ldi c f => some (word 0x02 c f.bits)
  | .ldih c f => some (word 0x03 c f.bits)
  | .save c f => some (word 0x04 c f.bits)
  | .rest c f => some (word 0x05 c f.bits)
  | .lane c f => some (word 0x06 c f.bits)
  | .unif c f => some (word 0x07 c f.bits)
  | .bra c f => some (word 0x08 c f.bits)
  | .brc c f => some (word 0x09 c f.bits)
  | .brd c f => some (word 0x0A c f.bits)
  | .join c f => some (word 0x0B c f.bits)
  | .call c f => some (word 0x0C c f.bits)
  | .calli c f => some (word 0x0D c f.bits)
  | .ret c f => some (word 0x0E c f.bits)
  | .loop c f => some (word 0x0F c f.bits)
  | .brx c f => some (word 0x10 c f.bits)
  | .exit c f => some (word 0x11 c f.bits)
  | .region c f => some (word 0x12 c f.bits)
  | .bkpt c f => some (word 0x13 c f.bits)
  | .trap c f => some (word 0x14 c f.bits)
  | .wait c f => some (word 0x15 c f.bits)
  | .nap c f => some (word 0x16 c f.bits)
  | .pset c f => some (word 0x17 c f.bits)
  | .plop c f => some (word 0x18 c f.bits)
  | .pmov c f => some (word 0x19 c f.bits)
  | .pgat c f => some (word 0x1A c f.bits)
  | .sel c f => some (word 0x1B c f.bits)
  | .fspill c f => some (word 0x1C c f.bits)
  | .ffill c f => some (word 0x1D c f.bits)
  | .add c f => some (word 0x30 c f.bits)
  | .sub c f => some (word 0x31 c f.bits)
  | .mul c f => some (word 0x32 c f.bits)
  | .mulh c f => some (word 0x33 c f.bits)
  | .mad c f => some (word 0x34 c f.bits)
  | .madw c f => some (word 0x35 c f.bits)
  | .min c f => some (word 0x36 c f.bits)
  | .max c f => some (word 0x37 c f.bits)
  | .abs c f => some (word 0x38 c f.bits)
  | .neg c f => some (word 0x39 c f.bits)
  | .adif c f => some (word 0x3A c f.bits)
  | .clamp c f => some (word 0x3B c f.bits)
  | .div c f => some (word 0x4C c f.bits)
  | .rem c f => some (word 0x4D c f.bits)
  | .addx c f => some (word 0x4B c f.bits)
  | .and c f => some (word 0x3C c f.bits)
  | .or c f => some (word 0x3D c f.bits)
  | .xor c f => some (word 0x3E c f.bits)
  | .andn c f => some (word 0x3F c f.bits)
  | .not c f => some (word 0x40 c f.bits)
  | .shl c f => some (word 0x41 c f.bits)
  | .shr c f => some (word 0x42 c f.bits)
  | .sar c f => some (word 0x43 c f.bits)
  | .rol c f => some (word 0x44 c f.bits)
  | .bfe c f => some (word 0x45 c f.bits)
  | .bfi c f => some (word 0x46 c f.bits)
  | .popc c f => some (word 0x47 c f.bits)
  | .clz c f => some (word 0x48 c f.bits)
  | .brev c f => some (word 0x49 c f.bits)
  | .btab c f => some (word 0x4A c f.bits)
  | .bpik c f => some (word 0x4E c f.bits)
  | .dot4 c f => some (word 0x4F c f.bits)
  | .dot2 c f => some (word 0x50 c f.bits)
  | .rqs c f => some (word 0x51 c f.bits)
  | .leaReg c f => some (word 0x52 c f.bits)
  | .leaImm c f => some (word 0x52 c f.bits)
  | .ptag c f => some (word 0x53 c f.bits)
  | .pfld c f => some (word 0x54 c f.bits)
  | .fadd c f => some (word 0x60 c f.bits)
  | .fsub c f => some (word 0x61 c f.bits)
  | .fmul c f => some (word 0x62 c f.bits)
  | .fma c f => some (word 0x63 c f.bits)
  | .fmin c f => some (word 0x64 c f.bits)
  | .fmax c f => some (word 0x65 c f.bits)
  | .fcmp c f => some (word 0x66 c f.bits)
  | .fcls c f => some (word 0x67 c f.bits)
  | .frcp c f => some (word 0x68 c f.bits)
  | .frsq c f => some (word 0x69 c f.bits)
  | .fsqrt c f => some (word 0x6A c f.bits)
  | .fdiv c f => some (word 0x6B c f.bits)
  | .fex2 c f => some (word 0x6C c f.bits)
  | .flg2 c f => some (word 0x6D c f.bits)
  | .fsin c f => some (word 0x6E c f.bits)
  | .fcos c f => some (word 0x6F c f.bits)
  | .ftnh c f => some (word 0x70 c f.bits)
  | .fscl c f => some (word 0x71 c f.bits)
  | .frnd c f => some (word 0x72 c f.bits)
  | .fdot2 c f => some (word 0x73 c f.bits)
  | .cvt c f => some (word 0x74 c f.bits)
  | .cvtb c f => some (word 0x75 c f.bits)
  | .cvtu c f => some (word 0x76 c f.bits)
  | .pack c f => some (word 0x77 c f.bits)
  | .lxch c f => some (word 0x78 c f.bits)
  | .redg c f => some (word 0x79 c f.bits)
  | .scan c f => some (word 0x7A c f.bits)
  | .vext c f => some (word 0x7B c f.bits)
  | .vins c f => some (word 0x7C c f.bits)
  | .vperm c f => some (word 0x7D c f.bits)
  | .vsplt c f => some (word 0x7E c f.bits)
  | .gang c f => some (word 0x90 c f.bits)
  | .gangLeave c f => some (word 0x90 c f.bits)
  | .mma c f => some (word 0x91 c f.bits)
  | .mmz c f => some (word 0x92 c f.bits)
  | .mmld c f => some (word 0x93 c f.bits)
  | .mmst c f => some (word 0x94 c f.bits)
  | .mmrd c f => some (word 0x95 c f.bits)
  | .mmstat c f => some (word 0x96 c f.bits)
  | .ld c f => some (word 0xA0 c f.bits)
  | .st c f => some (word 0xA1 c f.bits)
  | .ldz c f => some (word 0xA2 c f.bits)
  | .atom c f => some (word 0xA3 c f.bits)
  | .atomn c f => some (word 0xA4 c f.bits)
  | .cas c f => some (word 0xA5 c f.bits)
  | .fence c f => some (word 0xA6 c f.bits)
  | .alloc c f => some (word 0xA7 c f.bits)
  | .free c f => some (word 0xA8 c f.bits)
  | .pcommit c f => some (word 0xA9 c f.bits)
  | .pdecommit c f => some (word 0xAA c f.bits)
  | .pquery c f => some (word 0xAB c f.bits)
  | .cpyl c f => some (word 0xC0 c f.bits)
  | .cpyt c f => some (word 0xC1 c f.bits)
  | .cpyfJoin c f => some (word 0xC2 c f.bits)
  | .cpyfBar c f => some (word 0xC2 c f.bits)
  | .cpyfCring c f => some (word 0xC2 c f.bits)
  | .cpyrResume c f => some (word 0xC3 c f.bits)
  | .cpyrSkip c f => some (word 0xC3 c f.bits)
  | .rinit c f => some (word 0xC4 c f.bits)
  | .rclm c f => some (word 0xC5 c f.bits)
  | .rcmt c f => some (word 0xC6 c f.bits)
  | .rcmtQ c f => some (word 0xC6 c f.bits)
  | .rawt c f => some (word 0xC7 c f.bits)
  | .rret c f => some (word 0xC8 c f.bits)
  | .rsub c f => some (word 0xC9 c f.bits)
  | .rclose c f => some (word 0xCA c f.bits)
  | .binit c f => some (word 0xCB c f.bits)
  | .barv c f => some (word 0xCC c f.bits)
  | .bwait c f => some (word 0xCD c f.bits)
  | .barw c f => some (word 0xCE c f.bits)
  | .bexp c f => some (word 0xCF c f.bits)
  | .evbind c f => some (word 0xD0 c f.bits)
  | .evmask c f => some (word 0xD1 c f.bits)
  | .evwait c f => some (word 0xD2 c f.bits)
  | .evpoll c f => some (word 0xD3 c f.bits)
  | .evraise c f => some (word 0xD4 c f.bits)
  | .evclr c f => some (word 0xD5 c f.bits)
  | .msend c f => some (word 0xD6 c f.bits)
  | .mrecv c f => some (word 0xD7 c f.bits)
  | .spawn c f => some (word 0xD8 c f.bits)
  | .yield c f => some (word 0xD9 c f.bits)
  | .srd c f => some (word 0xE0 c f.bits)
  | .swr c f => some (word 0xE1 c f.bits)
  | .tret c f => some (word 0xE2 c f.bits)
  | .tmaskMask c f => some (word 0xE3 c f.bits)
  | .tmaskUnmask c f => some (word 0xE3 c f.bits)
  | .segset c f => some (word 0xE4 c f.bits)
  | .harvest c f => some (word 0xE5 c f.bits)
  | .tinv c f => some (word 0xE6 c f.bits)
  | .icinv c f => some (word 0xE7 c f.bits)
  | .snapt c f => some (word 0xE8 c f.bits)
  | .step _ | .groupWake _ | .loadDataArrive _ _ | .exitRetire _
  | .regionRestart _ | .tlbWalk _ _ _ | .storeOrder _ | .storeForward _
  | .storeAcknowledge _ | .atomicPerform _ | .storeLossPathDown _ | .storeAckTimeout _
  | .acklostExpire _ | .napExpiry _ | .wdog _ | .budget _ _
  | .gangTileGrant _ | .jointOpPerform _ | .tileOpPerform _ _ | .copyStart _
  | .copyLine _ | .copyCompletion _ | .copyJoinRelease _ | .ringClaimGrant _
  | .ringAwaitResolve _ | .ringQueuedCommit _ | .loaderBox _ | .storerBox _
  | .barrierParentRelease _ | .barrierCombinerLost _ | .timerEdge _ _ | .eventDispatch _
  | .mailDeliver _ | .spawnBinTimer _ | .spawnBinLaunch _ _ | .teamPlace _ _
  | .deadlineExpire _ _ _ | .powerPeriod _ _ _ | .partitionGrant _ _ _ | .contextDrained _
  | .contextHalted _ | .softTimeout _ | .hardTimeout _ | .resetDone _
  | .loadComplete _ _ _ | .loadReject _ _ _ | .codeObjectDrained _ _ | .towerLoss _
  | .admqWrite _ | .doorbell _ _ | .pcselWrite _ | .snapValidClear
  | .registerWrite _ _ | .nopPacket _ | .ctxnew _ | .ctxdel _
  | .qnew _ | .qdel _ | .load _ | .unload _
  | .launch _ | .preempt _ | .tinvq _ | .poolAdd _
  | .poolTake _ | .retry _ | .migrate _ | .offline _
  | .signal _ | .waitmem _ | .census _ | .badkind _
  | .queueUnblock _ | .hostAccess _ _ | .peerRemoteAccess _ | .flitReplay _ _
  | .trainOk _ | .trainFail _ | .retrainTimeout _ | .routeHoldRelease _
  | .standbyOn | .standbyOff | .mainOn | .mainOff
  | .authOk | .authFail | .trainDone | .bootTrainFail
  | .mctpControl | .status | .setdid _ | .setroute _ _
  | .linkEnable _ | .linkFence _ | .linkUnfence _ | .linkDisable _
  | .mgmtOffline _ _ | .bcap _ _ | .snap _ | .snapread
  | .fwstage _ | .mgmtReset | .patch _ | .fwcommit
  | .getVersion _ | .getCapabilities _ | .negotiateAlgorithms _ | .getDigests _
  | .getCertificate _ | .challenge _ | .getMeasurements _ | .spdmUnsupportedRequest _
  | .uncorrectableSoftError _ | .companionHostLineWrite _ _ => none

/-- The code of a management command (R410). -/
def mgmtCode : Instr → Option (BitVec 8)
  | .status => some 0x01
  | .setdid _ => some 0x02
  | .setroute _ _ => some 0x03
  | .linkEnable _ => some 0x04
  | .linkFence _ => some 0x04
  | .linkUnfence _ => some 0x04
  | .linkDisable _ => some 0x04
  | .mgmtOffline _ _ => some 0x05
  | .bcap _ _ => some 0x06
  | .snap _ => some 0x07
  | .snapread => some 0x08
  | .fwstage _ => some 0x09
  | .mgmtReset => some 0x0A
  | .patch _ => some 0x0B
  | .fwcommit => some 0x0C
  | _ => none

/-- The instruction is one a group issues: it has a word. -/
def Instr.isWord (i : Instr) : Bool := (encode i).isSome

end Sys2Proof
end

