-- ==== Sys2Proof/Machine/Atom.lean ====
section
/-! DEFINITION. What an atomic does to the value at its location (R210 to R212, R215). -/

namespace Sys2Proof.Machine

/-- No flags, no flushing, round to nearest (R211). -/
def atomEnv : FEnv := ⟨1, 0, false, false, false, false⟩

/-- The new value of an atomic of width `w` bits (R210); code 16 is CAS (R212). -/
def atomNew (code w old d cmp : Nat) : Nat :=
  let fm := if w = 32 then fmtF32 else fmtF64
  let so := sxNat w old
  let sd := sxNat w d
  match code with
  | 0 => d
  | 1 => (old + d) % 2 ^ w
  | 2 => old &&& d
  | 3 => old ||| d
  | 4 => old ^^^ d
  | 5 => if so ≤ sd then old else d
  | 6 => if so ≤ sd then d else old
  | 7 => Nat.min old d
  | 8 => Nat.max old d
  | 9 => if d ≤ old then 0 else old + 1
  | 10 => if old = 0 ∨ d < old then d else old - 1
  | 11 => (fAdd fm atomEnv (fDecode fm false old) (fDecode fm false d)).1
  | 12 => (fMinMax fm atomEnv false false old d).1
  | 13 => (fMinMax fm atomEnv true false old d).1
  | _ => if old = cmp then d else old

/-- The lanes performed one after another: the final value, whether any wrote (R212), the answers (R215). -/
def atomLanes (code w : Nat) : Nat → List AtomLane → Nat × Bool × List (Nat × Nat)
  | v, [] => (v, false, [])
  | v, l :: r =>
    let x := atomLanes code w (atomNew code w v l.d l.cmp) r
    (x.1, x.2.1 || code != 16 || v == l.cmp, (match l.pend with | some p => [(p, v)] | none => []) ++ x.2.2)

end Sys2Proof.Machine
end

