-- ==== Sys2Proof/Machine/Memory.lean ====
section
/-! DEFINITION. Bytes of physical memory (R218), poison (R216), page tables and translation (R359 to
R367), and the checks of a pointer (R195 to R203). -/

namespace Sys2Proof

/-! ### Locations -/

/-- The byte `n` further on. -/
def Loc.plus (l : Loc) (n : Nat) : Loc :=
  match l with
  | .dev a => .dev (a + n)
  | .host a => .host (a + n)
  | .scr c r o => .scr c r (o + n)
  | .peer d c e k o => .peer d c e k (o + n)

/-- The number that counts bytes of the location's memory. -/
def Loc.pos : Loc → Nat
  | .dev a => a
  | .host a => a
  | .scr _ _ o => o
  | .peer _ _ _ _ o => o

/-- Two locations lie in one memory. -/
def Loc.same : Loc → Loc → Bool
  | .dev _, .dev _ => true
  | .host _, .host _ => true
  | .scr c r _, .scr c' r' _ => c == c' && r == r'
  | .peer d c e k _, .peer d' c' e' k' _ => d == d' && c == c' && e == e' && k == k'
  | _, _ => false

/-- The start of the aligned block of `n` bytes that holds the location. -/
def Loc.floor (l : Loc) (n : Nat) : Loc :=
  let d (x : Nat) := x / n * n
  match l with
  | .dev a => .dev (d a)
  | .host a => .host (d a)
  | .scr c r o => .scr c r (d o)
  | .peer i c e k o => .peer i c e k (d o)

end Sys2Proof

namespace Sys2Proof.Machine

/-! ### Lists of cells -/

/-- What the byte at an address reads as; an unlisted address reads 0 (log 8). -/
def cellGet : List Host.Cell → Nat → Byte
  | [], _ => 0
  | (a, b) :: m, k => if a = k then b else cellGet m k

/-- Write one byte, keeping addresses rising and no entry of the unlisted value. -/
def cellSet : List Host.Cell → Nat → Byte → List Host.Cell
  | [], k, v => if v = 0 then [] else [(k, v)]
  | (a, b) :: m, k, v =>
    if k < a then (if v = 0 then (a, b) :: m else (k, v) :: (a, b) :: m)
    else if k = a then (if v = 0 then m else (k, v) :: m)
    else (a, b) :: cellSet m k v

/-- Every address of the list lies above `k`. -/
def cellsAbove (k : Nat) (m : List Host.Cell) : Bool := m.all fun c => k < c.1

/-- The canonical form of a memory. -/
def cellsWf : List Host.Cell → Bool
  | [] => true
  | (a, b) :: m => b != 0 && cellsAbove a m && cellsWf m

/-- Every memory of the package is in canonical form. -/
def Memory.wf (s : State) : Bool :=
  cellsWf s.dev && cellsWf s.host && s.scratch.all fun x => cellsWf x.mem

/-- `n` bytes at `a` meet `m` bytes at `b`. -/
def overlaps (a : Loc) (n : Nat) (b : Loc) (m : Nat) : Bool :=
  a.same b && a.pos < b.pos + m && b.pos < a.pos + n

/-- `n` bytes at `a` lie inside `m` bytes at `b`. -/
def inside (a : Loc) (n : Nat) (b : Loc) (m : Nat) : Bool :=
  a.same b && b.pos ≤ a.pos && a.pos + n ≤ b.pos + m

def scratchOf (s : State) (c r : Nat) : List Host.Cell :=
  match s.scratch.find? fun x => x.ctx == c && x.rank == r with
  | some x => x.mem
  | none => []

/-- Read one byte. A PEER byte is not held here (R402). -/
def readByte (s : State) : Loc → Byte
  | .dev a => cellGet s.dev a
  | .host a => cellGet s.host a
  | .scr c r o => cellGet (scratchOf s c r) o
  | .peer .. => 0

def readBytes (s : State) (l : Loc) (n : Nat) : List Byte := (upTo n).map fun i => readByte s (l.plus i)
def readNat (s : State) (l : Loc) (n : Nat) : Nat := ofBytes (readBytes s l n)
def readWord (s : State) (l : Loc) : Word := BitVec.ofNat 64 (readNat s l 8)

def scratchSet (l : List Scratch) (c r o : Nat) (v : Byte) : List Scratch :=
  match l with
  | [] => [{ ctx := c, rank := r, mem := cellSet [] o v }]
  | x :: xs =>
    if x.ctx = c ∧ x.rank = r then { x with mem := cellSet x.mem o v } :: xs
    else x :: scratchSet xs c r o v

/-- Write one byte. -/
def writeByte (s : State) (l : Loc) (v : Byte) : State :=
  match l with
  | .dev a => { s with dev := cellSet s.dev a v }
  | .host a => { s with host := cellSet s.host a v }
  | .scr c r o => { s with scratch := scratchSet s.scratch c r o v }
  | .peer .. => s

/-- Write bytes at rising addresses without setting a written bit. -/
def pokeBytes (s : State) (l : Loc) : List Byte → State
  | [] => s
  | b :: bs => pokeBytes (writeByte s l b) (l.plus 1) bs

/-- Set the written bit of a page (R369). -/
def markWritten (s : State) (l : Loc) : State :=
  match l with
  | .dev _ | .host _ =>
    let p := l.floor 65536
    if s.written.contains p then s else { s with written := p :: s.written }
  | _ => s

/-- The directory of a home, or a Sill port's line filter, takes the lines of these bytes from every L1 data cache
but those that `own` names (R202). -/
def dropLines (s : State) (l : Loc) (n : Nat) (own : DCacheRec → Bool) : State :=
  { s with dcache := s.dcache.filter fun r => own r || !overlaps r.loc 128 l n }

/-- A write as an ordering point orders it: bytes, written bit (R369), and no cached line of them. -/
def writeBytes (s : State) (l : Loc) (bs : List Byte) : State :=
  if bs.isEmpty then s else dropLines (markWritten (pokeBytes s l bs) l) l bs.length fun _ => false

def writeNat (s : State) (l : Loc) (n v : Nat) : State := writeBytes s l (bytesOf n v)
def writeWord (s : State) (l : Loc) (v : Word) : State := writeNat s l 8 v.toNat
def writeQuad (s : State) (l : Loc) (v : Quad) : State := writeNat s l 16 v.toNat
def readQuad (s : State) (l : Loc) : Quad := BitVec.ofNat 128 (readNat s l 16)

/-! ### Poison (R216) -/

def isPoisoned (s : State) (l : Loc) (n : Nat) : Bool := s.poison.any fun p => overlaps l n p.1 p.2
def poisonRange (s : State) (l : Loc) (n : Nat) : State :=
  if s.poison.contains (l, n) then s else { s with poison := (l, n) :: s.poison }
/-- Poison the 128-byte line of a location (R236, R237). -/
def poisonLine (s : State) (l : Loc) : State := poisonRange s (l.floor 128) 128

/-! ### Lookups -/

def getGroup (s : State) (gid : Nat) : Option Group := s.groups.find? fun g => g.gid == gid
def setGroup (s : State) (g : Group) : State :=
  { s with groups := s.groups.map fun h => if h.gid = g.gid then g else h }
def modGroup (s : State) (gid : Nat) (f : Group → Group) : State :=
  { s with groups := s.groups.map fun h => if h.gid = gid then f h else h }
def getCtx (s : State) (id : Nat) : Option Context := s.ctxs.find? fun c => c.id == id
def modCtx (s : State) (id : Nat) (f : Context → Context) : State :=
  { s with ctxs := s.ctxs.map fun c => if c.id = id then f c else c }
/-- The physical cluster of a scratchpad's rank. -/
def clusterOf (s : State) (h : Loc) : Nat :=
  match h with
  | .scr c r _ => (match getCtx s c with | some x => (x.ranks[r]?).getD 0 | none => 0)
  | _ => 0
def getTeam (s : State) (ctx no : Nat) : Option Team := s.teams.find? fun t => t.ctx == ctx && t.no == no
def modTeam (s : State) (ctx no : Nat) (f : Team → Team) : State :=
  { s with teams := s.teams.map fun t => if t.ctx = ctx ∧ t.no = no then f t else t }
def getSlice (s : State) (ctx seq : Nat) : Option Slice := s.slices.find? fun x => x.ctx == ctx && x.seq == seq
def modSlice (s : State) (ctx seq : Nat) (f : Slice → Slice) : State :=
  { s with slices := s.slices.map fun x => if x.ctx = ctx ∧ x.seq = seq then f x else x }
def getQueue (s : State) (id : Nat) : Option Queue := s.queues.find? fun q => q.id == id
def modQueue (s : State) (id : Nat) (f : Queue → Queue) : State :=
  { s with queues := s.queues.map fun q => if q.id = id then f q else q }
def getBent (s : State) (b : Nat) : Bent := (s.bents[b]?).getD Bent.reset
def modBent (s : State) (b : Nat) (f : Bent → Bent) : State := { s with bents := s.bents.modify b f }
def getCluster (s : State) (c : Nat) : Cluster := (s.clusters[c]?).getD (Cluster.reset c)
def modCluster (s : State) (c : Nat) (f : Cluster → Cluster) : State :=
  { s with clusters := s.clusters.modify c f }
/-! ### Performance counters (R412) -/

/-- The event code of counter `i`. -/
def pcselCode (s : State) (i : Nat) : Nat := bitsOf s.pcsel (8 * i + 7) (8 * i)

/-- Count `n` events of a code on a cluster. -/
def perfCount (s : State) (cl code n : Nat) : State :=
  if s.pcsel = 0 then s
  else
    let f (i : Nat) (v : Word) : Word := if pcselCode s i = code then v + BitVec.ofNat 64 n else v
    modCluster s cl fun c => { c with perf := c.perf.mapIdx f }

/-- The bent of a cluster (R11). -/
def bentOf (cl : Nat) : Nat := cl / 24
/-- The bent that homes a device address (R360). -/
def homeOf (addr : Nat) : Nat := addr / 2 ^ 37
/-- Hops between two bents (R9). -/
def hops (a b : Nat) : Nat :=
  let d (x y : Nat) := if x ≤ y then y - x else x - y
  d (a % 4) (b % 4) + d (a / 4) (b / 4)
/-- The bents by hop count from `b`, the lower number on ties (R372). -/
def bentsFrom (b : Nat) : List Nat :=
  (upTo 5).flatMap fun h => (upTo 8).filter fun x => hops b x = h

/-! ### What bytes in memory carry (R227) -/

/-- What the bytes in memory carry. -/
def carriesAt (s : State) (l : Loc) (n : Nat) : List Carry :=
  (s.carries.filter fun x => overlaps x.1 x.2.1 l n).flatMap (·.2.2)

/-- A write to these bytes replaces what they carry. -/
def setCarries (s : State) (l : Loc) (n : Nat) (ks : List Carry) : State :=
  let rest := s.carries.filter fun x => !inside x.1 x.2.1 l n
  { s with carries := if ks.isEmpty then rest else (l, n, ks) :: rest }

/-- What an object's bytes carry grows by a release on it (R229, the release sequence). -/
def addCarries (s : State) (l : Loc) (n : Nat) (ks : List Carry) : State :=
  if ks.isEmpty then s else
    let rest := s.carries.filter fun x => !inside x.1 x.2.1 l n
    { s with carries := (l, n, (ks ++ carriesAt s l n).eraseDups) :: rest }

/-! ### Writes that have their place (R234) -/

def dropStore (s : State) (id : Nat) : State := { s with stores := s.stores.filter fun r => r.id ≠ id }

/-- The write of a store is performed at its home. -/
def landStore (s : State) (r : StoreRec) : State :=
  dropStore (if isPoisoned s r.loc r.bytes.length then s
    else setCarries (pokeBytes s r.loc r.bytes) r.loc r.bytes.length r.carry) r.id

/-- The store has its place on one of the lines of these bytes and is not performed. -/
def placedOn (l : Loc) (n : Nat) (r : StoreRec) : Bool :=
  (r.st == .ordered || r.st == .forwarded) && overlaps (r.loc.floor 128) 128 (l.floor 128) (n + l.pos % 128)

/-- A store among stores in the order of their places. -/
def byPlace (r : StoreRec) : List StoreRec → List StoreRec
  | [] => [r]
  | x :: xs => if r.place ≤ x.place then r :: x :: xs else x :: byPlace r xs

/-- What the device reads or writes by itself on these lines comes after the writes that have their place there: they
are performed first (R234, R235; DEDUCED, log 109). -/
def settleLines (s : State) (l : Loc) (n : Nat) : State :=
  ((s.stores.filter (placedOn l n)).foldr byPlace []).foldl landStore s

/-- A write of the device's own. -/
def deviceWrite (s : State) (l : Loc) (bs : List Byte) : State := writeBytes (settleLines s l bs.length) l bs
def deviceNat (s : State) (l : Loc) (n v : Nat) : State := deviceWrite s l (bytesOf n v)
def deviceWord (s : State) (l : Loc) (v : Word) : State := deviceNat s l 8 v.toNat

/-- An atomic change of a word at its home, and the atomic OR. -/
def deviceMap (s : State) (l : Loc) (f : Word → Word) : State :=
  let s := settleLines s l 8
  writeWord s l (f (readWord s l))
def deviceOr (s : State) (l : Loc) (v : Word) : State := deviceMap s l (· ||| v)

/-! ### The way to an ordering point (R213, R237, R397 to R400) -/

inductive Way
  | open' | held | dead
deriving DecidableEq, Repr

def sillAt (s : State) (n : Nat) : PortState :=
  match s.ports.find? fun p => p.port == .sill (BitVec.ofNat 1 n) with
  | some p => p.st
  | none => .off

/-- The state of a Ridge port. -/
def portAt (s : State) (n : Nat) : PortState :=
  match s.ports.find? fun p => p.port == .ridge (BitVec.ofNat 4 n) with
  | some p => p.st
  | none => .off

/-- Whether an access of a group can reach its location's ordering point: a home that is gone is not reached. -/
def wayTo (s : State) : Loc → Way
  | .host a => match sillAt s (a / 128 % 2) with
    | .up => .open'
    | .training | .retraining => .held
    | _ => .dead
  | .peer .. => .held
  | .dev a => if (getBent s (homeOf a)).online then .open' else .dead
  | .scr .. => .open'

/-! ### Page tables (R359 to R362) -/

def pteV (e : Word) : Bool := bitAt e 0
def pteL (e : Word) : Bool := bitAt e 1
def pteSP (e : Word) : Bool := bitAt e 2
def pteRD (e : Word) : Bool := bitAt e 3
def pteW (e : Word) : Bool := bitAt e 4
def pteX (e : Word) : Bool := bitAt e 5
def pteHA (e : Word) : Bool := bitAt e 6
def pteHOST (e : Word) : Bool := bitAt e 7
def pteA (e : Word) : Bool := bitAt e 8
def pteD (e : Word) : Bool := bitAt e 9
def pteRUN (e : Word) : Bool := bitAt e 10
def ptePSN (e : Word) : Bool := bitAt e 11
def pteHome (e : Word) : Nat := bitsOf e 14 12
def pteCP (e : Word) : Bool := bitAt e 15
/-- The physical address of the frame. -/
def pteFrame (e : Word) : Nat := bitsOf e 51 16 * 65536

/-- A device frame has a home and HOME names it (R361); a frame beyond 1 TiB is no device frame. -/
def pteHomeOk (e : Word) : Bool := pteHOST e || (pteFrame e < 2 ^ 40 && homeOf (pteFrame e) == pteHome e)

inductive PteKind
  | unmapped | malformed | table | large | page | sparse
deriving DecidableEq, Repr

/-- The kind of an entry at a level (R361). PSN in a table entry is the mark of R379. -/
def pteKind (level : Nat) (e : Word) : PteKind :=
  if !pteV e && !pteSP e then .unmapped
  else if bitsOf e 63 52 != 0 then .malformed
  else if level < 3 && pteV e && !pteL e then
    (if bitsOf e 10 2 == 0 && bitsOf e 15 12 == 0 && pteFrame e < 2 ^ 40 then .table else .malformed)
  else if level == 2 && pteV e && pteL e && !pteSP e && !pteRUN e && !pteCP e &&
      bitsOf e 28 16 == 0 && pteHomeOk e then .large
  else if level == 3 && pteV e && pteL e && !pteSP e && pteHomeOk e then .page
  else if level == 3 && !pteV e && pteSP e && pteL e && !pteRUN e && !pteCP e && !ptePSN e &&
      bitsOf e 51 16 == 0 then .sparse
  else .malformed

/-- Where a walk ended: the kind, the entry, the location of the entry, the level. -/
structure Walk where
  kind : PteKind
  entry : Word
  at' : Loc
  level : Nat
  /-- a poisoned table stands above (R379) -/
  poisoned : Bool
deriving DecidableEq, Repr

def walkAt (s : State) (table level va : Nat) : Loc × Word :=
  let idx := va / 2 ^ (16 + 13 * (3 - level)) % 8192
  let l := Loc.dev (table + 8 * idx)
  (l, readWord s l)

/-- Walk the tables of a root for a virtual address (R359). A root with bit 11 set is a level-1 table that
was stranded (R379). -/
def walkFrom (s : State) (root va : Nat) : Walk :=
  let e1 := walkAt s root 1 va
  if root / 2048 % 2 = 1 then ⟨.unmapped, e1.2, e1.1, 1, true⟩ else
  match pteKind 1 e1.2 with
  | .table =>
    if ptePSN e1.2 then ⟨.unmapped, e1.2, e1.1, 1, true⟩
    else
      let e2 := walkAt s (pteFrame e1.2) 2 va
      match pteKind 2 e2.2 with
      | .table =>
        if ptePSN e2.2 then ⟨.unmapped, e2.2, e2.1, 2, true⟩
        else
          let e3 := walkAt s (pteFrame e2.2) 3 va
          ⟨pteKind 3 e3.2, e3.2, e3.1, 3, false⟩
      | k => ⟨k, e2.2, e2.1, 2, false⟩
  | k => ⟨k, e1.2, e1.1, 1, false⟩

def walk (s : State) (ctx va : Nat) : Walk :=
  match getCtx s ctx with
  | some c => walkFrom s c.root va
  | none => ⟨.unmapped, 0, .dev 0, 1, false⟩

/-- The reason a fault record gives (R376, R393). -/
def walkReason : PteKind → Nat
  | .sparse => 2
  | .malformed => 3
  | _ => 1

/-- A page run at `va` that one translation caches (R362). -/
def runOk (s : State) (w : Walk) (va : Nat) : Bool :=
  let base := w.at'.pos - 8 * (va / 65536 % 32)
  let es := (upTo 32).map fun i => readWord s (.dev (base + 8 * i))
  let f0 := pteFrame (es.headD 0)
  pteRUN w.entry && f0 % 2 ^ 21 == 0 &&
  (upTo 32).all fun i =>
    let e := es.getD i 0
    pteKind 3 e == .page && pteRUN e && pteFrame e == f0 + 65536 * i &&
    bitsOf e 7 3 == bitsOf w.entry 7 3 && pteHome e == pteHome w.entry && ptePSN e == ptePSN w.entry

/-- The pages one translation covers (R362, R364). -/
def walkSpan (s : State) (w : Walk) (va : Nat) : Nat :=
  if w.kind = .large then 8192 else if runOk s w va then 32 else 1

/-- The physical location an entry gives a virtual address. -/
def leafLoc (w : Walk) (va : Nat) : Loc :=
  let a := if w.kind = .large then pteFrame w.entry + va % 2 ^ 29 else pteFrame w.entry + va % 65536
  if pteHOST w.entry then .host a else .dev a

/-- Set A in a leaf with an atomic OR (R365). -/
def setA (s : State) (w : Walk) : State :=
  if pteA w.entry then s else deviceOr s w.at' 0x100

def dropA (e : Word) : Word := e &&& ~~~(0x300 : Word)

/-- The cached translation that covers a page under the current generation: in the L1 TLB of the core that
asks, else in the cluster's L2 TLB, through which an engine translates alone (R364). -/
def tlbFind (s : State) (ctx cl : Nat) (core : Option Nat) (va : Nat) : Option TlbRec :=
  match getCtx s ctx with
  | none => none
  | some c =>
    let hit (k : Option Nat) : Option TlbRec := s.tlb.find? fun t =>
      t.cl == cl && t.core == k && t.asid == c.asid && t.gen == c.gen && t.vpn ≤ va / 65536 && va / 65536 < t.vpn + t.span
    (core.bind fun k => hit (some k)).or (hit none)

/-- The first `n` elements of a list that `p` accepts, and every other element: a cache that holds `n` entries,
listed newest first, keeps the newest (log 92). -/
def keepNewest {α : Type} (p : α → Bool) : Nat → List α → List α
  | _, [] => []
  | n, x :: xs =>
    if p x then (match n with
      | 0 => keepNewest p 0 xs
      | n + 1 => x :: keepNewest p n xs)
    else x :: keepNewest p n xs

/-- Entries of a core's L1 TLB and of a cluster's L2 TLB (R364). -/
def tlbSize : Option Nat → Nat
  | some _ => 64
  | none => 2048

/-- A translation enters its TLB, in place of one for the same page. -/
def tlbAdd (r : TlbRec) (l : List TlbRec) : List TlbRec :=
  keepNewest (fun t => t.cl == r.cl && t.core == r.core) (tlbSize r.core) (r :: l.filter fun t =>
    !(t.cl == r.cl && t.core == r.core && t.asid == r.asid && t.gen == r.gen && t.vpn == r.vpn))

/-- A translation that the L2 TLB of a cluster holds enters the L1 TLB of the core that asks. -/
def tlbCopy (core : Option Nat) (r : TlbRec) (l : List TlbRec) : List TlbRec :=
  match core with
  | some k => if r.core = none then tlbAdd { r with core := some k } l else l
  | none => l

/-- Fill a translation after a walk that found a leaf (R364, R365). -/
def tlbFill (s : State) (ctx cl : Nat) (core : Option Nat) (va : Nat) (w : Walk) : State :=
  match getCtx s ctx with
  | none => s
  | some c =>
    let s := setA s w
    let span := walkSpan s w va
    let vpn := va / 65536 / span * span
    let entry := if w.kind = .large then w.entry
      else if span = 32 then w.entry - BitVec.ofNat 64 (65536 * (va / 65536 % 32)) else w.entry
    let r : TlbRec := { cl, core := none, asid := c.asid, gen := c.gen, vpn, span, entry := dropA entry }
    { s with tlb := tlbCopy core r (tlbAdd r s.tlb) }

/-- The walk that a cached translation stands for. -/
def tlbWalkOf (t : TlbRec) (va : Nat) : Walk :=
  if t.span = 8192 then ⟨.large, t.entry, .dev 0, 2, false⟩
  else ⟨.page, t.entry + BitVec.ofNat 64 (65536 * (va / 65536 - t.vpn)), .dev 0, 3, false⟩

/-- A walk for an access: a leaf fills the translation caches, and A is set before the access uses it (R365). -/
def walkFill (s : State) (ctx cl : Nat) (core : Option Nat) (va : Nat) : State × Walk :=
  let w := walk s ctx va
  if w.kind = .page ∨ w.kind = .large then (tlbFill s ctx cl core va w, w) else (s, w)

/-- Translate for an access of a cluster's core or engine: a cached translation that still agrees with the
tables, or one of the two where they differ (R366), else a walk. -/
def translate (s : State) (ctx cl : Nat) (core : Option Nat) (va : Nat) : State × Walk :=
  match tlbFind s ctx cl core va with
  | some t =>
    let w := walk s ctx va
    let o := tlbWalkOf t va
    let s' := { s with tlb := tlbCopy core t s.tlb }
    if w.kind = o.kind ∧ dropA w.entry = dropA o.entry then (s', w)
    else if Config.transNew s.fresh then walkFill { s with fresh := s.fresh + 1 } ctx cl core va
    else ({ s' with fresh := s.fresh + 1 }, o)
  | none => walkFill (perfCount s cl 6 1) ctx cl core va

/-- A translation is in use for an access that reads the present tables (R365, R366; DESIGN CHOICE, log 110). -/
def touchVirt (s : State) (ctx cl : Nat) (core : Option Nat) (va : Nat) : State :=
  match tlbFind s ctx cl core va with
  | some t =>
    let w := walk s ctx va
    let o := tlbWalkOf t va
    if w.kind = o.kind ∧ dropA w.entry = dropA o.entry then { s with tlb := tlbCopy core t s.tlb }
    else (walkFill s ctx cl core va).1
  | none => (walkFill (perfCount s cl 6 1) ctx cl core va).1

/-- The location of a virtual address of a context, where its page is mapped. -/
def virtLoc (s : State) (ctx va : Nat) : Option Loc :=
  let w := walk s ctx va
  if w.kind = .page ∨ w.kind = .large then some (leafLoc w va) else none

/-- The bytes at an address are of a stranded page, poisoned, or homed where nothing is left (R216, R379). -/
def virtPoisoned (s : State) (ctx va n : Nat) : Bool :=
  let w := walk s ctx va
  w.poisoned || ((w.kind == .page || w.kind == .large) &&
    (ptePSN w.entry || isPoisoned s (leafLoc w va) n || wayTo s (leafLoc w va) == .dead))

/-! ### Pointers (R144, R195 to R198) -/

def ptrSpace (p : Word) : Nat := bitsOf p 63 61
/-- The width of the offset field that LEA changes (R144). -/
def ptrField (p : Word) : Nat := if ptrSpace p = 1 ∨ ptrSpace p = 2 then 48 else 61
/-- Add to the offset field, wrapping in it (R144). -/
def ptrAdd (p : Word) (d : Int) : Word :=
  let n := ptrField p
  let o := wrapInt n ((bitsOf p (n - 1) 0 : Int) + d)
  BitVec.ofNat 64 (p.toNat / 2 ^ n * 2 ^ n + o)

/-- The form its space requires (R195). -/
def ptrFormed (p : Word) : Bool :=
  match ptrSpace p with
  | 0 => bitsOf p 60 55 == 0
  | 1 => bitsOf p 47 23 == 0
  | 2 => true
  | 3 => bitsOf p 58 32 == 0
  | _ => false

/-- What checks 1 to 3 of R203 resolve a pointer to. -/
inductive Target
  | glob (va : Nat)
  | scr (rank off : Nat)
  | peer (slot off : Nat)
deriving DecidableEq, Repr

/-- An import entry of a PEER slot (R401). -/
structure ImportRec where
  did : Nat
  rctx : Nat
  eidx : Nat
  key : Nat
  at' : Bool
  w : Bool
  rd : Bool
  len : Nat
deriving DecidableEq, Repr

/-- A read of table words through a context's own page tables (R401). -/
def readVirt (s : State) (ctx va : Nat) : Option Word :=
  (virtLoc s ctx va).map fun l => readWord s l

/-- A DID is reachable through a port of its route that is up or training (R398); its own DID is reached by looping back. -/
def didReachable (s : State) (did : Nat) : Bool :=
  did == s.did.toNat ||
  (upTo 16).any fun n =>
    bitAt ((s.routes[did]?).getD 0) n &&
    (portAt s n == .training || portAt s n == .up || portAt s n == .retraining)

/-- Where a context's import entry lies (R401). -/
def importVa (slot : Nat) : Nat := 0x7FFFFFFFFE0000 + 16 * slot

/-- The page of an import entry is stranded or its bytes are poisoned: a pointer through it meets POISON (R379;
DESIGN CHOICE, log 111). -/
def importLost (s : State) (ctx slot : Nat) : Bool := virtPoisoned s ctx (importVa slot) 16

def importAt (s : State) (ctx slot : Nat) : Option ImportRec :=
  match readVirt s ctx (importVa slot), readVirt s ctx (importVa slot + 8) with
  | some a, some b =>
    if !bitAt a 0 || bitsOf a 13 4 != 0 || bitsOf b 63 48 != 0 then none
    else some { did := bitsOf a 18 14, rctx := bitsOf a 47 32, eidx := bitsOf a 31 19, key := bitsOf a 63 48,
                at' := bitAt a 3, w := bitAt a 2, rd := bitAt a 1, len := bitsOf b 47 0 }
  | _, _ => none

/-- An export entry of a context (R401). -/
structure ExportRec where
  key : Nat
  at' : Bool
  w : Bool
  rd : Bool
  base : Word
  len : Nat
deriving DecidableEq, Repr

/-- Clusters of a context's partition. -/
def rankCount (s : State) (ctx : Nat) : Nat :=
  match getCtx s ctx with
  | some c => c.ranks.length
  | none => 0

/-- Checks 1 to 3 of R203 for a pointer that is not SEGREL. -/
def checkPlain (s : State) (ac : AddrCtx) (p : Word) (size : Nat) : Except Cause Target :=
  if !ptrFormed p then .error .space
  else match ptrSpace p with
    | 0 => if bitsOf p 54 0 % size ≠ 0 then .error .align else .ok (.glob (bitsOf p 54 0))
    | 1 =>
      let r := bitsOf p 60 48
      let o := bitsOf p 22 0
      let own := r = 0x1FFF ∨ r = ac.rank
      if !(r == 0x1FFF) && rankCount s ac.ctx ≤ r then .error .space
      else if o % size ≠ 0 then .error .align
      else if own then
        (if ac.wb ≤ o ∧ o + size ≤ ac.wb + ac.wsize then .ok (.scr ac.rank o) else .error .bounds)
      else if o + size ≤ 0x600000 then .ok (.scr r o) else .error .bounds
    | 2 =>
      if importLost s ac.ctx (bitsOf p 60 48) then .error .poison else
      match importAt s ac.ctx (bitsOf p 60 48) with
      | none => .error .space
      | some i =>
        let o := bitsOf p 47 0
        if !didReachable s i.did then .error .space
        else if o % size ≠ 0 then .error .align
        else if i.len < o + size then .error .bounds
        else .ok (.peer (bitsOf p 60 48) o)
    | _ => .error .space

/-- R196: the pointer an access through a SEGREL pointer uses, or its own failure. -/
def resolveSeg (ac : AddrCtx) (p : Word) (size : Nat) : Except Cause Word :=
  if ptrSpace p ≠ 3 then .ok p
  else if !ptrFormed p then .error .space
  else
    let n := bitsOf p 60 59
    let o := bitsOf p 31 0
    if ((ac.segls[n]?).getD 0).toNat < o + size then .error .bounds
    else .ok (ptrAdd ((ac.segs[n]?).getD 0) o)

/-- Checks 1 to 3 of R203; the error carries what TADDR receives. -/
def check13 (s : State) (ac : AddrCtx) (p : Word) (size : Nat) : Except (Cause × Word) Target :=
  match resolveSeg ac p size with
  | .error c => .error (c, p)
  | .ok q =>
    match checkPlain s ac q size with
    | .error c => .error (c, q)
    | .ok t => .ok t

/-- The import entry that a pointer names is read through its context's page tables (R365, R401). -/
def touchImport (s : State) (ac : AddrCtx) (p : Word) (size : Nat) : State :=
  match resolveSeg ac p size with
  | .error _ => s
  | .ok q => if ptrSpace q = 2 then touchVirt s ac.ctx ac.cl ac.core (importVa (bitsOf q 60 48)) else s

/-- Which permissions an access needs (R203, R214). -/
inductive Need
  | load | store | atomic | fetch
deriving DecidableEq, Repr

def permOk (need : Need) (e : Word) : Bool :=
  match need with
  | .load => pteRD e
  | .store => pteRD e && pteW e
  | .atomic => pteRD e && pteW e && (!pteHOST e || pteHA e)
  | .fetch => pteX e

/-- What check 4 and 5 of R203 find for one access. -/
inductive Found
  | ok (l : Loc)
  /-- mapped, but the page or a table above it is poisoned (R379) -/
  | poisoned (l : Loc)
  | sparse
  | unmapped (reason : Nat)
  | noPerm
deriving DecidableEq, Repr

def check45 (s : State) (ac : AddrCtx) (need : Need) (va : Nat) : State × Found :=
  let (s, w) := translate s ac.ctx ac.cl ac.core va
  if w.poisoned then (s, .poisoned (.dev 0))
  else match w.kind with
    | .page | .large =>
      if !permOk need w.entry then (s, .noPerm)
      else if ptePSN w.entry then (s, .poisoned (leafLoc w va)) else (s, .ok (leafLoc w va))
    | .sparse => (s, .sparse)
    | k => (s, .unmapped (walkReason k))

end Sys2Proof.Machine
end

