-- ==== Sys2Proof/Machine/Record.lean ====
section
/-! DEFINITION. A group's save record (R89 to R94, R170, R270, R274, R283, R285, R287, R353): its 19,456 bytes, and
what a restore reads of them. -/

namespace Sys2Proof.Machine

/-! ### Codes and counters -/

/-- R357. -/
def WReason.code : WReason → Nat
  | .none => 0 | .age => 0x01 | .cnt => 0x02 | .fence => 0x03 | .bar => 0x04 | .rspace => 0x05
  | .rdata => 0x06 | .event => 0x07 | .gang => 0x08 | .cpyq => 0x09 | .mailf => 0x0A
  | .spawnf => 0x0B | .callsp => 0x0C | .pflt => 0x0D | .nap => 0x0E | .swap => 0x0F | .peer => 0x10

/-- Every wait reason, by its code. -/
def WReason.all : List WReason :=
  [.none, .age, .cnt, .fence, .bar, .rspace, .rdata, .event, .gang, .cpyq, .mailf, .spawnf, .callsp, .pflt, .nap,
   .swap, .peer]

def distinct (l : List Nat) : Nat := l.eraseDups.length

def hasResult (a : AtomRec) : Bool := a.lanes.any fun l => l.pend.isSome
def loadOps (s : State) (gid : Nat) : List Nat :=
  (s.loads.filter fun l => l.gid == gid && l.cld).map (·.op) ++
  (s.atoms.filter fun a => a.gid == gid && hasResult a).map (·.op) ++
  (s.queries.filter fun q => q.gid == gid).map (·.op)
def storeOps (s : State) (gid : Nat) : List Nat :=
  (s.stores.filter fun x => x.gid == gid).map (·.op) ++
  (s.atoms.filter fun a => a.gid == gid).map (·.op) ++
  (s.msgs.filter fun m => m.gid == gid).map (·.op)
def cldOf (s : State) (gid : Nat) : Nat := distinct (loadOps s gid)
def cstOf (s : State) (gid : Nat) : Nat := distinct (storeOps s gid)
/-- A faulted lane copy counts until its trap is delivered (R255). -/
def ccpOf (s : State) (gid : Nat) : Nat :=
  (s.copies.filter fun c => c.gid == gid && c.counts).length +
    (match s.groups.find? fun g => g.gid == gid with | some g => g.cpFault.length | none => 0)

/-- The gang a group is a member of (R173). -/
def gangOf (s : State) (gid : Nat) : Option Gang :=
  s.gangs.find? fun k => k.members.any fun m => m.gid == gid && !m.left
def memberOf (k : Gang) (gid : Nat) : Option Member := k.members.find? fun m => m.gid == gid

/-- Joint operations that a member has delivered and that are not performed, and its tile operations. -/
def ctlOf (s : State) (gid : Nat) : Nat :=
  let part := match gangOf s gid with
    | none => 0
    | some k => match memberOf k gid with
      | none => 0
      | some m => (k.ops.filter fun o => o.parts.any fun p => p.memb == m.memb).length
  part + (s.gangs.flatMap fun k => k.tileOps.filter fun t => t.gid == gid).length +
    distinct ((s.loads.filter fun l => l.gid == gid && !l.cld).map (·.op))

/-! ### Words of the record -/

/-- A value in the low bits of an entry (R20). -/
def quadOf (n : Nat) : Quad := BitVec.ofNat 128 n

/-- The words of a bit matrix: word p has bit t set where thread t has bit p (R89). -/
def predWords (ts : List Thread) (f : Thread → BitVec 16) : List Byte :=
  (upTo 16).flatMap fun p => bytesOf 4 (((upTo 32).filter fun t =>
    match ts[t]? with | some x => (f x).getLsbD p | none => false).foldl (fun m t => m + 2 ^ t) 0)

def nibbles (l : List Nat) : Nat := l.foldr (fun x acc => x % 16 + 16 * acc) 0
def lanesNat (ts : List Thread) (f : Thread → Nat) : List Nat :=
  (upTo 32).map fun t => match ts[t]? with | some x => f x | none => 0

/-- GANGREG (R170). -/
def gangregVal (k : GangReg) : Nat :=
  k.done % 2 ^ 8 * 2 ^ 40 + k.seq % 2 ^ 8 * 2 ^ 32 + k.gid % 2 ^ 8 * 2 ^ 16 + k.own.toNat * 2 ^ 12 +
    k.memb % 8 * 2 ^ 8 + k.gst % 4 * 2 ^ 4 + k.gsz % 4

/-- GSTAT (R91). -/
def gstatVal (g : Group) : Nat :=
  g.cdepth % 2 ^ 10 * 2 ^ 22 + g.rcnt % 2 ^ 4 * 2 ^ 18 + g.gages.length * 2 ^ 13 + b2n g.prv * 2 ^ 12 +
    b2n g.tmk * 2 ^ 11 + b2n g.hnd * 2 ^ 10 + b2n g.ropen * 2 ^ 9 + g.rdepth % 2 ^ 4 * 2 ^ 5 +
    g.rlg % 4 * 2 ^ 3 + g.rln % 8

/-- OPCNT (R92). -/
def opcntVal (s : State) (g : Group) : Nat :=
  g.mbhead % 8 * 2 ^ 28 + g.mbox.length * 2 ^ 24 + g.wreason.code * 2 ^ 16 + cldOf s g.gid % 16 * 2 ^ 12 +
    cstOf s g.gid % 16 * 2 ^ 8 + ccpOf s g.gid % 16 * 2 ^ 4 + ctlOf s g.gid % 16

/-- Divergence slot `n` (R93). -/
def slotVal (g : Group) (n : Nat) : Nat :=
  let vd := (upTo 4).foldl (fun a i => a + (match g.threads[4 * n + i]? with | some t => t.ages.length | none => 0) * 2 ^ (5 * i)) 0
  vd * 2 ^ 107 + (match g.dstk[n]? with
    | none => 0
    | some d => 2 ^ 127 + d.outer % 16 * 2 ^ 103 + b2n d.phase * 2 ^ 102 + d.mask.toNat * 2 ^ 70 +
        wrapInt 18 d.trel * 2 ^ 52 + bitsOf d.jaddr 54 3)

/-- An event binding (R283). -/
def bindingVal (b : Binding) : Nat := bitsOf b.haddr 54 3 * 2 ^ 12 + b.q % 16 * 2 ^ 8 + b.j % 8 * 2 ^ 4 + b.kind % 16

/-- Message slot `i` of the mailbox: the oldest message stands in slot MBHEAD (R92). -/
def mboxVal (g : Group) (i : Nat) : Nat := match g.mbox[(i + 8 - g.mbhead % 8) % 8]? with | some v => v.toNat | none => 0

/-! ### Entries (R270, R274, R353) -/

/-- The saved form of a pending ring entry of a kind (R270). -/
def ringForm (kind : Nat) (ptr : Word) (k start : Nat) : Nat :=
  ptr.toNat * 2 ^ 64 + 0xFF * 2 ^ 56 + kind * 2 ^ 49 + k % 2 ^ 17 * 2 ^ 32 + start % 2 ^ 32

/-- The saved form of a token's entry and of a message's entry (R353). -/
def tokenForm (q num : Nat) : Nat := 0xFF + q % 16 * 2 ^ 16 + num % 2 ^ 12 * 2 ^ 20 + 0xFFFFFFFF * 2 ^ 32
def msgForm (id : Nat) : Nat := 0xFF + id % 2 ^ 24 * 2 ^ 8 + 0xFFFFFFFE * 2 ^ 32

/-- PKIND of a claim or an await. -/
def RingWaitKind.pkind : RingWaitKind → Nat
  | .claim => 1
  | .await => 2
  | .sub => 4

/-- The saved form of the commit that a copy queue holds, if it is the one behind a group's entry. -/
def commitForm (gid id : Nat) (c : CopyRec) : Option Nat :=
  match c.kind with
  | .commit _ ptr _ sp pend => if c.gid = gid ∧ pend = id then some (ringForm 3 ptr sp.k sp.start) else none
  | _ => none

/-- What is behind a pending entry of a group, in saved form; zero for an operation that a save waits for. -/
def savedForm (s : State) (gid id : Nat) : Nat :=
  let waits := s.ringWaits.findSome? fun w =>
    if w.gid = gid ∧ w.id = id then some (ringForm w.kind.pkind w.ptr w.span.k w.span.start) else none
  let bars := s.barWaits.findSome? fun w =>
    if w.gid = gid ∧ w.id = id then some (w.ptr.toNat * 2 ^ 64 + 0xFF * 2 ^ 56 + 2 ^ 48 + w.ph % 2 ^ 32) else none
  let subs := s.subs.findSome? fun x => if x.gid = gid ∧ x.pend = id then some (ringForm 4 x.ringPtr x.k (x.claim.getD 0)) else none
  let tokens := s.copies.findSome? fun c => if c.token = some (gid, id) then some (tokenForm c.q c.num) else none
  let msgs := s.msgs.findSome? fun m => if m.gid = gid ∧ m.id = id then some (msgForm id) else none
  ((((waits.or bars).or subs).or (s.copies.findSome? (commitForm gid id))).or (tokens.or msgs)).getD 0

/-- An entry as the record holds it: void ones are zero (R82). -/
def entryVal (s : State) (gid : Nat) : Option Entry → Nat
  | none => 0
  | some (.val v) => v.toNat
  | some (.pend id) => savedForm s gid id

def fileVals (s : State) (gid : Nat) (f : List Entry) : List Byte :=
  (upTo 20).flatMap fun k => bytesOf 16 (entryVal s gid f[k]?)

/-- `n` positions of a list of values. -/
def quadVals (n : Nat) (l : List Quad) : List Byte := (upTo n).flatMap fun k => bytesOf 16 ((l[k]?).getD 0).toNat

/-- `f` of every thread, in lane order. -/
def perThread (g : Group) (f : Thread → List Byte) : List Byte :=
  (upTo 32).flatMap fun t => f ((g.threads[t]?).getD ⟨[], [], 0, 0, [], 0⟩)

/-- The control block (R90). -/
def controlBytes (s : State) (g : Group) : List Byte :=
  bytesOf 8 g.pc.toNat ++ bytesOf 4 g.emask.toNat ++ bytesOf 4 g.amask.toNat ++
  ((upTo 8).flatMap fun n => bytesOf 16 (slotVal g n)) ++
  bytesOf 4 g.mode.toNat ++ bytesOf 4 g.flags.toNat ++ bytesOf 8 (gangregVal g.gang) ++
  bytesOf 2 g.evpend.toNat ++ bytesOf 2 g.evmask.toNat ++ bytesOf 4 (opcntVal s g) ++
  ((upTo 16).flatMap fun n => bytesOf 8 (match g.evbind[n]? with | some b => bindingVal b | none => 0)) ++
  ((upTo 8).flatMap fun i => bytesOf 8 (mboxVal g i)) ++
  bytesOf 8 g.cstk.toNat ++ bytesOf 8 g.cslim.toNat ++ bytesOf 4 g.wdog.toNat ++ bytesOf 4 g.wdcnt ++
  bytesOf 4 (gstatVal g) ++ bytesOf 4 g.ramask.toNat ++ bytesOf 8 g.rpc.toNat ++
  bytesOf 16 (nibbles (lanesNat g.threads (·.pcnt))) ++ predWords g.threads (·.rpred)

/-- The save record of a group (R89). -/
def recordBytes (s : State) (g : Group) : List Byte :=
  perThread g (fun t => fileVals s g.gid t.ages) ++ perThread g (fun t => quadVals 12 t.frames) ++
  perThread g (fun t => quadVals 4 t.latch) ++ fileVals s g.gid g.gages ++ quadVals 8 g.gframes ++
  quadVals 2 g.glatch ++ predWords g.threads (·.preds) ++ controlBytes s g

/-! ### A record in memory (R355) -/

/-- Write a field of the record of a group whose record has left shadow storage. -/
def recordField (s : State) (gid o n v : Nat) : State :=
  match getGroup s gid with
  | none => s
  | some g => match g.area with
    | none => s
    | some a => deviceNat s (a.plus o) n v

/-- Offsets of the entries of a group that wait for an operation (R89). -/
def entryOffsets (g : Group) (id : Nat) : List Nat :=
  ((upTo 32).flatMap fun t => ((upTo 20).filter fun k =>
    (match g.threads[t]? with | some x => x.ages[k]? == some (.pend id) | none => false)).map fun k => t * 0x140 + k * 0x10) ++
  ((upTo 20).filter fun k => g.gages[k]? == some (.pend id)).map fun k => 0x4800 + k * 0x10

/-- The engines write a result into the record of a group that is saved there (R353). -/
def recordResult (s : State) (g : Group) (id : Nat) (v : Quad) : State :=
  match g.area with
  | none => s
  | some a => (entryOffsets g id).foldl (fun s o => deviceNat s (a.plus o) 16 v.toNat) s

/-! ### What a restore reads (R94) -/

/-- The entry that a saved value stands for: pending again on what it waits for, where that still is (R353). Ring and
barrier forms that nothing waits behind are revived later (R270, R274). -/
def entryOf (s : State) (g : Group) (v : Quad) : Entry :=
  let ring := if bitsOf v 63 56 = 0xFF ∧ bitsOf v 48 48 + bitsOf v 55 49 ≠ 0 then
      ((s.ringWaits.filter fun w => w.gid == g.gid).map (·.id) ++ (s.subs.filter fun x => x.gid == g.gid).map (·.pend) ++
        s.copies.filterMap fun c => match c.kind with
          | .commit _ _ _ _ p => if c.gid = g.gid ∧ p ≠ 0 then some p else none
          | _ => none).find? fun i => savedForm s g.gid i == v.toNat
    else none
  let token := if bitsOf v 63 32 = 0xFFFFFFFF ∧ bitsOf v 7 0 = 0xFF then
      s.copies.findSome? fun c => match c.token with
        | some t => if t.1 = g.gid ∧ tokenForm c.q c.num = v.toNat then some t.2 else none
        | none => none
    else none
  let msg := if bitsOf v 63 32 = 0xFFFFFFFE ∧ bitsOf v 7 0 = 0xFF then
      (s.msgs.find? fun m => m.gid == g.gid && msgForm m.id == v.toNat).map (·.id)
    else none
  match (ring.or token).or msg with
  | some id => .pend id
  | none => .val v

/-- Void depths above 20 are out of range. -/
def slotBad (w : Nat) : Bool := (upTo 4).any fun i => 20 < w / 2 ^ (107 + 5 * i) % 32

/-- The offset of the first field that fails a check of R94. -/
def recordFault (s : State) (g : Group) (a : Loc) : Option Nat :=
  let slot (n : Nat) : Nat := readNat s (a.plus (0x4A30 + 16 * n)) 16
  let isOpen (n : Nat) : Bool := slot n / 2 ^ 127 == 1
  let gstat := readNat s (a.plus 0x4BA0) 4
  let slots := (upTo 8).find? fun n =>
    (!(g.ident.g16 && 4 ≤ n) && slotBad (slot n)) || (isOpen n && n != 0 && !isOpen (n - 1)) || (!isOpen n && slot n % 2 ^ 107 != 0)
  match slots with
  | some n => some (0x4A30 + 16 * n)
  | none =>
    if WReason.all.length ≤ readNat s (a.plus 0x4AC4) 4 / 2 ^ 16 % 2 ^ 8 then some 0x4AC4
    else if 20 < gstat / 2 ^ 13 % 32 ∨ 4 < gstat % 8 ∨ 2 < gstat / 2 ^ 3 % 4 ∨ 8 < gstat / 2 ^ 5 % 16 then some 0x4BA0
    else none

def fileOf (s : State) (g : Group) (l : Loc) (n : Nat) : List Entry :=
  (upTo (Nat.min n 20)).map fun k => entryOf s g (readQuad s (l.plus (16 * k)))
def quadsOf (s : State) (l : Loc) (n : Nat) : List Quad := (upTo n).map fun k => readQuad s (l.plus (16 * k))

/-- Bit t of the sixteen words of a bit matrix. -/
def predsOf (s : State) (l : Loc) (t : Nat) : BitVec 16 :=
  BitVec.ofNat 16 ((upTo 16).foldl (fun m p => m + readNat s (l.plus (4 * p)) 4 / 2 ^ t % 2 * 2 ^ p) 0)

/-- The open divergence slots: those below the first that is not open (R93). -/
def slotsOf (s : State) (a : Loc) : List Div :=
  (((upTo 8).map fun n => readNat s (a.plus (0x4A30 + 16 * n)) 16).takeWhile fun w => w / 2 ^ 127 == 1).map fun w =>
    { jaddr := BitVec.ofNat 64 (w % 2 ^ 52 * 8), trel := sxNat 18 (w / 2 ^ 52 % 2 ^ 18),
      mask := BitVec.ofNat 32 (w / 2 ^ 70), phase := w / 2 ^ 102 % 2 == 1, outer := w / 2 ^ 103 % 16 }

/-- A binding as the record has it, with what the router registered for it (R284). -/
def bindingOf (s : State) (a : Loc) (n : Nat) (b : Binding) : Binding :=
  let w := readNat s (a.plus (0x4AC8 + 8 * n)) 8
  { b with kind := w % 16, j := w / 2 ^ 4 % 8, q := w / 2 ^ 8 % 16, haddr := BitVec.ofNat 64 (w / 2 ^ 12 * 8) }

def gangregOf (w : Nat) : GangReg :=
  { done := w / 2 ^ 40 % 2 ^ 8, seq := w / 2 ^ 32 % 2 ^ 8, gid := w / 2 ^ 16 % 2 ^ 8, own := BitVec.ofNat 4 (w / 2 ^ 12),
    memb := w / 2 ^ 8 % 8, gst := w / 2 ^ 4 % 4, gsz := w % 4 }

/-- The threads of a record; a G16 group's threads 16 to 31 are ignored (R317). -/
def threadsOf (s : State) (g : Group) (a : Loc) : List Thread :=
  let gstat := readNat s (a.plus 0x4BA0) 4
  g.threads.mapIdx fun t x =>
    if g.ident.g16 ∧ 16 ≤ t then x else
    { ages := fileOf s g (a.plus (t * 0x140)) (readNat s (a.plus (0x4A30 + 16 * (t / 4))) 16 / 2 ^ (107 + 5 * (t % 4)) % 32),
      frames := quadsOf s (a.plus (0x2800 + t * 0xC0)) 12, preds := predsOf s (a.plus 0x49E0) t,
      pcnt := readNat s (a.plus 0x4BB0) 16 / 2 ^ (4 * t) % 16,
      latch := quadsOf s (a.plus (0x4000 + t * 0x40)) (Nat.min (gstat % 8) 4), rpred := predsOf s (a.plus 0x4BC0) t }

/-- The group as its record in memory has it. Reserved bits are ignored (R94). -/
def groupOf (s : State) (g : Group) (a : Loc) : Group :=
  let gstat := readNat s (a.plus 0x4BA0) 4
  let opcnt := readNat s (a.plus 0x4AC4) 4
  let word (o : Nat) : Word := readWord s (a.plus o)
  let half (o : Nat) : BitVec 32 := BitVec.ofNat 32 (readNat s (a.plus o) 4)
  let head := opcnt / 2 ^ 28 % 8
  { g with
    pc := word 0x4A20, emask := half 0x4A28, amask := half 0x4A2C, threads := threadsOf s g a,
    gages := fileOf s g (a.plus 0x4800) (gstat / 2 ^ 13 % 32), gframes := quadsOf s (a.plus 0x4940) 8,
    glatch := quadsOf s (a.plus 0x49C0) (Nat.min (gstat / 2 ^ 3 % 4) 2), dstk := slotsOf s a,
    mode := half 0x4AB0 &&& 0x001F3F3F, flags := half 0x4AB4 &&& 0x7F, gang := gangregOf (readNat s (a.plus 0x4AB8) 8),
    evpend := BitVec.ofNat 16 (readNat s (a.plus 0x4AC0) 2), evmask := BitVec.ofNat 16 (readNat s (a.plus 0x4AC2) 2),
    evbind := g.evbind.mapIdx (bindingOf s a), mbhead := head,
    mbox := (upTo (Nat.min (opcnt / 2 ^ 24 % 16) 8)).map fun i => word (0x4B48 + 8 * ((head + i) % 8)),
    wreason := (WReason.all[opcnt / 2 ^ 16 % 2 ^ 8]?).getD .none,
    cstk := word 0x4B88, cslim := word 0x4B90, wdog := half 0x4B98, wdcnt := readNat s (a.plus 0x4B9C) 4,
    ramask := half 0x4BA4, rpc := word 0x4BA8, cdepth := gstat / 2 ^ 22, rcnt := gstat / 2 ^ 18 % 16,
    prv := gstat / 2 ^ 12 % 2 == 1, tmk := gstat / 2 ^ 11 % 2 == 1, hnd := gstat / 2 ^ 10 % 2 == 1,
    ropen := gstat / 2 ^ 9 % 2 == 1, rdepth := gstat / 2 ^ 5 % 16, rlg := Nat.min (gstat / 2 ^ 3 % 4) 2,
    rln := Nat.min (gstat % 8) 4 }

end Sys2Proof.Machine
end

