-- ==== Sys2Proof/Machine/Ops.lean ====
section
/-! DEFINITION. The named operations that meanings share: the journal and completion records (R391,
R394), the age files (R81 to R84), divergence (R114, R115), ordering conditions (R226, R236), what
breaks (R190, R270), kills (R354, R356), taking a trap and returning from one (R342 to R348), and the
frame in which a group issues an instruction (R62, R79). -/

namespace Sys2Proof.Machine

/-! ### Codes -/

/-- R341. -/
def Cause.code : Cause → Nat
  | .illop => 0x01 | .illfld => 0x02 | .illcmb => 0x03 | .priv => 0x04 | .divuni => 0x05
  | .joinlay => 0x06 | .dstkovf => 0x07 | .cstkovf => 0x08
  | .align => 0x10 | .space => 0x11 | .bounds => 0x12 | .pfault => 0x13 | .pfaultnr => 0x14
  | .pprot => 0x15 | .poison => 0x16 | .acklost => 0x17 | .pagelost => 0x18 | .dfree => 0x19
  | .gangbrk => 0x20 | .gangmis => 0x21 | .budget => 0x30 | .wdog => 0x31
  | .bkpt => 0x38 | .trap => 0x39 | .step => 0x3A | .fpexc => 0x40

/-- Causes that are always asynchronous; ACKLOST is so only at Expire (R342). -/
def Cause.async : Cause → Bool
  | .pagelost | .budget | .wdog => true
  | _ => false

def freshQuad (s : State) : State × Quad := ({ s with fresh := s.fresh + 1 }, Config.freeQuad s.fresh)
def freshWord (s : State) : State × Word :=
  ({ s with fresh := s.fresh + 1 }, (Config.freeQuad s.fresh).extractLsb' 0 64)
/-- A number for a new operation in flight. -/
def newId (s : State) : State × Nat := ({ s with nextId := s.nextId + 1 }, s.nextId)

/-! ### Physical pointers, the journal, completion records -/

/-- R384; device memory ends at 1 TiB (R360). -/
def physLoc (p : Word) : Option Loc :=
  if bitsOf p 62 52 ≠ 0 then none
  else if bitAt p 63 then some (.host (bitsOf p 51 0))
  else if bitsOf p 51 0 < 2 ^ 40 then some (.dev (bitsOf p 51 0)) else none

def wordsBytes (ws : List Nat) : List Byte := ws.flatMap (bytesOf 8)

/-- Append a journal record (R394). -/
def journal (s : State) (kind status ctx q index tag : Nat) (payload : List Nat) : State :=
  let w1 := kind + 2 ^ 8 * status + 2 ^ 16 * (ctx % 2 ^ 16) + 2 ^ 32 * (q % 2 ^ 10)
  let ws := s.jnext :: w1 :: (index % 2 ^ 32 + 2 ^ 32 * tag) :: (payload ++ List.replicate 5 0).take 5
  let s := match physLoc s.jbase with
    | some l => deviceWrite s (l.plus (64 * (s.jnext % 2 ^ s.jlg))) (wordsBytes ws)
    | none => s
  { s with jnext := s.jnext + 1 }

/-- LAP of record `n` of a ring of 2^lg records (R391, R393). -/
def lapOf (n lg : Nat) : Nat := n / 2 ^ lg % 255 + 1

/-- Write a completion record to a queue (R391). -/
def completionRecord (s : State) (q index status kind : Nat) (isEnd : Bool) (tag result : Nat) (nocpl : Bool) : State :=
  match getQueue s q with
  | none => s
  | some qu =>
    if nocpl then s else
    let w0 := index % 2 ^ 32 + 2 ^ 32 * status + 2 ^ 40 * kind + 2 ^ 48 * b2n isEnd + 2 ^ 56 * lapOf qu.ncpl qu.lgc
    let w1 := tag % 2 ^ 32 + 2 ^ 32 * (result % 2 ^ 32)
    let s := match physLoc qu.cpl with
      | some l => deviceWrite s (l.plus (16 * (qu.ncpl % 2 ^ qu.lgc))) (wordsBytes [w0, w1])
      | none => s
    modQueue s q fun x => { x with ncpl := x.ncpl + 1 }

/-- A packet of a context ends with a status: the journal, then its record, where its queue still is (R391, R394). -/
def completeIn (s : State) (ctx q index status kind : Nat) (isEnd : Bool) (tag result : Nat) (nocpl : Bool) : State :=
  let s := journal s 2 status ctx q index tag [result % 2 ^ 32]
  let s := modQueue s q fun x => { x with live := x.live.filter (· ≠ index) }
  completionRecord s q index status kind isEnd tag result nocpl

/-- A packet of a queue ends with a status. -/
def complete (s : State) (q index status kind : Nat) (isEnd : Bool) (tag result : Nat) (nocpl : Bool) : State :=
  match getQueue s q with
  | none => s
  | some qu => completeIn s qu.ctx q index status kind isEnd tag result nocpl

def SliceState.live : SliceState → Bool
  | .done | .killed => false
  | _ => true

/-- A launch of the queue awaits its END record (R392). -/
def launchesLeft (s : State) (q : Nat) : Bool :=
  s.slices.any (fun x => x.q == q && x.st.live) || s.objs.any fun o => o.held.any fun l => l.1 == q && (l.2.2[0]?.getD 0).setWidth 8 == (7 : BitVec 8)

/-- A draining queue with no launch left is ABSENT, and every QDEL of it completes (R392). -/
def settleQueue (s : State) (q : Nat) : State :=
  match getQueue s q with
  | none => s
  | some qu =>
    if qu.st ≠ .draining ∨ launchesLeft s q then s
    else qu.dels.foldl (fun s d => complete s d.1 d.2.1 0 0x04 false d.2.2.1 0 d.2.2.2)
      { s with queues := s.queues.filter fun x => x.id ≠ q }

/-! ### Groups: masks, threads, identity -/

/-- Lanes of the group (R78, R317). -/
def laneCount (g : Group) : Nat := if g.ident.g16 then 16 else 32
def lanesOf (m : BitVec 32) : List Nat := (upTo 32).filter fun l => m.getLsbD l
def maskOf (l : List Nat) : BitVec 32 := l.foldl (fun m i => m ||| ((1 : BitVec 32) <<< i)) 0

def Thread.zero : Thread :=
  { ages := [], frames := List.replicate 12 0, preds := 0, pcnt := 0, latch := [], rpred := 0 }
def threadAt (g : Group) (l : Nat) : Thread := (g.threads[l]?).getD Thread.zero
def mapLanes (g : Group) (p : Nat → Bool) (f : Nat → Thread → Thread) : Group :=
  { g with threads := g.threads.mapIdx fun l t => if p l then f l t else t }

/-- A thread executes: active and its guard holds (R50). -/
def participates (g : Group) (c : Ctl) (l : Nat) : Bool :=
  g.amask.getLsbD l && (!c.ge || ((threadAt g l).preds.getLsbD c.gp.toNat != c.gs))
def participants (g : Group) (c : Ctl) : List Nat := (upTo 32).filter fun l => participates g c l

/-- R299. -/
def handleOf (s : State) (g : Group) : Word :=
  let gen := match getTeam s g.ctx g.teamNo with | some t => t.gen | none => 0
  BitVec.ofNat 64 (gen % 2 ^ 16 * 2 ^ 40 + g.teamNo * 2 ^ 8 + g.ident.gidx)

/-- The group of a context that a handle names (R299). -/
def groupOfHandle (s : State) (ctx : Nat) (h : Word) : Option Group :=
  if bitsOf h 63 56 ≠ 0 ∨ bitAt h 7 ∨ bitsOf h 39 38 ≠ 0 then none
  else s.groups.find? fun g => g.ctx == ctx && handleOf s g == h

def teamOf (s : State) (g : Group) : Option Team := getTeam s g.ctx g.teamNo

/-- What pointer checks need of a group. -/
def addrCtx (s : State) (g : Group) : AddrCtx :=
  let w := match teamOf s g with | some t => (t.wb, t.wsize) | none => (0, 0)
  { ctx := g.ctx, rank := g.rank, cl := g.cl, core := some g.core, wb := w.1, wsize := w.2, segs := g.segs, segls := g.segls }

/-- Header bit of the group's kernel (R308). -/
def headerBit (s : State) (g : Group) (i : Nat) : Bool :=
  match teamOf s g with | some t => bitAt t.hdr i | none => false

/-! ### Age files (R81 to R84, R88) -/

/-- A push onto a file: the oldest entry is lost beyond 20. -/
def pushFile (f : List Entry) (e : Entry) : List Entry := (e :: f).take 20
def pushThread (t : Thread) (e : Entry) : Thread :=
  { t with ages := pushFile t.ages e, pcnt := Nat.min (t.pcnt + 1) 15 }
def pushG (g : Group) (e : Entry) : Group := { g with gages := pushFile g.gages e }

/-- The entry of an age as a stored value: void and pending entries are zero (R82). -/
def ageVal (f : List Entry) (k : Nat) : Quad :=
  match f[k]? with
  | some (.val v) => v
  | _ => 0

def entryPend : Entry → Option Nat
  | .pend i => some i
  | .val _ => none
def filePends (f : List Entry) : List Nat := f.filterMap entryPend
def groupPends (g : Group) : List Nat := g.threads.flatMap (fun t => filePends t.ages) ++ filePends g.gages

def fillEntry (id : Nat) (v : Quad) (e : Entry) : Entry :=
  match e with
  | .pend i => if i = id then .val v else .pend i
  | e => e
def fillGroup (id : Nat) (v : Quad) (g : Group) : Group :=
  { g with threads := g.threads.map (fun t => { t with ages := t.ages.map (fillEntry id v) }),
           gages := g.gages.map (fillEntry id v) }

/-- Data arrives for a pending entry: wherever it stands now, in a file, in a saved group's record or in a trap
record (R83, R343, R353). In an exit drain it is discarded (R80). -/
def resolve (s : State) (gid id : Nat) (v : Quad) : State :=
  match getGroup s gid with
  | none => s
  | some g =>
    if g.drain then s else
    let s := modGroup (recordResult s g id v) gid fun g => { fillGroup id v g with recs := g.recs.filter fun r => r.1 ≠ id }
    g.recs.foldl (fun s r => if r.1 = id then writeQuad s r.2 v else s) s

/-! ### Regions and divergence (R114, R115, R122, R345) -/

def closeRegion (g : Group) : Group := { g with ropen := false }

/-- Entries hidden from a handler (R345). -/
def hiddenDepth (g : Group) : Nat := if g.hnd then bitsOf g.tcause 15 12 else 0
def visibleDepth (g : Group) : Nat := g.dstk.length - hiddenDepth g
/-- The innermost entry that is not hidden. -/
def innermost (g : Group) : Option Div := if visibleDepth g = 0 then none else g.dstk.getLast?
def setInnermost (g : Group) (e : Div) : Group := { g with dstk := g.dstk.dropLast ++ [e] }
/-- The taken address of an entry (R93). -/
def divTarget (e : Div) : Word := e.jaddr + BitVec.ofInt 64 (e.trel * 8)

/-- An arm ends when the PC equals the innermost join address (R114). The end of the last arm closes an open region
where it gives the mask its threads back, and not where no thread is left to come (DESIGN CHOICE, log 113). -/
def settleArms : Nat → Group → Group
  | 0, g => g
  | n + 1, g =>
    match innermost g with
    | none => g
    | some e =>
      if g.pc ≠ e.jaddr then g
      else if e.phase then closeRegion { g with amask := g.amask ||| e.mask }
      else if e.mask = 0 then setInnermost g { e with phase := true }
      else
        settleArms n (closeRegion
          (setInnermost { g with amask := e.mask, pc := divTarget e } { e with mask := g.amask, phase := true }))

/-- The arm of an empty active mask ends; entries that empty close (R115). -/
def settleExit : Nat → Group → Group
  | 0, g => g
  | n + 1, g =>
    match g.dstk.getLast? with
    | none => g
    | some e =>
      if e.mask = 0 then settleExit n { g with dstk := g.dstk.dropLast }
      else if e.phase then closeRegion { g with amask := e.mask, pc := e.jaddr }
      else
        settleArms 2 (closeRegion
          (setInnermost { g with amask := e.mask, pc := divTarget e } { e with mask := 0, phase := true }))

/-! ### Waiting and completing (R79) -/

/-- Block: the count of a wait that goes on is kept. -/
def block (s : State) (gid : Nat) (r : WReason) : State :=
  modGroup s gid fun g =>
    { g with st := .waiting, wreason := r,
             wdcnt := if g.st = .waiting ∧ g.wreason = r then g.wdcnt else 0 }

/-- An instruction completes with the next PC; a single step becomes due (R348). -/
def finish (s : State) (gid : Nat) (pc : Word) : State :=
  modGroup s gid fun g =>
    settleArms 2 { g with pc, st := .ready, wreason := .none, wdcnt := 0, peerOk := none,
                          step := if g.step = .armed then .due g.pc else g.step }

def modGang (s : State) (key : Nat) (f : Gang → Gang) : State :=
  { s with gangs := s.gangs.map fun k => if k.key = key then f k else k }

/-! ### Ordering conditions (R226, R228, R236) -/

/-- Globally performed: readable by every observer (R230, R231). -/
def StoreRec.performed (r : StoreRec) : Bool := r.st == .visible

/-- The load has returned its value; a poisoned one has (R216). -/
def LoadRec.returned (l : LoadRec) : Bool :=
  match l.work with
  | .poisoned .. => true
  | _ => false

/-- Loads and atomics of the group before `op` have returned (R226). -/
def loadsReturned (s : State) (gid op : Nat) : Bool :=
  (s.loads.all fun l => !(l.gid == gid && l.op < op) || l.returned) &&
  (s.atoms.all fun a => !(a.gid == gid && a.op < op)) &&
  (s.queries.all fun q => !(q.gid == gid && q.op < op))

/-- The condition that R226 sets an earlier store at a scope. -/
def storeReleased (scope : Nat) (r : StoreRec) : Bool :=
  r.performed || (scope ≤ 3 && !r.ack && r.st == .forwarded)

/-- The stores of others that the group's accesses before `op` have read or learned of are globally performed
(R226, fourth row; R227). -/
def seenPerformed (s : State) (gid op : Nat) : Bool :=
  match getGroup s gid with
  | none => true
  | some g => s.stores.all fun r =>
      !(g.sawFwd.any fun x => x.2 == r.id && x.1 < op) || r.performed || r.st == .lost

/-- R226 holds at a scope for every access of the group before `op`. -/
def releaseOk (s : State) (gid scope op : Nat) : Bool :=
  loadsReturned s gid op &&
  (s.stores.all fun r => !(r.gid == gid && r.op < op) || storeReleased scope r) &&
  (scope ≤ 3 || seenPerformed s gid op)

/-- The same for a message, which its MSEND has handed over: a store that was lost since then holds it no longer, and
its group learns of the loss by R238 (R236, R244; DEDUCED, log 123). -/
def releaseSettled (s : State) (gid scope op : Nat) : Bool :=
  loadsReturned s gid op &&
  (s.stores.all fun r => !(r.gid == gid && r.op < op) || storeReleased scope r || r.st == .lost) &&
  (scope ≤ 3 || seenPerformed s gid op)

/-- No acquire of the group before `op` is still to return its value (R228). -/
def acquiresDone (s : State) (gid op : Nat) : Bool :=
  (s.loads.all fun l => !(l.gid == gid && l.op < op && l.acq != 0) || l.returned) &&
  (s.atoms.all fun a => !(a.gid == gid && a.op < op && a.acq != 0)) &&
  (s.queries.all fun q => !(q.gid == gid && q.op < op && q.kind == .alloc))

/-- The oldest lost store of the group (R238). -/
def lostStore (s : State) (gid : Nat) : Option StoreRec :=
  (s.stores.filter fun r => r.gid == gid && r.st == .lost).foldl
    (fun b r => match b with
      | none => some r
      | some x => if r.op < x.op then some r else some x) none

/-- A store that meets poison is discarded; its group learns of it later (R216). -/
def discardStore (s : State) (r : StoreRec) : State :=
  modGroup (dropStore s r.id) r.gid fun g =>
    { g with stPoison := if g.stPoison.contains (r.op, r.ptr) then g.stPoison else g.stPoison ++ [(r.op, r.ptr)] }

/-! ### What a release carries (R224, R227) -/

/-- The store is still to be globally performed. -/
def openStore (s : State) (id : Nat) : Bool := s.stores.any fun r => r.id == id && !r.performed && r.st != .lost

/-- Stores that are not globally performed and happen before an access `op` of the group: its own, and those it
knows of. -/
def knownStores (s : State) (gid op : Nat) : List Nat :=
  (s.stores.filter fun r => r.gid == gid && r.op < op && openStore s r.id).map (·.id) ++
  (match getGroup s gid with
   | some g => (g.sawFwd.filter fun x => x.1 < op && openStore s x.2).map (·.2)
   | none => [])

/-- What a release of the group at a scope carries. -/
def carryOf (s : State) (gid scope op : Nat) : List Carry :=
  match getGroup s gid with
  | none => []
  | some g =>
    let ids := (knownStores s gid op).eraseDups
    if scope = 0 ∨ ids.isEmpty then []
    else [{ gid, ctx := g.ctx, teamNo := g.teamNo, bent := bentOf g.cl, scope, ids }]

/-- What a store or an atomic of the group carries: by its own release, and by a release FENCE before it. -/
def storeCarry (s : State) (gid rel op : Nat) : List Carry :=
  carryOf s gid rel op ++ (match getGroup s gid with
    | some g => (g.fences.filter fun f => f.2 < op).flatMap fun f => carryOf s gid f.1 f.2
    | none => [])

/-- A group and a releasing group lie in each other's scope instances (R223, R224). -/
def Carry.reaches (k : Carry) (g : Group) (acq : Nat) : Bool :=
  let within (scope : Nat) : Bool := match scope with
    | 0 => false
    | 1 => k.gid == g.gid
    | 2 => k.ctx == g.ctx && k.teamNo == g.teamNo
    | 3 => k.bent == bentOf g.cl
    | _ => true
  within k.scope && within acq

/-- An access `op` of a group reads what carries `ks`; as an acquire, at scope `acq`, it learns of their stores
(R229). -/
def learn (s : State) (gid op acq : Nat) (ks : List Carry) : State :=
  if ks.isEmpty then s else modGroup s gid fun g =>
    let ids := (ks.filter fun k => k.reaches g acq).flatMap (·.ids)
    { g with sawFwd := ((ids.map fun i => (op, i)) ++ g.sawFwd).eraseDups, heard := (ks ++ g.heard).eraseDups }

/-- An acquire that stands between the accesses that the group has issued and those to come. -/
def learnNow (s : State) (gid acq : Nat) (ks : List Carry) : State := learn s gid (s.nextId - 1) acq ks

/-! ### Stores and atomics at their ordering points (R230, R234 to R236) -/

def modStore (s : State) (id : Nat) (f : StoreRec → StoreRec) : State :=
  { s with stores := s.stores.map fun r => if r.id = id then f r else r }

/-- The store has one ordering point, where it is readable by all at one moment (R230): SCRATCH, host memory, PEER,
also where the PEER pointer leads back to the package, and the bytes of a barrier that holds a combiner slot (R272). -/
def onePoint (s : State) (r : StoreRec) : Bool :=
  r.port.isSome || (match r.loc with | .dev _ => false | _ => true) ||
  s.combiners.any fun c => overlaps c.bar 32 r.loc r.bytes.length

/-- A line that the core of the storing group holds: a store updates it (R202). -/
def ownLine (s : State) (gid : Nat) (x : DCacheRec) : Bool :=
  match getGroup s gid with
  | some g => x.cl == g.cl && x.core == g.core
  | none => false

/-- An ordering point gives a store its place: the written bit of the page is set (R369), and other cores lose the
line (R202). -/
def placeStore (s : State) (r : StoreRec) : State :=
  dropLines (markWritten s r.loc) r.loc r.bytes.length (ownLine s r.gid)

/-- Bytes become readable by all, with what they carry (R229). -/
def showStore (s : State) (r : StoreRec) : State :=
  setCarries (pokeBytes (placeStore s r) r.loc r.bytes) r.loc r.bytes.length r.carry

/-- R236, Order: the page's written bit is set (R369), and the store carries what happens before it (R227). At a
single ordering point it is readable at once. -/
def orderStore (s : State) (r : StoreRec) : State :=
  if isPoisoned s r.loc r.bytes.length then discardStore s r
  else
    let r := { r with carry := storeCarry s r.gid r.rel r.op }
    let (s, n) := newId s
    if onePoint s r then modStore (showStore s r) r.id fun x => { x with st := .visible, place := n }
    else modStore (placeStore s r) r.id fun x => { x with st := .ordered, place := n, carry := r.carry }

/-- The answer of one lane on its way back (R210). -/
def answerRec (a : AtomRec) (p : Nat) (work : LoadWork) : LoadRec :=
  { id := p, op := a.op, gid := a.gid, bent := a.bent, port := a.port, acq := a.acq, cld := true, ptr := a.ptr, work }

/-- The write that an atomic makes, as the store that R236 follows. -/
def atomStore (a : AtomRec) (bytes : List Byte) : StoreRec :=
  { id := a.id, op := a.op, gid := a.gid, ctx := a.ctx, bent := a.bent, port := a.port, loc := a.loc, bytes, ack := true,
    atomic := true, rel := a.rel, st := .issued, place := 0, age := a.age, ptr := a.ptr, carry := [] }

/-- Perform a combined request on a location. An acquire learns what the old value carries, a write adds to it
(R229). The write of an ATOMN to device memory has its place and is acknowledged later (R236); any other is
readable by all at once (R235). -/
def performAtom (s : State) (a : AtomRec) : State :=
  let s := { s with atoms := s.atoms.filter fun x => x.id ≠ a.id }
  let r := atomLanes a.code (8 * a.width) (readNat s a.loc a.width) a.lanes
  let ks := carriesAt s a.loc a.width
  let mine := storeCarry s a.gid a.rel a.op
  let s := if hasResult a then learn s a.gid a.op a.acq ks else s
  let st := atomStore a (bytesOf a.width r.1)
  if hasResult a then
    let s := if r.2.1 then addCarries (writeBytes s a.loc st.bytes) a.loc a.width mine else s
    if (getGroup s a.gid).isSome then
      { s with loads := s.loads ++ r.2.2.map fun x => answerRec a x.1 (.value (quadOf x.2)) }
    else s
  else if !r.2.1 then s
  else
    let (s, n) := newId s
    let st := { st with place := n, carry := (mine ++ ks).eraseDups }
    if onePoint s st then { showStore s st with stores := s.stores ++ [{ st with st := .visible }] }
    else { placeStore s st with stores := s.stores ++ [{ st with st := .ordered }] }

/-- The request found poison: it changes nothing (R216). -/
def poisonAtom (s : State) (a : AtomRec) : State :=
  let s := { s with atoms := s.atoms.filter fun x => x.id ≠ a.id }
  let ps := a.lanes.filterMap (·.pend)
  if (getGroup s a.gid).isNone then s
  else if hasResult a then
    { s with loads := s.loads ++ ps.map fun p => answerRec a p (.poisoned a.ptr false) }
  else modGroup s a.gid fun g => { g with stPoison := g.stPoison ++ [(a.op, a.ptr)] }

/-- The value that a load's bytes push (R207). -/
def loadVal (n : Nat) (sx : Bool) (bs : List Byte) : Quad :=
  if sx then quadOf (wrapInt 64 (sxNat (8 * n) (ofBytes bs))) else quadOf (ofBytes bs)

/-! ### Stack accesses (R117, R198, R343) -/

/-- The location of `n` bytes at a pointer that must be of SCRATCH space, every byte of which is accessed. -/
def stackLoc (s : State) (g : Group) (p : Word) (n : Nat) : Except Cause Loc :=
  if ptrSpace p ≠ 1 then .error .space
  else match checkPlain s (addrCtx s g) p 1 with
    | .error c => .error c
    | .ok (.scr r o) =>
      let own := r = g.rank
      let ac := addrCtx s g
      if (own ∧ o + n ≤ ac.wb + ac.wsize) ∨ (¬ own ∧ o + n ≤ 0x600000) then .ok (.scr g.ctx r o)
      else .error .bounds
    | .ok _ => .error .space

/-- The rank that a scratch pointer of the group names; 0x1FFF is its own (R197). -/
def stackRank (g : Group) (p : Word) : Nat := if bitsOf p 60 48 = 0x1FFF then g.rank else bitsOf p 60 48

/-- Where a scratch pointer of the group points. -/
def stackAt (g : Group) (p : Word) : Loc := .scr g.ctx (stackRank g p) (bitsOf p 22 0)

/-- The contents of another rank are being saved: its context is SAVING and every group of the rank has halted. An
access to them waits (R199; DEDUCED, log 87). -/
def rankSwaps (s : State) (g : Group) (r : Nat) : Bool :=
  r != g.rank && (match getCtx s g.ctx with | some c => c.st == .saving | none => false) &&
  s.groups.all fun h => !(h.ctx == g.ctx && h.rank == r) || h.st == .saved

/-- The rank of a stack pointer is being saved. -/
def stackSwaps (s : State) (g : Group) (p : Word) : Bool := rankSwaps s g (stackRank g p)

/-- What the accesses of a block of records fail: each part, by its offset from `p` and its bytes, is an access
of its own, and bytes that no part names are not accessed (R198). -/
def stackFails (s : State) (g : Group) (p : Word) (parts : List (Nat × Nat)) : Option Cause :=
  parts.findSome? fun x => match stackLoc s g (p + BitVec.ofNat 64 x.1) x.2 with
    | .error c => some c
    | .ok _ => none

/-- An access of the group to these bytes is still to be performed (R220). -/
def busyBytes (s : State) (gid : Nat) (l : Loc) (n : Nat) : Bool :=
  s.stores.any (fun r => r.gid == gid && !r.performed && r.st != .lost && overlaps r.loc r.bytes.length l n) ||
  s.atoms.any (fun a => a.gid == gid && overlaps a.loc a.width l n) ||
  s.loads.any fun r => r.gid == gid && (match r.work with
    | .read _ _ loc m _ => overlaps loc m l n
    | _ => false)

/-- An access of a group that is still to be performed. -/
inductive Own
  | load (r : LoadRec)
  | store (r : StoreRec)
  | atom (a : AtomRec)
deriving DecidableEq, Repr

def Own.id : Own → Nat
  | .load r => r.id
  | .store r => r.id
  | .atom a => a.id

/-- An access among others in program order. -/
def byId (x : Own) : List Own → List Own
  | [] => [x]
  | y :: ys => if x.id ≤ y.id then x :: y :: ys else y :: byId x ys

/-- The group's accesses to these bytes that are still to be performed, in program order. -/
def ownPending (s : State) (gid : Nat) (l : Loc) (n : Nat) : List Own :=
  let reads (r : LoadRec) : Bool := match r.work with
    | .read _ _ m k _ => overlaps m k l n
    | _ => false
  let loads := (s.loads.filter fun r => r.gid == gid && reads r).map Own.load
  let stores := s.stores.filter fun r => r.gid == gid && r.st == .issued && overlaps r.loc r.bytes.length l n
  let atoms := (s.atoms.filter fun a => a.gid == gid && overlaps a.loc a.width l n).map Own.atom
  (loads ++ stores.map Own.store ++ atoms).foldr byId []

/-- One of them is performed: a load reads what it has not read yet, and its data arrives later. -/
def performOwn (s : State) (x : Own) : State :=
  match x with
  | .store r => orderStore s r
  | .atom a => if isPoisoned s a.loc a.width then poisonAtom s a else performAtom s a
  | .load r => match r.work with
    | .read lo hi loc n sx =>
      let bad := isPoisoned s loc n
      let bs := readBytes s loc n
      let work : LoadWork := if bad then .poisoned r.ptr false
        else .value (loadVal n sx (lo.getD (bs.take 8) ++ hi.getD (bs.drop 8)))
      let s := if bad then s else learn s r.gid r.op r.acq (carriesAt s loc n)
      { s with loads := s.loads.map fun y => if y.id = r.id then { y with work } else y }
    | _ => s

/-- The group's own accesses to these bytes are performed now, in program order (R220; log 24). -/
def settleOwn (s : State) (gid : Nat) (l : Loc) (n : Nat) : State := (ownPending s gid l n).foldl performOwn s

/-- An operation on an object in memory that is performed where it is issued may go: the group's earlier
acquires have returned, and its earlier accesses to the object's bytes are performed (R220, R228). -/
def objectReady (s : State) (gid : Nat) (l : Loc) (n : Nat) : Bool :=
  acquiresDone s gid s.nextId && !busyBytes s gid l n

/-! ### Events (R282, R285) -/

/-- EVPEND of a group with the bit of every binding that `p` accepts; an exit drain discards the event (R291). -/
def edgeBits (p : Nat → Binding → Bool) (g : Group) : BitVec 16 :=
  if g.drain then g.evpend
  else (upTo 16).foldl (fun m n =>
    match g.evbind[n]? with
    | some b => if p n b then m ||| ((1 : BitVec 16) <<< n) else m
    | none => m) g.evpend

/-- A source event sets the bit of every binding of a group that `p` accepts. -/
def latchEdge (s : State) (gid : Nat) (p : Nat → Binding → Bool) : State :=
  match getGroup s gid with
  | none => s
  | some g => recordField (modGroup s gid fun h => { h with evpend := edgeBits p h }) gid 0x4AC0 2 (edgeBits p g).toNat

/-! ### Rings (R260 to R263, R270) -/

def ringCtrl (s : State) (h : Loc) : Nat := readNat s h 8
def ringClaim (s : State) (h : Loc) : Nat := readNat s (h.plus 0x08) 4
def ringVtail (s : State) (h : Loc) : Nat := readNat s (h.plus 0x0C) 4
def ringAwait (s : State) (h : Loc) : Nat := readNat s (h.plus 0x10) 4
def ringHead (s : State) (h : Loc) : Nat := readNat s (h.plus 0x14) 4
def ringPhold (s : State) (h : Loc) : Nat := readNat s (h.plus 0x18) 4
def ringChold (s : State) (h : Loc) : Nat := readNat s (h.plus 0x1C) 4
def ringCmap (s : State) (h : Loc) : Nat := readNat s (h.plus 0x20) 32
/-- STATE: 0 OPEN, 1 CLOSING, 2 CLOSED, 3 BROKEN. -/
def ringState (s : State) (h : Loc) : Nat := ringCtrl s h / 2 ^ 8 % 4
def ringSize (s : State) (h : Loc) : Nat :=
  let lgn := ringCtrl s h / 2 ^ 4 % 16
  if lgn = 0 then 65536 else 2 ^ lgn
/-- The difference of two counters (R261). -/
def sub32 (a b : Nat) : Nat := (a + 2 ^ 32 - b % 2 ^ 32) % 2 ^ 32

/-- A result entry (R263). -/
def ringEntry (ptr : Word) (status k start : Nat) : Quad :=
  quadOf (ptr.toNat * 2 ^ 64 + status * 2 ^ 56 + k % 2 ^ 17 * 2 ^ 32 + start % 2 ^ 32)
/-- The pointer to a granule of the ring at pointer `p` (R261, R263). -/
def granulePtr (p : Word) (size start : Nat) : Word := ptrAdd p (64 + start % size * 64)

/-- A live holder (R260); `h` is the ring's header. -/
def holderLive (s : State) (h : Loc) (v : Nat) : Bool :=
  let kind := v / 2 ^ 30 % 4
  let idn := v % 2 ^ 30
  match h with
  | .scr ctx _ _ =>
    (kind == 1 && s.teams.any fun t => t.ctx == ctx && t.no == idn) ||
    (kind ≥ 2 && s.subs.any fun x => x.ring == h && x.slot == idn && x.load == (kind == 2))
  | _ => false

/-- An entry of an RSUB that ends (R263): K is not stated. -/
def subEntry (s : State) (ptr : Word) (status done : Nat) : State × Quad :=
  ((freshQuad s).1, ringEntry ptr status (freshQuad s).2.toNat done)

/-- The group still holds the pending entry of an operation, in a file or a trap record (R263). -/
def holdsEntry (s : State) (gid id : Nat) : Bool :=
  match getGroup s gid with
  | some g => (groupPends g).contains id || g.recs.any fun r => r.1 == id
  | none => false

/-- RBRK in a group that holds a pending entry on a ring that breaks. -/
def rbrk (ev : Bool) (s : State) (gid : Nat) : State := if ev then latchEdge s gid fun _ b => b.kind == 8 else s
def breakWait (ev : Bool) (size : Nat) (s : State) (w : RingWait) : State :=
  rbrk (ev && holdsEntry s w.gid w.id)
    (resolve s w.gid w.id (ringEntry (granulePtr w.ptr size w.span.start) 1 w.span.k w.span.start)) w.gid
def breakCommit (ev : Bool) (h : Loc) (size : Nat) (s : State) (c : CopyRec) : State :=
  match c.kind with
  | .commit r p _ sp pend =>
    if r = h ∧ pend ≠ 0 then
      rbrk (ev && holdsEntry s c.gid pend)
        (resolve s c.gid pend (ringEntry (granulePtr p size sp.start) 1 sp.k sp.start)) c.gid
    else s
  | _ => s
/-- A queued commit that a break has resolved commits nothing. -/
def killCommit (h : Loc) (c : CopyRec) : CopyRec :=
  match c.kind with
  | .commit r p t sp _ => if r = h then { c with kind := .commit r p t sp 0 } else c
  | _ => c
def breakSub (ev : Bool) (s : State) (x : Sub) : State :=
  rbrk (ev && holdsEntry s x.gid x.pend)
    (resolve (subEntry s 0 1 x.done).1 x.gid x.pend (subEntry s 0 1 x.done).2) x.gid

/-- Resolve every pending entry on a ring with BROKEN and end its subscriptions (R265, R270); `ev` also
raises RBRK. -/
def resolveRing (s : State) (h : Loc) (ev : Bool) : State :=
  let ws := s.ringWaits.filter fun w => w.ring == h
  let subs := s.subs.filter fun x => x.ring == h
  let size := ringSize s h
  let s := { s with ringWaits := s.ringWaits.filter fun w => w.ring != h }
  let s := ws.foldl (breakWait ev size) s
  let s := s.copies.foldl (breakCommit ev h size) s
  let s := { s with copies := s.copies.map (killCommit h), subs := s.subs.filter fun x => x.ring != h }
  subs.foldl (breakSub ev) s

/-- The ring becomes BROKEN, whatever STATE its bytes show: its pending entries resolve, its subscriptions end, RBRK
events (R262, R270). -/
def breakRingAt (s : State) (h : Loc) (fcode : Nat) : State :=
  let c := ringCtrl s h
  let s := writeNat s h 8 (c / 2 ^ 24 * 2 ^ 24 + fcode % 256 * 2 ^ 16 + c / 2 ^ 10 % 2 ^ 6 * 2 ^ 10 + 3 * 2 ^ 8 + c % 2 ^ 8)
  resolveRing s h true

/-- A ring that is not BROKEN breaks. -/
def breakRing (s : State) (h : Loc) (fcode : Nat) : State := if ringState s h = 3 then s else breakRingAt s h fcode

/-- The consumer side has an await pending or held: granules between HEAD and AWAIT, but not where an END left the
rest of its span unfilled and all that was claimed has been retired (R265). -/
def awaitsHeld (s : State) (h : Loc) : Bool :=
  s.ringWaits.any (fun w => w.ring == h && w.kind == .await) ||
  (ringAwait s h != ringHead s h && !(ringState s h != 0 && ringHead s h == ringClaim s h))

/-- Rings on which a side of the team has a claim or an await outstanding break (R270). -/
def breakTeamRings (s : State) (ctx teamNo fcode : Nat) : State :=
  s.rings.foldl (fun s h => match h with
    | .scr c _ _ =>
      let mine (v : Nat) := v / 2 ^ 30 == 1 && v % 2 ^ 30 == teamNo
      if c = ctx ∧ ((mine (ringPhold s h) ∧ ringClaim s h ≠ ringVtail s h) ∨ (mine (ringChold s h) ∧ awaitsHeld s h))
      then breakRing s h fcode else s
    | _ => s) s

/-! ### Gangs (R173, R190) -/

def gangPartial (k : Gang) (o : JointOp) : Bool := o.parts.length < k.size

/-- GST 3 reaches a member's record where that lies in device memory (R190, R355). -/
def recordBroken (s : State) (gid : Nat) : State :=
  match getGroup s gid with
  | none => s
  | some g => match g.area with
    | none => s
    | some a => deviceOr s (a.plus 0x4AB8) 0x30

/-- The gang breaks: partial operations go, every member's GST becomes 3. Answers the members that wait
in GANG or MMA and take GANGBRK at once (R190). -/
def breakGang (s : State) (key : Nat) : State × List Nat :=
  match s.gangs.find? fun k => k.key == key with
  | none => (s, [])
  | some k =>
    if k.broken then (s, []) else
    let ids := (k.members.filter fun m => !m.left).map (·.gid)
    let s := modGang s key fun k => { k with broken := true, ops := k.ops.filter fun o => !gangPartial k o }
    let mark (g : Group) : Group := if ids.contains g.gid then { g with gang := { g.gang with gst := 3 } } else g
    let s := ids.foldl recordBroken { s with groups := s.groups.map mark }
    (s, ids.filter fun i => match getGroup s i with
      | some g => g.st == .waiting && g.wreason == .gang && !g.drain
      | none => false)

/-- The gang is over: its tiles are free (R173). -/
def disbandGang (s : State) (key : Nat) (killed : Bool) : State :=
  { s with gangs := s.gangs.filter fun k => k.key ≠ key,
           fresh := if killed then s.fresh + 1 else s.fresh,
           tiles := s.tiles.map fun t =>
             if t.owner = some key then
               (if killed then { t with owner := none, words := [], lost := s.fresh + 1 } else { t with owner := none })
             else t }

/-- A member leaves (R173, R175). -/
def leaveGang (s : State) (gid : Nat) : State × List Nat :=
  match gangOf s gid with
  | none => (s, [])
  | some k =>
    let memb := match memberOf k gid with | some m => m.memb | none => 0
    let lacks := k.ops.any fun o => gangPartial k o && !(o.parts.any fun p => p.memb == memb)
    let s := modGang s k.key fun k => { k with members := k.members.map fun m =>
      if m.gid = gid then { m with left := true } else m }
    let (s, l) := if lacks then breakGang s k.key else (s, [])
    match s.gangs.find? fun x => x.key == k.key with
    | none => (s, l)
    | some k =>
      if (k.members.all fun m => m.left) && k.ops.isEmpty && k.tileOps.isEmpty
      then (disbandGang s k.key false, l) else (s, l)

/-! ### The end of teams and slices (R323, R391) -/

/-- The slice reports its end to its queue (R323, R391). -/
def endSlice (s : State) (ctx seq status : Nat) : State :=
  match getSlice s ctx seq with
  | none => s
  | some x =>
    settleQueue (completeIn s ctx x.q x.index status 0x07 true x.tag (seq % 2 ^ 32) x.nocpl) x.q

/-- Threads of the slice in a bin. -/
def binHolds (b : Bin) (seq : Nat) : Bool :=
  ((match b.key with | some k => k.1 == seq | none => false) && !b.fill.isEmpty) ||
  (b.lkey.1 == seq && !b.launch.isEmpty)

/-- A bin without the threads of a slice. -/
def clearBin (seq : Nat) (b : Bin) : Bin :=
  let b := if b.lkey.1 = seq then { b with launch := [] } else b
  match b.key with
  | some k => if k.1 = seq then { b with key := none, fill := [], timer := 0, due := 0 } else b
  | none => b

/-- Spawned groups of the slice on a rank, or threads in its bins, remain (R323). -/
def spawnLeft (s : State) (ctx seq rank : Nat) : Bool :=
  s.teams.any (fun t => t.ctx == ctx && t.seq == seq && t.rank == rank && t.spawned) ||
  s.bins.any fun b => b.ctx == ctx && b.rank == rank && binHolds b seq

/-- Count the teams that have finished; the last one ends the slice DONE (R323). -/
def countFinished (s : State) (ctx seq : Nat) : State :=
  match getSlice s ctx seq with
  | none => s
  | some x =>
    let stay := x.retiring.filter fun c => spawnLeft s ctx seq c
    let done := x.finished + (x.retiring.length - stay.length)
    let isEnd : Bool := x.st == .launched && done == x.teams
    let s := modSlice s ctx seq fun x => { x with retiring := stay, finished := done, st := if isEnd then .done else x.st }
    if isEnd then endSlice s ctx seq 0x10 else s

/-- The team's number is taken back with its last group (R299); holders it left clear (R265). -/
def clearHolders (s : State) (ctx no : Nat) : State :=
  s.rings.foldl (fun s h => match h with
    | .scr c _ _ =>
      let mine (v : Nat) := c = ctx ∧ v / 2 ^ 30 = 1 ∧ v % 2 ^ 30 = no
      if ringState s h = 3 then s else
      let s := if mine (ringPhold s h) then writeNat s (h.plus 0x18) 4 0 else s
      if mine (ringChold s h) then writeNat s (h.plus 0x1C) 4 0 else s
    | _ => s) s

/-- The team is gone for the objects that wait to be unloaded (R309). -/
def forgetTeam (s : State) (ctx no : Nat) : State :=
  { s with objs := s.objs.map fun o => if o.ctx = ctx then { o with before := o.before.filter (· ≠ no) } else o }

def finishTeam (s : State) (ctx no : Nat) : State :=
  match getTeam s ctx no with
  | none => s
  | some t =>
    if s.groups.any fun g => g.ctx == ctx && g.teamNo == no then s else
    let s := forgetTeam (clearHolders s ctx no) ctx no
    let s := { s with teams := s.teams.filter fun x => !(x.ctx == ctx && x.no == no) }
    let s := if t.spawned then s else modSlice s ctx t.seq fun x => { x with retiring := t.rank :: x.retiring }
    countFinished s ctx t.seq

/-- What a group that leaves for good drops: its loads, waits and counts; its stores, copies and messages
go on (R236, R249). -/
def dropGroup (s : State) (gid : Nat) : State :=
  { s with groups := s.groups.filter fun g => g.gid ≠ gid,
           loads := s.loads.filter fun l => l.gid ≠ gid,
           queries := s.queries.filter fun q => q.gid ≠ gid,
           barWaits := s.barWaits.filter fun w => w.gid ≠ gid,
           ringWaits := s.ringWaits.filter fun w => w.gid ≠ gid ∨ w.kind = .claim ∨ w.kind = .await,
           stores := s.stores.filter fun r => r.gid ≠ gid ∨ r.st ≠ .lost,
           copies := s.copies.map fun c => if c.gid = gid then { c with counts := false, token := none } else c }

/-! ### Kills (R354, R356) -/

/-- Kill a team: its groups, gangs and the rings its sides hold (R79, R173, R270). -/
def killTeam (s : State) (ctx no : Nat) : State :=
  let s := breakTeamRings s ctx no 0
  let ks := s.gangs.filter fun k => k.ctx == ctx && k.teamNo == no
  let s := ks.foldl (fun s k => disbandGang s k.key true) s
  let gs := s.groups.filter fun g => g.ctx == ctx && g.teamNo == no
  let s := gs.foldl (fun s g => dropGroup s g.gid) s
  let s := forgetTeam (clearHolders s ctx no) ctx no
  { s with teams := s.teams.filter fun t => !(t.ctx == ctx && t.no == no) }

/-- Kill a slice (R323): no team starts, its teams and bins go, and it reports KILLED. -/
def killSlice (s : State) (ctx seq : Nat) : State :=
  match getSlice s ctx seq with
  | none => s
  | some x =>
    if x.st = .done ∨ x.st = .killed then s else
    let ts := s.teams.filter fun t => t.ctx == ctx && t.seq == seq
    let s := ts.foldl (fun s t => killTeam s ctx t.no) s
    let s := { s with bins := s.bins.map fun b => if b.ctx = ctx then clearBin seq b else b,
                      cands := s.cands.filter fun c => !(c.ctx == ctx && c.seq == seq) }
    let s := modSlice s ctx seq fun x => { x with st := .killed, retiring := [] }
    endSlice s ctx seq 0x11

/-- Cancel every copy of a context (R248, R249, R354). -/
def cancelCopies (s : State) (ctx : Nat) : State :=
  { s with copies := s.copies.filter fun c => c.ctx ≠ ctx }

/-- The domain of a fault-domain kill: the nearest node with FDOM, or the root, named 0 here (R356). -/
def faultDomain (x : Slice) : Nat :=
  match x.chain.find? fun n => n.2.2.2 with
  | some n => if x.chain.getLast?.map (·.1) = some n.1 then 0 else n.1
  | none => 0

/-- R356, for the slice of a context. -/
def faultKill (s : State) (ctx seq : Nat) (cause : Cause) : State :=
  match getSlice s ctx seq with
  | none => s
  | some x =>
    let d := faultDomain x
    let region := if d = 0 then (match x.chain.getLast? with | some n => n.1 | none => 0) else d
    let s := journal s 5 0 ctx 0 0 0 [region, cause.code]
    let victims := s.slices.filter fun y => y.ctx == ctx && (d == 0 || y.chain.any fun n => n.1 == d)
    let s := victims.foldl (fun s y => killSlice s ctx y.seq) s
    if d = 0 then cancelCopies s ctx else s

/-! ### Taking a trap (R342 to R346) -/

/-- TCAUSE as entry writes it (R339). -/
def causeWord (g : Group) (c : Cause) (async : Bool) : BitVec 32 :=
  BitVec.ofNat 32 (c.code + 2 ^ 8 * b2n g.prv + 2 ^ 9 * b2n g.tmk + 2 ^ 10 * b2n async + 2 ^ 12 * g.dstk.length)

/-- R346. -/
def unrecoverable (s : State) (g : Group) (c : Cause) (async : Bool) (tpc taddr : Word) : State :=
  let s := modGroup s g.gid fun h => { h with tcause := causeWord h c async, tpc, taddr }
  let s := journal s 3 0 g.ctx 0 0 0 [(handleOf s g).toNat, c.code, tpc.toNat, taddr.toNat]
  match teamOf s g with
  | none => dropGroup s g.gid
  | some t => faultKill s g.ctx t.seq c

/-- One position of a trap record: its bytes, or the pending operation recorded there. The bytes of a
pending position are free until its data arrives. -/
def recordEntry (s : State) (gid : Nat) (l : Loc) (e : Option Entry) : State :=
  match e with
  | some (.val v) => writeQuad s l v
  | none => writeQuad s l 0
  | some (.pend i) =>
    let (s, v) := freshQuad s
    let s := writeQuad s l v
    modGroup s gid fun g => { g with recs := (i, l) :: g.recs }

/-- Write the trap record of R344 at `b`. -/
def writeTrapRecord (s : State) (g : Group) (b : Loc) : State :=
  let s := (lanesOf g.emask).foldl (fun s t =>
    (upTo 20).foldl (fun s k =>
      recordEntry s g.gid (b.plus (k * 0x200 + t * 0x10)) (threadAt g t).ages[k]?) s) s
  let s := (upTo 20).foldl (fun s k => recordEntry s g.gid (b.plus (0x2800 + 16 * k)) g.gages[k]?) s
  let s := writeBytes s (b.plus 0x2940) (predWords g.threads (·.preds))
  let s := writeNat s (b.plus 0x2980) 16 (nibbles (lanesNat g.threads (·.pcnt)))
  let s := writeBytes s (b.plus 0x2990) ((lanesNat g.threads fun t => t.ages.length).map (BitVec.ofNat 8))
  let s := writeNat s (b.plus 0x29B0) 4 g.amask.toNat
  writeNat s (b.plus 0x29B4) 12 g.gages.length

/-- The single step as entry leaves it (R343, R348; DEDUCED, log 95): an asynchronous entry pauses it until its handler
returns, a synchronous one, and the WDOG of the stepped instruction, end it. -/
def stepAtEntry (g : Group) (c : Cause) (async : Bool) : StepArm :=
  match g.step with
  | .armed => if async && c != .wdog then .paused none g.cstk else .off
  | .due a => if async then .paused (some a) g.cstk else .off
  | x => x

/-- The single step as a TRET that restores CSTK to `b` leaves it; a TRET may itself be the stepped instruction. -/
def stepAtReturn (g : Group) (b : Word) : StepArm :=
  if bitAt g.tcause 11 then .armed
  else match g.step with
    | .paused d c => if c ≠ b then .paused d c else (match d with
      | some a => .due a
      | none => .armed)
    | .armed => .due g.pc
    | _ => .off

/-- TVEC names no handler (R343). -/
def tvecBad (g : Group) : Bool := g.tvec = 0 ∨ bitsOf g.tvec 63 55 ≠ 0 ∨ bitsOf g.tvec 2 0 ≠ 0

/-- The group as entry leaves it (R343). -/
def trapGroup (g : Group) (c : Cause) (async : Bool) (tpc taddr : Word) : Group :=
  { g with
    trgn := BitVec.ofNat 64 (bitsOf g.rpc 54 3 * 8 + b2n g.ropen), ropen := false,
    tcause := causeWord g c async, tpc, taddr, cstk := g.cstk + 0x29C0,
    prv := true, tmk := true, hnd := true, amask := g.emask,
    threads := g.threads.mapIdx fun l t =>
      if g.emask.getLsbD l then { t with ages := [], pcnt := 0 } else t,
    gages := [], pc := g.tvec, st := .ready, wreason := .none, wdcnt := 0, step := stepAtEntry g c async, drain := false,
    peerOk := none, fault := none, served := false }

/-- Entry without what a trap breaks (R343). -/
def enterTrap (s : State) (gid : Nat) (c : Cause) (async : Bool) (tpc taddr : Word) : State :=
  match getGroup s gid with
  | none => s
  | some g =>
    if tvecBad g then unrecoverable s g c async tpc taddr
    else if g.tmk then
      (if async then modGroup s gid fun g =>
          { g with held := if g.held.any (fun h => h.1 == c) then g.held else g.held ++ [(c, taddr)] }
       else unrecoverable s g c async tpc taddr)
    else match stackLoc s g g.cstk 0x29C0 with
      | .error _ => unrecoverable s g c async tpc taddr
      | .ok b =>
        if bitsOf g.cstk 3 0 ≠ 0 ∨ g.cslim.toNat < g.cstk.toNat + 0x29C0 then unrecoverable s g c async tpc taddr
        else
          let s := settleOwn s gid b 0x29C0
          let s := writeTrapRecord s g b
          modGroup s gid fun g => trapGroup g c async tpc taddr

/-- Hold an asynchronous trap (R342). -/
def holdTrap (s : State) (gid : Nat) (c : Cause) (taddr : Word) : State :=
  modGroup s gid fun g =>
    { g with held := if g.held.any (fun h => h.1 == c) then g.held else g.held ++ [(c, taddr)] }

/-- An asynchronous trap that the group will only hold (R342). -/
def holdsTrap (s : State) (gid : Nat) (async : Bool) : Bool :=
  match getGroup s gid with
  | some g => g.tmk && async && !tvecBad g
  | none => true

/-- GANGBRK in members that wait (R190). -/
def trapWaiting (s : State) (key : Nat) (l : List Nat) : State :=
  let n := match s.gangs.find? fun k => k.key == key with | some k => k.performed | none => 0
  let s := match l with
    | i :: _ => (match getGroup s i with | some g => breakTeamRings s g.ctx g.teamNo Cause.gangbrk.code | none => s)
    | [] => s
  l.foldl (fun s i => match getGroup s i with
    | some g => enterTrap s i .gangbrk false g.pc (BitVec.ofNat 64 n)
    | none => s) s

/-- A group takes a trap: its ring sides and its gang break, then entry (R190, R270, R343). -/
def takeTrap (s : State) (gid : Nat) (c : Cause) (async : Bool) (tpc taddr : Word) : State :=
  match getGroup s gid with
  | none => s
  | some g =>
    if holdsTrap s gid async then enterTrap s gid c async tpc taddr
    else
      let s := if c = .bkpt ∨ c = .trap ∨ c = .step then s else breakTeamRings s g.ctx g.teamNo c.code
      match gangOf s gid with
      | none => enterTrap s gid c async tpc taddr
      | some k =>
        let (s, l) := breakGang s k.key
        let s := enterTrap s gid c async tpc taddr
        trapWaiting s k.key (l.filter (· ≠ gid))

/-- The held trap that is delivered first: the lowest code (R342). -/
def firstHeld (l : List (Cause × Word)) : Option (Cause × Word) :=
  l.foldl (fun b h => match b with
    | none => some h
    | some x => if h.1.code < x.1.code then some h else some x) none

/-- Deliver a held trap when traps are not masked (R342). -/
def deliverHeld (s : State) (gid : Nat) : State :=
  match getGroup s gid with
  | none => s
  | some g =>
    if g.tmk then s else
    match firstHeld g.held with
    | none => s
    | some h =>
      let s := modGroup s gid fun g => { g with held := g.held.filter fun x => x.1 ≠ h.1 }
      takeTrap s gid h.1 true g.pc h.2

/-! ### Returning from a trap (R348) -/

def readRecordEntry (s : State) (g : Group) (l : Loc) : Entry :=
  match g.recs.find? fun r => r.2 == l with
  | some r => .pend r.1
  | none => .val (readQuad s l)

/-- The group as TRET rebuilds it from the record at `b`. -/
def returnGroup (s : State) (g : Group) (b : Loc) : Group :=
  let byteAt (o : Nat) := (readByte s (b.plus o)).toNat
  let g' := mapLanes g (fun t => g.emask.getLsbD t) fun t th =>
    { th with
      ages := (upTo (Nat.min (byteAt (0x2990 + t) % 32) 20)).map fun k =>
        readRecordEntry s g (b.plus (k * 0x200 + t * 0x10)),
      preds := BitVec.ofNat 16 ((upTo 16).foldl (fun a p =>
        a + 2 ^ p * (readNat s (b.plus (0x2940 + 4 * p)) 4 / 2 ^ t % 2)) 0),
      pcnt := readNat s (b.plus 0x2980) 16 / 16 ^ t % 16 }
  { g' with
    gages := (upTo (Nat.min (readNat s (b.plus 0x29B4) 4 % 32) 20)).map fun k =>
      readRecordEntry s g (b.plus (0x2800 + 16 * k)),
    amask := BitVec.ofNat 32 (readNat s (b.plus 0x29B0) 4) &&& g.emask,
    recs := g.recs.filter fun r => !(inside r.2 1 b 0x29C0),
    cstk := g.cstk - 0x29C0, prv := bitAt g.tcause 8, tmk := bitAt g.tcause 9, hnd := false }

/-! ### Issuing an instruction (R62, R79) -/

/-- What the body of an instruction comes to. -/
inductive Out
  /-- completes; the next instruction follows -/
  | done (s : State)
  /-- completes; the PC is given -/
  | goto (s : State) (pc : Word)
  /-- traps with cause, TPC and TADDR; the state is the one before the instruction, less what was reported -/
  | trap (s : State) (c : Cause) (tpc taddr : Word)
  /-- must wait -/
  | wait (s : State) (r : WReason)
  /-- the group stands as the state has it -/
  | stay (s : State)

/-- Wait until the four counters are within limits, which the watchdog looks at (R125, R357). -/
def waitCounts (s : State) (gid ld st cp tl : Nat) : Out :=
  .wait (modGroup s gid fun g => { g with awaits := ld + 16 * st + 256 * cp + 4096 * tl }) .cnt

/-- The instruction is open to privileged code only (R66). -/
def needsPriv : Instr → Bool
  | .tret .. | .tmaskMask .. | .tmaskUnmask .. | .segset .. | .harvest .. | .tinv .. | .snapt .. => true
  | .swr _ f => match SReg.ofNum f.sreg.toNat with | some r => r.privileged | none => false
  | _ => false

/-- TA × TB → TC is a row of R61. -/
def comboOk (ta tb tc : Nat) : Bool :=
  (tc == 0 && ((ta == 0 && tb == 0) || (ta == 1 && tb == 1) ||
    ((ta == 2 || ta == 3) && (tb == 2 || tb == 3)) || ((ta == 6 || ta == 7) && (tb == 6 || tb == 7)) ||
    ((ta == 8 || ta == 9) && (tb == 8 || tb == 9)))) ||
  (tc == 1 && (ta == 4 || ta == 5) && (tb == 4 || tb == 5))

/-- Check 2 of R62, with UNIF's lane limit under G16 (R104). -/
def fieldsOk (i : Instr) (g : Group) : Bool :=
  i.wf && (match i with
    | .unif _ f => !(g.ident.g16 && f.mod == 0 && 16 ≤ bitsOf f.imm16 8 4)
    | _ => true)

/-- Check 3 of R62. -/
def openTo (s : State) (g : Group) (i : Instr) : Bool :=
  (g.prv || !needsPriv i) && (match i with
    | .spawn .. => headerBit s g 7
    | _ => true)

def isJoin : Instr → Bool
  | .join .. => true
  | _ => false

/-- The trap that the checks of R62, and then R114, find before the instruction acts. -/
def issueTrap (s : State) (g : Group) (i : Instr) (c : Ctl) : Option Cause :=
  if !fieldsOk i g then some .illfld
  else if !openTo s g i then some .priv
  else if !(match i with | .mma _ f => comboOk f.ta.toNat f.tb.toNat f.tc.toNat | _ => true) then some .illcmb
  else if c.u && visibleDepth g ≠ 0 then some .divuni
  else match innermost g with
    | some e => if g.pc == e.jaddr && !isJoin i then some .joinlay else none
    | none => none

/-- Apply what a body came to. -/
def applyOut (gid : Nat) (pc : Word) : Out → State
  | .done s => finish s gid (pc + 8)
  | .goto s pc' => finish s gid pc'
  | .trap s c tpc taddr => takeTrap s gid c false tpc taddr
  | .wait s r => block s gid r
  | .stay s => s

/-- The current group issues an instruction: the checks, then its body. With no current group nothing
happens. -/
def issue (i : Instr) (c : Ctl) (body : State → Group → Out) (s : State) : Res :=
  match getGroup s s.cur with
  | none => .next s
  | some g =>
    match issueTrap s g i c with
    | some .joinlay => .next (takeTrap (freshWord s).1 g.gid .joinlay false g.pc (freshWord s).2)
    | some k => .next (takeTrap s g.gid k false g.pc ((encode i).getD 0))
    | none => .next (applyOut g.gid g.pc (body s g))

/-- A trap at the instruction with a TADDR that the manual does not state. -/
def trapFree (s : State) (g : Group) (c : Cause) : Out :=
  .trap (freshWord s).1 c g.pc (freshWord s).2

/-- An instruction from 0xC0 to 0xD9 closes an open region before it acts (R122). DEDUCED, log 94: it closes it
before its own checks, as R284 states for EVBIND; an atomic, ALLOC, FREE, PCOMMIT and PDECOMMIT close it as they
act, after their checks, since R203 gives a page fault of theirs by whether a region is open. -/
def closing (body : State → Group → Out) (s : State) (g : Group) : Out :=
  body (setGroup s (closeRegion g)) (closeRegion g)

/-- The guard of a group-wide instruction holds in an active thread (R97). -/
def groupGuard (g : Group) (c : Ctl) : Bool := !c.ge || !(participants g c).isEmpty

end Sys2Proof.Machine
end

