-- ==== Sys2Proof/Machine/Flags.lean ====
section
/-! DEFINITION. MODE and FLAGS (R45 to R48): their fields, what a write stores, raising flags, the trap
of R48, the effective rounding (R27, R30) and the dither phase (R31). -/

namespace Sys2Proof.Machine

def modeRm (g : Group) : Nat := bitsOf g.mode 2 0
def modeFtzi (g : Group) : Bool := bitAt g.mode 3
def modeFtzo (g : Group) : Bool := bitAt g.mode 4
def modeNanp (g : Group) : Bool := bitAt g.mode 5
def modeDph (g : Group) : Nat := bitsOf g.mode 12 8
def modeDpa (g : Group) : Bool := bitAt g.mode 13
/-- The trap enables, in the order of the flags. -/
def modeTraps (g : Group) : Nat := bitsOf g.mode 20 16

/-- What a write of MODE stores: reserved bits zero, RM 0 or 7 as 1 (R4, R45). -/
def modeWrite (v : BitVec 32) : BitVec 32 :=
  let m := v &&& 0x001F3F3F
  if bitsOf v 2 0 = 0 ∨ bitsOf v 2 0 = 7 then (m &&& ~~~(7 : BitVec 32)) ||| 1 else m

/-- What a write of FLAGS stores (R46). -/
def flagsWrite (v : BitVec 32) : BitVec 32 := v &&& 0x7F

/-- Raised flags are ORed into FLAGS (R47). -/
def raiseFlags (g : Group) (fl : Nat) : Group := { g with flags := g.flags ||| BitVec.ofNat 32 (fl % 128) }

/-- A raised flag whose trap is enabled (R48). -/
def trapsFp (g : Group) (fl : Nat) : Bool := (fl % 32) &&& modeTraps g != 0

/-- RM as an instruction uses it (R27). -/
def effRm (g : Group) (rm : BitVec 3) : Nat := if rm = 0 then modeRm g else rm.toNat

/-- The rounding of an element at a position (R27, R29, R30). -/
def envAt (g : Group) (rm : Nat) (sat : Bool) (pos : Nat) : FEnv :=
  { rm, idx := (pos + modeDph g) % 32, ftzi := modeFtzi g, ftzo := modeFtzo g, nanp := modeNanp g, sat }

/-- DPH advances after an MMST or a CVTB under .rds with DPA set (R31). -/
def advanceDph (g : Group) (rm : Nat) : Group :=
  if modeDpa g ∧ rm = 6 then
    { g with mode := (g.mode &&& ~~~(0x1F00 : BitVec 32)) ||| BitVec.ofNat 32 ((modeDph g + 1) % 32 * 256) }
  else g

/-- An instruction that raised flags either traps with FPEXC, and nothing changes, or completes (R47,
R48). -/
def settle (s : State) (g : Group) (fl : Nat) (upd : Group → Group) : Out :=
  if trapsFp g fl then .trap s .fpexc g.pc (BitVec.ofNat 64 (fl % 32))
  else .done (setGroup s (upd (raiseFlags g fl)))

end Sys2Proof.Machine
end

