-- ==== Sys2Proof/Machine/Operands.lean ====
section
/-! DEFINITION. Operand forms (R51, R54, R129, R130): sources by age and immediates, the wait for a pending
entry (R83), poison at the use of an entry (R216), and how a result is pushed (R81) or written to a
predicate. -/

namespace Sys2Proof.Machine

/-! ### Immediates (R54) -/

/-- The same element in every place of a type. -/
def splat (t : Ty) (x : Nat) : Quad :=
  quadOf ((upTo t.count).foldl (fun a i => a + x % 2 ^ t.width * 2 ^ (t.width * i)) 0)

/-- Operand b formed from IMM16 for a type. -/
def immVal (t : Ty) (v : BitVec 16) : Quad :=
  if t.isInt then splat t (wrapInt t.width (sxNat 16 v.toNat))
  else match t with
    | .f16 | .f16x8 | .bf16 | .bf16x8 => splat t v.toNat
    | .f64 | .f64x2 =>
      splat t (match fDecode fmtBf16 false v.toNat with
        | .nan n fr _ _ => fmtF64.signBit n + (2 ^ 11 - 1) * 2 ^ 52 + fr * 2 ^ 45
        | .inf n => fmtF64.signBit n + fmtF64.infCode
        | .fin n m e => (fRound fmtF64 ⟨1, 0, false, false, false, false⟩ n m 1 e).1)
    | _ => splat t (v.toNat * 2 ^ 16)

/-! ### Operands -/

/-- An operand: a source field or a value formed from the word. -/
inductive Arg
  | src (x : Src)
  | imm (v : Quad)
deriving DecidableEq, Repr

/-- Operand b of a Q3 word (R129). -/
def argB (f : Q3) : Arg := if f.imm then .imm (immVal f.ty f.imm16) else .src f.sb

/-- The entry a source names for a thread: none when void. -/
def srcEntry (g : Group) (l : Nat) : Src → Option Entry
  | .a k => (threadAt g l).ages[k.toNat]?
  | .g k => g.gages[k.toNat]?

/-- An operand's value for a thread: a void entry is zero (R82). -/
def argVal (g : Group) (l : Nat) : Arg → Quad
  | .imm v => v
  | .src x => match srcEntry g l x with
    | some (.val v) => v
    | _ => 0

/-- The operand is a void entry (R82). -/
def argVoid (g : Group) (l : Nat) : Arg → Bool
  | .imm _ => false
  | .src x => (srcEntry g l x).isNone

/-- The operation an operand still waits for. -/
def argPend (g : Group) (l : Nat) : Arg → Option Nat
  | .imm _ => none
  | .src x => match srcEntry g l x with
    | some (.pend i) => some i
    | _ => none

/-- The lanes that execute: a uniform instruction counts as thread 0 (R30, R129). -/
def execLanes (g : Group) (c : Ctl) : List Nat := if c.u then [0] else participants g c

/-! ### The way to an ordering point (R213, R237, R397 to R400) -/

/-- A Sill port through which the companion processor reaches the package. -/
def sillOpen (s : State) : Bool := sillAt s 0 == .up || sillAt s 1 == .up

/-- The UP ports of a mask. -/
def upPorts (s : State) (m : BitVec 16) : List Nat := (upTo 16).filter fun n => m.getLsbD n && portAt s n == .up

/-- The UP port of a line of another package; none where its route has no UP port (R398). The line address is the
offset in the window (DEDUCED, log 99). -/
def linePort (s : State) (did off : Nat) : Option Nat :=
  let ps := upPorts s ((s.routes[did]?).getD 0)
  ps[off / 128 % 512 % ps.length]?

/-- The port on which a new access leaves; none while the route holds new accesses (R398). -/
def leavingPort (s : State) (did off : Nat) : Option Nat := if s.held.contains did then none else linePort s did off

/-- How an engine's access reaches its memory; traffic to a package follows its route (R398, R400). -/
def engineWay (s : State) (l : Loc) : Way :=
  match l with
  | .peer d _ _ _ o =>
    if !didReachable s d then .dead
    else match leavingPort s d o with
      | some _ => .open'
      | none => .held
  | l => wayTo s l

/-- An access waits for a link that trains: a PEER access, or one to host memory behind a port that is not UP
(R399). -/
def linkWaits (s : State) : Loc → Bool
  | .peer .. => true
  | l => wayTo s l == .held

/-- The link that an access to a location waits for: the package's, or 32 for the Sill links. -/
def linkOf (s : State) (l : Loc) : Option Nat :=
  if linkWaits s l then (match l with
    | .peer d _ _ _ _ => some d
    | _ => some 32) else none

/-- The link that the access behind a pending entry waits for (R217, R399). -/
def pendLink (s : State) (id : Nat) : Option Nat :=
  (s.loads.findSome? fun r => if r.id = id then (match r.work with
    | .read _ _ l _ _ => linkOf s l
    | _ => none) else none).or
  (s.atoms.findSome? fun a => if a.lanes.any fun x => x.pend == some id then linkOf s a.loc else none)

/-- The wait reason for a pending entry (R83, R217, R263, R274, R300). -/
def pendReason (s : State) (id : Nat) : WReason :=
  if s.msgs.any fun m => m.id == id then .mailf
  else if s.barWaits.any fun w => w.id == id then .bar
  else if s.subs.any fun x => x.pend == id then .cpyq
  else if s.copies.any fun x => (match x.kind with | .commit _ _ _ _ p => p == id | _ => false) then .cpyq
  else match s.ringWaits.find? fun w => w.id == id with
    | some w => (match w.kind with | .claim => .rspace | .await => .rdata | .sub => .cpyq)
    | none => if (pendLink s id).isSome then .peer else .age

/-- The poisoned access behind a pending entry: the entry and the address (R216). -/
def poisonOf (s : State) (id : Nat) : Option (Nat × Word) :=
  s.loads.findSome? fun r => if r.id = id then (match r.work with
    | .poisoned a _ => some (r.id, a)
    | _ => none) else none

/-- The poison of one lane's access is delivered: its entry becomes a free value, and the access is no longer
outstanding (log 25). -/
def deliverPoison (s : State) (gid id : Nat) : State :=
  resolve (freshQuad { s with loads := s.loads.filter fun r => r.id ≠ id }).1 gid id (freshQuad s).2

/-- What the group's wait for a pending entry awaits (R357). -/
def awaited (s : State) (id : Nat) : Nat := if pendReason s id = .peer then (pendLink s id).getD id else id

/-- What keeps an instruction from reading entries: a poisoned one traps, another pending one makes the
group wait. -/
def hazard (s : State) (g : Group) (pends : List Nat) : Option Out :=
  match pends.findSome? (poisonOf s) with
  | some (id, a) => some (.trap (deliverPoison s g.gid id) .poison g.pc a)
  | none => match pends with
    | [] => none
    | i :: _ => some (.wait (modGroup s g.gid fun g => { g with awaits := awaited s i }) (pendReason s i))

/-- The pending operations behind the operands that these lanes read. -/
def argPends (g : Group) (ls : List Nat) (args : List Arg) : List Nat :=
  ls.flatMap fun l => args.filterMap (argPend g l)

/-- VOIDR for void operands that these lanes read. -/
def voidFlag (g : Group) (ls : List Nat) (args : List Arg) : Nat :=
  if ls.any fun l => args.any (argVoid g l) then flVOIDR else 0

/-- Read operands, then go on with the VOIDR they raise. -/
def withArgs (s : State) (g : Group) (ls : List Nat) (args : List Arg) (k : Nat → Out) : Out :=
  match hazard s g (argPends g ls args) with
  | some o => o
  | none => k (voidFlag g ls args)

/-! ### Results -/

def orFlags (ls : List Nat) (f : Nat → Nat) : Nat := ls.foldl (fun a l => a ||| f l) 0

/-- Push an entry for each executing lane (R81, R84). -/
def pushLanes (c : Ctl) (v : Nat → Entry) (g : Group) : Group :=
  if c.u then pushG g (v 0) else mapLanes g (participates g c) fun l t => pushThread t (v l)

/-- Set a predicate of a thread. -/
def setPred (p : Nat) (b : Bool) (t : Thread) : Thread :=
  { t with preds := if b then t.preds ||| ((1 : BitVec 16) <<< p) else t.preds &&& ~~~((1 : BitVec 16) <<< p) }

/-- Write a predicate: in every active thread when the instruction is uniform (R129). -/
def writePreds (c : Ctl) (p : Nat) (v : Nat → Bool) (g : Group) : Group :=
  if c.u then mapLanes g (fun l => g.amask.getLsbD l) fun _ t => setPred p (v 0) t
  else mapLanes g (participates g c) fun l t => setPred p (v l) t

/-- An instruction that computes one entry a lane from its operands: `fn g lane operands` answers the
value and the flags. -/
def valueBody (c : Ctl) (args : List Arg) (fn : Group → Nat → List Quad → Quad × Nat) (s : State)
    (g : Group) : Out :=
  let ls := execLanes g c
  let r (l : Nat) := fn g l (args.map (argVal g l))
  withArgs s g ls args fun vf =>
    settle s g (vf ||| orFlags ls fun l => (r l).2) (pushLanes c fun l => .val (r l).1)

/-- An instruction that computes a predicate. -/
def predBody (c : Ctl) (pd : BitVec 4) (args : List Arg) (fn : Group → Nat → List Quad → Bool × Nat)
    (s : State) (g : Group) : Out :=
  let ls := execLanes g c
  let r (l : Nat) := fn g l (args.map (argVal g l))
  withArgs s g ls args fun vf =>
    settle s g (vf ||| orFlags ls fun l => (r l).2) (writePreds c pd.toNat fun l => (r l).1)

/-! ### Elements (R20, R130) -/

/-- Operand `i` of a list. -/
def opnd (l : List Quad) (i : Nat) : Quad := (l[i]?).getD 0
/-- Element `j` of width `w`. -/
def elemAt (w : Nat) (x : Quad) (j : Nat) : Nat := x.toNat / 2 ^ (w * j) % 2 ^ w
/-- An element read by its type's signedness. -/
def elemInt (t : Ty) (x : Quad) (j : Nat) : Int :=
  if t.signed then sxNat t.width (elemAt t.width x j) else (elemAt t.width x j : Nat)
/-- An entry from elements of width `w`. -/
def packElems (w : Nat) (l : List Nat) : Quad := quadOf (l.foldr (fun x a => x % 2 ^ w + 2 ^ w * a) 0)
/-- Element by element: `fn j` answers code and flags of element `j`. -/
def elementwise (t : Ty) (fn : Nat → Nat × Nat) : Quad × Nat :=
  let rs := (upTo t.count).map fn
  (packElems t.width (rs.map (·.1)), rs.foldl (fun a r => a ||| r.2) 0)

/-- Wrap or clamp an exact integer to a width (R21): code and flags. -/
def fitInt (sg : Bool) (w : Nat) (sat : Bool) (x : Int) : Nat × Nat :=
  if !sat then (wrapInt w x, 0)
  else if x < intMin sg w then (wrapInt w (intMin sg w), flSATF)
  else if intMax sg w < x then (wrapInt w (intMax sg w), flSATF)
  else (wrapInt w x, 0)

end Sys2Proof.Machine
end

