-- ==== Sys2Proof/Machine/Fetch.lean ====
section
/-! DEFINITION. Page faults (R123, R203, R376, R393): the fault record, the suspension and the restart of
a region; and the fetch of an instruction word through the core's instruction cache (R69, R314, R316). -/

namespace Sys2Proof.Machine

/-! ### Page faults -/

/-- Write a record to a context's fault ring (R393). Kind 5 is an LDZ's, which the record shows as a load. -/
def faultRecord (s : State) (g : Group) (va : Word) (kind reason : Nat) : State :=
  match getCtx s g.ctx with
  | none => s
  | some c =>
    let s := match physLoc c.fring with
      | some l => deviceWrite s (l.plus (32 * (c.fcount % 2 ^ c.lgf)))
          (wordsBytes [(handleOf s g).toNat, va.toNat, kind % 5 + 2 ^ 8 * reason + 2 ^ 16 * lapOf c.fcount c.lgf, 0])
      | none => s
    modCtx s g.ctx fun c => { c with fcount := c.fcount + 1 }

/-- The group is suspended with PFLT (R123, R376). -/
def suspendGroup (s : State) (g : Group) (va : Word) (kind reason : Nat) : State :=
  let s := faultRecord s g va kind reason
  modGroup s g.gid fun g =>
    { g with st := .waiting, wreason := .pflt, wdcnt := 0, fault := some (va, kind), served := false,
             peerOk := none }

/-- A fault of class PFAULT (R203): inside a region it suspends, otherwise it traps with PFAULTNR. -/
def pageFault (s : State) (g : Group) (va : Word) (kind reason : Nat) : Out :=
  if g.ropen then .stay (suspendGroup s g va kind reason) else .trap s .pfaultnr g.pc va

/-- The restart of a region from its latches (R123). -/
def restartRegion (g : Group) : Group :=
  { g with
    pc := g.rpc, amask := g.ramask, st := .ready, wreason := .none, wdcnt := 0, fault := none, served := false,
    threads := g.threads.mapIdx fun l t =>
      let t := { t with preds := t.rpred }
      if g.ramask.getLsbD l then
        { t with ages := (t.latch.take g.rln).map .val, pcnt := g.rcnt } else t,
    gages := (g.glatch.take g.rlg).map .val }

/-! ### Fetch (R314) -/

/-- Lines of an L1 instruction cache, 16 KiB, and of a shared instruction level, 4 MiB (R314). -/
def icacheLines : Nat := 128
def ilineLines : Nat := 32768

/-- The line of the core's instruction cache that holds a virtual address. -/
def icacheFind (s : State) (g : Group) (va : Nat) : Option ICacheRec :=
  match getCtx s g.ctx with
  | none => none
  | some c => s.icache.find? fun r =>
      r.cl == g.cl && r.core == g.core && r.asid == c.asid && r.gen == c.gen && r.va == va / 128 * 128

/-- The line of the bent's shared instruction level that holds a physical location. -/
def ilineFind (s : State) (bent : Nat) (l : Loc) : Option ILineRec :=
  s.ilines.find? fun r => r.bent == bent && r.loc == l.floor 128

/-- The word at an address in a line. -/
def lineWord (ws : List Word) (va : Nat) : Word := (ws[va / 8 % 16]?).getD 0

/-- A shared level loses lines, and through its record the L1 lines that were filled from them (R315). -/
def dropIlines (s : State) (p : ILineRec → Bool) : State :=
  let gone := s.ilines.filter p
  { s with ilines := s.ilines.filter fun x => !p x,
           icache := s.icache.filter fun r => !(gone.any fun x => x.loc == r.loc && x.cores.contains (r.cl, r.core)) }

/-- The shared level fills from memory (R314); a line that it drops for want of room takes its L1 copies along. -/
def ilineFill (s : State) (bent : Nat) (l : Loc) : State :=
  let r : ILineRec := { bent, loc := l.floor 128, cores := [],
                        words := (upTo 16).map fun i => readWord s ((l.floor 128).plus (8 * i)) }
  let kept := keepNewest (fun x => x.bent == bent) ilineLines (r :: s.ilines.filter fun x => !(x.bent == bent && x.loc == r.loc))
  { dropIlines s (fun x => !kept.contains x) with ilines := kept }

/-- A core's instruction cache fills from a line of the shared level, which records the core. -/
def icacheFill (s : State) (g : Group) (va : Nat) (x : ILineRec) : State :=
  match getCtx s g.ctx with
  | none => s
  | some c =>
    let r : ICacheRec := { cl := g.cl, core := g.core, asid := c.asid, gen := c.gen, va := va / 128 * 128,
                           loc := x.loc, words := x.words }
    { s with
      icache := keepNewest (fun y => y.cl == g.cl && y.core == g.core) icacheLines
        (r :: s.icache.filter fun y =>
          !(y.cl == r.cl && y.core == r.core && y.asid == r.asid && y.gen == r.gen && y.va == r.va)),
      ilines := s.ilines.map fun y =>
        if y.bent = x.bent ∧ y.loc = x.loc ∧ !y.cores.contains (g.cl, g.core)
        then { y with cores := (g.cl, g.core) :: y.cores } else y }

/-- The line that serves a fetch at `va`, whose bytes lie at `l`: from the core's cache, else from the shared
level, else from memory (R314). -/
def fetchLine (s : State) (g : Group) (va : Nat) (l : Loc) : State × List Word :=
  match icacheFind s g va with
  | some r => (s, r.words)
  | none =>
    let b := bentOf g.cl
    let s := if (ilineFind s b l).isNone then ilineFill s b l else s
    match ilineFind s b l with
    | some x => (icacheFill s g va x, x.words)
    | none => (s, [])

/-- A core fills the line of an address of its group's context ahead of any fetch. From then on, until an ICINV, a
fetch there may return the words that memory holds now, though a store changes them (R69). -/
def prefetch (s : State) (gid va : Nat) : State :=
  match getGroup s gid with
  | none => s
  | some g => match check45 s (addrCtx s g) .fetch va with
    | (t, .ok l) => if isPoisoned t (l.floor 128) 128 || wayTo t l != .open' then s else (fetchLine t g va l).1
    | _ => s

/-- What a fetch comes to: a word, or what the group takes instead. -/
inductive Fetched
  | word (s : State) (w : Word)
  | out (o : Out)

/-- A fetch that must fill its line from host memory waits while the link trains, and finds poison behind one that is
gone (R399, R400). -/
def fetchLink (s : State) (g : Group) (va : Nat) (l : Loc) : Way :=
  if (icacheFind s g va).isSome || (ilineFind s (bentOf g.cl) l).isSome then .open' else wayTo s l

/-- Fetch the word at the PC. Where the cached line and memory differ, the fetch returns the one or the other,
as the device pleases, and the cache keeps its line (R69). -/
def fetch (s : State) (g : Group) : Fetched :=
  if !ptrFormed g.pc || ptrSpace g.pc != 0 then .out (.trap s .space g.pc g.pc)
  else if bitsOf g.pc 2 0 ≠ 0 then .out (.trap s .align g.pc g.pc)
  else
    let va := bitsOf g.pc 54 0
    match check45 s (addrCtx s g) .fetch va with
    | (s, .ok l) =>
      if isPoisoned s l 8 || fetchLink s g va l == .dead then .out (.trap s .poison g.pc g.pc)
      else if fetchLink s g va l = .held then
        .out (.wait (modGroup s g.gid fun g => { g with awaits := 32 }) .peer)
      else
        let m := readWord s l
        let (t, ws) := fetchLine s g va l
        if lineWord ws va = m then .word t m
        else .word { t with fresh := t.fresh + 1 } (if Config.fetchNew t.fresh then m else lineWord ws va)
    | (s, .poisoned _) => .out (.trap s .poison g.pc g.pc)
    | (s, .noPerm) => .out (.trap s .pprot g.pc g.pc)
    | (s, .sparse) => .out (pageFault s g g.pc 3 2)
    | (s, .unmapped r) => .out (pageFault s g g.pc 3 r)

end Sys2Proof.Machine
end

