-- ==== Sys2Proof/Machine/Launch.lean ====
section
/-! DEFINITION. The state a group starts with (R78, R310, R333). -/

namespace Sys2Proof.Machine

/-- A group as it comes into being, with EMASK `lanes` and its seeds (R78). -/
def newGroup (gid ctx teamNo : Nat) (ident : Identity) (cl core rank : Nat) (entry : Word)
    (lanes : BitVec 32) (seeds : Nat → List Quad) (gseeds : List Quad) (cstk cslim : Word)
    (wdog : BitVec 32) (tvec : Word) : Group :=
  { gid, ctx, teamNo, ident, cl, core, rank, st := .ready, pc := entry, emask := lanes, amask := lanes,
    threads := (upTo 32).map fun l =>
      { Thread.zero with ages := if lanes.getLsbD l then (seeds l).map .val else [] },
    gages := gseeds.map .val, gframes := List.replicate 8 0, glatch := [], dstk := [], mode := 1, flags := 0,
    gang := ⟨0, 0, 0, 0, 0, 0, 0⟩, evpend := 0, evmask := 0,
    evbind := List.replicate 16 ⟨0, 0, 0, 0, 0, none, 0⟩, mbhead := 0, mbox := [], cstk, cslim, wdog, wdcnt := 0,
    wreason := .none, cdepth := 0, prv := false, tmk := false, hnd := false, ropen := false, rpc := 0,
    ramask := 0, rdepth := 0, rcnt := 0, rln := 0, rlg := 0, tcause := 0, tpc := 0, taddr := 0, trgn := 0,
    tvec, segs := List.replicate 4 0, segls := List.replicate 4 0, held := [], step := .off, drain := false,
    recs := [], stPoison := [], cpFault := [], sawFwd := [], heard := [], fences := [], peerOk := none, fault := none,
    served := false, awaits := 0, area := none }

/-- The lanes of a group of `n` threads. -/
def firstLanes (n : Nat) : BitVec 32 := BitVec.ofNat 32 (2 ^ n - 1)

/-- A scratch pointer to the own cluster (R197). -/
def ownScratch (o : Nat) : Word := BitVec.ofNat 64 (2 ^ 61 + 0x1FFF * 2 ^ 48 + o)

/-- Bytes of scratchpad in a window, and of one group's call stack (R308, R310). -/
def hdrScratch (hdr : Word) : Nat := bitsOf hdr 23 16 * 32768
def hdrStack (hdr : Word) : Nat := bitsOf hdr 47 32 * 256
/-- Groups of a team (R308). -/
def hdrGroups (hdr : Word) : Nat := if bitsOf hdr 15 8 = 0 then 128 else bitsOf hdr 15 8
def hdrG16 (hdr : Word) : Bool := bitAt hdr 4

/-- A group of a team that is placed (R78, R310). -/
def teamGroup (c : Context) (x : Slice) (t : Team) (gid gidx core : Nat) : Group :=
  let g16 := hdrG16 x.hdr
  let n := if g16 then 16 else 32
  let lim := t.wb + hdrScratch x.hdr - gidx * hdrStack x.hdr
  newGroup gid c.id t.no
    { gidx, team := BitVec.ofNat 32 t.index, nteam := BitVec.ofNat 32 x.teams, ngrp := hdrGroups x.hdr,
      spawned := false, g16 }
    t.cl core t.rank x.entry (firstLanes n)
    (fun l => [quadOf (gidx * n + l), quadOf t.index])
    [quadOf x.args.toNat, quadOf t.index, quadOf gidx]
    (ownScratch (lim - hdrStack x.hdr)) (ownScratch lim) c.wdog c.tvec

end Sys2Proof.Machine
end

