-- ==== Sys2Proof/Machine/Cover.lean ====
section
/-! DEFINITION. What a WAIT, a FENCE, a release and the exit drain deliver of accesses that failed:
poison (R216), lost stores (R238), faulted lane copies (R255); and the retirement of a group (R80). -/

namespace Sys2Proof.Machine

/-- Operations of a list that are younger than `op`. -/
def younger (ops : List Nat) (op : Nat) : Nat := distinct (ops.filter fun o => op < o)

/-- The oldest poisoned access of the group that pushed an entry: its record and address. -/
def poisonedLoad (s : State) (gid : Nat) : Option (LoadRec × Word) :=
  s.loads.foldl (fun b r => if r.gid = gid then (match r.work with
    | .poisoned a _ => (match b with
      | some x => if r.op < x.1.op then some (r, a) else b
      | none => some (r, a))
    | _ => b) else b) none

/-- The oldest of the poisoned stores that are still to be delivered: operation and address (R216). -/
def poisonedStore (l : List (Nat × Word)) : Option (Nat × Word) :=
  l.foldl (fun b p => match b with
    | some x => if p.1 < x.1 then some p else b
    | none => some p) none

/-- Drop a lost operation of the group (R236, REPORTED). -/
def reportLoss (s : State) (gid op : Nat) : State :=
  { s with stores := s.stores.filter fun r => !(r.gid == gid && r.op == op && r.st == .lost) }

/-- A poisoned store that a limit covers (R216). The oldest has the most younger ones, so that it is covered first. -/
def coverPoison (s : State) (g : Group) (n : Nat) : Option Out :=
  match poisonedStore g.stPoison with
  | some p =>
    if n ≤ younger (storeOps s g.gid) p.1 then
      some (.trap (modGroup s g.gid fun g => { g with stPoison := g.stPoison.erase p }) .poison g.pc p.2)
    else none
  | none => none

/-- A lost store that a limit covers (R238). -/
def coverLost (s : State) (g : Group) (n : Nat) : Option Out :=
  match lostStore s g.gid with
  | some r =>
    if n ≤ younger (storeOps s g.gid) r.op then some (.trap (reportLoss s g.gid r.op) .acklost g.pc r.ptr) else none
  | none => none

/-- The stores' part: a limit covers an access when at least as many younger ones are outstanding as may
stay outstanding (log 27). -/
def coverStores (s : State) (g : Group) (n : Nat) : Option Out := (coverPoison s g n).or (coverLost s g n)

def coverLoads (s : State) (g : Group) (n : Nat) : Option Out :=
  match poisonedLoad s g.gid with
  | some (r, a) =>
    if n ≤ younger (loadOps s g.gid) r.op then some (.trap (deliverPoison s g.gid r.id) .poison g.pc a) else none
  | none => none

/-- The oldest of the faulted lane copies that are still to be delivered (R255). -/
def oldestFault (l : List (Nat × Cause × Word)) : Option (Nat × Cause × Word) :=
  l.foldl (fun b p => match b with
    | some x => if p.1 < x.1 then some p else b
    | none => some p) none

/-- A faulted lane copy that a limit covers. The age of a copy that CPYR resumed is that of the copy it resumes (DESIGN
CHOICE, log 120). -/
def coverCopies (s : State) (g : Group) (n : Nat) : Option Out :=
  match oldestFault g.cpFault with
  | some (id, c, a) =>
    if n ≤ younger ((s.copies.filter fun x => x.gid == g.gid && x.counts).map (·.id) ++ g.cpFault.map (·.1)) id then
      some (.trap (modGroup s g.gid fun g => { g with cpFault := g.cpFault.erase (id, c, a) }) c g.pc a)
    else none
  | none => none

/-- What a WAIT with these limits delivers, if anything (R125, R216, R238, R255). Of failures of several kinds that it
covers, the manual orders none before another: a poisoned load comes first, then a poisoned store, a lost store, a
copy's fault (DESIGN CHOICE, log 27). -/
def coverWait (s : State) (g : Group) (ld st cp : Nat) : Option Out :=
  (coverLoads s g ld).or ((coverStores s g st).or (coverCopies s g cp))

/-- What a release or a FENCE of earlier stores delivers (R216, R238). -/
def coverRelease (s : State) (g : Group) : Option Out := coverStores s g 0

/-- The four counters are zero (R80). -/
def countersZero (s : State) (gid : Nat) : Bool :=
  cldOf s gid == 0 && cstOf s gid == 0 && ccpOf s gid == 0 && ctlOf s gid == 0

/-- The Exit event: the group is gone, and its team with its last group (R80, R173, R270, R323). -/
def retireGroup (s : State) (gid : Nat) : State :=
  match getGroup s gid with
  | none => s
  | some g =>
    let key := match gangOf s gid with | some k => k.key | none => 0
    let (s, l) := leaveGang s gid
    let s := trapWaiting s key (l.filter (· ≠ gid))
    let s := breakTeamRings s g.ctx g.teamNo 0
    finishTeam (dropGroup s gid) g.ctx g.teamNo

/-- No thread remains: deliver what failed, else retire or wait in the drain (R80). -/
def exitDrain (s : State) (g : Group) : Out :=
  match coverWait s g 0 0 0 with
  | some o => o
  | none =>
    if countersZero s g.gid then .stay (retireGroup s g.gid)
    else .stay (modGroup s g.gid fun h =>
      { h with st := .waiting, wreason := .cnt, drain := true, awaits := 0,
               wdcnt := if h.st = .waiting ∧ h.wreason = .cnt then h.wdcnt else 0 })

end Sys2Proof.Machine
end

