-- ==== Sys2Proof/Machine/Move.lean ====
section
/-! DEFINITION. Moving values and predicates: NOP to UNIF (R99 to R104), PSET to SEL (R105 to R109). -/

namespace Sys2Proof.Machine

/-- R99. -/
def execNop (c : Ctl) (f : SY) (s : State) : Res :=
  issue (.nop c f) c (fun s _ => .done s) s

/-- R100. -/
def execPass (c : Ctl) (f : Q3) (s : State) : Res :=
  issue (.pass c f) c (valueBody c [if f.imm then .imm (immVal f.ty f.imm16) else .src f.sa]
    fun _ _ xs => (opnd xs 0, 0)) s

/-- The constant of LDI (R101). -/
def ldiVal (fn : Nat) (z : Bool) (v : BitVec 32) : Quad :=
  match fn with
  | 0 => v.setWidth 128
  | 1 => if z then v.setWidth 128 else (v.signExtend 64).setWidth 128
  | _ => v ++ v ++ v ++ v

/-- R101. -/
def execLdi (c : Ctl) (f : QI) (s : State) : Res :=
  issue (.ldi c f) c (valueBody c [] fun _ _ _ => (ldiVal f.fn.toNat f.z f.imm32, 0)) s

/-- SA with word 1, 2 or 3 replaced (R101). -/
def ldihVal (fn : Nat) (v : BitVec 32) (a : Quad) : Quad :=
  let sh := 32 * (fn + 1)
  (a &&& ~~~((0xFFFFFFFF : Quad) <<< sh)) ||| (v.setWidth 128 <<< sh)

/-- R101. -/
def execLdih (c : Ctl) (f : QI) (s : State) : Res :=
  issue (.ldih c f) c (valueBody c [.src f.sa] fun _ _ xs => (ldihVal f.fn.toNat f.imm32 (opnd xs 0), 0)) s

/-! ### Frames (R102) -/

def slotJ (f : Q3) : Nat := bitsOf f.imm16 3 0
def slotG (f : Q3) : Bool := bitAt f.imm16 4

/-- Write frame slots: the group's or each executing thread's. -/
def writeFrames (c : Ctl) (j : Nat) (v : Nat → Quad) (g : Group) : Group :=
  if c.u then { g with gframes := g.gframes.set j (v 0) }
  else mapLanes g (participates g c) fun l t => { t with frames := t.frames.set j (v l) }

/-- R102: waits for a pending source; a void one stores zero and sets VOIDR. -/
def saveBody (c : Ctl) (f : Q3) (s : State) (g : Group) : Out :=
  let ls := execLanes g c
  withArgs s g ls [.src f.sa] fun vf =>
    settle s g vf (writeFrames c (slotJ f) fun l => argVal g l (.src f.sa))

/-- R102. -/
def execSave (c : Ctl) (f : Q3) (s : State) : Res := issue (.save c f) c (saveBody c f) s

def frameAt (g : Group) (isG : Bool) (j l : Nat) : Quad :=
  if isG then (g.gframes[j]?).getD 0 else ((threadAt g l).frames[j]?).getD 0

/-- R102. -/
def execRest (c : Ctl) (f : Q3) (s : State) : Res :=
  issue (.rest c f) c (valueBody c [] fun g l _ => (frameAt g (slotG f) (slotJ f) l, 0)) s

/-- R103. -/
def laneVal (m l : Nat) : Nat :=
  match m with
  | 0 => l
  | 1 => 2 ^ l - 1
  | _ => 2 ^ l

/-- R103. -/
def execLane (c : Ctl) (f : Q3) (s : State) : Res :=
  issue (.lane c f) c (valueBody c [] fun _ l _ => (quadOf (laneVal f.mod.toNat l), 0)) s

/-- The lowest thread of a mask, 0 for none. -/
def lowestLane (m : BitVec 32) : Nat := (lanesOf m).headD 0

/-- R104: the thread's entry goes onto the uniform file. -/
def unifBody (f : Q3) (s : State) (g : Group) : Out :=
  let k := bitsOf f.imm16 3 0
  let l := if f.mod = 0 then bitsOf f.imm16 8 4 else lowestLane g.amask
  if !g.emask.getLsbD l then settle s g flVOIDR fun g => pushG g (.val 0)
  else
    let a : Arg := .src (.a (BitVec.ofNat 4 k))
    withArgs s g [l] [a] fun vf => settle s g vf fun h => pushG h (.val (argVal g l a))

/-- R104. -/
def execUnif (c : Ctl) (f : Q3) (s : State) : Res := issue (.unif c f) c (unifBody f) s

/-! ### Predicates -/

/-- A comparison by its code (R105). -/
def intCond (m : Nat) (a b : Int) : Bool :=
  match m with
  | 0 => a == b
  | 1 => a != b
  | 2 => a < b
  | 3 => a ≤ b
  | 4 => b < a
  | 5 => b ≤ a
  | 6 => true
  | _ => false

/-- R105. -/
def execPset (c : Ctl) (f : Q3) (s : State) : Res :=
  issue (.pset c f) c (predBody c f.pd (if f.mod.toNat ≤ 5 then [.src f.sa, argB f] else [])
    fun _ _ xs => (intCond f.mod.toNat (elemInt f.ty (opnd xs 0) 0) (elemInt f.ty (opnd xs 1) 0), 0)) s

/-- The truth table of PLOP (R106). -/
def plopVal (tt : BitVec 16) (a b c : Bool) : Bool := bitAt tt (4 * b2n a + 2 * b2n b + b2n c)

def predOf (g : Group) (l p : Nat) : Bool := (threadAt g l).preds.getLsbD p

/-- R106. -/
def execPlop (c : Ctl) (f : Q3) (s : State) : Res :=
  issue (.plop c f) c (predBody c f.pd [] fun g l _ =>
    (plopVal f.imm16 (predOf g l f.sa.num) (predOf g l f.sb.num) (predOf g l f.sc.num), 0)) s

/-- The predicates that PMOV.put leaves (R107). -/
def putPreds (mask : BitVec 16) (v : Quad) (p : BitVec 16) : BitVec 16 :=
  (p &&& ~~~mask) ||| (v.setWidth 16 &&& mask)

/-- R107. -/
def pmovBody (c : Ctl) (f : Q3) (s : State) (g : Group) : Out :=
  if f.mod = 0 then valueBody c [] (fun g l _ => ((threadAt g l).preds.setWidth 128, 0)) s g
  else withArgs s g (execLanes g c) [.src f.sa] fun vf =>
    settle s g vf fun h => mapLanes h (participates g c) fun l t =>
      { t with preds := putPreds f.imm16 (argVal g l (.src f.sa)) t.preds }

/-- R107. -/
def execPmov (c : Ctl) (f : Q3) (s : State) : Res := issue (.pmov c f) c (pmovBody c f) s

/-- R108. -/
def pgatBody (c : Ctl) (f : Q3) (s : State) (g : Group) : Out :=
  let ls := participants g c
  let q := ls.filter fun l => predOf g l (bitsOf f.imm16 3 0)
  let push (v : Nat) : Out := settle s g 0 (pushLanes c fun _ => .val (quadOf v))
  let pred (b : Bool) : Out := settle s g 0 (writePreds c f.pd.toNat fun _ => b)
  match f.mod.toNat with
  | 0 => pred (q.length == ls.length)
  | 1 => pred (!q.isEmpty)
  | 2 => pred (q.isEmpty || q.length == ls.length)
  | 3 => push (maskOf q).toNat
  | 4 => push q.length
  | _ => push (q.headD (laneCount g))

/-- R108. -/
def execPgat (c : Ctl) (f : Q3) (s : State) : Res := issue (.pgat c f) c (pgatBody c f) s

/-- The part of an entry that a type fills: the low bits for a scalar, all for a packed type (R109). -/
def typePart (t : Ty) (v : Quad) : Quad := if t.isPacked then v else quadOf (v.toNat % 2 ^ t.width)

/-- R109; both operands are read (log 26). -/
def execSel (c : Ctl) (f : Q3) (s : State) : Res :=
  issue (.sel c f) c (valueBody c [.src f.sa, argB f] fun g l xs =>
    (typePart f.ty (if predOf g l f.pd.toNat != bitAt f.mod 0 then opnd xs 0 else opnd xs 1), 0)) s

end Sys2Proof.Machine
end

