-- ==== Sys2Proof/Machine/Control.lean ====
section
/-! DEFINITION. Control: branches (R110 to R112), divergence (R113 to R116), calls (R117 to R120), regions
(R121), WAIT, NAP, EXIT, BKPT and TRAP (R125 to R128). -/

namespace Sys2Proof.Machine

/-! ### Branches -/

/-- The target of a relative branch (R56). -/
def relTarget (g : Group) (offs : BitVec 32) : Word := g.pc + 8 + offs.signExtend 64 * 8

/-- R110; the group as a whole (R97). -/
def execBra (c : Ctl) (f : BR) (s : State) : Res :=
  issue (.bra c f) c (fun s g => if groupGuard g c then .goto s (relTarget g f.offs) else .done s) s

/-- The test of BRC (R110). -/
def brcTaken (g : Group) (p kind : Nat) : Bool :=
  let ls := lanesOf g.amask
  match kind with
  | 0 => ls.all fun l => predOf g l p
  | 1 => ls.any fun l => predOf g l p
  | 2 => !(ls.any fun l => predOf g l p)
  | _ => !(ls.all fun l => predOf g l p)

/-- R110. -/
def execBrc (c : Ctl) (f : BR) (s : State) : Res :=
  issue (.brc c f) c (fun s g =>
    if brcTaken g f.aux.toNat f.kind.toNat then .goto s (relTarget g f.offs) else .done s) s

/-- What a code address fails (R111). -/
def targetFails (t : Word) : Option Cause :=
  if bitsOf t 63 55 ≠ 0 then some .space else if bitsOf t 2 0 ≠ 0 then some .align else none

/-- R111. -/
def brxBody (c : Ctl) (f : BR) (s : State) (g : Group) : Out :=
  if !groupGuard g c then .done s
  else withArgs s g [0] [.src f.sa] fun vf =>
    let t : Word := (argVal g 0 (.src f.sa)).setWidth 64
    match targetFails t with
    | some k => .trap s k g.pc t
    | none => .goto (setGroup s (raiseFlags g vf)) t

/-- R111. -/
def execBrx (c : Ctl) (f : BR) (s : State) : Res := issue (.brx c f) c (brxBody c f) s

/-- R112. -/
def loopBody (f : BR) (s : State) (g : Group) : Out :=
  let j := f.aux.toNat % 8
  let v : BitVec 32 := ((g.gframes[j]?).getD 0).setWidth 32 - 1
  let s := setGroup s { g with gframes := g.gframes.set j (v.setWidth 128) }
  if v = 0 then .done s else .goto s (relTarget g f.offs)

/-- R112. -/
def execLoop (c : Ctl) (f : BR) (s : State) : Res := issue (.loop c f) c (loopBody f) s

/-! ### Divergence -/

/-- The push count the active threads share. -/
def commonCount (g : Group) : Option Nat :=
  match (lanesOf g.amask).map fun l => (threadAt g l).pcnt with
  | [] => some 0
  | x :: xs => if xs.all (· == x) then some x else none

def setCounts (g : Group) (m : BitVec 32) (n : Nat) : Group :=
  mapLanes g (fun l => m.getLsbD l) fun _ t => { t with pcnt := n }

/-- The taken target and the join address of a BRD (R56). -/
def brdTarget (g : Group) (f : BR) : Word := g.pc + 8 + (f.offs.extractLsb' 16 16).signExtend 64 * 8
def brdJoin (g : Group) (f : BR) : Word := g.pc + 8 + (f.offs.extractLsb' 0 16).setWidth 64 * 8

/-- R113. -/
def brdBody (f : BR) (s : State) (g : Group) : Out :=
  if g.dstk.length = 8 then trapFree s g .dstkovf
  else if g.dstk ≠ [] ∧ commonCount g = none then trapFree s g .joinlay
  else
    let t := maskOf ((lanesOf g.amask).filter fun l =>
      (threadAt g l).preds.getLsbD f.aux.toNat != bitAt f.kind 0)
    let fall := g.amask &&& ~~~t
    let e : Div := { jaddr := brdJoin g f, trel := sxNat 16 (bitsOf f.offs 31 16) - bitsOf f.offs 15 0,
                     mask := t, phase := false, outer := if g.dstk = [] then 0 else (commonCount g).getD 0 }
    let h := closeRegion (setCounts g g.amask 0)
    if fall ≠ 0 then .done (setGroup s { h with dstk := g.dstk ++ [e], amask := fall })
    else .goto (setGroup s { h with dstk := g.dstk ++ [{ e with mask := 0, phase := true }], amask := t })
      (brdTarget g f)

/-- R113. -/
def execBrd (c : Ctl) (f : BR) (s : State) : Res := issue (.brd c f) c (brdBody f) s

/-- The file of a thread that pushed D entries, reconciled to N (R116). DESIGN CHOICE, log 93: where VD is less
than D - N, the new VD is 0, and a selected position that was void becomes a zero that is not void. -/
def joinFile (f : BR) (ages : List Entry) : List Entry :=
  let n := joinN f
  let d := joinD f
  (((upTo n).map fun j => (ages[joinSel f j]?).getD (.val 0)) ++ ages.drop d).take (ages.length - (d - n))

/-- R116; all checks precede every change. -/
def joinBody (f : BR) (s : State) (g : Group) : Out :=
  let n := joinN f
  let d := joinD f
  match innermost g with
  | none => trapFree s g .joinlay
  | some e =>
    if g.pc ≠ e.jaddr then trapFree s g .joinlay
    else if (lanesOf g.amask).any fun l => (threadAt g l).pcnt != n && (threadAt g l).pcnt != d then
      trapFree s g .joinlay
    else
      let h := mapLanes g (fun l => g.amask.getLsbD l) fun _ t =>
        { t with ages := if t.pcnt = d ∧ n < d then joinFile f t.ages else t.ages,
                 pcnt := Nat.min (e.outer + n) 15 }
      .done (setGroup s (closeRegion { h with dstk := g.dstk.dropLast }))

/-- R116. -/
def execJoin (c : Ctl) (f : BR) (s : State) : Res := issue (.join c f) c (joinBody f) s

/-! ### Calls (R117 to R119) -/

/-- The fixed part of a call record (R118). -/
def callFixed (g : Group) (keep : Nat) : List Byte :=
  ((upTo 20).flatMap fun k => bytesOf 16 (ageVal g.gages k).toNat) ++ bytesOf 8 (g.pc + 8).toNat ++
  bytesOf 4 (keep + 2 ^ 5 * g.dstk.length + 2 ^ 9 * g.gages.length) ++ bytesOf 4 g.amask.toNat ++
  bytesOf 16 (nibbles (lanesNat g.threads (·.pcnt)))

/-- The first `n` ages as values. -/
def firstAges (f : List Entry) (n : Nat) : List Entry := (upTo n).map fun k => .val (ageVal f k)

def pendsOfFirst (f : List Entry) (n : Nat) : List Nat := filePends (f.take n)

/-- The place of the call stack `o` bytes above a pointer. -/
def slotAt (g : Group) (p : Word) (o : Nat) : Loc := stackAt g (p + BitVec.ofNat 64 o)

/-- The parts of `k` slots of 512 bytes that these lanes access: offset and bytes (R117, R120). -/
def slotParts (ls : List Nat) (k : Nat) : List (Nat × Nat) :=
  ls.flatMap fun l => (upTo k).map fun j => (j * 512 + l * 16, 16)

/-- The accesses to these parts may be performed: earlier acquires have returned, and the group has no access to
their bytes under way (R220, R228). -/
def partsReady (s : State) (g : Group) (p : Word) (parts : List (Nat × Nat)) : Bool :=
  acquiresDone s g.gid s.nextId && parts.all fun x => !busyBytes s g.gid (slotAt g p x.1) x.2

/-- What the accesses to these parts must wait for: a rank that is being saved (R199), or the group's own accesses. -/
def stackWait (s : State) (g : Group) (p : Word) (parts : List (Nat × Nat)) : Option WReason :=
  if !parts.isEmpty && stackSwaps s g p then some .swap
  else if partsReady s g p parts then none else some .callsp

/-- R117: `na` and `nu` arguments, KEEP ages kept, and a target. -/
def callBody (na nu keep : Nat) (target : Word) (s : State) (g : Group) : Out :=
  let size := keep * 512 + 0x160
  let ls := lanesOf g.amask
  let parts := slotParts ls keep ++ [(keep * 512, 0x160)]
  if g.cdepth = 1023 ∨ g.cslim.toNat < g.cstk.toNat + size then trapFree s g .cstkovf
  else if bitsOf g.cstk 3 0 ≠ 0 then trapFree s g .align
  else match stackFails s g g.cstk parts with
    | some k => trapFree s g k
    | none =>
      match hazard s g ((ls.flatMap fun l => pendsOfFirst (threadAt g l).ages (max na keep)) ++ filePends g.gages) with
      | some o => o
      | none =>
        match stackWait s g g.cstk parts with
        | some r => .wait s r
        | none =>
          let s := ls.foldl (fun s l => (upTo keep).foldl (fun s i =>
            writeQuad s (slotAt g g.cstk (i * 512 + l * 16)) (ageVal (threadAt g l).ages i)) s) s
          let s := writeBytes s (slotAt g g.cstk (keep * 512)) (callFixed g keep)
          let h := mapLanes g (fun l => g.amask.getLsbD l) fun _ t =>
            { t with ages := firstAges t.ages na, pcnt := 0 }
          .goto (setGroup s (closeRegion { h with
            gages := firstAges g.gages nu, cstk := g.cstk + BitVec.ofNat 64 size, cdepth := g.cdepth + 1 })) target

/-- R117. -/
def execCall (c : Ctl) (f : BR) (s : State) : Res :=
  issue (.call c f) c (fun s g => callBody f.aux.toNat f.kind.toNat f.sb.num (relTarget g f.offs) s g) s

/-- R117: the target comes from a g entry, checked as R111 says; before the checks of the record, which the manual
leaves open (DESIGN CHOICE, log 114). -/
def calliBody (f : BR) (s : State) (g : Group) : Out :=
  withArgs s g [0] [.src f.sa] fun _ =>
    let t : Word := (argVal g 0 (.src f.sa)).setWidth 64
    match targetFails t with
    | some k => .trap s k g.pc t
    | none => callBody f.aux.toNat f.kind.toNat f.sb.num t s g

/-- R117. -/
def execCalli (c : Ctl) (f : BR) (s : State) : Res := issue (.calli c f) c (calliBody f) s

/-- The group after RET, from the fixed part at `x` and the kept ages above `b` (R119). DEDUCED, log 96: R216
names no instruction of the call stack, so a poisoned byte of a record is read as it is found. -/
def retGroup (s : State) (g : Group) (x : Loc) (b : Word) (nr nrg keep : Nat) : Group :=
  let pc0 := readNat s (x.plus 0x150) 16
  let gvd := readNat s (x.plus 0x148) 4 / 2 ^ 9 % 32
  let h := mapLanes g (fun l => g.amask.getLsbD l) fun l t =>
    { t with
      ages := ((upTo nr).map fun k => .val (ageVal t.ages k)) ++
        (upTo (Nat.min (nr + keep) 20 - nr)).map fun k => .val (readQuad s (slotAt g b (k * 512 + l * 16))),
      pcnt := Nat.min (pc0 / 16 ^ l % 16 + nr) 15 }
  closeRegion { h with
    gages := ((upTo nrg).map fun k => .val (ageVal g.gages k)) ++
      (upTo (Nat.min (nrg + gvd) 20 - nrg)).map fun k => .val (readQuad s (x.plus (16 * k))),
    amask := BitVec.ofNat 32 (readNat s (x.plus 0x14C) 4) &&& g.emask,
    cstk := g.cstk - BitVec.ofNat 64 (0x160 + keep * 512), cdepth := g.cdepth - 1 }

/-- R119. -/
def retBody (f : BR) (s : State) (g : Group) : Out :=
  let nr := f.aux.toNat
  let nrg := f.kind.toNat
  let x := g.cstk - 0x160
  if g.cdepth = 0 then trapFree s g .cstkovf
  else if bitsOf x 3 0 ≠ 0 then trapFree s g .align
  else match stackFails s g x [(0, 0x160)] with
    | some k => trapFree s g k
    | none =>
      match stackWait s g x [(0, 0x160)] with
      | some r => .wait s r
      | none =>
        let w := readNat s ((slotAt g x 0).plus 0x148) 4
        let keep := w % 32
        let b := x - BitVec.ofNat 64 (keep * 512)
        let ls := lanesOf g.amask
        let parts := slotParts ls (Nat.min (nr + keep) 20 - nr)
        if w / 2 ^ 5 % 16 ≠ g.dstk.length then trapFree s g .joinlay
        else match stackFails s g b parts with
          | some k => trapFree s g k
          | none =>
            match hazard s g ((ls.flatMap fun l => pendsOfFirst (threadAt g l).ages nr) ++ pendsOfFirst g.gages nrg) with
            | some o => o
            | none =>
              match stackWait s g b parts with
              | some r => .wait s r
              | none => .goto (setGroup s (retGroup s g (slotAt g x 0) b nr nrg keep)) (readWord s ((slotAt g x 0).plus 0x140))

/-- R119. -/
def execRet (c : Ctl) (f : BR) (s : State) : Res := issue (.ret c f) c (retBody f) s

/-- R120. DEDUCED, log 93: of CSTKOVF and ALIGN, which R120 does not order, CSTKOVF comes first, as in R117. -/
def fspillBody (c : Ctl) (f : ME) (s : State) (g : Group) : Out :=
  let k := f.mod.toNat
  let parts := slotParts (participants g c) k
  if g.cslim.toNat < g.cstk.toNat + k * 512 then trapFree s g .cstkovf
  else if bitsOf g.cstk 3 0 ≠ 0 then trapFree s g .align
  else match stackFails s g g.cstk parts with
    | some e => trapFree s g e
    | none =>
      match stackWait s g g.cstk parts with
      | some r => .wait s r
      | none =>
        let s := (participants g c).foldl (fun s l => (upTo k).foldl (fun s j =>
          writeQuad s (slotAt g g.cstk (j * 512 + l * 16)) (((threadAt g l).frames[j]?).getD 0)) s) s
        .done (setGroup s (closeRegion { g with cstk := g.cstk + BitVec.ofNat 64 (k * 512) }))

/-- R120. -/
def execFspill (c : Ctl) (f : ME) (s : State) : Res := issue (.fspill c f) c (fspillBody c f) s

/-- R120; no lower bound is checked. -/
def ffillBody (c : Ctl) (f : ME) (s : State) (g : Group) : Out :=
  let k := f.mod.toNat
  let p := g.cstk - BitVec.ofNat 64 (k * 512)
  let parts := slotParts (participants g c) k
  if bitsOf g.cstk 3 0 ≠ 0 then trapFree s g .align
  else match stackFails s g p parts with
    | some e => trapFree s g e
    | none =>
      match stackWait s g p parts with
      | some r => .wait s r
      | none =>
        let h := mapLanes g (participates g c) fun l t =>
          { t with frames := (upTo k).foldl (fun fr j => fr.set j (readQuad s (slotAt g p (j * 512 + l * 16)))) t.frames }
        .done (setGroup s (closeRegion { h with cstk := p }))

/-- R120. -/
def execFfill (c : Ctl) (f : ME) (s : State) : Res := issue (.ffill c f) c (ffillBody c f) s

/-! ### Regions -/

/-- A thread's part of the latches (R121). -/
def latchThread (g : Group) (n l : Nat) (t : Thread) : Thread :=
  { t with
    rpred := t.preds,
    latch := if g.amask.getLsbD l then ((upTo n).map fun k => ageVal t.ages k) ++ t.latch.drop n else t.latch }

/-- The group as REGION opens the region (R121). -/
def openRegion (g : Group) (n m : Nat) (cnt : Nat) : Group :=
  let h := { g with threads := g.threads.mapIdx (latchThread g n) }
  { h with
    rpc := g.pc + 8, ramask := g.amask, rdepth := g.dstk.length, rln := n, rlg := m, rcnt := cnt,
    glatch := ((upTo m).map fun k => ageVal g.gages k) ++ g.glatch.drop m, ropen := true }

/-- R121. -/
def regionBody (f : SY) (s : State) (g : Group) : Out :=
  let n := bitsOf f.imm16 2 0
  let m := bitsOf f.imm16 4 3
  let g := closeRegion g
  let s := setGroup s g
  match hazard s g (((lanesOf g.amask).flatMap fun l => pendsOfFirst (threadAt g l).ages n) ++
      pendsOfFirst g.gages m) with
  | some o => o
  | none =>
    if g.dstk = [] then .done (setGroup s (openRegion g n m g.rcnt))
    else match commonCount g with
      | some k => .done (setGroup s (openRegion g n m k))
      | none => .done s

/-- R121. -/
def execRegion (c : Ctl) (f : SY) (s : State) : Res := issue (.region c f) c (regionBody f) s

/-! ### Waiting and ending -/

/-- R125. -/
def waitBody (c : Ctl) (f : SY) (s : State) (g : Group) : Out :=
  let ld := bitsOf f.imm16 15 12
  let st := bitsOf f.imm16 11 8
  let cp := bitsOf f.imm16 7 4
  let tl := bitsOf f.imm16 3 0
  if !groupGuard g c then .done s
  else match coverWait s g ld st cp with
    | some o => o
    | none =>
      if cldOf s g.gid ≤ ld ∧ cstOf s g.gid ≤ st ∧ ccpOf s g.gid ≤ cp ∧ ctlOf s g.gid ≤ tl then .done s
      else waitCounts s g.gid ld st cp tl

/-- R125. -/
def execWait (c : Ctl) (f : SY) (s : State) : Res := issue (.wait c f) c (waitBody c f) s

/-- R126: WDCNT holds the cycles that remain; NAP_EXPIRY ends the nap. -/
def napBody (c : Ctl) (f : SY) (s : State) (g : Group) : Out :=
  if !groupGuard g c ∨ f.imm16 = 0 then .done s
  else .stay (setGroup s { g with st := .waiting, wreason := .nap, wdcnt := f.imm16.toNat })

/-- R126. -/
def execNap (c : Ctl) (f : SY) (s : State) : Res := issue (.nap c f) c (napBody c f) s

/-- Threads leave: EMASK, AMASK and the masks of open entries (R115). -/
def exitThreads (g : Group) (m : BitVec 32) : Group :=
  closeRegion { g with emask := g.emask &&& ~~~m, amask := g.amask &&& ~~~m,
                       dstk := g.dstk.map fun e => { e with mask := e.mask &&& ~~~m } }

/-- R127, R115, R80. The PC moves as the instruction completes (R348 reads the old one). -/
def exitBody (c : Ctl) (s : State) (g : Group) : Out :=
  let h := exitThreads g (maskOf (participants g c))
  let s := setGroup s h
  if h.emask = 0 then exitDrain s h
  else if h.amask ≠ 0 then .done s
  else
    let k := settleExit 9 h
    .goto (setGroup s { k with pc := h.pc }) k.pc

/-- R127. -/
def execExit (c : Ctl) (f : SY) (s : State) : Res := issue (.exit c f) c (exitBody c) s

/-- R128. -/
def bkptBody (k : Cause) (c : Ctl) (f : SY) (s : State) (g : Group) : Out :=
  if groupGuard g c then .trap s k (g.pc + 8) (f.imm16.setWidth 64) else .done s

/-- R128. -/
def execBkpt (c : Ctl) (f : SY) (s : State) : Res := issue (.bkpt c f) c (bkptBody .bkpt c f) s
/-- R128. -/
def execTrap (c : Ctl) (f : SY) (s : State) : Res := issue (.trap c f) c (bkptBody .trap c f) s

end Sys2Proof.Machine
end

