-- ==== Sys2Proof/Machine/Access.lean ====
section
/-! DEFINITION. The checks an access passes at issue (R203, R204, R402), what a bent can read (R230 to
R233), and the conditions under which loads, stores and atomics are performed (R220 to R235). -/

namespace Sys2Proof.Machine

/-! ### Remote windows (R401, R402) -/

/-- The cause a code names, among those that a remote check reports. -/
def remoteCause (code : BitVec 8) : Cause :=
  match code.toNat with
  | 0x10 => .align
  | 0x11 => .space
  | 0x12 => .bounds
  | 0x16 => .poison
  | _ => .pprot

/-- Where a context's export entry lies (R401). -/
def exportVa (eidx : Nat) : Nat := 0x7FFFFFFFFA0000 + 32 * eidx

/-- The export entry of a context. -/
def exportAt (s : State) (ctx eidx : Nat) : Option ExportRec :=
  let va := exportVa eidx
  match readVirt s ctx va, readVirt s ctx (va + 8), readVirt s ctx (va + 16), readVirt s ctx (va + 24) with
  | some a, some b, some l, some z =>
    if !bitAt a 0 || bitsOf a 47 4 != 0 || bitsOf l 63 48 != 0 || z != 0 then none
    else some { key := bitsOf a 63 48, at' := bitAt a 3, w := bitAt a 2, rd := bitAt a 1, base := b, len := bitsOf l 47 0 }
  | _, _, _, _ => none

/-- The access rights of an import or export entry. -/
def rightsOk (need : Need) (at' w rd : Bool) : Bool :=
  match need with
  | .load => rd
  | .store => w
  | .atomic => at' && w && rd
  | .fetch => false

/-- What the remote package answers to an access through one of its exports (R402). -/
inductive Remote
  | ok (l : Loc)
  | poisoned (l : Loc)
  | trap (c : Cause)
  | fault
deriving DecidableEq, Repr

/-- The leaf of a page that the package reads for a remote access has A set (R365). -/
def touchLeaf (s : State) (ctx va : Nat) : State :=
  let w := walk s ctx va
  if w.kind = .page ∨ w.kind = .large then setA s w else s

/-- The remote checks of R402, at the package that holds the export. An export entry of a stranded page, or poisoned,
answers POISON (R379; DESIGN CHOICE, log 111). -/
def remoteCheck (s : State) (need : Need) (rctx eidx key off size : Nat) (rights : Bool) : State × Remote :=
  let s := touchLeaf s rctx (exportVa eidx)
  if virtPoisoned s rctx (exportVa eidx) 32 then (s, .trap .poison) else
  match getCtx s rctx, exportAt s rctx eidx with
  | some _, some e =>
    if e.key ≠ key then (s, .trap .pprot)
    else if e.len < off + size then (s, .trap .bounds)
    else if !(rights && rightsOk need e.at' e.w e.rd) then (s, .trap .pprot)
    else if ptrSpace e.base ≠ 0 then (s, .trap .space)
    else
      let p := ptrAdd e.base off
      if !ptrFormed p then (s, .trap .space)
      else if bitsOf p 54 0 % size ≠ 0 then (s, .trap .align)
      else
        let w := walk s rctx (bitsOf p 54 0)
        if w.poisoned then (s, .poisoned (.dev 0))
        else match w.kind with
          | .page | .large =>
            if !permOk need w.entry then (s, .trap .pprot)
            else
              let l := leafLoc w (bitsOf p 54 0)
              (setA s w, if ptePSN w.entry then .poisoned l else .ok l)
          | _ => (s, .fault)
  | _, _ => (s, .trap .pprot)

/-! ### Checks at issue (R203) -/

/-- The access of one lane after its checks. -/
structure Acc where
  lane : Nat
  ptr : Word
  loc : Loc
  /-- a committed page, or zeros of a sparse one (R208) -/
  zero : Bool
  poisoned : Bool
  /-- the port of a PEER access (R398, R403) -/
  port : Option Nat
deriving DecidableEq, Repr

/-- What the checks of an instruction come to. -/
inductive Checked
  | ok (s : State) (l : List Acc)
  | out (o : Out)

/-- The kind that a fault record gives (R393). -/
def needKind : Need → Nat
  | .load => 0
  | .store => 1
  | .atomic => 2
  | .fetch => 3

/-- The resolved pointer of an access, for TADDR (R196). -/
def resolvedPtr (ac : AddrCtx) (p : Word) (size : Nat) : Word :=
  match resolveSeg ac p size with
  | .ok q => q
  | .error _ => p

/-- Checks 1 to 3 in every lane: the first failing lane, or the targets. -/
def checkTargets (s : State) (ac : AddrCtx) (size : Nat) :
    List (Nat × Word) → Except (Cause × Word) (List (Nat × Word × Target))
  | [] => .ok []
  | (l, p) :: r =>
    match check13 s ac p size with
    | .error e => .error e
    | .ok t => match checkTargets s ac size r with
      | .error e => .error e
      | .ok ts => .ok ((l, resolvedPtr ac p size, t) :: ts)

/-- A PEER access of a lane to another package (R402). The remote checks have answered, or the group waits for
them; the right that the import entry gives is checked with those of the export (R402, fifth row). -/
def checkRemote (s : State) (g : Group) (need : Need) (i : ImportRec) (l : Nat) (p : Word) (off : Nat) : Except Out Acc :=
  match g.peerOk, leavingPort s i.did off with
  | some ans, some n =>
    let fail : Option Nat := match ans with
      | some (fl, code) => if fl = l then some code.toNat else none
      | none => none
    match fail with
    | some 0x13 => .error (pageFault s g p (needKind need) 1)
    | some c => .error (.trap s (remoteCause (BitVec.ofNat 8 c)) g.pc p)
    | none =>
      if rightsOk need i.at' i.w i.rd then .ok ⟨l, p, .peer i.did i.rctx i.eidx i.key off, false, false, some n⟩
      else .error (.trap s .pprot g.pc p)
  | _, _ => .error (.wait (modGroup s g.gid fun g => { g with awaits := i.did }) .peer)

/-- Checks 4 and 5 of one lane: its access, or what the group takes. -/
def checkLane (s : State) (g : Group) (need : Need) (size : Nat) (sparseZero : Bool) (x : Nat × Word × Target) :
    State × Except Out Acc :=
  let (l, p, t) := x
  match t with
  | .scr r o => if rankSwaps s g r then (s, .error (.wait s .swap)) else (s, .ok ⟨l, p, .scr g.ctx r o, false, false, none⟩)
  | .glob va =>
    match check45 s (addrCtx s g) need va with
    | (s, .ok loc) => (s, .ok ⟨l, p, loc, false, false, none⟩)
    | (s, .poisoned loc) => (s, .ok ⟨l, p, loc, false, true, none⟩)
    | (s, .sparse) =>
      if sparseZero then (s, .ok ⟨l, p, .dev 0, true, false, none⟩)
      else (s, .error (pageFault s g p (needKind need) 2))
    | (s, .unmapped r) => (s, .error (pageFault s g p (if sparseZero then 5 else needKind need) r))
    | (s, .noPerm) => (s, .error (.trap s .pprot g.pc p))
  | .peer slot off =>
    match importAt s g.ctx slot with
    | none => (s, .error (.trap s .space g.pc p))
    | some i =>
      if i.did = s.did.toNat then
        match remoteCheck s need i.rctx i.eidx i.key off size (rightsOk need i.at' i.w i.rd) with
        | (s, .ok loc) => (s, .ok ⟨l, p, loc, false, false, some 16⟩)
        | (s, .poisoned loc) => (s, .ok ⟨l, p, loc, false, true, some 16⟩)
        | (s, .trap c) => (s, .error (.trap s c g.pc p))
        | (s, .fault) => (s, .error (pageFault s g p (needKind need) 1))
      else (s, checkRemote s g need i l p off)

def checkLanes (s : State) (g : Group) (need : Need) (size : Nat) (sparseZero : Bool) :
    List (Nat × Word × Target) → Checked
  | [] => .ok s []
  | x :: r =>
    match checkLane s g need size sparseZero x with
    | (_, .error o) => .out o
    | (s, .ok a) => match checkLanes s g need size sparseZero r with
      | .ok s l => .ok s (a :: l)
      | .out o => .out o

/-- All checks of R203 for the participating lanes' effective pointers. -/
def checkAccess (s : State) (g : Group) (need : Need) (size : Nat) (sparseZero : Bool)
    (ptrs : List (Nat × Word)) : Checked :=
  let s := ptrs.foldl (fun s x => touchImport s (addrCtx s g) x.2 size) s
  match checkTargets s (addrCtx s g) size ptrs with
  | .error e => .out (.trap s e.1 g.pc e.2)
  | .ok ts => checkLanes s g need size sparseZero ts

/-- The effective pointer of a lane (R203). -/
def effPtr (g : Group) (l : Nat) (f : ME) : Word :=
  ptrAdd ((argVal g l (.src f.sa)).setWidth 64) (sxNat 20 f.offset.toNat)

/-! ### What a bent reads (R230 to R232) -/

/-- The forwarded store that supplies a byte to readers of a bent: the last in coherence order. -/
def forwardedAt (s : State) (bent : Nat) (l : Loc) : Option StoreRec :=
  s.stores.foldl (fun b r =>
    if r.st == .forwarded && r.bent == bent && overlaps r.loc r.bytes.length l 1 then
      (match b with
       | some x => if x.place < r.place then some r else b
       | none => some r)
    else b) none

/-- A byte as observers of a bent read it. -/
def viewByte (s : State) (bent : Nat) (l : Loc) : Byte :=
  match forwardedAt s bent l with
  | some r => (r.bytes[l.pos - r.loc.pos]?).getD 0
  | none => readByte s l
def viewBytes (s : State) (bent : Nat) (l : Loc) (n : Nat) : List Byte :=
  (upTo n).map fun i => viewByte s bent (l.plus i)
def viewNat (s : State) (bent : Nat) (l : Loc) (n : Nat) : Nat := ofBytes (viewBytes s bent l n)

/-- Stores of other groups that a read of these bytes finds forwarded (R226). -/
def forwardedFrom (s : State) (bent gid : Nat) (l : Loc) (n : Nat) : List Nat :=
  ((upTo n).filterMap fun i => forwardedAt s bent (l.plus i)).filterMap fun r =>
    if r.gid = gid then none else some r.id

/-- A group's access `op` has read stores of others that are forwarded (R226). -/
def sawStores (s : State) (gid op : Nat) (ids : List Nat) : State :=
  if ids.isEmpty then s else modGroup s gid fun g => { g with sawFwd := (ids.map (op, ·) ++ g.sawFwd).eraseDups }

/-- A store of the group is readable in its own bent (R233). -/
def StoreRec.readable (r : StoreRec) : Bool := r.st == .visible || r.st == .forwarded || r.st == .lost

/-- What the values that a read of these bytes returns carry (R229). -/
def carriesView (s : State) (bent : Nat) (l : Loc) (n : Nat) : List Carry :=
  ((upTo n).flatMap fun i => match forwardedAt s bent (l.plus i) with
    | some r => r.carry
    | none => carriesAt s (l.plus i) 1).eraseDups

/-! ### When an access is performed -/

/-- Two accesses of one group are of one observer: neither or both went through a PEER pointer (R220, R403). -/
def sameWay (a b : Option Nat) : Bool := a.isSome == b.isSome

/-- No earlier access of the observer to these bytes is still to come before a read at `op` (R220, R233). -/
def readMayGo (s : State) (gid : Nat) (port : Option Nat) (op : Nat) (l : Loc) (n : Nat) : Bool :=
  (s.stores.all fun r =>
    !(r.gid == gid && sameWay r.port port && r.op < op && overlaps r.loc r.bytes.length l n) || r.readable) &&
  (s.atoms.all fun a => !(a.gid == gid && sameWay a.port port && a.op < op && overlaps a.loc a.width l n)) &&
  s.loads.all fun r => !(r.gid == gid && sameWay r.port port && r.op < op && (match r.work with
    | .read _ _ m k _ => overlaps m k l n | _ => false))

/-- No earlier access of the observer to these bytes is still to come before a write at `op` (R220). -/
def writeMayGo (s : State) (gid : Nat) (port : Option Nat) (op id : Nat) (l : Loc) (n : Nat) : Bool :=
  (s.stores.all fun r =>
    !(r.gid == gid && sameWay r.port port && r.id < id && overlaps r.loc r.bytes.length l n) || r.place != 0 ||
    r.st == .lost) &&
  (s.atoms.all fun a => !(a.gid == gid && sameWay a.port port && a.op < op && overlaps a.loc a.width l n)) &&
  s.loads.all fun r => !(r.gid == gid && sameWay r.port port && r.op < op && (match r.work with
    | .read _ _ m k _ => overlaps m k l n | _ => false))

/-- Every earlier store of the group has its place (R226). -/
def storesPlaced (s : State) (gid op : Nat) : Bool :=
  s.stores.all fun r => !(r.gid == gid && r.op < op) || r.place != 0 || r.st == .lost

/-- The release part of an access (R226), 0 for none. -/
def releaseReady (s : State) (gid rel op : Nat) : Bool :=
  rel == 0 || (releaseOk s gid rel op && storesPlaced s gid op)

/-- The line rule of R234 for a store of a kind from a bent; R235 for an atomic is the ST.a's case. -/
def lineReady (s : State) (id : Nat) (l : Loc) (ack : Bool) (bent : Nat) : Bool :=
  s.stores.all fun r =>
    !(r.id != id && (r.st == .ordered || r.st == .forwarded) && (r.loc.floor 128) == (l.floor 128)) ||
    (!r.ack && !ack && r.bent == bent)

/-- No write that has its place and is not performed shares a line with these bytes: what writes them and is
performed at once may go (R234). -/
def lineQuiet (s : State) (l : Loc) (n : Nat) : Bool :=
  s.stores.all fun r => !(r.st == .ordered || r.st == .forwarded) ||
    !overlaps (r.loc.floor 128) 128 (l.floor 128) (n + l.pos % 128)

/-- An operation of a group that reads and writes an object in memory where it is issued may go: R220, R228 for
the group, R234 for the lines. -/
def objectMayGo (s : State) (gid : Nat) (l : Loc) (n : Nat) : Bool := objectReady s gid l n && lineQuiet s l n

/-- The bent in which an observer reads: a PEER pointer of the package itself reads at the home, as no observer
of a bent (R230, R403; DEDUCED, log 99). -/
def readerBent (g : Group) (port : Option Nat) : Nat := if port.isSome then 8 else bentOf g.cl

/-- Issue a load of `n` bytes for one access: an entry pending on it (R207). -/
def loadRec (id op : Nat) (g : Group) (acq n : Nat) (sx : Bool) (a : Acc) : LoadRec :=
  { id, op, gid := g.gid, bent := readerBent g a.port, port := a.port, acq, cld := true, ptr := a.ptr,
    work := if a.poisoned then .poisoned a.ptr false
      else if a.zero then .value 0
      else .read none (if n ≤ 8 then some [] else none) a.loc n sx }

/-- The entries that a loading instruction pushes: one pending entry for each access. -/
def pushPends (c : Ctl) (ids : List (Nat × Nat)) (g : Group) : Group :=
  pushLanes c (fun l => match ids.find? fun x => x.1 == l with
    | some x => .pend x.2
    | none => .val 0) g

end Sys2Proof.Machine
end

