-- ==== Sys2Proof/Machine/LoadStore.lean ====
section
/-! DEFINITION. LD, LDZ, ST, ATOM, ATOMN, CAS (R206 to R217) and FENCE (R239, R240). -/

namespace Sys2Proof.Machine

def accessSize (f : ME) : Nat := 2 ^ f.sz.toNat

/-- The lanes' effective pointers. -/
def lanePtrs (g : Group) (c : Ctl) (f : ME) : List (Nat × Word) := (execLanes g c).map fun l => (l, effPtr g l f)

/-- Issue the loads of the checked lanes: their entries become pending (R207). -/
def issueLoads (c : Ctl) (g : Group) (acq n : Nat) (sx : Bool) (accs : List Acc) (s : State) : State :=
  let op := s.nextId
  let recs := accs.mapIdx fun k a => loadRec (op + 1 + k) op g acq n sx a
  let ids := accs.mapIdx fun k a => (a.lane, op + 1 + k)
  setGroup { s with nextId := op + 1 + accs.length, loads := s.loads ++ recs } (pushPends c ids g)

/-- The bank cycles of a beat of sixteen lanes beyond the first: the most rows that any bank has to give (R200). -/
def beatConflict (beat : Nat) (accs : List Acc) : Nat :=
  let rows := (accs.filterMap fun a => if a.lane / 16 = beat then (match a.loc with
    | .scr _ r o => some ((r, o / 64 % 64), o / 4096)
    | _ => none) else none).eraseDups
  (rows.map fun x => (rows.filter fun y => y.1 == x.1).length - 1).foldl Nat.max 0

/-- Count the bank-conflict cycles of an instruction's accesses (R200, R412; DEDUCED, log 103). -/
def noteBanks (g : Group) (accs : List Acc) (s : State) : State :=
  perfCount s g.cl 7 (beatConflict 0 accs + beatConflict 1 accs)

/-- LD and LDZ (R207, R208, R217). -/
def loadBody (c : Ctl) (f : ME) (sparseZero : Bool) (s : State) (g : Group) : Out :=
  let ls := execLanes g c
  withArgs s g ls [.src f.sa] fun vf =>
    if ls.isEmpty then .done s
    else if 15 ≤ cldOf s g.gid then waitCounts s g.gid 14 15 15 15
    else match checkAccess s g .load (accessSize f) sparseZero (lanePtrs g c f) with
      | .out o => o
      | .ok s accs =>
        .done (noteBanks g accs
          (issueLoads c (raiseFlags g vf) (if f.ord = 1 then f.scope.toNat else 0) (accessSize f) f.sx accs s))

/-- R207. -/
def execLd (c : Ctl) (f : ME) (s : State) : Res := issue (.ld c f) c (loadBody c f false) s
/-- R208. -/
def execLdz (c : Ctl) (f : ME) (s : State) : Res := issue (.ldz c f) c (loadBody c f true) s

/-- The single-copy-atomic parts of one lane's store (R205, R219). -/
def storeParts (a : Acc) (bs : List Byte) : List (Loc × List Byte) :=
  if bs.length ≤ 8 then [(a.loc, bs)] else [(a.loc, bs.take 8), (a.loc.plus 8, bs.drop 8)]

/-- Issue the stores of the checked lanes; a store to a stranded page is kept for its POISON (R379). -/
def issueStores (g : Group) (ack : Bool) (rel n : Nat) (data : Nat → Quad) (accs : List Acc) (s : State) : State :=
  let op := s.nextId
  let parts := (accs.filter fun a => !a.poisoned).flatMap fun a =>
    (storeParts a (bytesOf n (data a.lane).toNat)).map fun p => (a, p)
  let recs := parts.mapIdx fun k x =>
    ({ id := op + 1 + k, op, gid := g.gid, ctx := g.ctx, bent := bentOf g.cl, port := x.1.port, loc := x.2.1,
       bytes := x.2.2, ack, atomic := false, rel, st := .issued, place := 0, age := 0, ptr := x.1.ptr,
       carry := [] } : StoreRec)
  let bad := (accs.filter fun a => a.poisoned).map fun a => (op, a.ptr)
  setGroup { s with nextId := op + 1 + parts.length, stores := s.stores ++ recs }
    { g with stPoison := g.stPoison ++ bad }

/-- R209. -/
def storeBody (c : Ctl) (f : ME) (s : State) (g : Group) : Out :=
  let ls := execLanes g c
  let n := accessSize f
  withArgs s g ls [.src f.sa, .src f.sb] fun vf =>
    if ls.isEmpty then .done s
    else match if f.ord = 2 then coverRelease s g else none with
      | some o => o
      | none =>
        if 15 ≤ cstOf s g.gid then waitCounts s g.gid 15 14 15 15
        else match checkAccess s g .store n false (lanePtrs g c f) with
          | .out o => o
          | .ok s accs =>
            .done (noteBanks g accs (issueStores (raiseFlags g vf) f.ack (if f.ord = 2 then f.scope.toNat else 0) n
              (fun l => argVal g l (.src f.sb)) accs s))

/-- R209. -/
def execSt (c : Ctl) (f : ME) (s : State) : Res := issue (.st c f) c (storeBody c f) s

/-! ### Atomics -/

/-- Lanes of one instruction that name one address travel as one request (R215). -/
def combineLanes (mk : Acc → AtomLane) (base : Acc → List AtomLane → AtomRec) : List Acc → List AtomRec
  | [] => []
  | a :: r =>
    let rest := combineLanes mk base r
    match rest.find? fun x => x.loc == a.loc && x.port == a.port with
    | some _ => rest.map fun x =>
      if x.loc = a.loc ∧ x.port = a.port then { x with lanes := mk a :: x.lanes, ptr := a.ptr } else x
    | none => base a [mk a] :: rest

/-- Issue an ATOM, ATOMN or CAS for the checked lanes (R210, R212, R215). -/
def issueAtoms (c : Ctl) (f : ME) (g : Group) (code : Nat) (result : Bool) (d cmp : Nat → Nat) (accs : List Acc)
    (s : State) : State :=
  let op := s.nextId
  let w := accessSize f
  let acq := if f.ord = 1 ∨ f.ord = 3 then f.scope.toNat else 0
  let rel := if f.ord = 2 ∨ f.ord = 3 then f.scope.toNat else 0
  let ids := accs.mapIdx fun k a => (a.lane, op + 1 + k)
  let pendOf (l : Nat) : Option Nat :=
    if result then (ids.find? fun x => x.1 == l).map (·.2) else none
  let mk (a : Acc) : AtomLane := { pend := pendOf a.lane, d := d a.lane % 2 ^ (8 * w), cmp := cmp a.lane % 2 ^ (8 * w) }
  let base (a : Acc) (ls : List AtomLane) : AtomRec :=
    { id := 0, op, gid := g.gid, ctx := g.ctx, bent := readerBent g a.port, port := a.port, age := 0, loc := a.loc,
      width := w, code, acq, rel, ptr := a.ptr, lanes := ls }
  let good := combineLanes mk base (accs.filter fun a => !a.poisoned)
  let n0 := op + 1 + accs.length
  let recs := good.mapIdx fun k a => { a with id := n0 + k }
  let bad := accs.filter fun a => a.poisoned
  let badLoads := bad.filterMap fun a => (pendOf a.lane).map fun i => loadRec i op g acq w false a
  let g := closeRegion { g with stPoison := if result then g.stPoison else g.stPoison ++ bad.map fun a => (op, a.ptr) }
  setGroup { s with nextId := n0 + good.length, atoms := s.atoms ++ recs, loads := s.loads ++ badLoads }
    (if result then pushPends c ids g else g)

/-- ATOM, ATOMN and CAS: `code` is the MOD code or 16, `result` whether the old value is pushed. -/
def atomBody (c : Ctl) (f : ME) (code : Nat) (result : Bool) (s : State) (g : Group) : Out :=
  let ls := execLanes g c
  let args : List Arg := [.src f.sa, .src f.sb] ++ (if code = 16 then [.src f.sc] else [])
  withArgs s g ls args fun vf =>
    if ls.isEmpty then .done (setGroup s (closeRegion g))
    else match if f.ord = 2 ∨ f.ord = 3 then coverRelease s g else none with
      | some o => o
      | none =>
        if (result ∧ 15 ≤ cldOf s g.gid) ∨ 15 ≤ cstOf s g.gid then
          waitCounts s g.gid (if result then 14 else 15) 14 15 15
        else match checkAccess s g .atomic (accessSize f) false (lanePtrs g c f) with
          | .out o => o
          | .ok s accs =>
            .done (noteBanks g accs (issueAtoms c f (raiseFlags g vf) code result
              (fun l => (argVal g l (.src f.sb)).toNat) (fun l => (argVal g l (.src f.sc)).toNat) accs s))

/-- R210. -/
def execAtom (c : Ctl) (f : ME) (s : State) : Res := issue (.atom c f) c (atomBody c f f.mod.toNat true) s
/-- R210. -/
def execAtomn (c : Ctl) (f : ME) (s : State) : Res := issue (.atomn c f) c (atomBody c f f.mod.toNat false) s
/-- R212. -/
def execCas (c : Ctl) (f : ME) (s : State) : Res := issue (.cas c f) c (atomBody c f 16 true) s

/-! ### FENCE (R240) -/

/-- What a FENCE leaves behind: as an acquire it makes acquires of the reads before it, as a release it counts
for the stores and atomics after it (R226 to R229). -/
def fenceAt (acq rel : Bool) (scope : Nat) (s : State) (g : Group) : State :=
  let (s, op) := newId s
  let s := if acq then learn s g.gid op scope g.heard else s
  if rel then modGroup s g.gid fun g =>
    { g with fences := (scope, op) :: g.fences.filter fun x => x.1 ≠ scope } else s

/-- A FENCE that completes. -/
def fenceDone (f : ME) (s : State) (g : Group) : State := fenceAt (f.ord ≠ 2) (f.ord ≠ 1) f.scope.toNat s g

/-- The oldest lost atomic of the group: the kind of store that FENCE.acq orders (R238, R240). -/
def lostAtomic (s : State) (gid : Nat) : Option StoreRec :=
  (s.stores.filter fun r => r.gid == gid && r.st == .lost && r.atomic).foldl
    (fun b r => match b with
      | some x => if r.op < x.op then some r else b
      | none => some r) none

/-- What FENCE.acq delivers: poison as every FENCE does (R216), and the loss of an atomic that it orders. -/
def coverAcquire (s : State) (g : Group) : Option Out :=
  match poisonedStore g.stPoison with
  | some p => some (.trap (modGroup s g.gid fun g => { g with stPoison := g.stPoison.erase p }) .poison g.pc p.2)
  | none => match lostAtomic s g.gid with
    | some r => some (.trap (reportLoss s g.gid r.op) .acklost g.pc r.ptr)
    | none => none

/-- The group's loads and atomics have returned or are globally performed (R240, .acq). -/
def readsDone (s : State) (gid : Nat) : Bool :=
  loadsReturned s gid s.nextId && s.stores.all fun r => !(r.gid == gid && r.atomic) || r.performed

def fenceBody (c : Ctl) (f : ME) (s : State) (g : Group) : Out :=
  if !groupGuard g c then .done s
  else if f.ord = 1 then
    match coverAcquire s g with
    | some o => o
    | none => if readsDone s g.gid then .done (fenceDone f s g) else .wait s .fence
  else match coverRelease s g with
    | some o => o
    | none => if releaseOk s g.gid f.scope.toNat s.nextId then .done (fenceDone f s g) else .wait s .fence

/-- R240. -/
def execFence (c : Ctl) (f : ME) (s : State) : Res := issue (.fence c f) c (fenceBody c f) s

end Sys2Proof.Machine
end

