-- ==== Sys2Proof/Machine/MemEvents.lean ====
section
/-! DEFINITION. The memory system's own steps: a store's life (R230 to R238), atomics (R213, R215, R235),
translation walks (R364), soft errors (R216). A step that is not enabled changes nothing. -/

namespace Sys2Proof.Machine

/-! ### Stores -/

def getStore (s : State) (id : Nat) : Option StoreRec := s.stores.find? fun r => r.id == id

/-- The store is lost: its line is poisoned where its home is reachable (R236, R237). -/
def loseStore (s : State) (r : StoreRec) : State :=
  let home : Bool := match r.loc with
    | .dev a => (getBent s (homeOf a)).online
    | .scr .. => (getBent s (bentOf (clusterOf s r.loc))).online
    | .host _ => wayTo s r.loc == .open'
    | .peer .. => false
  let s := if home then poisonLine s r.loc else s
  match getGroup s r.gid with
  | some _ => modStore s r.id fun x => { x with st := .lost, age := 0 }
  | none => dropStore s r.id

/-- The store may take its place (R220, R226, R228, R234). -/
def orderReady (s : State) (r : StoreRec) : Bool :=
  r.st == .issued && writeMayGo s r.gid r.port r.op r.id r.loc r.bytes.length && releaseReady s r.gid r.rel r.op &&
  acquiresDone s r.gid r.op && lineReady s r.id r.loc (r.ack || r.port.isSome) r.bent

/-- R236. -/
def execStoreOrder (id : Nat) (s : State) : Res :=
  match getStore s id with
  | none => .next s
  | some r =>
    if !orderReady s r then .next s
    else match wayTo s r.loc with
      | .open' => .next (orderStore s r)
      | .held => .next s
      | .dead => .next (loseStore s r)

/-- Every write to the line with an earlier place, not performed yet, is one that `p` accepts: the home keeps the
line's writes in order (R234). -/
def earlierPlaced (s : State) (r : StoreRec) (p : StoreRec → Bool) : Bool :=
  s.stores.all fun x => !(x.id != r.id && x.place != 0 && x.place < r.place &&
    (x.st == .ordered || x.st == .forwarded) && x.loc.floor 128 == r.loc.floor 128) || p x

/-- R232. -/
def execStoreForward (id : Nat) (s : State) : Res :=
  match getStore s id with
  | none => .next s
  | some r =>
    if r.st == .ordered && !r.ack && earlierPlaced s r fun x => x.st == .forwarded
    then .next (modStore s id fun x => { x with st := .forwarded }) else .next s

/-- R231, R232, R236: global performance with its acknowledgement. -/
def execStoreAcknowledge (id : Nat) (s : State) : Res :=
  match getStore s id with
  | none => .next s
  | some r =>
    if r.st == .visible then .next (dropStore s id)
    else if ((r.st == .ordered && r.ack) || r.st == .forwarded) && earlierPlaced s r fun _ => false then
      .next (landStore s r)
    else .next s

/-- An atomic is lost: its write becomes LOST, and the entries that wait for its value are poisoned (R216, R236;
DEDUCED, log 100). -/
def loseAtom (s : State) (a : AtomRec) : State :=
  let r := atomStore a []
  let s := { s with atoms := s.atoms.filter (fun x => x.id ≠ a.id), stores := s.stores ++ [r] }
  let s := if (getGroup s a.gid).isNone then s
    else { s with loads := s.loads ++ (a.lanes.filterMap (·.pend)).map fun p => answerRec a p (.poisoned a.ptr false) }
  loseStore s r

/-- The store or atomic with a number is lost. -/
def loseId (s : State) (id : Nat) : State :=
  match getStore s id with
  | some r => if r.st == .lost then s else loseStore s r
  | none => match s.atoms.find? fun a => a.id == id with
    | some a => loseAtom s a
    | none => s

/-- R237: the path to the store's home, or the home, has gone down; of an atomic's write too (R236). -/
def execStoreLossPathDown (id : Nat) (s : State) : Res := .next (loseId s id)

/-- A store or an atomic whose acknowledgement has been outstanding for 65,536 cycles (R237). -/
def overdueId (s : State) (id : Nat) : Bool :=
  (match getStore s id with
   | some r => r.st != .lost && 65536 ≤ r.age
   | none => false) || s.atoms.any fun a => a.id == id && 65536 ≤ a.age

/-- R237: 65,536 cycles without an acknowledgement. -/
def execStoreAckTimeout (id : Nat) (s : State) : Res := .next (if overdueId s id then loseId s id else s)

/-- R237, R244: every store and atomic whose time is over is lost. -/
def loseOverdue (s : State) : State :=
  (s.stores.map (·.id) ++ s.atoms.map (·.id)).foldl (fun s id => if overdueId s id then loseId s id else s) s

/-- R238: WDOG cycles after a loss the trap is taken, for the oldest lost store of the group. -/
def execAcklostExpire (id : Nat) (s : State) : Res :=
  match getStore s id with
  | none => .next s
  | some r => match getGroup s r.gid with
    | none => .next s
    | some g =>
      if r.st == .lost && g.wdog != 0xFFFFFFFF && g.wdog.toNat ≤ r.age && g.st != .saved && !g.drain
      then match lostStore s g.gid with
        | some o => .next (takeTrap (reportLoss s g.gid o.op) g.gid .acklost true g.pc o.ptr)
        | none => .next s
      else .next s

/-! ### Atomics -/

/-- The request may be performed at its ordering point (R220, R226, R228, R235). -/
def atomReady (s : State) (a : AtomRec) : Bool :=
  readMayGo s a.gid a.port a.op a.loc a.width && releaseReady s a.gid a.rel a.op && acquiresDone s a.gid a.op &&
  lineReady s 0 a.loc true 0

/-- R213, R215. -/
def execAtomicPerform (id : Nat) (s : State) : Res :=
  match s.atoms.find? fun a => a.id == id with
  | none => .next s
  | some a =>
    if !atomReady s a then .next s
    else match wayTo s a.loc with
      | .held => .next s
      | .open' => if isPoisoned s a.loc a.width then .next (poisonAtom s a) else .next (performAtom s a)
      | .dead => .next (loseAtom s a)

/-! ### Translation walks and soft errors -/

/-- R364: a miss of a cluster walks the tables; a leaf fills the cluster's L2 TLB. -/
def execTlbWalk (ctx cl page : Nat) (s : State) : Res :=
  let va := page * 65536
  if (tlbFind s ctx cl none va).isSome then .next s else .next (walkFill s ctx cl none va).1

/-- R216: the affected line is poisoned (log 38). Only device memory and scratchpads have soft errors there. -/
def execUncorrectableSoftError (loc : Loc) (s : State) : Res :=
  match loc with
  | .dev a => if a < 2 ^ 40 then .next (poisonLine s loc) else .next s
  | .scr _ _ o => if o < 0x600000 then .next (poisonLine s loc) else .next s
  | _ => .next s

end Sys2Proof.Machine
end

