-- ==== Sys2Proof/Machine/Pages.lean ====
section
/-! DEFINITION. What changes translations and frames (R366 to R376): the retry of suspended faults, the
removal of translations, written bits, the commit pool's frames and the allocator's pools. -/

namespace Sys2Proof.Machine

/-! ### Faults and their service (R376) -/

/-- The access that suspended a group finds its page now: mapped, or sparse for an LDZ, kind 5 (R208); an access to
a stranded page is no page fault. A fault of a PEER access is served by another package (R402). -/
def faultServed (s : State) (ctx : Nat) (va : Word) (kind : Nat) : Bool :=
  let w := walk s ctx (bitsOf va 54 0)
  ptrSpace va == 0 && (w.poisoned || w.kind == .page || w.kind == .large || (kind == 5 && w.kind == .sparse))

/-- The retry of one suspended group: where the walk succeeds now, its region is to restart. -/
def retryGroup (s : State) (ctx : Nat) (p : Word → Bool) (g : Group) : Group :=
  if g.ctx = ctx ∧ g.wreason = .pflt then
    (match g.fault with
     | some (va, kind) => if p va && faultServed s ctx va kind then { g with served := true } else g
     | none => g)
  else g

/-- Retry the suspended groups of a context whose faulting address `p` accepts. -/
def retryFaults (s : State) (ctx : Nat) (p : Word → Bool) : State :=
  { s with groups := s.groups.map (retryGroup s ctx p) }

/-- The address lies in `n` pages from page `p`. -/
def inPages (p n : Nat) (va : Word) : Bool := p ≤ bitsOf va 54 16 && bitsOf va 54 16 < p + n

/-! ### Accesses in flight -/

/-- An access in flight meets `n` bytes at `l`. -/
def flightMeets (s : State) (l : Loc) (n : Nat) : Bool :=
  s.stores.any (fun r => r.st != .lost && !r.performed && overlaps r.loc r.bytes.length l n) ||
  s.atoms.any (fun a => overlaps a.loc a.width l n) ||
  s.loads.any fun r => match r.work with
    | .read _ _ m k _ => overlaps m k l n
    | _ => false

/-- A location that a translation gave. -/
def locTranslated : Loc → Bool
  | .dev _ | .host _ => true
  | _ => false

/-- An ALLOC in flight of the context whose header was translated on a page that `p` accepts (R371, R381). -/
def allocTranslated (s : State) (ctx : Nat) (p : Word → Bool) : Bool :=
  s.queries.any fun q => q.kind == .alloc && (q.lanes.any fun l => p l.2.1) &&
    (match getGroup s q.gid with | some g => g.ctx == ctx | none => false)

/-- An access in flight of the context that used a translation, of its killed groups too (R236). -/
def flightTranslated (s : State) (ctx : Nat) : Bool :=
  allocTranslated s ctx (fun _ => true) ||
  s.stores.any (fun r => r.ctx == ctx && r.st != .lost && !r.performed && locTranslated r.loc) ||
  s.atoms.any (fun a => a.ctx == ctx && locTranslated a.loc) ||
  s.loads.any fun r =>
    (match getGroup s r.gid with | some g => g.ctx == ctx | none => false) &&
    (match r.work with
     | .read _ _ m _ _ => locTranslated m
     | _ => false)

/-- The group's earlier stores and atomics are globally performed (R368, R369). -/
def storesDone (s : State) (gid : Nat) : Bool :=
  (s.stores.all fun r => r.gid != gid || r.performed) && s.atoms.all fun a => a.gid != gid

/-! ### Removing translations (R367, R368) -/

/-- A cached translation of an address space meets `n` pages from page `p`. -/
def tlbMeets (asid p n : Nat) (t : TlbRec) : Bool := t.asid == asid && t.vpn < p + n && p < t.vpn + t.span

/-- The frame bytes behind a cached translation. -/
def tlbFrame (t : TlbRec) : Loc :=
  if pteHOST t.entry then .host (pteFrame t.entry) else .dev (pteFrame t.entry)

/-- Accesses that used a translation which a removal over this range takes are performed. -/
def rangeQuiet (s : State) (asid p n : Nat) : Bool :=
  s.tlb.all fun t => !tlbMeets asid p n t || !flightMeets s (tlbFrame t) (65536 * t.span)

/-- Remove the translations and the L1 instruction lines of a range (R368). -/
def removeRange (s : State) (asid p n : Nat) : State :=
  { s with tlb := s.tlb.filter fun t => !tlbMeets asid p n t,
           icache := s.icache.filter fun r => !(r.asid == asid && p ≤ r.va / 65536 && r.va / 65536 < p + n) }

/-- Raise a context's generation; a raise to 0 removes what carries the ASID first (R367). -/
def raiseGen (s : State) (ctx : Nat) : State :=
  match getCtx s ctx with
  | none => s
  | some c =>
    let n := (c.gen + 1) % 65536
    let s := if n = 0 then { s with tlb := s.tlb.filter fun t => t.asid ≠ c.asid,
                                    icache := s.icache.filter fun r => r.asid ≠ c.asid } else s
    modCtx s ctx fun c => { c with gen := n }

/-- What TINV and TINVQ do once nothing stands in the way: `n` pages from page `p`, or the whole context
for n = 0 (R368). -/
def invalidate (s : State) (ctx p n : Nat) : State :=
  match getCtx s ctx with
  | none => s
  | some c =>
    if n = 0 then retryFaults (raiseGen s ctx) ctx fun _ => true
    else retryFaults (removeRange s c.asid p n) ctx (inPages p n)

/-- The accesses that an invalidation waits for are performed. -/
def invalidateReady (s : State) (ctx p n : Nat) : Bool :=
  match getCtx s ctx with
  | none => true
  | some c =>
    if n = 0 then !flightTranslated s ctx else rangeQuiet s c.asid p n && !allocTranslated s ctx (inPages p n)

/-! ### Written bits (R369) -/

/-- The 64 KiB frames behind a leaf. -/
def leafFrames (w : Walk) : List Loc :=
  let n := if w.kind = .large then 8192 else 1
  (upTo n).map fun i =>
    if pteHOST w.entry then .host (pteFrame w.entry + 65536 * i) else .dev (pteFrame w.entry + 65536 * i)

/-- Harvest the `n` pages from address `va` that one leaf maps: their written bits go, and D is set when one was
set. -/
def harvestLeaf (s : State) (w : Walk) (va n : Nat) : State × Nat :=
  let base := leafLoc w va
  if s.written.any fun l => inside l 1 base (65536 * n) then
    let s := { s with written := s.written.filter fun l => !inside l 1 base (65536 * n) }
    (deviceOr s w.at' 0x200, 1)
  else (s, 0)

/-- Harvest `n` pages from page `p`; a large leaf is met once, with those of its pages that the range holds. -/
def harvestRange (s : State) (ctx p n : Nat) : State × Nat :=
  (upTo n).foldl (fun (s, c) i =>
    let w := walk s ctx ((p + i) * 65536)
    if w.kind = .page ∨ (w.kind = .large ∧ (i = 0 ∨ (p + i) % 8192 = 0)) then
      let r := harvestLeaf s w ((p + i) * 65536)
        (if w.kind = .large then Nat.min (n - i) (8192 - (p + i) % 8192) else 1)
      (r.1, c + r.2)
    else (s, c)) (s, 0)

/-! ### Frames (R370 to R373) -/

/-- Zeros in every byte of a frame, no poison, and no cached line of what stood there (R372). -/
def zeroFrame (s : State) (f : Nat) : State :=
  { dropLines (dropIlines (markWritten s (.dev f)) fun r => inside r.loc 1 (.dev f) 65536) (.dev f) 65536 (fun _ => false) with
    dev := s.dev.filter fun c => !(f ≤ c.1 && c.1 < f + 65536),
    poison := s.poison.filter fun p => !inside p.1 p.2 (.dev f) 65536 }

/-- The first bent of a list whose pool list is not empty, with its first frame. -/
def firstFrame (pool : List (List Nat)) (bs : List Nat) : Option (Nat × Nat) :=
  bs.findSome? fun b => match (pool[b]?).getD [] with
    | f :: _ => some (b, f)
    | [] => none

/-- A context's pool without the first frame of a bent's list. -/
def takeFrame (s : State) (ctx b : Nat) : State :=
  modCtx s ctx fun c => { c with pool := c.pool.modify b (List.drop 1) }
/-- A frame goes back to the list of its bent. -/
def giveFrame (s : State) (ctx f : Nat) : State :=
  modCtx s ctx fun c => { c with pool := c.pool.modify (homeOf f) (· ++ [f]) }

/-- Bits [15:8] of a status other than OK (R372). -/
def statusBent (w : Walk) : Nat :=
  match w.kind with
  | .page => if pteHOST w.entry then 0 else pteHome w.entry
  | .large | .sparse => pteHome w.entry
  | _ => 0

/-- Commit the page of an address: the status word of R372. Whatever it is, the suspended faults on the page are
retried (R376). -/
def commitPage (s : State) (ctx va : Nat) : State × Nat :=
  let w := walk s ctx va
  let retry (s : State) : State := retryFaults s ctx (inPages (va / 65536) 1)
  match w.kind with
  | .page => (retry s, 1 + 256 * statusBent w)
  | .sparse =>
    let pool := match getCtx s ctx with | some c => c.pool | none => []
    (match firstFrame pool (bentsFrom (pteHome w.entry)) with
     | none => (retry s, 3 + 256 * statusBent w)
     | some (b, f) =>
       let s := zeroFrame (takeFrame s ctx b) f
       let e := (w.entry &&& 0x78) ||| 0x8003 ||| BitVec.ofNat 64 (f + 2 ^ 12 * b)
       let s := deviceWord s w.at' e
       (retry s, 256 * b))
  | _ => (retry s, 2 + 256 * statusBent w)

/-- The sparse entry that a page leaves behind (R373). -/
def sparseOf (e : Word) : Word := (e &&& 0x7078) ||| 6

/-- Return the page of an address to the sparse state: the status word of R373. -/
def decommitPage (s : State) (ctx va : Nat) : State × Nat :=
  let w := walk s ctx va
  match w.kind with
  | .sparse => (s, 1 + 256 * statusBent w)
  | .page =>
    if !pteCP w.entry then (s, 2 + 256 * statusBent w)
    else
      let s := deviceWord s w.at' (sparseOf w.entry)
      let asid := match getCtx s ctx with | some c => c.asid | none => 0
      let s := removeRange s asid (va / 65536) 1
      if ptePSN w.entry then (s, 3 + 256 * statusBent w)
      else (giveFrame s ctx (pteFrame w.entry), 256 * homeOf (pteFrame w.entry))
  | _ => (s, 2 + 256 * statusBent w)

/-- The accesses that a decommit waits for are performed (R373, R374). -/
def decommitReady (s : State) (ctx va : Nat) : Bool :=
  let w := walk s ctx va
  !(w.kind == .page && pteCP w.entry && !ptePSN w.entry) ||
  (!flightMeets s (.dev (pteFrame w.entry)) 65536 && !allocTranslated s ctx (inPages (va / 65536) 1))

/-- The description of R375. -/
def queryPage (s : State) (ctx va : Nat) : Nat :=
  let w := walk s ctx va
  if w.poisoned then 3
  else match w.kind with
    | .page | .large | .sparse =>
      let size := if w.kind = .large then 3 else if w.kind = .page ∧ runOk s w va then 2 else 1
      let st := if w.kind = .sparse then 1 else if ptePSN w.entry then 3 else 2
      st + 4 * bitsOf w.entry 9 3 + 2 ^ 9 * b2n (pteRUN w.entry) + 2 ^ 10 * b2n (pteCP w.entry) +
        2 ^ 11 * pteHome w.entry + 2 ^ 14 * size
    | _ => 0

/-! ### Pools (R380 to R382) -/

/-- A location of a GLOBAL pointer moved by `d`. -/
def poolLoc (s : State) (ctx : Nat) (p : Word) (d : Nat) : Option Loc :=
  virtLoc s ctx (bitsOf (ptrAdd p d) 54 0)

def poolPoisoned (s : State) (ctx : Nat) (p : Word) (d n : Nat) : Bool := virtPoisoned s ctx (bitsOf (ptrAdd p d) 54 0) n

/-- Read `n` bytes at a pointer; bytes that are not mapped hold a free value. -/
def poolRead (s : State) (ctx : Nat) (p : Word) (d n : Nat) : State × Nat :=
  match poolLoc s ctx p d with
  | some l => (s, readNat s l n)
  | none => ((freshQuad s).1, (freshQuad s).2.toNat % 2 ^ (8 * n))
/-- Write `n` bytes at a pointer. -/
def poolWrite (s : State) (ctx : Nat) (p : Word) (d n v : Nat) : State :=
  match poolLoc s ctx p d with
  | some l => writeNat s l n v
  | none => s

/-- A pool header as it stands. -/
structure PoolHdr where
  ctrl : Nat
  base : Word
  map : Word
  nblk : Nat
  freec : Nat
deriving DecidableEq, Repr

def poolHdr (s : State) (l : Loc) : PoolHdr :=
  { ctrl := readNat s l 8, base := readWord s (l.plus 8), map := readWord s (l.plus 16),
    nblk := readNat s (l.plus 24) 4, freec := readNat s (l.plus 28) 4 }
def PoolHdr.lgb (h : PoolHdr) : Nat := h.ctrl / 16 % 32
def PoolHdr.aff (h : PoolHdr) : Nat := h.ctrl / 2 ^ 16 % 256
/-- CTRL and NBLK are well formed (R380, R381; log 28). -/
def PoolHdr.ok (h : PoolHdr) : Bool :=
  h.ctrl % 16 == 1 && 6 ≤ h.lgb && h.lgb ≤ 24 && h.ctrl / 2 ^ 9 % 2 ^ 7 == 0 && h.ctrl / 2 ^ 24 == 0 && h.nblk != 0
/-- Set or clear bit `i` of the allocation bitmap. -/
def mapBit (s : State) (ctx : Nat) (h : PoolHdr) (i : Nat) (b : Bool) : State :=
  let (s, v) := poolRead s ctx h.map (i / 8) 1
  let k := 2 ^ (i % 8)
  poolWrite s ctx h.map (i / 8) 1 (if b then v ||| k else v &&& (255 - k))

/-- The online bents whose lists an ALLOC tries, in order (R381). -/
def allocBents (s : State) (bent : Nat) (h : PoolHdr) (sb : Quad) : List Nat :=
  let m := if bitsOf sb 7 0 ≠ 0 then bitsOf sb 7 0 else if h.aff ≠ 0 then h.aff else 255
  (bentsFrom bent).filter fun b => m / 2 ^ b % 2 == 1 && (getBent s b).online

/-- The first of these bents with a free block in the pool at `l`, and that block. -/
def allocPick (s : State) (l : Loc) (bs : List Nat) : Option (Nat × Nat) :=
  bs.findSome? fun b =>
    let head := readNat s (l.plus (0x20 + 4 * b)) 4
    if head = 0 then none else some (b, head - 1)

/-- Take a block from the list of a bent: the entry of R381. -/
def allocTake (s : State) (ctx : Nat) (l : Loc) (h : PoolHdr) (b i : Nat) : State × Quad :=
  let off := i * 2 ^ h.lgb
  let (s, link) := poolRead s ctx h.base off 8
  let s := writeNat s (l.plus (0x20 + 4 * b)) 4 (link % 2 ^ 32)
  let s := writeNat s (l.plus 0x1C) 4 ((h.freec + 2 ^ 32 - 1) % 2 ^ 32)
  let s := mapBit s ctx h i true
  let s := poolWrite s ctx h.base off 8 0
  (s, quadOf ((ptrAdd h.base off).toNat + 2 ^ 72 * b))

/-- The pages of a block's link word and of its MAP byte are translated for the access (R365). -/
def usePool (s : State) (ac : AddrCtx) (h : PoolHdr) (i : Nat) : State :=
  let use (s : State) (p : Word) (d : Nat) : State := touchVirt s ac.ctx ac.cl ac.core (bitsOf (ptrAdd p d) 54 0)
  use (use s h.base (i * 2 ^ h.lgb)) h.map (i / 8)

/-- One lane of an ALLOC on the pool at `l` (R381); no answer where it meets poison (R216). -/
def allocLane (s : State) (ac : AddrCtx) (bent : Nat) (l : Loc) (sb : Quad) : State × Option Quad :=
  let h := poolHdr s l
  if isPoisoned s l 64 then (s, none)
  else if !h.ok then (s, some (quadOf (3 * 2 ^ 64)))
  else
    let bs := allocBents s bent h sb
    if bs.isEmpty then (s, some (quadOf (2 * 2 ^ 64)))
    else match allocPick s l bs with
      | none => (s, some (quadOf (2 ^ 64)))
      | some (b, i) =>
        let s := usePool s ac h i
        if poolPoisoned s ac.ctx h.base (i * 2 ^ h.lgb) 8 || poolPoisoned s ac.ctx h.map (i / 8) 1 then (s, none)
        else let r := allocTake s ac.ctx l h b i; (r.1, some r.2)

/-- The bytes that one lane of an ALLOC reads or writes: the header, the block's link word, its MAP byte. -/
def allocTouches (s : State) (ctx bent : Nat) (l : Loc) (sb : Quad) : List (Loc × Nat) :=
  let h := poolHdr s l
  (l, 64) :: (match if h.ok then allocPick s l (allocBents s bent h sb) else none with
    | none => []
    | some (_, i) => (poolLoc s ctx h.base (i * 2 ^ h.lgb)).toList.map (·, 8) ++
        (poolLoc s ctx h.map (i / 8)).toList.map (·, 1))

/-- The block that a pointer names in a pool (R382). -/
def blockOf (h : PoolHdr) (p : Word) : Option Nat :=
  let d := p.toNat - h.base.toNat
  if h.base.toNat ≤ p.toNat ∧ d < h.nblk * 2 ^ h.lgb ∧ d % 2 ^ h.lgb = 0 then some (d / 2 ^ h.lgb) else none

/-- The bytes that one lane of a FREE reads or writes, as for an ALLOC. -/
def freeTouches (s : State) (ctx : Nat) (l : Loc) (p : Word) : List (Loc × Nat) :=
  let h := poolHdr s l
  (l, 64) :: (match blockOf h p with
    | none => []
    | some i => (poolLoc s ctx h.base (i * 2 ^ h.lgb)).toList.map (·, 8) ++
        (poolLoc s ctx h.map (i / 8)).toList.map (·, 1))

/-- Put a block at the head of its home bent's list (R382). -/
def freeLane (s : State) (ctx : Nat) (l : Loc) (p : Word) : State :=
  let h := poolHdr s l
  match blockOf h p with
  | none => s
  | some i =>
    let b := pteHome (walk s ctx (bitsOf p 54 0)).entry
    let head := readNat s (l.plus (0x20 + 4 * b)) 4
    let s := poolWrite s ctx h.base (i * 2 ^ h.lgb) 8 head
    let s := mapBit s ctx h i false
    let s := writeNat s (l.plus (0x20 + 4 * b)) 4 ((i + 1) % 2 ^ 32)
    writeNat s (l.plus 0x1C) 4 ((h.freec + 1) % 2 ^ 32)

end Sys2Proof.Machine
end

