-- ==== Sys2Proof/Machine/PageOps.lean ====
section
/-! DEFINITION. ALLOC, FREE, PCOMMIT, PDECOMMIT and PQUERY (R371 to R383), TINV (R368) and HARVEST (R369);
and the answers of the four queries. -/

namespace Sys2Proof.Machine

/-! ### Checks at issue (R371) -/

/-- The GLOBAL pointer of each lane, or the trap of R371. -/
def globPtrs (ac : AddrCtx) : List (Nat × Word) → Except (Cause × Word) (List (Nat × Word))
  | [] => .ok []
  | (l, p) :: r =>
    match resolveSeg ac p 1 with
    | .error c => .error (c, p)
    | .ok q =>
      if !ptrFormed q || ptrSpace q != 0 then .error (.space, q)
      else match globPtrs ac r with
        | .error e => .error e
        | .ok qs => .ok ((l, q) :: qs)

/-- The trap that the entry of a page gives a PCOMMIT or PDECOMMIT (R371). -/
def commitTrap (s : State) (ctx : Nat) (p : Word) : Option Cause :=
  let w := walk s ctx (bitsOf p 54 0)
  match w.kind with
  | .page | .large =>
    if pteHOST w.entry then some .space else if pteW w.entry then none else some .pprot
  | .sparse => if pteW w.entry then none else some .pprot
  | _ => none

/-- The first lane's trap, if any. -/
def firstTrap (f : Word → Option Cause) : List (Nat × Word) → Option (Cause × Word)
  | [] => none
  | (_, p) :: r => match f p with
    | some c => some (c, p)
    | none => firstTrap f r

/-- Issue a query: its entries become pending (R371). -/
def issueQuery (c : Ctl) (kind : QueryKind) (sb : Nat → Quad) (ps : List (Nat × Word)) (s : State) (g : Group) :
    State :=
  let op := s.nextId
  let ids := ps.mapIdx fun k x => (x.1, op + 2 + k)
  let lanes := ps.mapIdx fun k x => (op + 2 + k, x.2, sb x.1)
  let q : QueryRec := { id := op + 1, op, gid := g.gid, kind, lanes }
  let g := if kind = .pquery then g else closeRegion g
  setGroup { s with nextId := op + 2 + ps.length, queries := s.queries ++ [q] } (pushPends c ids g)

/-- ALLOC, PCOMMIT, PDECOMMIT and PQUERY up to their issue. -/
def queryBody (c : Ctl) (f : ME) (kind : QueryKind) (s : State) (g : Group) : Out :=
  let ls := execLanes g c
  let args : List Arg := if kind = .alloc then [.src f.sa, .src f.sb] else [.src f.sa]
  let sb (l : Nat) : Quad := if kind = .alloc then argVal g l (.src f.sb) else 0
  withArgs s g ls args fun vf =>
    if ls.isEmpty then .done (if kind = .pquery then s else setGroup s (closeRegion g))
    else match if kind = .pcommit ∨ kind = .pdecommit then coverRelease s g else none with
      | some o => o
      | none =>
        if 15 ≤ cldOf s g.gid then waitCounts s g.gid 14 15 15 15
        else match globPtrs (addrCtx s g) (ls.map fun l => (l, effPtr g l f)) with
          | .error e => .trap s e.1 g.pc e.2
          | .ok ps =>
            if kind = .alloc then
              (match checkLanes s g .atomic 1 false (ps.map fun x => (x.1, x.2, Target.glob (bitsOf x.2 54 0))) with
               | .out o => o
               | .ok s _ => .done (issueQuery c kind sb ps s (raiseFlags g vf)))
            else match if kind = .pquery then none else firstTrap (commitTrap s g.ctx) ps with
              | some (k, p) => .trap s k g.pc p
              | none => .done (issueQuery c kind sb ps s (raiseFlags g vf))

/-- R381. -/
def execAlloc (c : Ctl) (f : ME) (s : State) : Res := issue (.alloc c f) c (queryBody c f .alloc) s
/-- R372. -/
def execPcommit (c : Ctl) (f : ME) (s : State) : Res := issue (.pcommit c f) c (queryBody c f .pcommit) s
/-- R373. -/
def execPdecommit (c : Ctl) (f : ME) (s : State) : Res := issue (.pdecommit c f) c (queryBody c f .pdecommit) s
/-- R375. -/
def execPquery (c : Ctl) (f : ME) (s : State) : Res := issue (.pquery c f) c (queryBody c f .pquery) s

/-! ### FREE (R382) -/

/-- One lane of a FREE: the pool's location, its header, the block pointer. -/
structure FreeLane where
  lane : Nat
  at' : Loc
  hdr : PoolHdr
  ptr : Word

/-- The checks of R382 in one lane: DFREE when its bit is clear or another lane names the block. -/
def freeCheck (s : State) (g : Group) (all : List FreeLane) (x : FreeLane) : Option Out :=
  match blockOf x.hdr x.ptr with
  | none => some (.trap s .bounds g.pc x.ptr)
  | some i =>
    let w := walk s g.ctx (bitsOf x.ptr 54 0)
    if w.poisoned || poolPoisoned s g.ctx x.hdr.base (i * 2 ^ x.hdr.lgb) 8 || poolPoisoned s g.ctx x.hdr.map (i / 8) 1
    then some (.trap s .poison g.pc x.ptr)
    else if !(w.kind == .page || w.kind == .large) then some (pageFault s g x.ptr 1 (walkReason w.kind))
    else
      let set : Bool := (poolRead s g.ctx x.hdr.map (i / 8) 1).2 / 2 ^ (i % 8) % 2 == 1
      if !set || all.any (fun y => y.lane != x.lane && y.at' == x.at' && y.ptr == x.ptr) then
        some (.trap s .dfree g.pc x.ptr)
      else none

/-- The pages that a lane of a FREE reads and writes beside its header are translated for it (R365). -/
def useFree (g : Group) (s : State) (x : FreeLane) : State :=
  match blockOf x.hdr x.ptr with
  | none => s
  | some i => usePool s (addrCtx s g) x.hdr i

def freeBody (c : Ctl) (f : ME) (s : State) (g : Group) : Out :=
  let ls := execLanes g c
  withArgs s g ls [.src f.sa, .src f.sb] fun vf =>
    if ls.isEmpty then .done (setGroup s (closeRegion g))
    else match coverRelease s g with
      | some o => o
      | none => match globPtrs (addrCtx s g) (ls.map fun l => (l, effPtr g l f)) with
        | .error e => .trap s e.1 g.pc e.2
        | .ok ps =>
          match checkLanes s g .atomic 1 false (ps.map fun x => (x.1, x.2, Target.glob (bitsOf x.2 54 0))) with
          | .out o => o
          | .ok s accs =>
            let block (a : Acc) : Word := (argVal g a.lane (.src f.sb)).setWidth 64
            let touches := accs.flatMap fun a => if a.poisoned then [] else freeTouches s g.ctx a.loc (block a)
            if !(releaseOk s g.gid 4 s.nextId && storesPlaced s g.gid s.nextId &&
                touches.all fun x => objectMayGo s g.gid x.1 x.2) then .wait s .fence
            else match accs.find? fun a => a.poisoned || isPoisoned s a.loc 64 || wayTo s a.loc == .dead with
              | some a => .trap s .poison g.pc a.ptr
              | none =>
                let xs := accs.map fun a => FreeLane.mk a.lane a.loc (poolHdr s a.loc) (block a)
                let s := xs.foldl (useFree g) s
                match xs.findSome? (freeCheck s g xs) with
                | some o => o
                | none =>
                  let s := setGroup s (closeRegion (raiseFlags g vf))
                  .done (xs.foldl (fun s x => freeLane s g.ctx x.at' x.ptr) s)

/-- R382. -/
def execFree (c : Ctl) (f : ME) (s : State) : Res := issue (.free c f) c (freeBody c f) s

/-! ### Answers of queries (R371 to R375, R381, R383) -/

/-- A lane of an ALLOC may act on its pool: the group's earlier accesses to what it touches are performed, and no
other write to those lines is under way (R220, R234). -/
def poolReady (s : State) (q : QueryRec) (g : Group) (p : Word) (sb : Quad) : Bool :=
  match virtLoc s g.ctx (bitsOf p 54 0) with
  | none => true
  | some l => (allocTouches s g.ctx (bentOf g.cl) l sb).all fun x =>
      readMayGo s q.gid none q.op x.1 x.2 && lineQuiet s x.1 x.2

/-- The answer of one lane; none where the pool is poisoned (R216). -/
def queryLane (s : State) (g : Group) (kind : QueryKind) (p : Word) (sb : Quad) : State × Option Quad :=
  let va := bitsOf p 54 0
  match kind with
  | .pcommit => let r := commitPage s g.ctx va; (r.1, some (quadOf r.2))
  | .pdecommit => let r := decommitPage s g.ctx va; (r.1, some (quadOf r.2))
  | .pquery => (s, some (quadOf (queryPage s g.ctx va)))
  | .alloc =>
    match virtLoc s g.ctx va with
    | none => (s, none)
    | some l => if virtPoisoned s g.ctx va 64 then (s, none) else allocLane s (addrCtx s g) (bentOf g.cl) l sb

/-- The query may be performed: PCOMMIT and PDECOMMIT release at device scope, and every lane of an ALLOC may act
on the pool as the lanes before it leave it. -/
def queryReady (s : State) (q : QueryRec) (g : Group) : Bool :=
  acquiresDone s q.gid q.op &&
  match q.kind with
  | .pcommit => releaseReady s q.gid 4 q.op
  | .pdecommit =>
    releaseReady s q.gid 4 q.op && q.lanes.all fun l => decommitReady s g.ctx (bitsOf l.2.1 54 0)
  | .alloc => (q.lanes.foldl (fun (x : State × Bool) l =>
      ((queryLane x.1 g .alloc l.2.1 l.2.2).1, x.2 && poolReady x.1 q g l.2.1 l.2.2)) (s, true)).2
  | .pquery => true

/-- A query's answer arrives in every lane, in lane order. -/
def answerQuery (s : State) (q : QueryRec) : State :=
  match getGroup s q.gid with
  | none => { s with queries := s.queries.filter fun x => x.id ≠ q.id }
  | some g =>
    if !queryReady s q g then s
    else
      let s := { s with queries := s.queries.filter fun x => x.id ≠ q.id }
      q.lanes.foldl (fun s l =>
        match queryLane s g q.kind l.2.1 l.2.2 with
        | (s, some v) => resolve s q.gid l.1 v
        | (s, none) =>
          { s with loads := s.loads ++ [{ id := l.1, op := q.op, gid := q.gid, bent := 0, port := none, acq := 0,
                                          cld := true, ptr := l.2.1, work := .poisoned l.2.1 false }] }) s

/-! ### Loads (R83, R207) -/

/-- Bytes that a load's part reads. -/
def partBytes (n part : Nat) : Nat := if n ≤ 8 then n else if part = 0 ∨ part = 1 then 8 else 0

/-- The lanes of a load that read the same bytes: they receive one value, and are read together (R205). -/
def sameRead (r x : LoadRec) : Bool := x.gid == r.gid && x.op == r.op && x.port == r.port && x.work == r.work

/-- The load met poison (R216). -/
def poisonRead (s : State) (r : LoadRec) : State :=
  { s with loads := s.loads.map fun x => if sameRead r x then { x with work := .poisoned x.ptr false } else x }

/-- Bytes arrive for one part of a load; with both parts the entries get their values. -/
def fillRead (s : State) (r : LoadRec) (lo hi : Option (List Byte)) (loc : Loc) (n : Nat) (sx : Bool) (part : Nat)
    (bs : List Byte) : State :=
  let lo := if part = 0 then some bs else lo
  let hi := if part = 1 then some bs else hi
  match lo, hi with
  | some a, some b =>
    (s.loads.filter (sameRead r)).foldl (fun s x => resolve s x.gid x.id (loadVal n sx (a ++ b)))
      { s with loads := s.loads.filter fun x => !sameRead r x }
  | _, _ =>
    { s with loads := s.loads.map fun x => if sameRead r x then { x with work := .read lo hi loc n sx } else x }

/-- Lines of a core's L1 data cache, 32 KiB (R202). -/
def dcacheLines : Nat := 256

/-- A load finds its line in its core's L1 data cache, or misses there, which R412 counts, and fills it. SCRATCH and
PEER accesses bypass it (R202; log 121). -/
def touchLine (s : State) (r : LoadRec) (l : Loc) : State :=
  match getGroup s r.gid with
  | none => s
  | some g =>
    let x : DCacheRec := { cl := g.cl, core := g.core, loc := l.floor 128 }
    if r.port.isSome || !locTranslated l || s.dcache.contains x then s
    else perfCount { s with dcache := keepNewest (fun y => y.cl == g.cl && y.core == g.core) dcacheLines (x :: s.dcache) } g.cl 5 1

/-- Read one part of a load where it may be performed now: an acquire learns what the value carries (R229), and the
group has read the forwarded stores of others (R226). -/
def readPart (s : State) (r : LoadRec) (lo hi : Option (List Byte)) (loc : Loc) (n : Nat) (sx : Bool) (part : Nat) :
    State :=
  let l := loc.plus (8 * part)
  let k := partBytes n part
  if !(acquiresDone s r.gid r.op && readMayGo s r.gid r.port r.op loc n) then s
  else match wayTo s l with
    | .held => s
    | .dead => poisonRead s r
    | .open' =>
      if isPoisoned s l k then poisonRead s r
      else
        let s' := learn (touchLine s r l) r.gid r.op r.acq (carriesView s r.bent l k)
        fillRead (sawStores s' r.gid r.op (forwardedFrom s r.bent r.gid l k)) r lo hi loc n sx part (viewBytes s r.bent l k)

/-- R83, R371: the data of a load, the answer of an atomic, an engine read or a query arrives. `part`
names one of the two halves of a 16-byte load (R219). -/
def execLoadDataArrive (id part : Nat) (s : State) : Res :=
  match s.queries.find? fun q => q.id == id with
  | some q => .next (answerQuery s q)
  | none => match s.loads.find? fun r => r.id == id with
    | none => .next s
    | some r => match r.work with
      | .poisoned .. => .next s
      | .value v => .next (resolve { s with loads := s.loads.filter fun x => x.id ≠ id } r.gid id v)
      | .read lo hi loc n sx =>
        if part = 0 ∧ lo = none ∨ part = 1 ∧ hi = none then .next (readPart s r lo hi loc n sx part) else .next s

/-! ### TINV and HARVEST (R368, R369) -/

/-- The range of `n` pages from v: SPACE, BOUNDS or the first page. -/
def pageRange (v : Word) (n : Nat) : Except Cause Nat :=
  if bitsOf v 63 55 ≠ 0 then .error .space
  else if 2 ^ 39 < bitsOf v 54 16 + n then .error .bounds
  else .ok (bitsOf v 54 16)

def tinvBody (f : SY) (s : State) (g : Group) : Out :=
  let n := f.imm16.toNat
  withArgs s g [0] (if n = 0 then [] else [.src f.sa]) fun vf =>
    let v := (argVal g 0 (.src f.sa)).setWidth 64
    match if n = 0 then .ok 0 else pageRange v n with
    | .error c => .trap s c g.pc v
    | .ok p =>
      match coverRelease s g with
      | some o => o
      | none =>
        if !(storesDone s g.gid && invalidateReady s g.ctx p n) then .wait s .fence
        else .done (invalidate (setGroup s (raiseFlags g vf)) g.ctx p n)

/-- R368. -/
def execTinv (c : Ctl) (f : SY) (s : State) : Res := issue (.tinv c f) c (tinvBody f) s

def harvestBody (c : Ctl) (f : SY) (s : State) (g : Group) : Out :=
  let n := f.imm16.toNat
  withArgs s g [0] [.src f.sa] fun vf =>
    let v := (argVal g 0 (.src f.sa)).setWidth 64
    match pageRange v n with
    | .error k => .trap s k g.pc v
    | .ok p =>
      match coverRelease s g with
      | some o => o
      | none =>
        if !storesDone s g.gid then .wait s .fence
        else
          let r := harvestRange s g.ctx p n
          .done (setGroup r.1 (pushLanes c (fun _ => .val (quadOf r.2)) (raiseFlags g vf)))

/-- R369. -/
def execHarvest (c : Ctl) (f : SY) (s : State) : Res := issue (.harvest c f) c (harvestBody c f) s

end Sys2Proof.Machine
end

