-- ==== Sys2Proof/Machine/Gang.lean ====
section
/-! DEFINITION. Gangs (R168 to R177, R190): GANG, GANG #0, MMSTAT, the grant of tiles. -/

namespace Sys2Proof.Machine

/-! ### Placement (R168, R169) -/

/-- Gk of the group's kernel. -/
def placementSize (s : State) (g : Group) : Nat :=
  let code := match teamOf s g with | some t => bitsOf t.hdr 26 24 | none => 0
  let n := if code = 2 then 2 else if code = 3 then 4 else 1
  if g.ident.g16 then 2 * n else n

/-- Gs of a size code. -/
def gangSize (g : Group) (sz : Nat) : Nat := (if g.ident.g16 then 2 else 1) * 2 ^ (sz - 1)

/-- The engine of a core pair (R11). -/
def engineOf (g : Group) : Nat := g.core / 2

/-! ### Tiles (R176, R177) -/

def tileAt (s : State) (cl eng z : Nat) : Option Tile := s.tiles.find? fun t => t.cl == cl && t.eng == eng && t.z == z
def tileFree (s : State) (cl eng z : Nat) : Bool :=
  match tileAt s cl eng z with | some t => t.owner.isNone | none => true

/-- The tiles that a mask names. -/
def ownTiles (own : BitVec 4) : List Nat := (upTo 4).filter fun z => own.getLsbD z

/-- A gang takes a tile: its contents stay for the same context (R177). -/
def ownTile (s : State) (k : Gang) (z : Nat) : State :=
  match tileAt s k.cl k.eng z with
  | none =>
    { s with tiles := { cl := k.cl, eng := k.eng, z, owner := some k.key, lastCtx := some k.ctx, words := [],
                        lost := 0 } :: s.tiles }
  | some t =>
    let t' := if t.lastCtx = some k.ctx then { t with owner := some k.key }
      else { t with owner := some k.key, lastCtx := some k.ctx, words := [], lost := 0 }
    { s with tiles := s.tiles.map fun x => if x = t then t' else x }

/-- A gang on an engine that has all its members and awaits its tiles. -/
def awaitsTiles (k : Gang) : Bool := k.joined != 0 && !k.granted && !k.broken && !k.away

/-- The tiles can be granted: all free, and no gang that completed its joins before awaits one (R174). -/
def grantable (s : State) (k : Gang) : Bool :=
  awaitsTiles k && (ownTiles k.own).all (tileFree s k.cl k.eng) &&
  s.gangs.all fun j =>
    !(awaitsTiles j && j.cl == k.cl && j.eng == k.eng && j.joined < k.joined && (j.own &&& k.own) != 0)

/-- Grant: every member's GANG completes, but that of `but`, which completes by itself (R173, R174). -/
def grantGang (s : State) (k : Gang) (but : Nat) : State :=
  let s := (ownTiles k.own).foldl (fun s z => ownTile s k z) s
  let s := modGang s k.key fun k => { k with granted := true }
  (k.members.filter fun m => !m.left).foldl (fun s m =>
    let s := modGroup s m.gid fun g => { g with gang := { g.gang with gst := 2, seq := 0, done := 0 } }
    match getGroup s m.gid with
    | some g => if m.gid ≠ but ∧ g.st = .waiting ∧ g.wreason = .gang then finish s m.gid (g.pc + 8) else s
    | none => s) s

/-- R173, Grant. -/
def execGangTileGrant (gang : Nat) (s : State) : Res :=
  match s.gangs.find? fun k => k.key == gang with
  | none => .next s
  | some k => if grantable s k then .next (grantGang s k 0) else .next s

/-! ### GANG (R174) -/

def trapMis (s : State) (g : Group) (reason : Nat) : Out := .trap s .gangmis g.pc (BitVec.ofNat 64 reason)

/-- The gang of an identity, until it is disbanded. -/
def gangById (s : State) (g : Group) (gid : Nat) : Option Gang :=
  s.gangs.find? fun k => k.ctx == g.ctx && k.teamNo == g.teamNo && k.gid == gid

/-- The group's own GANGREG as its join sets it. -/
def joinReg (g : Group) (sz : Nat) (own : BitVec 4) : GangReg :=
  { g.gang with gsz := sz, memb := g.ident.gidx % gangSize g sz, gid := g.ident.gidx / gangSize g sz, own, gst := 1 }

/-- The operation whose MMA waits for slower members (R179); 0 for another wait with GANG. -/
def awaitGang (s : State) (gid n : Nat) : State := modGroup s gid fun g => { g with awaits := n }

/-- Join a gang; the last member may complete it. -/
def joinGang (s : State) (g : Group) (key sz : Nat) (own : BitVec 4) : Out :=
  let s := modGroup s g.gid fun h => { h with gang := joinReg g sz own }
  let (s, n) := newId s
  let s := modGang s key fun k =>
    let ms := k.members ++ [{ gid := g.gid, memb := g.ident.gidx % gangSize g sz, delivered := 0, left := false }]
    { k with members := ms, joined := if ms.length = k.size then n else 0 }
  match s.gangs.find? fun k => k.key == key with
  | none => .wait s .gang
  | some k => if grantable s k then .done (grantGang s k g.gid) else .wait s .gang

/-- A gang that its first member forms. -/
def freshGang (s : State) (g : Group) (sz : Nat) (own : BitVec 4) (key : Nat) : State :=
  { s with gangs := s.gangs ++ [{
      key, ctx := g.ctx, teamNo := g.teamNo, gid := g.ident.gidx / gangSize g sz, cl := g.cl, eng := engineOf g,
      size := gangSize g sz, w := laneCount g, sz, own, members := [], granted := false, broken := false,
      joined := 0, ops := [], performed := 0, tileOps := [], away := false, saved := [] }] }

/-- A group that waits in GANG with its join done goes on once the tiles are granted. It takes GANGBRK where the
gang broke while the group was saved (R190). -/
def gangRejoin (s : State) (g : Group) : Out :=
  match gangOf s g.gid with
  | some k =>
    if k.broken then .trap s .gangbrk g.pc (BitVec.ofNat 64 k.performed)
    else if k.granted then .done s else .wait s .gang
  | none => .wait s .gang

def gangBody (f : SY) (s : State) (g : Group) : Out :=
  let sz := bitsOf f.imm16 1 0
  let own : BitVec 4 := BitVec.ofNat 4 (bitsOf f.imm16 7 4)
  if g.st = .waiting ∧ g.wreason = .gang ∧ g.gang.gst ≠ 0 then gangRejoin s g
  else if !(headerBit s g 5 && gangSize g sz ≤ placementSize s g) then trapMis s g 5
  else if g.gang.gst ≠ 0 then trapMis s g 6
  else match gangById s g (g.ident.gidx / gangSize g sz) with
    | none =>
      let (s, key) := newId s
      joinGang (freshGang s g sz own key) g key sz own
    | some k =>
      if k.members.any fun m => m.gid == g.gid && m.left then .wait s .gang
      else if k.sz ≠ sz ∨ k.own ≠ own then
        let (s, l) := if k.granted then (s, []) else breakGang s k.key
        trapMis (trapWaiting s k.key (l.filter (· ≠ g.gid))) g 4
      else if k.granted || k.broken then .wait s .gang
      else joinGang s g k.key sz own

/-- R174. -/
def execGang (c : Ctl) (f : SY) (s : State) : Res := issue (.gang c f) c (gangBody f) s

/-! ### GANG #0 (R175) -/

/-- R175. DEDUCED, log 98: the operations that GANG #0 waits for are the joint operations that the member has
delivered and its own tile operations (R187 counts both in CTL). -/
def gangLeaveBody (s : State) (g : Group) : Out :=
  if g.gang.gst = 0 then .done s
  else if ctlOf s g.gid ≠ 0 then .wait (awaitGang s g.gid 0) .gang
  else
    let key := match gangOf s g.gid with | some k => k.key | none => 0
    let s := modGroup s g.gid fun h => { h with gang := ⟨0, 0, 0, 0, 0, 0, 0⟩ }
    let (s, l) := leaveGang s g.gid
    .done (trapWaiting s key (l.filter (· ≠ g.gid)))

/-- R175. -/
def execGangLeave (c : Ctl) (f : SY) (s : State) : Res := issue (.gangLeave c f) c (fun s g => gangLeaveBody s g) s

/-! ### MMSTAT (R186) -/

/-- The engine runs in narrowed mode (R189). -/
def engineNarrow (s : State) (cl eng : Nat) : Bool := (getBent s (bentOf cl)).narrow.contains (cl, eng)

/-- Members that have delivered a part of an operation. -/
def arrived (o : JointOp) : Nat := (maskOf (o.parts.map (·.memb))).toNat

/-- The snapshot that MMSTAT pushes. OWN of a gang that broke before its tiles were granted is the mask that its GANG
named (DESIGN CHOICE, log 116). -/
def mmstatVal (s : State) (g : Group) : Nat :=
  let narrow := 2 ^ 16 * b2n (engineNarrow s g.cl (engineOf g))
  match gangOf s g.gid with
  | none => narrow
  | some k =>
    let part := k.ops.filter (gangPartial k)
    let oldest := part.foldl (fun (b : Option JointOp) o => match b with
      | none => some o
      | some x => if o.n < x.n then some o else some x) none
    k.own.toNat + 2 ^ 4 * part.length + 2 ^ 8 * (match oldest with | some o => arrived o | none => 0) + narrow +
      2 ^ 17 * b2n k.broken + 2 ^ 24 * g.gang.done

def mmstatBody (c : Ctl) (s : State) (g : Group) : Out :=
  .done (setGroup s (pushLanes c (fun _ => .val (quadOf (mmstatVal s g))) g))

/-- R186. -/
def execMmstat (c : Ctl) (f : SY) (s : State) : Res := issue (.mmstat c f) c (mmstatBody c) s

end Sys2Proof.Machine
end

