-- ==== Sys2Proof/Machine/Matrix.lean ====
section
/-! DEFINITION. The matrix engine (R41 to R44, R176 to R189): MMA, MMZ, MMLD, MMST, MMRD and the steps in
which the engine performs them. -/

namespace Sys2Proof.Machine

/-! ### Matrix types (R61, R179) -/

/-- The type of a matrix code (R58). -/
def matTy (t : Nat) : Ty :=
  match t with
  | 0 => .bf16 | 1 => .f16 | 2 => .e4m3 | 3 => .e5m2 | 4 => .i8 | 5 => .n8
  | 6 => .mx8a | 7 => .mx8b | 8 => .mx4 | _ => .k4
def matBlock (t : Nat) : Bool := 6 ≤ t
/-- Bits of an element code. -/
def matBits (t : Nat) : Nat := if t ≤ 1 then 16 else if t ≤ 7 then 8 else 4
/-- Element `k` of a row or column as a number, under its metadata word. -/
def matVal (t : Nat) (md : Nat) (x : Quad) (k : Nat) : FVal :=
  let code := elemAt (matBits t) x k
  if matBlock t then blockVal (matTy t) md code else fDecode (tyFmt (matTy t)) false code
/-- Element `k` as an integer. -/
def matInt (t : Nat) (x : Quad) (k : Nat) : Int :=
  if t = 4 then sxNat 8 (elemAt 8 x k) else (elemAt 8 x k : Nat)

/-! ### Tile words (R176) -/

def tileKey (i c : Nat) : Nat := 128 * i + c
/-- A word of a tile; a kill left the words it lost free (R173). -/
def tileWordAt (t : Tile) (key : Nat) : BitVec 32 :=
  match t.words.find? fun w => w.1 == key with
  | some w => w.2
  | none => if t.lost = 0 then 0 else Config.tileWord t.lost key
def readTile (s : State) (k : Gang) (z i c : Nat) : BitVec 32 :=
  match tileAt s k.cl k.eng z with
  | some t => tileWordAt t (tileKey i c)
  | none => 0
/-- The extent of a gang (R169). -/
def extent (k : Gang) : Nat := k.w * k.size
/-- Write every word of the extent. -/
def writeTile (s : State) (k : Gang) (z : Nat) (v : Nat → Nat → BitVec 32) : State :=
  let e := extent k
  let new := (upTo e).flatMap fun i => (upTo e).map fun c => (tileKey i c, v i c)
  { s with tiles := s.tiles.map fun t =>
      if t.cl = k.cl ∧ t.eng = k.eng ∧ t.z = z then
        { t with words := new ++ t.words.filter fun w => !(w.1 / 128 < e && w.1 % 128 < e) }
      else t }

/-! ### What may reach the engine (R176) -/

/-- The gang of a group that may use tile `z`, or the trap. -/
def engineGang (s : State) (g : Group) (z : Nat) : Except Out Gang :=
  if g.gang.gst ≤ 1 then .error (trapMis s g 1)
  else match gangOf s g.gid with
    | none => .error (trapMis s g 1)
    | some k =>
      if g.gang.gst = 3 then .error (.trap s .gangbrk g.pc (BitVec.ofNat 64 k.performed))
      else if !k.own.getLsbD z then .error (trapMis s g 2)
      else .ok k

/-! ### MMA (R179) -/

/-- Operations that every member has delivered. -/
def slowest (k : Gang) : Nat :=
  k.members.foldl (fun a m => Nat.min a m.delivered) ((k.members.head?.map (·.delivered)).getD 0)

def mmaParam (f : MX) : MmaParam :=
  { ta := f.ta.toNat, tb := f.tb.toNat, tc := f.tc.toNat, z := f.z.toNat, acc := f.acc, negp := f.negp }

/-- One member's part. -/
def mmaPart (g : Group) (c : Ctl) (f : MX) (memb : Nat) : MmaPart :=
  let lane (x : Src) (l : Nat) : Quad := if participates g c l then argVal g l (.src x) else 0
  let n := laneCount g
  let hasMeta := matBlock f.ta.toNat || matBlock f.tb.toNat
  { memb, rows := (upTo n).map (lane f.sa), cols := (upTo n).map (lane f.sb),
    metas := (upTo n).map fun l => if hasMeta then (lane f.sc l).setWidth 32 else 0 }

/-- An operation with one more part; with the last one it is complete, `stamp` in the order of completion (R178). -/
def addPart (k : Gang) (stamp : Nat) (x : MmaPart) (o : JointOp) : JointOp :=
  let o := { o with parts := o.parts ++ [x] }
  if gangPartial k o then o else { o with done := stamp }

/-- Latch a part of operation `n`. -/
def latchPart (k : Gang) (n stamp : Nat) (p : MmaParam) (x : MmaPart) : Gang :=
  let ops := if k.ops.any fun o => o.n == n
    then k.ops.map fun o => if o.n = n then addPart k stamp x o else o
    else k.ops ++ [addPart k stamp x { n, param := p, parts := [], done := 0 }]
  { k with ops, members := k.members.map fun m => if m.memb = x.memb then { m with delivered := n } else m }

def mmaBody (c : Ctl) (f : MX) (s : State) (g : Group) : Out :=
  if g.gang.gst ≤ 1 then trapMis s g 1
  else match gangOf s g.gid with
    | none => trapMis s g 1
    | some k =>
      let broken (s : State) : Out := .trap s .gangbrk g.pc (BitVec.ofNat 64 k.performed)
      if g.gang.gst = 3 then broken s
      else if k.members.any (·.left) then
        let (s, l) := breakGang s k.key
        broken (trapWaiting s k.key (l.filter (· ≠ g.gid)))
      else if !k.own.getLsbD f.z.toNat then trapMis s g 2
      else
        let memb := match memberOf k g.gid with | some m => m.memb | none => 0
        let n := (match memberOf k g.gid with | some m => m.delivered | none => 0) + 1
        if slowest k + 4 < n then .wait (awaitGang s g.gid n) .gang
        else if k.ops.any fun o => o.n == n && o.param != mmaParam f then trapMis s g 3
        else if 15 ≤ ctlOf s g.gid then waitCounts s g.gid 15 15 15 14
        else
          let ls := participants g c
          let args : List Arg := [.src f.sa, .src f.sb] ++
            (if matBlock f.ta.toNat || matBlock f.tb.toNat then [.src f.sc] else [])
          withArgs s g ls args fun vf =>
            let (s, stamp) := newId s
            let s := modGang s k.key fun k => latchPart k n stamp (mmaParam f) (mmaPart g c f memb)
            .done (setGroup s { raiseFlags g vf with gang := { g.gang with seq := n % 256 } })

/-- R179. -/
def execMma (c : Ctl) (f : MX) (s : State) : Res := issue (.mma c f) c (mmaBody c f) s

/-! ### Performing a joint operation (R41 to R43, R179) -/

def matEnv : FEnv := ⟨1, 0, false, false, false, false⟩

/-- The entry and metadata of fragment index `i`. -/
def fragRow (k : Gang) (o : JointOp) (i : Nat) : Quad × Quad × BitVec 32 :=
  match o.parts.find? fun p => p.memb == i / k.w with
  | some p => ((p.rows[i % k.w]?).getD 0, (p.cols[i % k.w]?).getD 0, (p.metas[i % k.w]?).getD 0)
  | none => (0, 0, 0)

def negTerm : FTerm → FTerm
  | .fin n m e => .fin (!n) m e
  | .inf n => .inf (!n)
  | .bad => .bad

/-- One element of the result. -/
def jointElem (k : Gang) (o : JointOp) (old : BitVec 32) (i c : Nat) : BitVec 32 :=
  let ta := o.param.ta
  let tb := o.param.tb
  let a := fragRow k o i
  let b := fragRow k o c
  let n := 128 / matBits ta
  if o.param.tc = 1 then
    let p : Int := (upTo n).foldl (fun t j => t + matInt ta a.1 j * matInt tb b.2.1 j) 0
    BitVec.ofInt 32 ((if o.param.negp then -p else p) + if o.param.acc then (old.toNat : Int) else 0)
  else
    let md (x : BitVec 32) (hi : Bool) : Nat := if hi then bitsOf x 31 16 else bitsOf x 15 0
    let ps := (upTo n).map fun j => fProd (matVal ta (md a.2.2 false) a.1 j) (matVal tb (md b.2.2 true) b.2.1 j)
    let ps := if o.param.negp then ps.map negTerm else ps
    let ps := if o.param.acc then ps ++ [fTerm (fDecode fmtF32 false old.toNat)] else ps
    BitVec.ofNat 32 (fFinish fmtF32 matEnv (sumTerms 1 ps)).1

/-- The engine enters or leaves narrowed mode between operations (R189). -/
def setNarrow (s : State) (cl eng : Nat) : State :=
  modBent s (bentOf cl) fun b =>
    let l := b.narrow.filter (· ≠ (cl, eng))
    { b with narrow := if b.h = 0 then (cl, eng) :: l else l }

/-- No other gang of the engine completed an operation before `o` that is still to be performed (R178). -/
def engineTurn (s : State) (k : Gang) (o : JointOp) : Bool :=
  s.gangs.all fun j => j.away || j.cl != k.cl || j.eng != k.eng ||
    j.ops.all fun x => gangPartial j x || o.done ≤ x.done

/-- The complete operation that is next, where every tile operation that comes before it is performed and the engine
has performed what other gangs completed before. A saved gang is on no engine (R192); until then its engine performs
what is latched, for members that have halted too. -/
def nextJoint (s : State) (k : Gang) : Option JointOp :=
  if k.away then none
  else k.ops.find? fun o => o.n == k.performed + 1 && !gangPartial k o && engineTurn s k o &&
    k.tileOps.all fun t => !(t.after < o.n)

/-- R173 (Perform), R179, R189: DONE advances in every member. -/
def execJointOpPerform (gang : Nat) (s : State) : Res :=
  match s.gangs.find? fun k => k.key == gang with
  | none => .next s
  | some k => match nextJoint s k with
    | none => .next s
    | some o =>
      let s := setNarrow s k.cl k.eng
      let s := perfCount (perfCount s k.cl 3 1) k.cl 4 (b2n (engineNarrow s k.cl k.eng))
      let t := s
      let s := writeTile s k o.param.z fun i c => jointElem k o (readTile t k o.param.z i c) i c
      let s := modGang s k.key fun k => { k with ops := k.ops.filter (fun x => x.n ≠ o.n), performed := o.n }
      .next { s with groups := s.groups.map fun g =>
        if k.members.any fun m => m.gid == g.gid && !m.left
        then { g with gang := { g.gang with done := o.n % 256 } } else g }

/-! ### Tile operations (R181 to R187) -/

/-- Queue a tile operation of a member. -/
def queueTileOp (s : State) (k : Gang) (g : Group) (id z : Nat) (kind : TileKind) : State :=
  let m := match memberOf k g.gid with | some m => m | none => { gid := g.gid, memb := 0, delivered := 0, left := false }
  modGang s k.key fun k => { k with tileOps := k.tileOps ++ [{ id, gid := g.gid, memb := m.memb, after := m.delivered, z, kind }] }

def mmzBody (f : MX) (s : State) (g : Group) : Out :=
  match engineGang s g f.z.toNat with
  | .error o => o
  | .ok k =>
    if 15 ≤ ctlOf s g.gid then waitCounts s g.gid 15 15 15 14
    else let (s, id) := newId s; .done (queueTileOp s k g id f.z.toNat .mmz)

/-- R181. -/
def execMmz (c : Ctl) (f : MX) (s : State) : Res := issue (.mmz c f) c (mmzBody f) s

/-! ### The extent in scratchpad (R182) -/

/-- Bytes of a row of codes. -/
def rowBytes (e ta : Nat) (raw : Bool) : Nat :=
  if raw then 4 * e else if ta ≤ 1 then 2 * e else if ta ≤ 3 then e else e / 2

/-- The first address outside the team's window among `n` bytes at offset `o`. -/
def firstOutside (ac : AddrCtx) (p : Word) (o n : Nat) : Option Word :=
  let lim := Nat.min (ac.wb + ac.wsize) 0x600000
  if n = 0 then none
  else if o < ac.wb ∨ lim ≤ o then some p
  else if lim < o + n then some (ptrAdd p (lim - o)) else none

/-- The checks of R182: the offsets of codes and metadata, or the trap with its TADDR. -/
def extentCheck (ac : AddrCtx) (e ta : Nat) (raw : Bool) (pitch : Nat) (p q : Word) :
    Except (Cause × Word) (Nat × Nat) :=
  let block := !raw && 8 ≤ ta
  let br := rowBytes e ta raw
  let ps := if block then [p, q] else [p]
  let foreign (x : Word) : Bool :=
    ptrSpace x != 1 || !ptrFormed x || !(bitsOf x 60 48 == 0x1FFF || bitsOf x 60 48 == ac.rank)
  match ps.find? foreign with
  | some x => .error (.space, x)
  | none => match ps.find? fun x => bitsOf x 3 0 != 0 with
    | some x => .error (.align, x)
    | none =>
      if pitch < br then .error (.bounds, p)
      else
        let rows := (upTo e).map fun i => firstOutside ac (ptrAdd p (i * pitch : Nat)) (bitsOf p 22 0 + i * pitch) br
        let metas := if block then [firstOutside ac q (bitsOf q 22 0) (e * (e / 32) * 2)] else []
        match (rows ++ metas).findSome? id with
        | some x => .error (.bounds, x)
        | none => .ok (bitsOf p 22 0, bitsOf q 22 0)

/-- MMLD and MMST up to the queue: `kind` gets the locations, TA, raw, the pitch. -/
def tileMemBody (f : MX) (kind : Group → Loc → Loc → Nat → Bool → Nat → TileKind) (upd : Group → Group)
    (s : State) (g : Group) : Out :=
  match engineGang s g f.z.toNat with
  | .error o => o
  | .ok k =>
    let ta := f.ta.toNat
    let block := !f.acc && matBlock ta
    withArgs s g [0] ([.src f.sa] ++ if block then [.src f.sb] else []) fun vf =>
      let e := extent k
      let br := rowBytes e ta f.acc
      let pitch := if f.imm16 = 0 then br else f.imm16.toNat
      let ac := addrCtx s g
      let size := (e - 1) * pitch + br
      let p := (argVal g 0 (.src f.sa)).setWidth 64
      let q := (argVal g 0 (.src f.sb)).setWidth 64
      match resolveSeg ac p size, (if block then resolveSeg ac q (e * (e / 32) * 2) else .ok q) with
      | .error c, _ => .trap s c g.pc p
      | _, .error c => .trap s c g.pc q
      | .ok p, .ok q =>
        match extentCheck ac e ta f.acc pitch p q with
        | .error x => .trap s x.1 g.pc x.2
        | .ok (o, m) =>
          if 15 ≤ ctlOf s g.gid then waitCounts s g.gid 15 15 15 14
          else
            let (s, id) := newId s
            let at' (x : Nat) : Loc := .scr g.ctx g.rank x
            .done (setGroup (queueTileOp s k g id f.z.toNat (kind g (at' o) (at' m) ta f.acc pitch))
              (upd (raiseFlags g vf)))

/-- R183. -/
def execMmld (c : Ctl) (f : MX) (s : State) : Res :=
  issue (.mmld c f) c (tileMemBody f (fun _ b m ta raw p => .mmld b m ta raw p) fun g => g) s
/-- R184; DPH follows R31. -/
def execMmst (c : Ctl) (f : MX) (s : State) : Res :=
  issue (.mmst c f) c (tileMemBody f
    (fun g b m ta raw p => .mmst b m ta raw p (effRm g f.rm) (modeDph g))
    fun g => advanceDph g (effRm g f.rm)) s

/-- R185: MMRD's entries are pending. -/
def mmrdBody (c : Ctl) (f : MX) (s : State) (g : Group) : Out :=
  match engineGang s g f.z.toNat with
  | .error o => o
  | .ok k =>
    let ls := participants g c
    if ls.isEmpty then .done s
    else if 15 ≤ ctlOf s g.gid then waitCounts s g.gid 15 15 15 14
    else
      let id := s.nextId
      let ids := ls.mapIdx fun i l => (l, id + 1 + i)
      let s := { s with nextId := id + 1 + ls.length }
      .done (setGroup (queueTileOp s k g id f.z.toNat (.mmrd f.imm16.toNat ids)) (pushPends c ids g))

/-- R185. -/
def execMmrd (c : Ctl) (f : MX) (s : State) : Res := issue (.mmrd c f) c (mmrdBody c f) s

/-! ### Performing a tile operation -/

/-- Locations of an element's code and metadata word: byte, bytes, bit. -/
def codeLoc (base : Loc) (ta pitch i c : Nat) (raw : Bool) : Loc × Nat × Nat :=
  let row := base.plus (i * pitch)
  if raw then (row.plus (4 * c), 4, 0)
  else if ta ≤ 1 then (row.plus (2 * c), 2, 0)
  else if ta ≤ 3 then (row.plus c, 1, 0)
  else (row.plus (c / 2), 1, 4 * (c % 2))
def metaLoc (m : Loc) (e i c : Nat) : Loc := m.plus ((i * e / 32 + c / 32) * 2)

/-- The word that MMLD makes of an element (R183). A poisoned byte gives a free word. -/
def mmldWord (s : State) (base m : Loc) (e ta : Nat) (raw : Bool) (pitch i c : Nat) : BitVec 32 :=
  let (l, n, b) := codeLoc base ta pitch i c raw
  let block := !raw && matBlock ta
  if isPoisoned s l n || (block && isPoisoned s (metaLoc m e i c) 2) then Config.tileWord s.fresh (tileKey i c)
  else
    let code := readNat s l n / 2 ^ b
    if raw then BitVec.ofNat 32 code
    else
      let v := if block then blockVal (matTy ta) (readNat s (metaLoc m e i c) 2) (code % 16)
        else fDecode (tyFmt (matTy ta)) false code
      BitVec.ofNat 32 (match v with
        | .nan .. => 0x7FC00000
        | v => (fConvert fmtF32 { matEnv with sat := true } v).1)

/-- Write bytes of a tile to scratchpad; poisoned bytes stay (R216). -/
def putBytes (s : State) (l : Loc) (bs : List Byte) : State :=
  (bs.mapIdx fun i b => (l.plus i, b)).foldl (fun s x => if isPoisoned s x.1 1 then s else writeByte s x.1 x.2) s

/-- Little-endian bytes of codes of width `w` bits. -/
def codesBytes (w : Nat) (l : List Nat) : List Byte :=
  bytesOf (l.length * w / 8) (l.foldr (fun x a => x % 2 ^ w + 2 ^ w * a) 0)

/-- One row of an MMST (R184). -/
def mmstRow (s : State) (k : Gang) (z : Nat) (base m : Loc) (ta : Nat) (raw : Bool) (pitch rm dph i : Nat) : State :=
  let e := extent k
  let ws := (upTo e).map fun c => (readTile s k z i c).toNat
  let row := base.plus (i * pitch)
  let env (c : Nat) : FEnv := { rm, idx := (c % 32 + dph) % 32, ftzi := false, ftzo := false, nanp := false, sat := true }
  if raw then putBytes s row (codesBytes 32 ws)
  else if matBlock ta then
    (upTo (e / 32)).foldl (fun s j =>
      let b := encodeBlock (matTy ta) env (((ws.drop (32 * j)).take 32).map (fDecode fmtF32 false))
      putBytes (putBytes s (row.plus (16 * j)) (codesBytes 4 b.codes)) (metaLoc m e i (32 * j)) (bytesOf 2 b.md)) s
  else putBytes s row (codesBytes (matBits ta) (ws.mapIdx fun c w =>
    (fConvert (tyFmt (matTy ta)) (env c) (fDecode fmtF32 false w)).1))

/-- What a tile operation does when the engine performs it. -/
def tileEffect (s : State) (k : Gang) (t : TileOp) : State :=
  match t.kind with
  | .mmz => writeTile s k t.z fun _ _ => 0
  | .mmld b m ta raw p =>
    { writeTile s k t.z (fun i c => mmldWord s b m (extent k) ta raw p i c) with fresh := s.fresh + 1 }
  | .mmst b m ta raw p rm dph => (upTo (extent k)).foldl (fun s i => mmstRow s k t.z b m ta raw p rm dph i) s
  | .mmrd q lanes =>
    let word (i j : Nat) : Nat := (readTile s k t.z i (4 * q + j)).toNat
    let recs := lanes.map fun l =>
      let i := k.w * t.memb + l.1
      ({ id := l.2, op := t.id, gid := t.gid, bent := 0, port := none, acq := 0, cld := false, ptr := 0,
         work := .value (packElems 32 ((upTo 4).map (word i))) } : LoadRec)
    { s with loads := s.loads ++ recs }

/-- The operation accesses no memory. -/
def TileKind.inEngine : TileKind → Bool
  | .mmz | .mmrd .. => true
  | .mmld .. | .mmst .. => false

/-- The engine may perform it now (R178, R187, R190, R228): after the joint operations before it; in a broken gang the
discarded ones keep their place in the order, with no effect. -/
def tileReady (s : State) (k : Gang) (t : TileOp) : Bool :=
  !k.away && (t.after ≤ k.performed || (k.broken && k.ops.isEmpty && k.tileOps.all fun u => !(u.after < t.after))) &&
  (k.tileOps.all fun u => !(u.gid == t.gid && u.id < t.id)) &&
  (t.kind.inEngine || acquiresDone s t.gid t.id) &&
  (s.stores.all fun r => !(r.gid == t.gid && r.op < t.id) || r.readable || !(match r.loc, t.kind with
    | .scr c r _, .mmld (.scr c' r' _) _ _ _ _ => c == c' && r == r'
    | _, _ => false)) &&
  s.atoms.all fun a => !(a.gid == t.gid && a.op < t.id) || !(match a.loc, t.kind with
    | .scr c r _, .mmld (.scr c' r' _) _ _ _ _ => c == c' && r == r'
    | _, _ => false)

/-- R187. -/
def execTileOpPerform (gang id : Nat) (s : State) : Res :=
  match s.gangs.find? fun k => k.key == gang with
  | none => .next s
  | some k => match k.tileOps.find? fun t => t.id == id with
    | none => .next s
    | some t =>
      if !tileReady s k t then .next s
      else .next (modGang (tileEffect s k t) k.key fun k => { k with tileOps := k.tileOps.filter fun u => u.id ≠ id })

end Sys2Proof.Machine
end

