-- ==== Sys2Proof/Machine/Barrier.lean ====
section
/-! DEFINITION. The barrier (R271 to R281): its object, its phases, how it breaks, BINIT, BARV, BWAIT, BARW
and BEXP. -/

namespace Sys2Proof.Machine

/-! ### The object (R271) -/

def barCtrl (s : State) (b : Loc) : Nat := readNat s b 8
def barPhase (s : State) (b : Loc) : Nat := readNat s (b.plus 0x08) 4
def barArrived (s : State) (b : Loc) : Nat := readNat s (b.plus 0x0C) 4
def barExpw (s : State) (b : Loc) : Nat := readNat s (b.plus 0x10) 4
def barGotw (s : State) (b : Loc) : Nat := readNat s (b.plus 0x14) 4
def barParent (s : State) (b : Loc) : Word := readWord s (b.plus 0x18)
def ctrlTarget (c : Nat) : Nat := c / 2 ^ 24 % 2 ^ 20
def ctrlFcode (c : Nat) : Nat := c / 2 ^ 16 % 2 ^ 8
def ctrlPph (c : Nat) : Nat := c / 2 ^ 12 % 2 ^ 4
/-- STATE: 0 FREE, 1 OPEN, 2 BROKEN. -/
def ctrlState (c : Nat) : Nat := c / 2 ^ 8 % 4
def ctrlHasp (c : Nat) : Bool := c / 2 ^ 7 % 2 == 1
def ctrlUp (c : Nat) : Bool := c / 2 ^ 6 % 2 == 1
def ctrlLevel (c : Nat) : Nat := c / 2 ^ 4 % 4
def barState (s : State) (b : Loc) : Nat := ctrlState (barCtrl s b)
/-- A field of `n` bits at bit `lo` of CTRL gets a value. -/
def ctrlSet (c lo n v : Nat) : Nat := c - c / 2 ^ lo % 2 ^ n * 2 ^ lo + v % 2 ^ n * 2 ^ lo
def setCtrl (s : State) (b : Loc) (c : Nat) : State := writeNat s b 8 c

/-- The shortfall D as i32. -/
def barShort (s : State) (b : Loc) : Int := sxNat 32 (sub32 (barExpw s b) (barGotw s b))

/-- An object with STATE 1 to 3 that must break with FCODE 0x02 (R272). -/
def barMalformed (s : State) (b : Loc) : Bool :=
  let c := barCtrl s b
  let team := match b with | .scr .. => true | _ => false
  ctrlState c == 3 || (ctrlState c != 0 &&
    (c % 16 != 1 || c / 2 ^ 44 != 0 || c / 2 ^ 10 % 4 != 0 || ctrlLevel c == 3 || ((ctrlLevel c == 0) != team)))

/-- A result entry (R274). -/
def barEntry (ptr : Word) (status ph : Nat) : Quad := quadOf (ptr.toNat * 2 ^ 64 + status * 2 ^ 56 + ph % 2 ^ 32)

/-- The location of the parent that an object names, in a context's address space. -/
def parentLoc (s : State) (ctx : Nat) (b : Loc) : Option Loc :=
  if !ctrlHasp (barCtrl s b) then none
  else
    let p := barParent s b
    if ptrSpace p = 0 ∧ ptrFormed p then virtLoc s ctx (bitsOf p 54 0) else none

/-! ### Waiters and events -/

/-- The release scope of a level (R272). -/
def levelScope (level : Nat) : Nat := level + 2

/-- The scope of a barrier's releases and acquires. -/
def barScope (s : State) (b : Loc) : Nat := levelScope (ctrlLevel (barCtrl s b))

/-- Latch the BAR bindings on a barrier. -/
def latchBar (s : State) (b : Loc) : State :=
  s.groups.foldl (fun s g => latchEdge s g.gid fun _ x => x.kind == 1 && x.loc == some b) s

/-- Resolve with BROKEN every entry that waits on a barrier. -/
def resolveBroken (s : State) (b : Loc) : State :=
  let ws := s.barWaits.filter fun w => w.bar == b
  ws.foldl (fun s w => resolve s w.gid w.id (barEntry w.ptr 1 w.ph))
    { s with barWaits := s.barWaits.filter fun w => w.bar != b }

/-- An awaited phase has completed (R276). -/
def phasePassed (phase ph : Nat) : Bool := let d := sub32 phase ph; 1 ≤ d && d < 2 ^ 31

/-- Resolve the entries whose phase has completed; the groups learn what the arrivals carried (R280). -/
def resolvePassed (s : State) (b : Loc) : State :=
  let phase := barPhase s b
  let go (w : BarWait) : Bool := w.bar == b && phasePassed phase w.ph
  let ws := s.barWaits.filter go
  let ks := carriesAt s b 32
  let scope := barScope s b
  ws.foldl (fun s w => learn (resolve s w.gid w.id (barEntry w.ptr 0 phase)) w.gid w.id scope ks)
    { s with barWaits := s.barWaits.filter fun w => !go w }

/-- The rank of a team barrier is saved: what reaches the barrier does so at its restore (R278). -/
def barSaved (s : State) (b : Loc) : Bool :=
  match b with
  | .scr c _ _ => (match getCtx s c with | some x => x.st == .saved | none => true)
  | _ => false

/-- A team barrier on which an instruction acts is noted with the parent that it has now, for the placement of its rank
(R273). -/
def noteBar (s : State) (ctx : Nat) (b : Loc) : State :=
  match b with
  | .scr .. =>
    { s with bparents := (match if barState s b = 0 then none else parentLoc s ctx b with
        | some p => [(b, p)]
        | none => []) ++ s.bparents.filter fun r => r.1 != b }
  | _ => s

/-- The bent in which a barrier lives. -/
def barBent (s : State) (b : Loc) : Nat :=
  match b with
  | .dev a => homeOf a
  | l => bentOf (clusterOf s l)

/-- A child barrier is a participant of its parent: of a bent's barrier, where it lives in that bent (R272). -/
def childFits (s : State) (b p : Loc) : Bool := ctrlLevel (barCtrl s p) != 1 || barBent s b == barBent s p

/-! ### Breaking (R278) -/

/-- One barrier breaks: the barriers that break with it. -/
def breakOne (s : State) (ctx : Nat) (b : Loc) (fcode : Nat) : State × List Loc :=
  let st := barState s b
  if st = 0 ∨ (st = 2 ∧ !barMalformed s b) then (s, [])
  else
    let up := (parentLoc s ctx b).toList
    let kids := (s.raised.filter fun r => r.parent == b).map (·.child) ++
      (s.releases.filter fun r => r.2 == b).map (·.1) ++ s.upward.filter fun k => parentLoc s ctx k == some b
    let s := setCtrl s b (ctrlSet (ctrlSet (barCtrl s b) 8 2 2) 16 8 fcode)
    let s := { s with raised := s.raised.filter fun r => r.child != b && r.parent != b,
                      releases := s.releases.filter fun r => r.1 != b && r.2 != b,
                      upward := s.upward.filter (· != b) }
    (latchBar (resolveBroken s b) b, up ++ kids.filter fun k => !barSaved s k)

/-- Break the barriers of a list and what breaks with them. -/
def breakBars : Nat → Nat → Nat → List Loc → State → State
  | 0, _, _, _, s => s
  | _, _, _, [], s => s
  | n + 1, ctx, fcode, b :: bs, s =>
    let r := breakOne s ctx b fcode
    breakBars n ctx fcode (bs ++ r.2) r.1

def breakBar (s : State) (ctx : Nat) (b : Loc) (fcode : Nat) : State :=
  breakBars (64 + 4 * (s.raised.length + s.releases.length)) ctx fcode [b] s

/-! ### Phases (R277) -/

/-- The phase of a barrier completes. -/
def completePhase (s : State) (b : Loc) : State :=
  let c := barCtrl s b
  let s := setCtrl s b (ctrlSet c 6 1 0)
  let s := writeNat s (b.plus 0x08) 4 ((barPhase s b + 1) % 2 ^ 32)
  let s := writeNat s (b.plus 0x0C) 4 0
  let kids := s.raised.filter fun r => r.parent == b && r.now
  let s := { s with raised := s.raised.filter fun r => !(r.child == b) && !(r.parent == b && r.now),
                    releases := s.releases ++ kids.map fun r => (r.child, b) }
  latchBar (resolvePassed s b) b

/-- What a barrier's bytes carry goes on to another barrier, at that one's scope (R280). -/
def carryOn (s : State) (src dst : Loc) : State :=
  addCarries s dst 32 ((carriesAt s src 32).map fun k => { k with scope := Nat.max k.scope (barScope s dst) })

/-- The releases that a phase collected hold at the scope of the parent, to which the barrier is to arrive (R226,
R280). -/
def collectedOk (s : State) (b p : Loc) : Bool :=
  barScope s p ≤ 3 || (carriesAt s b 32).all fun k => k.ids.all fun i => !openStore s i

/-- A barrier becomes RAISED: UP, and PPH from the parent (R277). -/
def raiseBar (s : State) (b p : Loc) : State :=
  setCtrl s b (ctrlSet (ctrlSet (barCtrl s b) 6 1 1) 12 4 (barPhase s p))

/-- A RAISED barrier's arrival reaches its parent, by the rules of BARV: the state, and whether the parent has counted
it. The parent of one that is no participant counts nothing, and the child stays RAISED (DESIGN CHOICE, log 124). -/
def arriveUp (s : State) (ctx : Nat) (b p : Loc) : State × Bool :=
  let s := raiseBar { s with upward := s.upward.filter (· != b) } b p
  let s := if barMalformed s p then breakBar s ctx p 0x02 else s
  let cp := barCtrl s p
  if ctrlState cp = 0 then (breakBar s ctx b 0x12, false)
  else if ctrlState cp ≠ 1 then (breakBar s ctx b (ctrlFcode cp), false)
  else if !childFits s b p then (s, false)
  else if ctrlUp cp ∨ ctrlTarget cp < barArrived s p + 1 then
    (breakBar (breakBar s ctx p 0x12) ctx b 0x12, false)
  else
    let s := carryOn (writeNat s (p.plus 0x0C) 4 (barArrived s p + 1)) b p
    ({ s with raised := s.raised ++ [⟨b, p, true⟩] }, true)

/-- Evaluate a barrier and, where it arrives upward, its parents. It is RAISED at once; its arrival waits for the
releases that its phase collected (R226, R280). -/
def evalBar : Nat → Nat → Loc → State → State
  | 0, _, _, s => s
  | n + 1, ctx, b, s =>
    let c := barCtrl s b
    if ctrlState c ≠ 1 ∨ ctrlUp c ∨ barArrived s b ≠ ctrlTarget c then s
    else
      let d := barShort s b
      if d > 0 then s
      else if d < 0 then breakBar s ctx b 0x12
      else if !ctrlHasp c then completePhase s b
      else match parentLoc s ctx b with
        | none => breakBar s ctx b 0x12
        | some p =>
          if !collectedOk s b p then { raiseBar s b p with upward := b :: s.upward.filter (· != b) } else
          let r := arriveUp s ctx b p
          if r.2 then evalBar n ctx p r.1 else r.1

def evaluate (s : State) (ctx : Nat) (b : Loc) : State := evalBar 64 ctx b s

/-- A copy counts `n` bytes on a barrier (R276). -/
def countBar (s : State) (ctx : Nat) (b : Loc) (n : Nat) : State :=
  let s := if barMalformed s b then breakBar s ctx b 0x02 else s
  if barState s b ≠ 1 then s
  else evaluate (writeNat s (b.plus 0x14) 4 ((barGotw s b + n / 4) % 2 ^ 32)) ctx b

/-! ### Operands and checks (R276) -/

/-- Checks 1 to 3 of a barrier pointer: a window offset or a virtual address. -/
def barTarget (s : State) (g : Group) (p : Word) (level : Option Nat) : Except (Cause × Word) Target :=
  let ac := addrCtx s g
  match resolveSeg ac p 32 with
  | .error c => .error (c, p)
  | .ok q =>
    let wrong : Bool := match level with
      | some 0 => ptrSpace q != 1
      | some _ => ptrSpace q != 0
      | none => ptrSpace q != 0 && ptrSpace q != 1
    if wrong then .error (.space, q)
    else match checkPlain s ac q 32 with
      | .error c => .error (c, q)
      | .ok (.scr r o) => if r = ac.rank ∧ ac.wb ≤ o ∧ o + 32 ≤ ac.wb + ac.wsize then .ok (.scr r o) else .error (.bounds, q)
      | .ok t => .ok t

/-- What a barrier pointer comes to once it has passed its checks (R276). -/
inductive BarAt
  /-- the group traps -/
  | out (o : Out)
  /-- the object -/
  | at' (s : State) (b : Loc)
  /-- an object that cannot be read and written: unmapped, without permission, or poisoned -/
  | none' (s : State)

/-- The object of a barrier pointer. A host page traps with SPACE; a page that the device cannot read and write traps
with nothing (R276). -/
def barLoc (s : State) (g : Group) (p : Word) (level : Option Nat) : BarAt :=
  let q := resolvedPtr (addrCtx s g) p 32
  match barTarget s g p level with
  | .error e => .out (.trap s e.1 g.pc e.2)
  | .ok (.glob va) =>
    let w := walk s g.ctx va
    if (w.kind == .page || w.kind == .large) && pteHOST w.entry then .out (.trap s .space g.pc q)
    else match check45 s (addrCtx s g) .atomic va with
      | (s, .ok l) => if isPoisoned s l 32 || wayTo s l == .dead then .none' s else .at' s l
      | (s, _) => .none' s
  | .ok (.scr r o) => if isPoisoned s (.scr g.ctx r o) 32 then .none' s else .at' s (.scr g.ctx r o)
  | .ok _ => .none' s

/-- A group's team, with its generation: a later team of the same number is another (R299). -/
def teamKey (s : State) (g : Group) : Nat × Nat × Nat :=
  (g.ctx, g.teamNo, match teamOf s g with | some t => t.gen | none => 0)

/-- The issuer is a participant (R272): at team level a group of the team that ran BINIT, at bent level one that runs
in the bent, at device level one of the context. A barrier that stores alone have made has no team or context that ran
its BINIT, and takes any (DESIGN CHOICE, log 101). -/
def isParticipant (s : State) (g : Group) (b : Loc) (level : Nat) : Bool :=
  let by' := s.bteams.find? fun x => x.1 == b
  match b, by' with
  | .dev a, some x => if level = 1 then homeOf a == bentOf g.cl else x.2.1 == g.ctx
  | .dev a, none => level != 1 || homeOf a == bentOf g.cl
  | _, some x => x.2 == teamKey s g
  | _, none => true

/-- A result entry whose STATUS and PH the manual does not state: for an object that cannot be read and written
(log 101). -/
def openEntry (s : State) (p : Word) : State × Quad :=
  ((freshQuad s).1, barEntry p (bitsOf (freshQuad s).2 39 32) (bitsOf (freshQuad s).2 31 0))

/-- Push a result entry on the g file. -/
def pushResult (s : State) (gid : Nat) (e : Entry) (fl : Nat) : State :=
  modGroup s gid fun g => pushG (raiseFlags g fl) e

/-- Wait until the release of an arrival holds at a scope, or deliver what a release delivers. -/
def releaseOut (s : State) (g : Group) (scope : Nat) : Option Out :=
  match coverRelease s g with
  | some o => some o
  | none =>
    if releaseOk s g.gid scope s.nextId && storesPlaced s g.gid s.nextId then none else some (.wait s .fence)

/-! ### BINIT -/

/-- The combiner of a level has a slot for the barrier. -/
def slotFree (s : State) (b : Loc) (level die : Nat) : Bool :=
  match b with
  | .dev a =>
    if level = 1 then
      (s.combiners.filter fun c => c.bent == some (homeOf a) && c.bar != b).length < 256
    else (s.combiners.filter fun c => c.bent == none && c.die == die && c.bar != b).length < 512
  | _ => true

def dropSlot (s : State) (b : Loc) : State := { s with combiners := s.combiners.filter fun c => c.bar != b }
def takeSlot (s : State) (ctx : Nat) (b : Loc) (level die : Nat) : State :=
  match b with
  | .dev a =>
    { dropSlot s b with combiners := (dropSlot s b).combiners ++
        [{ bar := b, ctx, bent := if level = 1 then some (homeOf a) else none, die }] }
  | _ => s

/-- The parent that a BINIT may name: its location and the pointer stored (R276). -/
def goodParent (s : State) (g : Group) (level : Nat) (p : Word) : Option (Loc × Word) :=
  let ac := addrCtx s g
  match resolveSeg ac p 32 with
  | .error _ => none
  | .ok q =>
    match checkPlain s ac q 32 with
    | .ok (.glob va) =>
      (match check45 s ac .store va with
       | (_, .ok (.dev a)) =>
         let l : Loc := .dev a
         let c := barCtrl s l
         if ctrlState c = 1 ∧ !barMalformed s l ∧ level < ctrlLevel c ∧
            (ctrlLevel c ≠ 1 ∨ homeOf a = bentOf g.cl) then some (l, q) else none
       | _ => none)
    | _ => none

/-- The object no longer is what it was before a BINIT: its children's arrivals count no more, its own has gone. -/
def forgetBar (s : State) (b : Loc) : State :=
  { s with raised := (s.raised.filter fun r => r.child != b).map fun r => if r.parent = b then { r with now := false } else r,
           releases := s.releases.filter fun r => r.1 != b,
           upward := s.upward.filter (· != b), bteams := s.bteams.filter fun x => x.1 != b }

/-- What a BINIT does before it looks for a slot: waiters resolve, and the parent of a RAISED barrier breaks. -/
def binitStart (s : State) (g : Group) (b : Loc) : State :=
  let s := resolveBroken s b
  if barState s b = 1 ∧ ctrlUp (barCtrl s b) then
    (match parentLoc s g.ctx b with
     | some p => breakBar { s with raised := s.raised.filter (fun r => r.child != b),
                                   releases := s.releases.filter (fun r => r.1 != b) } g.ctx p 0
     | none => s)
  else s

/-- A BINIT that ends with BUSY or BADPARENT leaves the object; a RAISED one breaks with its parent (R278). -/
def binitFails (s : State) (g : Group) (b : Loc) (st : Nat) : State × Nat :=
  (if barState s b = 1 ∧ ctrlUp (barCtrl s b) then breakBar s g.ctx b 0 else s, st)

/-- BINIT once its pointer is checked; `ptr` is the resolved pointer. -/
def binitAt (s : State) (g : Group) (b : Loc) (ptr : Word) (level t : Nat) (parent : Option Word) : State × Nat :=
  let s := binitStart s g b
  if t = 0 then
    let s := setCtrl (dropSlot (forgetBar s b) b) b (ctrlSet (barCtrl s b) 8 2 0)
    ({ s with bparents := s.bparents.filter fun r => r.1 != b }, 0)
  else
    let die := bitsOf ptr 5 5
    if level ≠ 0 ∧ !slotFree s b level die then binitFails s g b 2
    else
      let par := parent.map (goodParent s g level)
      if par = some none then binitFails s g b 3
      else
        let pw := match par with | some (some x) => x.2 | _ => 0
        let s := takeSlot (forgetBar s b) g.ctx b level die
        let s := setCtrl { s with bteams := (b, teamKey s g) :: s.bteams } b
          (1 + 16 * level + 2 ^ 7 * b2n parent.isSome + 2 ^ 8 + 2 ^ 24 * t)
        let s := writeBytes s (b.plus 8) (List.replicate 16 0)
        (noteBar (setCarries (writeWord s (b.plus 0x18) pw) b 32 []) g.ctx b, 0)

/-- The common frame of the barrier instructions: operands, checks of B, then the operation on the object once the
group's earlier accesses to it and its acquires are performed (R220, R228; the wait shows FENCE, log 102). `none` is
an object that cannot be read and written. -/
def barBody (args : List Arg) (f : CP) (level : Option Nat) (k : State → Group → Word → Option Loc → Nat → Out)
    (s : State) (g : Group) : Out :=
  withArgs s g [0] (.src f.sa :: args) fun vf =>
    let ptr := (argVal g 0 (.src f.sa)).setWidth 64
    match barLoc s g ptr level with
    | .out o => o
    | .none' s => k s g ptr none vf
    | .at' s b => if objectMayGo s g.gid b 32 then k s g ptr (some b) vf else .wait s .fence

/-- Push the entry of an instruction on an object that cannot be read and written. -/
def pushOpen (s : State) (g : Group) (ptr : Word) (vf : Nat) : Out :=
  .done (pushResult (openEntry s ptr).1 g.gid (.val (openEntry s ptr).2) vf)

def binitBody (f : CP) : State → Group → Out :=
  let hasP := bitAt f.sub 2
  let level := bitsOf f.sub 1 0
  barBody (if hasP then [.src f.sb] else []) f (some level) fun s g ptr b vf => match b with
    | none => pushOpen s g ptr vf
    | some b =>
      let par := if hasP then some ((argVal g 0 (.src f.sb)).setWidth 64) else none
      let r := binitAt s g b (resolvedPtr (addrCtx s g) ptr 32) level (bitsOf f.imm26 19 0) par
      .done (pushResult r.1 g.gid (.val (barEntry ptr r.2 0)) vf)

/-- R276. -/
def execBinit (c : Ctl) (f : CP) (s : State) : Res := issue (.binit c f) c (closing (binitBody f)) s

/-! ### BARV, BWAIT, BARW, BEXP -/

/-- What an arrival of n finds before its release (R276): a status and whether the barrier breaks, or
none where it goes on. -/
def arriveStop (s : State) (g : Group) (b : Loc) (n : Nat) : Option (Nat × Bool) :=
  let c := barCtrl s b
  if ctrlState c = 0 then some (5, false)
  else if !isParticipant s g b (ctrlLevel c) then some (4, false)
  else if ctrlState c = 2 then some (1, false)
  else if ctrlUp c ∨ ctrlTarget c < barArrived s b + n then some (1, true)
  else none

/-- An arrival: the state, the status and the phase, or what the group takes instead. -/
def arrive (s : State) (g : Group) (b : Loc) (n : Nat) : Except Out (State × Nat × Nat) :=
  let s := noteBar (if barMalformed s b then breakBar s g.ctx b 0x02 else s) g.ctx b
  match arriveStop s g b n with
  | some (st, br) => .ok ((if br then breakBar s g.ctx b 0x12 else s), st, barPhase s b)
  | none =>
    match releaseOut s g (barScope s b) with
    | some o => .error o
    | none =>
      let ph := barPhase s b
      let s := addCarries s b 32 (carryOf s g.gid (barScope s b) s.nextId)
      .ok (evaluate (writeNat s (b.plus 0x0C) 4 (barArrived s b + n)) g.ctx b, 0, ph)

def barvBody (f : CP) : State → Group → Out :=
  barBody [] f none fun s g ptr b vf => match b with
    | none => pushOpen s g ptr vf
    | some b => match arrive s g b (bitsOf f.imm26 15 0) with
      | .error o => o
      | .ok (s, st, ph) => .done (pushResult s g.gid (.val (barEntry ptr st ph)) vf)

/-- R276. -/
def execBarv (c : Ctl) (f : CP) (s : State) : Res := issue (.barv c f) c (closing (barvBody f)) s

/-- The wait of a BWAIT or BARW: its entry, pending where the phase is still to come. -/
def waitPhase (s : State) (g : Group) (b : Loc) (ptr : Word) (st ph vf : Nat) : State :=
  let s := noteBar (if barMalformed s b then breakBar s g.ctx b 0x02 else s) g.ctx b
  if st ≠ 0 then pushResult s g.gid (.val (barEntry ptr st ph)) vf
  else if barState s b = 0 then pushResult s g.gid (.val (barEntry ptr 5 ph)) vf
  else if barState s b = 2 then pushResult s g.gid (.val (barEntry ptr 1 ph)) vf
  else if phasePassed (barPhase s b) ph then
    pushResult (learnNow s g.gid (barScope s b) (carriesAt s b 32)) g.gid (.val (barEntry ptr 0 (barPhase s b))) vf
  else
    let (s, id) := newId s
    pushResult { s with barWaits := s.barWaits ++ [{ id, gid := g.gid, bar := b, ptr, ph }] } g.gid (.pend id) vf

def bwaitBody (f : CP) : State → Group → Out :=
  barBody [.src f.sb] f none fun s g ptr b vf =>
    let tok := argVal g 0 (.src f.sb)
    let st := bitsOf tok 63 56
    let ph := bitsOf tok 31 0
    if BitVec.ofNat 64 (bitsOf tok 127 64) ≠ ptr ∨ st ≠ 0 then
      .done (pushResult s g.gid (.val (barEntry ptr st ph)) vf)
    else match b with
      | none => pushOpen s g ptr vf
      | some b => .done (waitPhase s g b ptr 0 ph vf)

/-- R276. -/
def execBwait (c : Ctl) (f : CP) (s : State) : Res := issue (.bwait c f) c (closing (bwaitBody f)) s

def barwBody (f : CP) : State → Group → Out :=
  barBody [] f none fun s g ptr b vf => match b with
    | none => pushOpen s g ptr vf
    | some b => match arrive s g b (bitsOf f.imm26 15 0) with
      | .error o => o
      | .ok (s, st, ph) => .done (waitPhase s g b ptr st ph vf)

/-- R276. -/
def execBarw (c : Ctl) (f : CP) (s : State) : Res := issue (.barw c f) c (closing (barwBody f)) s

/-- BEXP once its pointer is checked. -/
def bexpAt (s : State) (ctx : Nat) (b : Loc) (x : Nat) : State :=
  let s := noteBar (if barMalformed s b then breakBar s ctx b 0x02 else s) ctx b
  if barState s b ≠ 1 then s
  else if x % 4 ≠ 0 then breakBar s ctx b 0x12
  else evaluate (writeNat s (b.plus 0x10) 4 ((barExpw s b + x / 4) % 2 ^ 32)) ctx b

def bexpBody (f : CP) : State → Group → Out :=
  let r := bitAt f.sub 0
  barBody (if r then [.src f.sb] else []) f none fun s g _ b vf =>
    let x := if r then bitsOf (argVal g 0 (.src f.sb)) 31 0 else f.imm26.toNat
    let s := modGroup s g.gid fun h => raiseFlags h vf
    match b with
    | none => .done s
    | some b => .done (bexpAt s g.ctx b x)

/-- R276. -/
def execBexp (c : Ctl) (f : CP) (s : State) : Res := issue (.bexp c f) c (closing (bexpBody f)) s

/-! ### The barrier's own steps (R277, R278) -/

/-- The context of a barrier: a scratchpad's, or the one that holds the combiner slot. -/
def barCtx (s : State) (b : Loc) : Nat :=
  match b with
  | .scr c _ _ => c
  | _ => match s.combiners.find? fun c => c.bar == b with | some c => c.ctx | none => 0

/-- A RAISED child's phase completes, with what the parent's phase carried. -/
def releaseChild (s : State) (child parent : Loc) : State :=
  if barState s child = 1 ∧ ctrlUp (barCtrl s child) then
    evaluate (completePhase (carryOn s parent child) child) (barCtx s child) child
  else s

/-- R277, R278: the parent's release reaches a child. Where the child's rank is saved it finds nothing there; the
comparison at the restore stands in for it. -/
def execBarrierParentRelease (child : Loc) (s : State) : Res :=
  match s.releases.find? fun r => r.1 == child with
  | none => .next s
  | some r =>
    let s := { s with releases := s.releases.filter fun r => r.1 != child }
    if barSaved s child then .next s else .next (releaseChild s child r.2)

/-- A restored rank's team barrier with UP = 1: the device compares the parent's PHASE with PPH, and a parent that
broke before its phase was over breaks the child (R278). An arrival that still waits goes on as before. -/
def restoreBar (s : State) (b : Loc) : State :=
  let c := barCtrl s b
  if !(ctrlState c == 1 && ctrlUp c) || s.upward.contains b then s
  else match parentLoc s (barCtx s b) b with
    | none => s
    | some p =>
      let s := { s with releases := s.releases.filter fun r => r.1 != b }
      if barPhase s p % 16 ≠ ctrlPph c then
        releaseChild { s with raised := s.raised.filter fun r => r.child != b } b p
      else if barState s p = 2 then breakBar s (barCtx s b) b (ctrlFcode (barCtrl s p))
      else s

/-- The team barriers that instructions have acted on or made. -/
def knownBars (s : State) : List Loc := (s.bparents.map (·.1) ++ s.bteams.map (·.1)).eraseDups

/-- The team barriers of a rank, after its restore. -/
def restoreBars (s : State) (ctx rank : Nat) : State :=
  (knownBars s).foldl (fun s b => match b with
    | .scr c r _ => if c = ctx ∧ r = rank then restoreBar s b else s
    | _ => s) s

/-- An upward arrival goes on where the releases of its phase hold now. -/
def deliverUp (s : State) (b : Loc) : State :=
  let ctx := barCtx s b
  if barSaved s b then s
  else if !(barState s b == 1 && ctrlUp (barCtrl s b)) then { s with upward := s.upward.filter (· != b) }
  else match parentLoc s ctx b with
    | none => breakBar s ctx b 0x12
    | some p =>
      if !collectedOk s b p then s
      else
        let r := arriveUp s ctx b p
        if r.2 then evaluate r.1 ctx p else r.1

/-- The upward arrivals that wait for the releases of their phase (R280). -/
def raiseWaiting (s : State) : State := s.upward.foldl deliverUp s

/-- A barrier on which an instruction has acted, so that a loss can reach it: it holds a combiner slot, or is a team
barrier. -/
def barKnown (s : State) (b : Loc) : Bool :=
  s.combiners.any (fun c => c.bar == b) || s.bteams.any fun x => x.1 == b

/-- R278: the combiner slot, a mesh link on the path to the barrier, or its tower is lost. -/
def execBarrierCombinerLost (bar : Loc) (s : State) : Res :=
  if barKnown s bar && !barSaved s bar then .next (breakBar s (barCtx s bar) bar 0x18) else .next s

end Sys2Proof.Machine
end

