-- ==== Sys2Proof/Machine/Ring.lean ====
section
/-! DEFINITION. The ring (R260 to R270): its checks, RINIT, RCLM, RAWT, RCMT, RRET, RCLOSE and the grants.
Queued commits and subscriptions stand in RingSub.lean. -/

namespace Sys2Proof.Machine

/-! ### Checks and entries (R262, R263, R265) -/

/-- The header that a pointer names, or the trap. -/
def ringAt (s : State) (g : Group) (p : Word) : Except (Cause × Word) Loc :=
  let ac := addrCtx s g
  match resolveSeg ac p 64 with
  | .error c => .error (c, p)
  | .ok q =>
    if ptrSpace q ≠ 1 then .error (.space, q)
    else match checkPlain s ac q 64 with
      | .error c => .error (c, q)
      | .ok (.scr r o) => .ok (.scr g.ctx r o)
      | .ok _ => .error (.space, q)

/-- The ring is known to have been acted on. -/
def noteRing (s : State) (h : Loc) : State := if s.rings.contains h then s else { s with rings := h :: s.rings }

/-- A CTRL that breaks the ring (R262). -/
def ringMalformed (s : State) (h : Loc) : Bool :=
  let c := ringCtrl s h
  c % 16 != 1 || c / 2 ^ 24 != 0 || c / 2 ^ 10 % 2 ^ 6 != 0

/-- A ring operation begins: a malformed header breaks the ring, whatever its STATE (R262). -/
def touchRing (s : State) (h : Loc) : State :=
  let s := noteRing s h
  if ringMalformed s h then breakRingAt s h 0x02 else s

/-- The entry of a span. -/
def spanEntry (s : State) (h : Loc) (p : Word) (status : Nat) (sp : Span) : Quad :=
  ringEntry (granulePtr p (ringSize s h) sp.start) status sp.k sp.start
/-- The entry of an operation that reserved nothing: START, and K where it is not given, are not stated. -/
def noSpan (s : State) (h : Loc) (p : Word) (status : Nat) (k : Option Nat) : State × Quad :=
  let v := (freshQuad s).2
  ((freshQuad s).1, spanEntry s h p status { start := bitsOf v 31 0, k := k.getD (bitsOf v 48 32) })
def pushNoSpan (s : State) (g : Group) (h : Loc) (p : Word) (status : Nat) (k : Option Nat) (vf : Nat) : State :=
  pushResult (noSpan s h p status k).1 g.gid (.val (noSpan s h p status k).2) vf

/-- The span of a result entry. -/
def spanOf (v : Quad) : Span := { start := bitsOf v 31 0, k := bitsOf v 48 32 }

/-- The holder value of a team. -/
def teamHolder (no : Nat) : Nat := 2 ^ 30 + no
/-- A live holder other than `own` has the side. -/
def heldByOther (s : State) (h : Loc) (v own : Nat) : Bool := v != own && holderLive s h v

def setState (s : State) (h : Loc) (st : Nat) : State := setCtrl s h (ctrlSet (ringCtrl s h) 8 2 st)

/-- The common frame of the ring instructions: operand, check of H, then the operation at its location once the group's
earlier accesses to the header and its acquires are performed (R220, R228; the wait shows FENCE, log 102). -/
def ringBody (args : List Arg) (f : CP) (k : State → Group → Loc → Word → Nat → Out) (s : State) (g : Group) : Out :=
  withArgs s g [0] (.src f.sa :: args) fun vf =>
    let p := (argVal g 0 (.src f.sa)).setWidth 64
    match ringAt s g p with
    | .error e => .trap s e.1 g.pc e.2
    | .ok h =>
      if rankSwaps s g (match h with | .scr _ r _ => r | _ => g.rank) then .wait s .swap
      else if objectReady s g.gid h 64 then k s g h p vf else .wait s .fence

/-! ### RINIT and RCLOSE -/

/-- The data area of a ring lies where its header may lie: within the limit of a SEGREL pointer (R196), and in the
window (R198). What BOUNDS reports, if it does not. -/
def areaBad (s : State) (g : Group) (h : Loc) (p : Word) (n : Nat) : Option Word :=
  let ac := addrCtx s g
  match resolveSeg ac p (64 + 64 * n), h with
  | .error _, _ => some p
  | .ok q, .scr _ r o =>
    let fits : Bool := if r = ac.rank then o + 64 + 64 * n ≤ ac.wb + ac.wsize else o + 64 + 64 * n ≤ 0x600000
    if fits then none else some q
  | .ok q, _ => some q

def rinitBody (f : CP) : State → Group → Out :=
  ringBody [] f fun s g h p vf =>
    let lgn := bitsOf f.imm26 3 0
    let n := if lgn = 0 then 65536 else 2 ^ lgn
    match areaBad s g h p n with
    | some a => .trap s .bounds g.pc a
    | none =>
      let s := resolveRing (noteRing s h) h false
      let s := writeBytes (setCtrl s h (1 + 16 * lgn)) (h.plus 8) (List.replicate 56 0)
      .done (pushResult s g.gid (.val (spanEntry s h p 0 { start := 0, k := 0 })) vf)

/-- R265. -/
def execRinit (c : Ctl) (f : CP) (s : State) : Res := issue (.rinit c f) c (closing (rinitBody f)) s

/-- RCLOSE on a ring that is not BROKEN. -/
def closeRing (s : State) (h : Loc) : State :=
  let s := if ringState s h = 0 then setState s h 1 else s
  if ringHead s h = ringClaim s h then setState s h 2 else s

def rcloseBody (f : CP) : State → Group → Out :=
  ringBody [] f fun s g h p vf =>
    let s := touchRing s h
    if ringState s h = 3 then .done (pushNoSpan s g h p 1 none vf)
    else
      let s := closeRing s h
      let k := bitsOf (freshQuad s).2 48 32
      .done (pushResult (freshQuad s).1 g.gid (.val (spanEntry s h p 0 { start := ringClaim s h, k })) vf)

/-- R265. -/
def execRclose (c : Ctl) (f : CP) (s : State) : Res := issue (.rclose c f) c (closing (rcloseBody f)) s

/-! ### RCLM and RAWT -/

/-- Reserve a span: the entry is pending. -/
def reserve (s : State) (g : Group) (h : Loc) (p : Word) (kind : RingWaitKind) (sp : Span) (vf : Nat) : State :=
  let (s, id) := newId s
  let s := { s with ringWaits := s.ringWaits ++
    [{ id, gid := g.gid, teamNo := g.teamNo, ring := h, ptr := p, kind, span := sp }] }
  pushResult s g.gid (.pend id) vf

def rclmBody (f : CP) : State → Group → Out :=
  ringBody [] f fun s g h p vf =>
    let k := bitsOf f.imm26 8 0
    let s := touchRing s h
    let own := teamHolder g.teamNo
    if ringState s h = 3 then .done (pushNoSpan s g h p 1 none vf)
    else if ringState s h ≠ 0 then .done (pushNoSpan s g h p 2 (some 0) vf)
    else if ringSize s h < k then .done (pushNoSpan s g h p 4 none vf)
    else if heldByOther s h (ringPhold s h) own then .done (pushNoSpan s g h p 3 none vf)
    else
      let start := ringClaim s h
      let s := writeNat (writeNat s (h.plus 0x18) 4 own) (h.plus 0x08) 4 ((start + k) % 2 ^ 32)
      .done (reserve s g h p .claim { start, k } vf)

/-- R265. -/
def execRclm (c : Ctl) (f : CP) (s : State) : Res := issue (.rclm c f) c (closing (rclmBody f)) s

def rawtBody (f : CP) : State → Group → Out :=
  ringBody [] f fun s g h p vf =>
    let k := bitsOf f.imm26 16 0
    let s := touchRing s h
    let own := teamHolder g.teamNo
    if ringState s h = 3 then .done (pushNoSpan s g h p 1 none vf)
    else if ringSize s h < k then .done (pushNoSpan s g h p 4 none vf)
    else if heldByOther s h (ringChold s h) own then .done (pushNoSpan s g h p 3 none vf)
    else
      let start := ringAwait s h
      let s := writeNat (writeNat s (h.plus 0x1C) 4 own) (h.plus 0x10) 4 ((start + k) % 2 ^ 32)
      .done (reserve s g h p .await { start, k } vf)

/-- R265. -/
def execRawt (c : Ctl) (f : CP) (s : State) : Res := issue (.rawt c f) c (closing (rawtBody f)) s

/-! ### Grants -/

/-- The conditions under which a claim of the span is granted. -/
def claimFits (s : State) (h : Loc) (sp : Span) : Bool :=
  sub32 (sp.start + sp.k) (ringHead s h) ≤ ringSize s h && sub32 (sp.start + sp.k) (ringVtail s h) ≤ 256

/-- The visible tail covers an awaited span; `some k` is an END with what remains. -/
def awaitDone (s : State) (h : Loc) (sp : Span) : Option (Option Nat) :=
  let short := sxNat 32 (sub32 (ringVtail s h) (sp.start + sp.k))
  if 0 ≤ short then some none
  else if ringState s h ≠ 0 ∧ ringVtail s h = ringClaim s h then
    some (some (max 0 (sxNat 32 (sub32 (ringClaim s h) sp.start))).toNat)
  else none

/-- No wait of the same kind that was issued before is still pending on the ring: its span starts before (R265). -/
def firstWait (s : State) (w : RingWait) : Bool :=
  s.ringWaits.all fun x => !(x.ring == w.ring && x.kind == w.kind && x.id != w.id &&
    sxNat 32 (sub32 x.span.start w.span.start) < 0)

def dropWait (s : State) (id : Nat) : State := { s with ringWaits := s.ringWaits.filter fun w => w.id ≠ id }

/-- The rank of a ring is on its cluster: engines and grants act on it (R270). -/
def ctxActive (s : State) (ctx : Nat) : Bool :=
  match getCtx s ctx with
  | some c => c.st == .running || c.st == .draining
  | none => false
def ringActive (s : State) (h : Loc) : Bool :=
  match h with
  | .scr c _ _ => ctxActive s c
  | _ => false

/-- R265: a pending claim is granted. -/
def execRingClaimGrant (id : Nat) (s : State) : Res :=
  match s.ringWaits.find? fun w => w.id == id with
  | none => .next s
  | some w =>
    if w.kind == .claim && ringActive s w.ring && firstWait s w && claimFits s w.ring w.span then
      .next (resolve (dropWait s id) w.gid id (spanEntry s w.ring w.ptr 0 w.span))
    else .next s

/-- R265: a pending await resolves with OK or END. -/
def execRingAwaitResolve (id : Nat) (s : State) : Res :=
  match s.ringWaits.find? fun w => w.id == id with
  | none => .next s
  | some w =>
    if !(w.kind == .await && ringActive s w.ring && firstWait s w) then .next s
    else
      let heard (s : State) : State := learn s w.gid id 4 (carriesAt s w.ring 64)
      match awaitDone s w.ring w.span with
      | none => .next s
      | some none => .next (heard (resolve (dropWait s id) w.gid id (spanEntry s w.ring w.ptr 0 w.span)))
      | some (some k) => .next (heard (resolve (dropWait s id) w.gid id (spanEntry s w.ring w.ptr 2 { w.span with k })))

/-! ### RCMT and RRET -/

/-- The span may be committed by a holder (R265). -/
def commitOk (s : State) (h : Loc) (own : Nat) (sp : Span) : Bool :=
  let r := sub32 sp.start (ringVtail s h)
  ringPhold s h == own && sp.k != 0 && r + sp.k ≤ sub32 (ringClaim s h) (ringVtail s h) && r + sp.k ≤ 256 &&
  ringCmap s h / 2 ^ r % 2 ^ sp.k == 0 &&
  s.ringWaits.all fun w => !(w.ring == h && w.kind == .claim &&
    sub32 w.span.start (ringVtail s h) < r + sp.k)

/-- The number of leading committed granules. -/
def leading : Nat → Nat → Nat
  | 0, _ => 0
  | n + 1, m => if m % 2 = 1 then 1 + leading n (m / 2) else 0

/-- Set the CMAP bits of a span and advance VTAIL (R261). -/
def commitSpan (s : State) (h : Loc) (sp : Span) : State :=
  let r := sub32 sp.start (ringVtail s h)
  let m := ringCmap s h ||| (2 ^ sp.k - 1) * 2 ^ r
  let n := leading 256 m
  writeNat (writeNat s (h.plus 0x20) 32 (m / 2 ^ n)) (h.plus 0x0C) 4 ((ringVtail s h + n) % 2 ^ 32)

/-- A commit by a holder: its status. -/
def commitAt (s : State) (h : Loc) (own : Nat) (sp : Span) : State × Nat :=
  if ringState s h = 3 then (s, 1)
  else if commitOk s h own sp then (commitSpan s h sp, 0) else (s, 5)

/-- The scope of a commit (R269). -/
def commitScope (f : CP) : Nat := if bitAt f.sub 1 then 3 else 4

def rcmtBody (f : CP) : State → Group → Out :=
  ringBody [.src f.sb] f fun s g h p vf =>
    let sp := spanOf (argVal g 0 (.src f.sb))
    let s := touchRing s h
    let own := teamHolder g.teamNo
    let push (x : State × Nat) : Out := .done (pushResult x.1 g.gid (.val (spanEntry x.1 h p x.2 sp)) vf)
    if ringState s h = 3 ∨ !commitOk s h own sp then push (commitAt s h own sp)
    else match releaseOut s g (commitScope f) with
      | some o => o
      | none => push (commitAt (addCarries s h 64 (carryOf s g.gid (commitScope f) s.nextId)) h own sp)

/-- R265. -/
def execRcmt (c : Ctl) (f : CP) (s : State) : Res := issue (.rcmt c f) c (closing (rcmtBody f)) s

/-- The await that reserved a granule is still pending: a group's, or a storer's for its next box (R265, R268). -/
def awaitPending (s : State) (h : Loc) (start : Nat) : Bool :=
  s.ringWaits.any (fun w => w.ring == h && w.kind == .await && w.span.start == start) ||
  s.subs.any fun x => x.ring == h && !x.load && (match x.claim with
    | some c => sub32 start c < x.k
    | none => false)

/-- The span of an entry with a STATUS may be retired: an await resolved it with OK or END (R265). -/
def retireOk (s : State) (h : Loc) (st : Nat) (sp : Span) : Bool :=
  sp.start == ringHead s h && (st == 0 || st == 2) && sp.k ≤ sub32 (ringAwait s h) (ringHead s h) &&
  ringAwait s h != ringHead s h && !awaitPending s h sp.start

/-- HEAD advances; a CLOSING ring that is empty closes. -/
def retireSpan (s : State) (h : Loc) (k : Nat) : State :=
  let s := writeNat s (h.plus 0x14) 4 ((ringHead s h + k) % 2 ^ 32)
  if ringState s h = 1 ∧ ringHead s h = ringClaim s h then setState s h 2 else s

def rretBody (f : CP) : State → Group → Out :=
  ringBody [.src f.sb] f fun s g h p vf =>
    let sp := spanOf (argVal g 0 (.src f.sb))
    let from' := bitsOf (argVal g 0 (.src f.sb)) 63 56
    let s := touchRing s h
    let push (s : State) (st : Nat) : Out := .done (pushResult s g.gid (.val (spanEntry s h p st sp)) vf)
    if ringState s h = 3 then push s 1
    else if !retireOk s h from' sp then push s 5
    else match releaseOut s g 4 with
      | some o => o
      | none => push (retireSpan s h sp.k) 0

/-- R265. -/
def execRret (c : Ctl) (f : CP) (s : State) : Res := issue (.rret c f) c (closing (rretBody f)) s

end Sys2Proof.Machine
end

