-- ==== Sys2Proof/Machine/Copy.lean ====
section
/-! DEFINITION. The copy (R246 to R259): queues, lane and tensor copies, line operations, faults,
completion, CPYF and CPYR. -/

namespace Sys2Proof.Machine

/-! ### Queues (R246, R247) -/

def cqueueOf (s : State) (ctx rank q : Nat) : CopyQueue :=
  match s.cqueues.find? fun c => c.ctx == ctx && c.rank == rank && c.q == q with
  | some c => c
  | none => { ctx, rank, q, accepted := 0, qbar := none, qring := none, recs := 0 }
def setCqueue (s : State) (c : CopyQueue) : State :=
  { s with cqueues := c :: s.cqueues.filter fun x => !(x.ctx == c.ctx && x.rank == c.rank && x.q == c.q) }

/-- The entries of a queue, the head first. -/
def queueEntries (s : State) (ctx rank q : Nat) : List CopyRec :=
  s.copies.filter fun c => c.ctx == ctx && c.rank == rank && c.q == q
def queueRoom (s : State) (g : Group) (q : Nat) : Bool := (queueEntries s g.ctx g.rank q).length < 32
def isHead (s : State) (c : CopyRec) : Bool :=
  ((queueEntries s c.ctx c.rank c.q).head?).map (·.id) == some c.id

/-- An entry of the group, before a queue accepts it. -/
def newCopy (s : State) (g : Group) (q : Nat) (kind : CopyKind) : CopyRec :=
  { id := 0, gid := g.gid, counts := true, op := 0, ctx := g.ctx, rank := g.rank, q, num := 0, kind, isLane := false,
    actx := { addrCtx s g with core := none }, rel := false, record := false, bar := false, ownBar := none, counted := 0, scope := 4,
    token := none, st := .queued, bytes := 0 }

/-- A queue accepts an entry. -/
def accept (s : State) (c : CopyRec) : State :=
  let cq := cqueueOf s c.ctx c.rank c.q
  let (s, id) := newId s
  setCqueue { s with copies := s.copies ++ [{ c with id, num := cq.accepted, op := if c.op = 0 then id else c.op }] }
    { cq with accepted := cq.accepted + 1 }

def modCopy (s : State) (id : Nat) (f : CopyRec → CopyRec) : State :=
  { s with copies := s.copies.map fun c => if c.id = id then f c else c }
def dropCopy (s : State) (id : Nat) : State := { s with copies := s.copies.filter fun c => c.id ≠ id }

/-! ### Reports (R250, R258) -/

/-- The token layout. -/
def tokenVal (status fcode q seq bytes : Nat) : Nat :=
  status + 2 ^ 8 * fcode + 2 ^ 16 * q + 2 ^ 20 * (seq % 2 ^ 12) + 2 ^ 32 * (bytes % 2 ^ 32)

/-- Checks 1 to 3 for an engine's access when it is performed; a package that is no longer reachable is POISON there
(R254, R400). Where they fail that held at issue (an import entry cleared since, a tensor element outside its window),
the code is that of the check (DESIGN CHOICE, log 119). -/
def engineTarget (s : State) (ac : AddrCtx) (p : Word) (n : Nat) : Except Cause Target :=
  match check13 s ac p n with
  | .ok t => .ok t
  | .error (c, q) =>
    let gone : Bool := ptrSpace q == 2 && (match importAt s ac.ctx (bitsOf q 60 48) with
      | some i => !didReachable s i.did
      | none => false)
    .error (if gone then .poison else c)

/-- A location for an engine's access, or the fault code of R254; `rem` is what another package's checks find (R402),
whose rights the import entry must give too. -/
def engineLoc (s : State) (ac : AddrCtx) (need : Need) (p : Word) (n : Nat) (rem : Option Cause := none) :
    State × Except Cause Loc :=
  let s := touchImport s ac p n
  match engineTarget s ac p n with
  | .error c => (s, .error c)
  | .ok (.scr r o) =>
    let l : Loc := .scr ac.ctx r o
    (s, if isPoisoned s l n then .error .poison else .ok l)
  | .ok (.glob va) =>
    (match check45 s ac need va with
     | (s, .ok l) => (s, if isPoisoned s l n then .error .poison else .ok l)
     | (s, .poisoned _) => (s, .error .poison)
     | (s, .noPerm) => (s, .error .pprot)
     | (s, _) => (s, .error .pfaultnr))
  | .ok (.peer slot off) =>
    match importAt s ac.ctx slot with
    | none => (s, .error .space)
    | some i =>
      if i.did = s.did.toNat then
        match remoteCheck s need i.rctx i.eidx i.key off n (rightsOk need i.at' i.w i.rd) with
        | (s, .ok l) => (s, if isPoisoned s l n then .error .poison else .ok l)
        | (s, .poisoned _) => (s, .error .poison)
        | (s, .trap c) => (s, .error c)
        | (s, .fault) => (s, .error .pfaultnr)
      else match rem with
        | some c => (s, .error c)
        | none => (s, if rightsOk need i.at' i.w i.rd then .ok (.peer i.did i.rctx i.eidx i.key off) else .error .pprot)

/-- Where the next completion record of a copy's queue goes (R258); nothing where the ring cannot be reached. -/
def recordLoc (s : State) (c : CopyRec) : State × Option Loc :=
  let cq := cqueueOf s c.ctx c.rank c.q
  match cq.qring with
  | none => (s, none)
  | some (p, n, ac) => match engineLoc s ac .store (ptrAdd p (16 * (cq.recs % 2 ^ n) : Nat)) 16 with
    | (s, .ok l) => (s, if engineWay s l = .dead then none else some l)
    | (s, .error _) => (s, none)

/-- A record cannot be written yet: its port trains, or its line's writes are under way (R234, R399). -/
def recordWaits (s : State) (c : CopyRec) : Bool :=
  match (recordLoc s c).2 with
  | some l => engineWay s l == .held || !lineQuiet s l 16
  | none => false

/-- Write a completion record to the queue's ring (R258); one that cannot be written is discarded, and takes no slot. -/
def writeRecord (s : State) (c : CopyRec) (status fcode : Nat) (addr : Word) : State :=
  let cq := cqueueOf s c.ctx c.rank c.q
  let n := match cq.qring with | some x => x.2.1 | none => 0
  let lap := cq.recs / 2 ^ n % 15 + 1
  let t := tokenVal status fcode c.q 0 c.bytes
  let w0 := t + 2 ^ 20 * lap + 2 ^ 24 * (c.num / 16 % 256)
  match recordLoc s c with
  | (s, some l) => setCqueue (deviceWrite s l (wordsBytes [w0, addr.toNat])) { cq with recs := cq.recs + 1 }
  | (s, none) => s

/-- The barrier that a copy counts on. -/
def copyBar (s : State) (c : CopyRec) : Option (Word × AddrCtx) :=
  if !c.bar then none
  else match c.ownBar with
    | some p => some (p, c.actx)
    | none => (cqueueOf s c.ctx c.rank c.q).qbar

/-- The object on which a copy counts, where it can be read and written (R276). -/
def countLoc (s : State) (c : CopyRec) : State × Option Loc :=
  match copyBar s c with
  | none => (s, none)
  | some (p, ac) => match engineLoc s ac .store p 32 with
    | (s, .ok l) => (s, some l)
    | (s, .error _) => (s, none)

/-- Count a copy's bytes (R251, R276). -/
def countCopy (s : State) (c : CopyRec) : State :=
  match countLoc s c with
  | (s, some l) => countBar s c.ctx l c.counted
  | (s, none) => s

/-- A count cannot be made yet: writes to the object's line are under way (R234). -/
def countWaits (s : State) (c : CopyRec) : Bool :=
  match (countLoc s c).2 with
  | some l => !lineQuiet s l 32
  | none => false

/-- The last steps of a report: record, token, event, count (R250). -/
def reportCopy (s : State) (c : CopyRec) (status : Nat) (cause : Option Cause) (addr : Word) : State :=
  let fcode := match cause with | some k => k.code | none => 0
  let s := if c.record || cause.isSome then writeRecord s c status fcode addr else s
  let s := match c.token with
    | some (gid, p) => resolve s gid p (quadOf (tokenVal status fcode c.q c.num c.bytes))
    | none => s
  latchEdge s c.gid fun _ b => b.kind == 2 && b.q == c.q

/-! ### Life of a copy (R248) -/

/-- The copy's queue moves: its context is on its clusters. -/
def copyMoves (s : State) (c : CopyRec) : Bool := isHead s c && ctxActive s c.ctx

/-- R248, R259: a copy at the head starts, a binding entry takes effect. -/
def execCopyStart (id : Nat) (s : State) : Res :=
  match s.copies.find? fun c => c.id == id with
  | none => .next s
  | some c =>
    if !(copyMoves s c && c.st == .queued) then .next s
    else
      let cq := cqueueOf s c.ctx c.rank c.q
      match c.kind with
      | .moves l =>
        if acquiresDone s c.gid c.op && (!c.rel || (releaseOk s c.gid c.scope c.op && storesPlaced s c.gid c.op)) then
          .next (modCopy s id fun c => { c with st := if l.isEmpty then .moved else .running })
        else .next s
      | .bindBar p => .next (dropCopy (setCqueue s { cq with qbar := p.map fun p => (p, c.actx) }) id)
      | .bindRing p =>
        .next (dropCopy (setCqueue s { cq with qring := p.map fun x => (x.1, x.2, c.actx), recs := 0 }) id)
      | .join _ => .next s
      | .commit .. => .next s

/-- The 128-byte line of a pointer, as an order over all spaces (R253): GLOBAL before SCRATCH, by resolved rank, before
PEER (DESIGN CHOICE, log 118). -/
def lineOf (s : State) (ac : AddrCtx) (p : Word) : Nat :=
  match check13 s ac p 1 with
  | .ok (.glob va) => va / 128
  | .ok (.scr r o) => 2 ^ 60 + r * 2 ^ 30 + o / 128
  | .ok (.peer k o) => 2 ^ 80 + k * 2 ^ 60 + o / 128
  | .error _ => 2 ^ 100 + p.toNat / 128

/-- Destination and source line of a move; a fill has no source. -/
def moveKey (s : State) (ac : AddrCtx) (m : Move) : Nat × Nat :=
  (lineOf s ac m.dst, match m.src with | some p => lineOf s ac p + 1 | none => 0)
def keyLt (a b : Nat × Nat) : Bool := a.1 < b.1 || (a.1 == b.1 && a.2 < b.2)

/-- The next line operation and what remains after it. -/
def nextLine (s : State) (ac : AddrCtx) (l : List Move) : List Move × List Move :=
  match l with
  | [] => ([], [])
  | m :: r =>
    let k := r.foldl (fun k x => if keyLt (moveKey s ac x) k then moveKey s ac x else k) (moveKey s ac m)
    (l.filter fun x => moveKey s ac x == k, l.filter fun x => moveKey s ac x != k)

/-- A move with its locations. -/
structure Placed where
  dst : Loc
  src : Option Loc
  fill : List Byte
  n : Nat

/-- What stands in the way of a line operation: nothing, a wait, or a fault with its pointer. -/
inductive LineOut
  | go (s : State) (l : List Placed)
  | held
  | fault (s : State) (c : Cause) (p : Word)

/-- What the other packages answer to a line operation (R402): not yet, or the pointers whose checks fail there, by
their place among the line's pointers, sources before destinations. -/
abbrev LineAns := Option (Nat → Option Cause)

/-- The way of an engine's access; another package has to have answered. -/
def lineWay (s : State) (ans : LineAns) (l : Loc) : Way :=
  match l, engineWay s l with
  | .peer .., .open' => if ans.isSome then .open' else .held
  | _, w => w

/-- Where a pointer of a line leads in another package, once it has passed this package's checks. -/
def peerAhead (s : State) (ac : AddrCtx) (p : Word) (n : Nat) : Option Loc :=
  match engineTarget s ac p n with
  | .ok (.peer slot off) => (match importAt s ac.ctx slot with
      | some i => if i.did = s.did.toNat then none else some (.peer i.did i.rctx i.eidx i.key off)
      | none => none)
  | _ => none

/-- What a pointer of a line comes to. -/
inductive PtrOut
  | at' (s : State) (l : Loc)
  | held
  | fails (s : State) (c : Cause)

/-- Place a pointer of a line, the `k`th: an access to another package is sent when its way is open, and only then
answered (R398, R402). -/
def placePtr (s : State) (ac : AddrCtx) (ans : LineAns) (need : Need) (k : Nat) (p : Word) (n : Nat) : PtrOut :=
  match (peerAhead s ac p n).map (lineWay s ans) with
  | some .dead => .fails s .poison
  | some .held => .held
  | _ => match engineLoc s ac need p n (ans.bind fun f => f k) with
    | (s, .error c) => .fails s c
    | (s, .ok l) => match lineWay s ans l with
      | .dead => .fails s .poison
      | .held => .held
      | .open' => .at' s l

/-- Place the moves of a line, the pointers counted from `i`. Where both pointers of a move fail, the source's failure
is reported (DESIGN CHOICE, log 117). -/
def placeMoves (s : State) (ac : AddrCtx) (ans : LineAns) (i : Nat) : List Move → LineOut
  | [] => .go s []
  | m :: r =>
    match m.src.map fun p => placePtr s ac ans .load i p m.n with
    | some .held => .held
    | some (.fails s c) => .fault s c (m.src.getD 0)
    | src =>
      let (s, sl) := match src with | some (.at' s l) => (s, some l) | _ => (s, none)
      match placePtr s ac ans .store (i + 1) m.dst m.n with
      | .held => .held
      | .fails s c => .fault s c m.dst
      | .at' s dl =>
        if !lineQuiet s dl m.n then .held
        else match placeMoves s ac ans (i + 2) r with
          | .go s ps => .go s (⟨dl, sl, m.fill, m.n⟩ :: ps)
          | o => o

/-- Read the bytes of every move of a line; `data` are the bytes that another package's memory gives, in order. -/
def readMoves (s : State) (bent : Nat) (data : List Byte) : List Placed → List (Loc × List Byte)
  | [] => []
  | p :: r =>
    match p.src with
    | none => (p.dst, p.fill) :: readMoves s bent data r
    | some (.peer ..) => (p.dst, data.take p.n) :: readMoves s bent (data.drop p.n) r
    | some l => (p.dst, viewBytes s bent l p.n) :: readMoves s bent data r

/-- Perform a line operation whose moves are placed: all reads, then the writes in order (R253). -/
def doLine (s : State) (bent : Nat) (data : List Byte) (l : List Placed) : State :=
  (readMoves s bent data l).foldl (fun s w => writeBytes s w.1 w.2) s

/-- Bytes that a line reads from other packages. -/
def remoteBytes (l : List Placed) : Nat :=
  l.foldl (fun a p => match p.src with | some (.peer ..) => a + p.n | _ => a) 0

/-- A copy faults (R254, R255, R250). -/
def faultCopy (s : State) (c : CopyRec) (k : Cause) (p : Word) : State :=
  let s := modCopy s c.id fun c => { c with st := .faulted, counts := false, token := none }
  if c.isLane then
    let s := writeRecord s c 1 k.code p
    if c.counts then modGroup s c.gid fun g => { g with cpFault := g.cpFault ++ [(c.id, k, p)] } else s
  else reportCopy s c 1 (some k) p

/-- The next line operation of a running copy, with what other packages answer to it. -/
def copyLine (s : State) (id : Nat) (ans : LineAns) (data : List Byte) : State :=
  match s.copies.find? fun c => c.id == id with
  | none => s
  | some c =>
    if !(copyMoves s c && c.st == .running) then s
    else match c.kind with
      | .moves l =>
        let (now, rest) := nextLine s c.actx l
        (match placeMoves s c.actx ans 0 now with
         | .held => s
         | .fault t k p => if recordWaits s c then s else faultCopy t c k p
         | .go t ps =>
           if remoteBytes ps ≠ data.length then s
           else
             let n := ps.foldl (fun a p => a + p.n) 0
             modCopy (doLine (perfCount t c.actx.cl 8 1) (bentOf c.actx.cl) data ps) id fun c =>
               { c with kind := .moves rest, bytes := c.bytes + n, st := if rest.isEmpty then .moved else .running })
      | _ => s

/-- R253: one line operation of a copy is performed. -/
def execCopyLine (id : Nat) (s : State) : Res := .next (copyLine s id none [])

/-- R250: every write is performed; the copy reports. -/
def execCopyCompletion (id : Nat) (s : State) : Res :=
  match s.copies.find? fun c => c.id == id with
  | none => .next s
  | some c =>
    if !(copyMoves s c && c.st == .moved) || countWaits s c || (c.record && recordWaits s c) then .next s
    else .next (dropCopy (reportCopy (countCopy s c) c 0 none 0) id)

/-- R259: a join that every named queue has reached. -/
def execCopyJoinRelease (id : Nat) (s : State) : Res :=
  match s.copies.find? fun c => c.id == id with
  | none => .next s
  | some c => match c.kind with
    | .join m =>
      let all := s.copies.filter fun x => x.op == c.op && x.gid == c.gid && x.kind == .join m
      if all.all (copyMoves s) then .next { s with copies := s.copies.filter fun x => !(all.any fun y => y.id == x.id) }
      else .next s
    | _ => .next s

/-! ### CPYL (R253) -/

/-- The scope of a copy between these pointers, as they resolve (R196, R242). -/
def copyScope (s : State) (ac : AddrCtx) (ps : List Word) : Nat :=
  let qs := ps.map fun p => resolvedPtr ac p 1
  if qs.any fun p => ptrSpace p == 2 then 6
  else if qs.any fun p => ptrSpace p == 0 && pteHOST (walk s ac.ctx (bitsOf p 54 0)).entry then 5 else 4

/-- The check of a barrier pointer that a copy or CPYF.bar names (R259). -/
def barPtrBad (s : State) (g : Group) (p : Word) : Option (Cause × Word) :=
  match barTarget s g p none with
  | .error e => some e
  | .ok (.glob va) =>
    let w := walk s g.ctx va
    if (w.kind == .page || w.kind == .large) && pteHOST w.entry then some (.space, resolvedPtr (addrCtx s g) p 32) else none
  | .ok _ => none

/-- The pointers of a lane: source and destination. -/
def lanePair (g : Group) (l : Nat) (x : Src) : Word × Word :=
  let v := argVal g l (.src x)
  (v.setWidth 64, (v >>> 64).setWidth 64)

/-- Which of checks 1 to 3 of R203 a pointer fails first, 4 for none; the limit of a SEGREL pointer is of check 1. -/
def failRank (s : State) (ac : AddrCtx) (p : Word) (n : Nat) : Nat :=
  match resolveSeg ac p n with
  | .error _ => 1
  | .ok q => match checkPlain s ac q n with
    | .ok _ => 4
    | .error .align => 2
    | .error .bounds => 3
    | .error _ => 1

/-- The failure of a lane's two pointers: the lowest check, the source's first at one check (R203, R253). -/
def pairBad (s : State) (ac : AddrCtx) (n : Nat) (x : Word × Word) : Option (Cause × Word) :=
  let p := if failRank s ac x.2 n < failRank s ac x.1 n then x.2 else x.1
  match check13 s ac p n with
  | .error e => some e
  | .ok _ => none

/-- The import entries that an engine's pointers name are read at issue. -/
def touchImports (s : State) (g : Group) (ps : List (Word × Nat)) : State :=
  ps.foldl (fun s p => touchImport s (addrCtx s g) p.1 p.2) s

/-- Where a lane's pointer and the .bar pointer both fail, the lane's failure is delivered (DESIGN CHOICE, log 117). -/
def cpylBody (c : Ctl) (f : CP) (s : State) (g : Group) : Out :=
  let ls := participants g c
  let hasBar := bitAt f.imm26 0
  let w := 4 * 2 ^ bitsOf f.sub 1 0
  withArgs s g ls ([.src f.sa] ++ if hasBar then [.src f.sb] else []) fun vf =>
    if ls.isEmpty then .done s
    else if 15 ≤ ccpOf s g.gid then waitCounts s g.gid 15 15 14 15
    else
      let pairs := ls.map fun l => lanePair g l f.sa
      let ptrs := pairs.flatMap fun p => [p.1, p.2]
      let bp := (argVal g 0 (.src f.sb)).setWidth 64
      let s := touchImports s g (ptrs.map fun p => (p, w))
      match pairs.findSome? (pairBad s (addrCtx s g) w) with
      | some e => .trap s e.1 g.pc e.2
      | none =>
        match if hasBar then barPtrBad s g bp else none with
        | some e => .trap s e.1 g.pc e.2
        | none =>
          if !queueRoom s g f.cq.toNat then .wait s .cpyq
          else
            let moves := pairs.map fun p => ({ dst := p.2, src := some p.1, fill := [], n := w } : Move)
            .done (accept (setGroup s (raiseFlags g vf)) { newCopy s g f.cq.toNat (.moves moves) with
              isLane := true, rel := bitAt f.sub 2, record := bitAt f.sub 3, bar := hasBar,
              ownBar := if hasBar then some bp else none, counted := w * ls.length, scope := copyScope s (addrCtx s g) ptrs })

/-- R253. -/
def execCpyl (c : Ctl) (f : CP) (s : State) : Res := issue (.cpyl c f) c (closing (cpylBody c f)) s

/-! ### Layout records (R256, R257) -/

def Layout.rank (l : Layout) : Nat := bitsOf l.ctrl 6 4
def Layout.esz (l : Layout) : Nat := 2 ^ bitsOf l.ctrl 9 8
def Layout.skew (l : Layout) : Nat := bitsOf l.ctrl 11 10
def Layout.dim (l : Layout) (k : Nat) : Nat := bitsOf l.box (8 * k + 7) (8 * k) + 1
/-- R. -/
def Layout.row (l : Layout) : Nat := 16 * ((l.dim 0 * l.esz + 15) / 16)
def Layout.rows (l : Layout) : Nat := l.dim 1 * l.dim 2 * l.dim 3 * l.dim 4
def Layout.bytes (l : Layout) : Nat := l.row * l.rows
def Layout.stride (l : Layout) (k : Nat) : Nat := bitsOf ((l.strides[k - 1]?).getD 0) 47 0

/-- The record in eight words. -/
def layoutOf (ws : List Word) : Layout :=
  let w (i : Nat) : Word := (ws[i]?).getD 0
  { ctrl := w 0, fillv := w 1, box := w 2, ext4 := w 3, strides := [w 4, w 5, w 6, w 7] }

/-- The offset of the lowest word that fails a check of R256. -/
def layoutBad (l : Layout) : Option Nat :=
  if bitsOf l.ctrl 3 0 ≠ 1 ∨ l.rank = 0 ∨ 5 < l.rank ∨ bitsOf l.ctrl 63 12 ≠ 0 ∨
      (upTo 5).any (fun k => l.rank ≤ k && l.dim k != 1) ∨ 2 ^ 24 < l.bytes ∨ (l.skew ≠ 0 ∧ l.row % 64 ≠ 0) then some 0
  else if bitsOf l.box 63 40 ≠ 0 then some 0x10
  else if bitsOf l.ext4 63 16 ≠ 0 then some 0x18
  else (upTo 4).findSome? fun k =>
    if bitsOf ((l.strides[k]?).getD 0) 63 48 ≠ 0 ∨ l.stride (k + 1) % 16 ≠ 0 then some (0x20 + 8 * k) else none

/-- Where byte `u` of row `n` lies in its row. -/
def Layout.skewed (l : Layout) (n u : Nat) : Nat :=
  if l.skew = 0 then u else (u + 64 * (n % 2 ^ l.skew)) % l.row

/-- The box coordinate of row `n` in dimension `k`. -/
def Layout.rowCoord (l : Layout) (n k : Nat) : Nat :=
  match k with
  | 1 => n % l.dim 1
  | 2 => n / l.dim 1 % l.dim 2
  | 3 => n / (l.dim 1 * l.dim 2) % l.dim 3
  | _ => n / (l.dim 1 * l.dim 2 * l.dim 3) % l.dim 4

/-- The elements that a box copy moves, in element order (R257): `ext` and `start` by dimension. -/
def boxMoves (l : Layout) (t x : Word) (ext : Nat → Nat) (start : Nat → Int) (store : Bool) : List Move :=
  let e := l.esz
  let fill := if bitAt l.ctrl 7 then bytesOf e l.fillv.toNat else List.replicate e 0
  (upTo l.rows).flatMap fun n => (upTo (l.row / e)).flatMap fun j =>
    let coord (k : Nat) : Int := start k + if k = 0 then j else l.rowCoord n k
    let boxP := ptrAdd x (l.row * n + l.skewed n (j * e) : Nat)
    let tenP := ptrAdd t (coord 0 * e + ((upTo 4).map fun k => coord (k + 1) * l.stride (k + 1)).foldl (· + ·) 0)
    let inB := (upTo l.rank).all fun k => decide (0 ≤ coord k) && decide (coord k < ext k)
    let pad : Bool := l.dim 0 ≤ j
    if store then (if !pad && inB then [{ dst := tenP, src := some boxP, fill := [], n := e }] else [])
    else if !pad && inB then [{ dst := boxP, src := some tenP, fill := [], n := e }]
    else [{ dst := boxP, src := none, fill, n := e }]

/-- Four 16-bit fields of a word. -/
def field16 (x : Nat) (k : Nat) : Nat := x / 2 ^ (16 * k) % 2 ^ 16

/-! ### Reading a record at issue (R256, R268) -/

/-- Read one checked word as a load of the group (R205, R233): its value, or what the group takes instead. A word of
another package is free here. -/
def readAcc (s : State) (g : Group) (a : Acc) : Except Out (State × Word) :=
  let bent := readerBent g a.port
  if a.poisoned || isPoisoned s a.loc 8 then .error (.trap s .poison g.pc a.ptr)
  else match a.loc with
    | .peer .. => .ok ((freshWord s).1, (freshWord s).2)
    | l =>
      let awaiting (n : Nat) : State := modGroup s g.gid fun g => { g with awaits := n }
      if !(acquiresDone s g.gid s.nextId && readMayGo s g.gid a.port s.nextId l 8) then
        .error (.wait (awaiting (((ownPending s g.gid l 8).head?.map Own.id).getD 0)) .age)
      else match wayTo s l with
        | .held => .error (.wait (awaiting 32) .peer)
        | .dead => .error (.trap s .poison g.pc a.ptr)
        | .open' => .ok (sawStores s g.gid s.nextId (forwardedFrom s bent g.gid l 8), BitVec.ofNat 64 (viewNat s bent l 8))

def readAccs (g : Group) : State → List Acc → Except Out (State × List Word)
  | s, [] => .ok (s, [])
  | s, a :: r => match readAcc s g a with
    | .error o => .error o
    | .ok (s, w) => match readAccs g s r with
      | .error o => .error o
      | .ok (s, ws) => .ok (s, w :: ws)

/-- Read `n` 8-byte words at a pointer that must be a multiple of `align`, as loads of the group: every word passes the
checks of R203. -/
def readRecord (s : State) (g : Group) (p : Word) (align n : Nat) : Except Out (State × List Word) :=
  match check13 s (addrCtx s g) p align with
  | .error e => .error (.trap s e.1 g.pc e.2)
  | .ok _ => match checkAccess s g .load 8 false ((upTo n).map fun i => (0, ptrAdd p (8 * i : Nat))) with
    | .out o => .error o
    | .ok s accs => readAccs g s accs

/-! ### CPYT (R256, R257) -/

/-- The whole box lies in bounds for its space (R257). -/
def boxInBounds (s : State) (ac : AddrCtx) (x : Word) (n : Nat) : Bool :=
  match check13 s ac x 1 with
  | .ok (.glob va) => va + n ≤ 2 ^ 55
  | .ok (.scr r o) => if r = ac.rank then ac.wb ≤ o && o + n ≤ ac.wb + ac.wsize else o + n ≤ 0x600000
  | .ok (.peer k o) => (match importAt s ac.ctx k with | some i => o + n ≤ i.len | none => false)
  | .error _ => false

/-- The checks of R257 on T and X: all of T's come first (DESIGN CHOICE, log 117). -/
def tensorBad (s : State) (ac : AddrCtx) (l : Layout) (t x : Word) : Option (Cause × Word) :=
  let xs := if l.skew = 0 then 16 else 64
  match check13 s ac t l.esz with
  | .error e => some e
  | .ok _ => match check13 s ac x xs with
    | .error e => some e
    | .ok _ =>
      match resolveSeg ac x l.bytes with
      | .error c => some (c, x)
      | .ok q => if boxInBounds s ac x l.bytes then none else some (.bounds, q)

def cpytBody (f : CP) (s : State) (g : Group) : Out :=
  withArgs s g [0] [.src f.sa, .src f.sb, .src f.sc] fun vf =>
    if 15 ≤ ccpOf s g.gid then waitCounts s g.gid 15 15 14 15
    else
      let lp := (argVal g 0 (.src f.sa)).setWidth 64
      let m := (argVal g 0 (.src f.sb)).toNat
      let b := (argVal g 0 (.src f.sc)).toNat
      match readRecord s g lp 64 8 with
      | .error o => o
      | .ok (s, ws) =>
        let l := layoutOf ws
        match layoutBad l with
        | some o => .trap s .illfld g.pc (ptrAdd (resolvedPtr (addrCtx s g) lp 64) o)
        | none =>
          let t : Word := BitVec.ofNat 64 m
          let x : Word := BitVec.ofNat 64 b
          let s := touchImports s g [(t, l.esz), (x, 16)]
          match tensorBad s (addrCtx s g) l t x with
          | some e => .trap s e.1 g.pc e.2
          | none =>
            if !queueRoom s g f.cq.toNat then .wait s .cpyq
            else
              let ext (k : Nat) : Nat := if k < 4 then field16 (m / 2 ^ 64) k else bitsOf l.ext4 15 0
              let start (k : Nat) : Int := sxNat 16 (if k < 4 then field16 (b / 2 ^ 64) k else bitsOf f.imm26 15 0)
              let (s, id) := newId s
              let s := modGroup s g.gid fun g => pushG (raiseFlags g vf) (.pend id)
              let ms := boxMoves l t x ext start (bitAt f.sub 0)
              let ends := ms.flatMap fun m => m.dst :: m.src.toList
              .done (accept s { newCopy s g f.cq.toNat (.moves ms) with
                rel := bitAt f.sub 1, record := bitAt f.sub 2, bar := bitAt f.sub 3, counted := l.bytes,
                scope := copyScope s (addrCtx s g) (t :: x :: ends), token := some (g.gid, id) })

/-- R256. -/
def execCpyt (c : Ctl) (f : CP) (s : State) : Res := issue (.cpyt c f) c (closing (cpytBody f)) s

/-! ### CPYF (R258, R259) -/

/-- Queues that a mask names. -/
def maskQueues (m : BitVec 16) : List Nat := (upTo 16).filter fun q => m.getLsbD q

def cpyfJoinBody (f : CP) (s : State) (g : Group) : Out :=
  let m : BitVec 16 := f.imm26.setWidth 16
  let qs := maskQueues m
  if 15 ≤ ccpOf s g.gid then waitCounts s g.gid 15 15 14 15
  else if !(qs.all (queueRoom s g)) then .wait s .cpyq
  else
    let op := s.nextId
    .done ((qs.foldl (fun (x : State × Bool) q =>
      (accept x.1 { newCopy x.1 g q (.join m) with op, counts := x.2 }, false)) (s, true)).1)

/-- R259. -/
def execCpyfJoin (c : Ctl) (f : CP) (s : State) : Res := issue (.cpyfJoin c f) c (closing (cpyfJoinBody f)) s

/-- CPYF.bar and CPYF.cring place one entry. -/
def placeBinding (s : State) (g : Group) (q vf : Nat) (kind : CopyKind) : Out :=
  if !queueRoom s g q then .wait s .cpyq
  else .done (accept (setGroup s (raiseFlags g vf)) (newCopy s g q kind))

def cpyfBarBody (f : CP) (s : State) (g : Group) : Out :=
  if 15 ≤ ccpOf s g.gid then waitCounts s g.gid 15 15 14 15
  else if f.imm26 ≠ 0 then placeBinding s g f.cq.toNat 0 (.bindBar none)
  else withArgs s g [0] [.src f.sa] fun vf =>
    let p := (argVal g 0 (.src f.sa)).setWidth 64
    match barPtrBad s g p with
    | some e => .trap s e.1 g.pc e.2
    | none => placeBinding s g f.cq.toNat vf (.bindBar (some p))

/-- R259. -/
def execCpyfBar (c : Ctl) (f : CP) (s : State) : Res := issue (.cpyfBar c f) c (closing (cpyfBarBody f)) s

def cpyfCringBody (f : CP) (s : State) (g : Group) : Out :=
  let n := bitsOf f.imm26 4 0
  if 15 ≤ ccpOf s g.gid then waitCounts s g.gid 15 15 14 15
  else if n = 0 then placeBinding s g f.cq.toNat 0 (.bindRing none)
  else withArgs s g [0] [.src f.sa] fun vf =>
    let p := (argVal g 0 (.src f.sa)).setWidth 64
    placeBinding s g f.cq.toNat vf (.bindRing (some (p, n)))

/-- R258. -/
def execCpyfCring (c : Ctl) (f : CP) (s : State) : Res := issue (.cpyfCring c f) c (closing (cpyfCringBody f)) s

/-! ### CPYR (R259) -/

/-- The faulted head of a queue of the group's rank. -/
def faultedHead (s : State) (g : Group) (q : Nat) : Option CopyRec :=
  match (queueEntries s g.ctx g.rank q).head? with
  | some c => if c.st = .faulted then some c else none
  | none => none

/-- The final token of a CPYR that found nothing; the SEQ is not stated. -/
def nothingToken (s : State) (g : Group) (q : Nat) : State :=
  let s' := (freshQuad s).1
  let v := tokenVal 3 0 q (bitsOf (freshQuad s).2 11 0) 0
  latchEdge (modGroup s' g.gid fun g => pushG g (.val (quadOf v))) g.gid fun _ b => b.kind == 2 && b.q == q

def cpyrResumeBody (f : CP) (s : State) (g : Group) : Out :=
  let q := f.cq.toNat
  if 15 ≤ ccpOf s g.gid then waitCounts s g.gid 15 15 14 15
  else match faultedHead s g q with
    | none => .done (nothingToken s g q)
    | some c =>
      let (s, id) := newId s
      let s := modGroup s g.gid fun g => pushG g (.pend id)
      .done (modCopy s c.id fun c =>
        { c with st := .running, gid := g.gid, counts := true, isLane := false, token := some (g.gid, id), bytes := 0 })

/-- R259. -/
def execCpyrResume (c : Ctl) (f : CP) (s : State) : Res :=
  issue (.cpyrResume c f) c (closing (cpyrResumeBody f)) s

def cpyrSkipBody (f : CP) (s : State) (g : Group) : Out :=
  let q := f.cq.toNat
  if 15 ≤ ccpOf s g.gid then waitCounts s g.gid 15 15 14 15
  else match faultedHead s g q with
    | none => .done (nothingToken s g q)
    | some c =>
      let s := dropCopy s c.id
      let s := modGroup s g.gid fun g => pushG g (.val (quadOf (tokenVal 2 0 q c.num 0)))
      .done (latchEdge s g.gid fun _ b => b.kind == 2 && b.q == q)

/-- R259. -/
def execCpyrSkip (c : Ctl) (f : CP) (s : State) : Res := issue (.cpyrSkip c f) c (closing (cpyrSkipBody f)) s

end Sys2Proof.Machine
end

