-- ==== Sys2Proof/Machine/RingSub.lean ====
section
/-! DEFINITION. Queued commits (R265) and subscriptions of a bent's loader and storer (R268). -/

namespace Sys2Proof.Machine

/-! ### RCMT.q -/

def rcmtQBody (f : CP) : State → Group → Out :=
  ringBody [.src f.sb] f fun s g h p vf =>
    let sp := spanOf (argVal g 0 (.src f.sb))
    let s := touchRing s h
    if ringState s h = 3 then .done (pushResult s g.gid (.val (spanEntry s h p 1 sp)) vf)
    else match releaseOut s g (commitScope f) with
      | some o => o
      | none =>
        if !queueRoom s g f.cq.toNat then .wait s .cpyq
        else
          let carry := carryOf s g.gid (commitScope f) s.nextId
          let (s, id) := newId s
          let s := pushResult s g.gid (.pend id) vf
          .done (accept s { newCopy s g f.cq.toNat (.commit h p g.teamNo sp id) with counts := false, carry })

/-- R265. -/
def execRcmtQ (c : Ctl) (f : CP) (s : State) : Res := issue (.rcmtQ c f) c (closing (rcmtQBody f)) s

/-- R265: the queue performs a queued commit; one that a break has resolved does nothing. -/
def execRingQueuedCommit (id : Nat) (s : State) : Res :=
  match s.copies.find? fun c => c.id == id with
  | none => .next s
  | some c => match c.kind with
    | .commit h p team sp pend =>
      if !copyMoves s c then .next s
      else if pend = 0 then .next (dropCopy s id)
      else
        -- a break that the header causes now resolves the commit with the rest (R262, R270)
        let broke := ringMalformed s h
        let s := dropCopy (touchRing s h) id
        if broke then .next s
        else
          let good := ringState s h != 3 && commitOk s h (teamHolder team) sp
          let r := commitAt (if good then addCarries s h 64 c.carry else s) h (teamHolder team) sp
          .next (resolve r.1 c.gid pend (spanEntry r.1 h p r.2 sp))
    | _ => .next s

/-! ### RSUB (R268) -/

/-- Granules of a box. -/
def Sub.granules (x : Sub) : Nat := x.layout.bytes / 64
def subHolder (x : Sub) : Nat := (if x.load then 2 else 3) * 2 ^ 30 + x.slot
/-- The offset of the holder's field in the header. -/
def holdOff (load : Bool) : Nat := if load then 0x18 else 0x1C

/-- A free slot of the bent's loader or storer. -/
def freeSlot (s : State) (bent : Nat) (load : Bool) : Option Nat :=
  (upTo 64).find? fun n => !(s.subs.any fun x => x.bent == bent && x.load == load && x.slot == n)

/-- A subscription from its descriptor and layout record. -/
def makeSub (s : State) (g : Group) (load : Bool) (h : Loc) (p : Word) (d : List Word) (l : Layout) : Sub :=
  let w (i : Nat) : Nat := ((d[i]?).getD 0).toNat
  let cs (x : Nat) : List Int := (upTo 4).map fun k => sxNat 16 (field16 x k)
  { id := 0, bent := bentOf (clusterOf s h), slot := 0, load, ctx := g.ctx, gid := g.gid, pend := 0, ring := h,
    ringPtr := p, actx := { addrCtx s g with core := none, wb := 0, wsize := 0x600000 }, layout := l,
    tbase := BitVec.ofNat 64 (w 1), ext := BitVec.ofNat 64 (w 2), c4 := sxNat 16 (w 7 % 2 ^ 16), start := cs (w 3),
    step1 := cs (w 4), step2 := cs (w 5), per := w 6 % 2 ^ 32, count := w 6 / 2 ^ 32, done := 0,
    k := l.bytes / 64, claim := none }

/-- What makes a descriptor bad (R268). -/
def subBad (s : State) (h : Loc) (x : Sub) (d : List Word) : Bool :=
  (layoutBad x.layout).isSome || x.layout.bytes % 64 != 0 || x.layout.bytes == 0 ||
  ringSize s h * 64 % x.layout.bytes != 0 || x.per == 0 || x.count == 0 || bitsOf ((d[7]?).getD 0) 63 16 != 0 ||
  (if x.load then ringClaim s h else ringAwait s h) % x.k != 0

def rsubBody (f : CP) : State → Group → Out :=
  ringBody [.src f.sb] f fun s g h p vf =>
    let load := !bitAt f.sub 0
    let s := touchRing s h
    let push (s : State) (st : Nat) : Out :=
      .done (pushResult (subEntry s 0 st 0).1 g.gid (.val (subEntry s 0 st 0).2) vf)
    if ringState s h = 3 then push s 1
    else match readRecord s g ((argVal g 0 (.src f.sb)).setWidth 64) 8 8 with
      | .error o => o
      | .ok (s, d) =>
        let lp := (d[0]?).getD 0
        if bitsOf lp 5 0 ≠ 0 then push s 7
        else match readRecord s g lp 64 8 with
          | .error o => o
          | .ok (s, ws) =>
            let x := makeSub s g load h p d (layoutOf ws)
            if subBad s h x d then push s 7
            else if holderLive s h (if load then ringPhold s h else ringChold s h) then push s 3
            else match freeSlot s x.bent load with
              | none => push s 6
              | some n =>
                let id := s.nextId
                let x := { x with id, slot := n, pend := id + 1 }
                let s := writeNat { s with nextId := id + 2, subs := s.subs ++ [x] } (h.plus (holdOff load)) 4 (subHolder x)
                .done (pushResult s g.gid (.pend (id + 1)) vf)

/-- R268. -/
def execRsub (c : Ctl) (f : CP) (s : State) : Res := issue (.rsub c f) c (closing (rsubBody f)) s

/-! ### Boxes -/

/-- The subscription is over: its holder is cleared and its entry resolves. -/
def endSub (s : State) (x : Sub) (status : Nat) : State :=
  let s := { s with subs := s.subs.filter fun y => y.id ≠ x.id }
  let s := writeNat s (x.ring.plus (holdOff x.load)) 4 0
  resolve (subEntry s 0 status x.done).1 x.gid x.pend (subEntry s 0 status x.done).2

/-- A box's access faulted: the ring breaks, and the entry gives the address (R268). -/
def faultSub (s : State) (x : Sub) (c : Cause) (p : Word) : State :=
  let holds := holdsEntry s x.gid x.pend
  let s := resolve (subEntry s p 1 x.done).1 x.gid x.pend (subEntry s p 1 x.done).2
  let s := rbrk holds { s with subs := s.subs.filter fun y => y.id ≠ x.id } x.gid
  breakRing s x.ring c.code

/-- The moves of the next box at a granule of the ring. -/
def subMoves (s : State) (x : Sub) (start : Nat) : List Move :=
  let at' (l : List Int) (k : Nat) : Int := (l[k]?).getD 0
  let c (k : Nat) : Int :=
    if k < 4 then at' x.start k + (x.done % x.per : Nat) * at' x.step1 k + (x.done / x.per : Nat) * at' x.step2 k else x.c4
  let ext (k : Nat) : Nat := if k < 4 then field16 x.ext.toNat k else bitsOf x.layout.ext4 15 0
  boxMoves x.layout x.tbase (granulePtr (resolvedPtr x.actx x.ringPtr 64) (ringSize s x.ring) start) ext c (!x.load)

/-- The lines of a box, one after another, until one faults or must wait. -/
inductive BoxOut
  | done (s : State)
  | held
  | fault (s : State) (c : Cause) (p : Word)

def boxLines (ac : AddrCtx) (bent : Nat) : Nat → List Move → State → BoxOut
  | 0, _, s => .done s
  | n + 1, l, s =>
    if l.isEmpty then .done s
    else
      let r := nextLine s ac l
      match placeMoves s ac none 0 r.1 with
      | .held => .held
      | .fault s c p => .fault s c p
      | .go s ps => boxLines ac bent n r.2 (doLine s bent [] ps)

/-- TBASE is a GLOBAL pointer to device memory (R268). -/
def tbaseOk (s : State) (x : Sub) : Bool :=
  ptrSpace x.tbase == 0 && ptrFormed x.tbase &&
  !((virtLoc s x.ctx (bitsOf x.tbase 54 0)).any fun l => match l with | .host _ => true | _ => false)

/-- Move one box, or fault. -/
def subBox (s : State) (x : Sub) (start : Nat) : BoxOut :=
  if !tbaseOk s x then .fault s .space x.tbase
  else
    let l := subMoves s x start
    boxLines { x.actx with cl := clusterOf s x.ring } x.bent (l.length + 1) l s

def modSub (s : State) (id : Nat) (f : Sub → Sub) : State :=
  { s with subs := s.subs.map fun x => if x.id = id then f x else x }

/-- A box is complete; the last one ends the subscription. -/
def boxDone (s : State) (x : Sub) : State :=
  let x := { x with done := x.done + 1, claim := none }
  let s := modSub s x.id fun _ => x
  if x.done = x.count then endSub (if x.load then closeRing s x.ring else s) x 0 else s

/-- R268: the loader reserves the granules of its next box, then fills and commits them. -/
def execLoaderBox (id : Nat) (s : State) : Res :=
  match s.subs.find? fun x => x.id == id && x.load with
  | none => .next s
  | some x =>
    if !ringActive s x.ring then .next s
    else
      let s := touchRing s x.ring
      if ringState s x.ring = 3 then .next s
      else match x.claim with
        | none =>
          if ringState s x.ring ≠ 0 then .next (endSub s x 2)
          else
            let start := ringClaim s x.ring
            .next (modSub (writeNat s (x.ring.plus 0x08) 4 ((start + x.k) % 2 ^ 32)) id fun y => { y with claim := some start })
        | some start =>
          if !claimFits s x.ring { start, k := x.k } then .next s
          else match subBox s x start with
            | .held => .next s
            | .fault s c p => .next (faultSub s x c p)
            | .done s => .next (boxDone (commitSpan s x.ring { start, k := x.k }) x)

/-- R268: the storer reserves its next box, then writes it to the tensor and retires it. -/
def execStorerBox (id : Nat) (s : State) : Res :=
  match s.subs.find? fun x => x.id == id && !x.load with
  | none => .next s
  | some x =>
    if !ringActive s x.ring then .next s
    else
      let s := touchRing s x.ring
      if ringState s x.ring = 3 then .next s
      else match x.claim with
        | none =>
          let start := ringAwait s x.ring
          .next (modSub (writeNat s (x.ring.plus 0x10) 4 ((start + x.k) % 2 ^ 32)) id fun y => { y with claim := some start })
        | some start =>
          match awaitDone s x.ring { start, k := x.k } with
          | none => .next s
          | some (some _) => .next (endSub s x 2)
          | some none =>
            match subBox s x start with
            | .held => .next s
            | .fault s c p => .next (faultSub s x c p)
            | .done s => .next (boxDone (retireSpan s x.ring x.k) x)

end Sys2Proof.Machine
end

