-- ==== Sys2Proof/Machine/Event.lean ====
section
/-! DEFINITION. Events and mailboxes (R282 to R301): EVBIND, EVMASK, EVWAIT, EVPOLL, EVRAISE, EVCLR, MSEND,
MRECV, and the steps of the event router. -/

namespace Sys2Proof.Machine

/-! ### Pending bindings (R285, R286) -/

def bindingAt (g : Group) (n : Nat) : Binding := (g.evbind[n]?).getD ⟨0, 0, 0, 0, 0, none, 0⟩

/-- The status that an RAWT of k, issued now, would resolve with at once. -/
def rawtNow (s : State) (g : Group) (h : Loc) (k : Nat) : Option Nat :=
  if ringMalformed s h ∨ ringState s h = 3 ∨ ringSize s h < k ∨ heldByOther s h (ringChold s h) (teamHolder g.teamNo) then none
  else match awaitDone s h { start := ringAwait s h, k } with
    | none => none
    | some none => some 0
    | some (some _) => some 2

/-- The status that an RCLM of k, issued now, would be granted or refused with at once. -/
def rclmNow (s : State) (g : Group) (h : Loc) (k : Nat) : Option Nat :=
  if ringMalformed s h ∨ ringState s h = 3 then none
  else if ringState s h ≠ 0 then some 2
  else if ringSize s h < k ∨ heldByOther s h (ringPhold s h) (teamHolder g.teamNo) then none
  else if claimFits s h { start := ringClaim s h, k } then some 0 else none

/-- The status of a level binding whose condition holds; a ring lies in scratch, so that no RAWT or RCLM names another
place (R265). -/
def levelNow (s : State) (g : Group) (b : Binding) : Option Nat :=
  match b.loc with
  | some (.scr c r o) =>
    let h : Loc := .scr c r o
    if b.kind = 4 then rawtNow s g h (bitsOf b.desc 80 64)
    else if b.kind = 5 then rclmNow s g h (bitsOf b.desc 72 64) else none
  | _ => none

/-- A binding is pending (R286). -/
def isPending (s : State) (g : Group) (n : Nat) : Bool :=
  let b := bindingAt g n
  if b.kind = 0 then false
  else if b.kind = 4 ∨ b.kind = 5 then (levelNow s g b).isSome
  else g.evpend.getLsbD n

/-- The binding that EVWAIT dispatches (R288). -/
def dispatchOf (s : State) (g : Group) (list : BitVec 16) : Option Nat :=
  (upTo 16).find? fun n => list.getLsbD n && !g.evmask.getLsbD n && isPending s g n

/-- The payload of a binding at its dispatch (R289). -/
def payload (s : State) (g : Group) (n : Nat) : Quad :=
  let b := bindingAt g n
  let ptr := bitsOf b.desc 63 0 * 2 ^ 64
  let st := match levelNow s g b with | some x => x * 2 ^ 32 | none => 0
  match b.kind, b.loc with
  | 1, some l => quadOf (barPhase s l + b2n (barState s l == 2) * 2 ^ 32 + ptr)
  | 2, _ => quadOf (b.q * 2 ^ 16)
  | 3, _ => quadOf g.mbox.length
  | 4, some h => quadOf (sub32 (ringVtail s h) (ringAwait s h) + st + ptr)
  | 5, some h =>
    quadOf (Nat.min (sub32 (ringHead s h + ringSize s h) (ringClaim s h)) (256 - sub32 (ringClaim s h) (ringVtail s h)) + st + ptr)
  | 6, _ => quadOf (getCluster s g.cl).cyc.toNat
  | _, _ => 0

/-! ### EVBIND (R284, R290, R294) -/

def setBinding (g : Group) (n : Nat) (b : Binding) (edge : Bool) : Group :=
  { g with
    evbind := g.evbind.set n b,
    evpend := if edge then g.evpend ||| ((1 : BitVec 16) <<< n) else g.evpend &&& ~~~((1 : BitVec 16) <<< n) }

/-- A descriptor's parameter outside the limits of R284. -/
def paramBad (kind hi : Nat) : Bool :=
  match kind with
  | 1 => hi / 2 ^ 32 != 0
  | 4 => hi == 0 || 65536 < hi
  | 5 => hi == 0 || 256 < hi
  | 6 => hi != 0
  | _ => false

/-- The source has already moved (R290). -/
def bindEdge (s : State) (g : Group) (kind : Nat) (desc : Quad) (l : Option Loc) : Bool :=
  match kind, l with
  | 1, some b => barState s b == 2 || phasePassed (barPhase s b) (bitsOf desc 95 64)
  | 3, _ => !g.mbox.isEmpty
  | 6, _ => bitsOf desc 63 0 == 0
  | _, _ => false

/-- The handler address of an EVBIND. -/
def evHandler (f : CP) (g : Group) : Word :=
  if f.sa.zero then g.pc + 8 + BitVec.ofInt 64 (sxNat 18 (bitsOf f.imm26 25 8) * 8)
  else (argVal g 0 (.src f.sa)).setWidth 64

def evbindBody (f : CP) (s : State) (g : Group) : Out :=
  let kind := f.sub.toNat
  let n := bitsOf f.imm26 3 0
  let j := bitsOf f.imm26 6 4
  if kind = 0 then .done (setGroup s (setBinding g n ⟨0, 0, 0, 0, 0, none, 0⟩ false))
  else withArgs s g [0] (if f.sa.zero then [] else [.src f.sa]) fun vf =>
    let h := evHandler f g
    match targetFails h with
    | some k => .trap s k g.pc h
    | none =>
      let hasDesc := kind = 1 ∨ kind = 4 ∨ kind = 5 ∨ kind = 6
      let desc : Quad := if hasDesc then (g.gframes[j]?).getD 0 else 0
      let bind (s : State) (l : Option Loc) : Out :=
        if paramBad kind (bitsOf desc 127 64) then .trap s .illfld g.pc (BitVec.ofNat 64 (bitsOf desc 127 64))
        else
          let b : Binding := { kind, q := f.cq.toNat, j, haddr := h, desc, loc := l, count := 0 }
          .done (setGroup s (setBinding (raiseFlags g vf) n b (bindEdge s g kind desc l)))
      if kind = 1 ∨ kind = 4 ∨ kind = 5 then
        (match checkAccess s g .load (if kind = 1 then 32 else 64) false [(0, desc.setWidth 64)] with
         | .out o => o
         | .ok s accs => match accs with
           | a :: _ => if a.poisoned then .trap s .poison g.pc a.ptr else bind s (some a.loc)
           | [] => bind s none)
      else bind s none

/-- R294. -/
def execEvbind (c : Ctl) (f : CP) (s : State) : Res := issue (.evbind c f) c (closing (evbindBody f)) s

/-! ### EVMASK, EVCLR, EVWAIT, EVPOLL -/

def evmaskBody (f : CP) (s : State) (g : Group) : Out :=
  let m : BitVec 16 := f.imm26.setWidth 16
  let v := if f.sub = 0 then m else if f.sub = 1 then g.evmask ||| m else g.evmask &&& ~~~m
  .done (setGroup s { g with evmask := v })

/-- R295. -/
def execEvmask (c : Ctl) (f : CP) (s : State) : Res := issue (.evmask c f) c (closing (evmaskBody f)) s

def evclrBody (f : CP) (s : State) (g : Group) : Out :=
  .done (setGroup s { g with evpend := g.evpend &&& ~~~(f.imm26.setWidth 16) })

/-- R295. -/
def execEvclr (c : Ctl) (f : CP) (s : State) : Res := issue (.evclr c f) c (closing (evclrBody f)) s

/-- The acquire of a dispatch (R289): the completed phase of a barrier, the commits of a ring. What a RSPACE acquires is
globally performed with the retirements themselves (R269); the acquires of SOFT and COPY stand where their edges are
latched and their copies performed. -/
def dispatchLearn (s : State) (gid : Nat) (b : Binding) : State :=
  match b.kind, b.loc with
  | 1, some l => if barState s l = 2 then s else learnNow s gid (barScope s l) (carriesAt s l 32)
  | 4, some h => learnNow s gid 4 (carriesAt s h 64)
  | _, _ => s

/-- R288, R296. -/
def evwaitBody (f : CP) (s : State) (g : Group) : Out :=
  match dispatchOf s g (f.imm26.setWidth 16) with
  | none => .wait s .event
  | some n =>
    let clear (g : Group) : Group := { g with evpend := g.evpend &&& ~~~((1 : BitVec 16) <<< n) }
    let push (g' : Group) : Group := clear (pushG (pushG g' (.val (quadOf n))) (.val (payload s g n)))
    .goto (modGroup (dispatchLearn s g.gid (bindingAt g n)) g.gid push) (bindingAt g n).haddr

/-- R296. -/
def execEvwait (c : Ctl) (f : CP) (s : State) : Res := issue (.evwait c f) c (closing (evwaitBody f)) s

def evpollBody (f : CP) (s : State) (g : Group) : Out :=
  let list : BitVec 16 := f.imm26.setWidth 16
  let pend := ((upTo 16).filter fun n => list.getLsbD n && isPending s g n).foldl (fun a n => a + 2 ^ n) 0
  let next := (dispatchOf s g list).getD 16
  .done (setGroup s (pushG g (.val (quadOf (pend + 2 ^ 16 * next)))))

/-- R297. -/
def execEvpoll (c : Ctl) (f : CP) (s : State) : Res := issue (.evpoll c f) c (closing (evpollBody f)) s

/-! ### EVRAISE (R298) -/

/-- Latch binding n of a group when it is SOFT. -/
def raiseSoft (s : State) (gid n : Nat) : State := latchEdge s gid fun k b => k == n && b.kind == 7

def evraiseBody (f : CP) (s : State) (g : Group) : Out :=
  let n := bitsOf f.imm26 3 0
  if f.sa.zero then .done (raiseSoft s g.gid n)
  else withArgs s g [0] [.src f.sa] fun vf =>
    let t := groupOfHandle s g.ctx ((argVal g 0 (.src f.sa)).setWidth 64)
    let other : Bool := match t with | some t => t.gid != g.gid | none => false
    match if other then releaseOut s g 4 else none with
    | some o => o
    | none =>
      let s' := setGroup s (raiseFlags g vf)
      match t with
      | some t =>
        let s' := raiseSoft s' t.gid n
        .done (if other then learnNow s' t.gid 4 (carryOf s g.gid 4 s.nextId) else s')
      | none => .done s'

/-- R298. -/
def execEvraise (c : Ctl) (f : CP) (s : State) : Res := issue (.evraise c f) c (closing (evraiseBody f)) s

/-! ### Mailboxes (R300, R301) -/

def msendBody (c : Ctl) (f : CP) (s : State) (g : Group) : Out :=
  let ls := execLanes g c
  withArgs s g ls [.src f.sa, .src f.sb] fun vf =>
    if ls.isEmpty then .done s
    else match coverRelease s g with
      | some o => o
      | none =>
        if 15 ≤ cstOf s g.gid then waitCounts s g.gid 15 14 15 15
        else
          let op := s.nextId
          let ids := ls.mapIdx fun k l => (l, op + 1 + k)
          let ms := ids.map fun x =>
            ({ id := x.2, op, gid := g.gid, ctx := g.ctx, target := (argVal g x.1 (.src f.sa)).setWidth 64,
               data := (argVal g x.1 (.src f.sb)).setWidth 64, scope := f.sub.toNat } : Msg)
          .done (setGroup { s with nextId := op + 1 + ls.length, msgs := s.msgs ++ ms }
            (pushPends c ids (raiseFlags g vf)))

/-- R300. -/
def execMsend (c : Ctl) (f : CP) (s : State) : Res := issue (.msend c f) c (closing (msendBody c f)) s

/-- The router writes a message into the record of a group that is saved there: its slot and MBCNT (R291). -/
def mailRecord (s : State) (t : Group) : State :=
  match getGroup s t.gid with
  | none => s
  | some g =>
    let i := (g.mbhead + t.mbox.length) % 8
    recordField (recordField s g.gid (0x4B48 + 8 * i) 8 (mboxVal g i)) g.gid 0x4AC4 4 (opcntVal s g)

/-- R300: the router delivers a message, or reports NOGROUP. -/
def execMailDeliver (id : Nat) (s : State) : Res :=
  match s.msgs.find? fun m => m.id == id with
  | none => .next s
  | some m =>
    let older : Bool := s.msgs.any fun x => x.gid == m.gid && x.target == m.target && x.id < m.id
    if older || !(releaseSettled s m.gid m.scope m.op && storesPlaced s m.gid m.op) then .next s
    else
      let gone (s : State) (st : Nat) : State :=
        resolve { s with msgs := s.msgs.filter fun x => x.id ≠ id } m.gid id (quadOf st)
      match groupOfHandle s m.ctx m.target with
      | none => .next (gone s 1)
      | some t =>
        if t.drain then .next (gone s 1)
        else if 8 ≤ t.mbox.length then .next s
        else
          let s := mailRecord (modGroup s t.gid fun g => { g with mbox := g.mbox ++ [m.data] }) t
          let s := learnNow s t.gid (if m.scope = 0 then 0 else 4) (carryOf s m.gid m.scope m.op)
          .next (gone (latchEdge s t.gid fun _ b => b.kind == 3) 0)

def mrecvBody (f : CP) (s : State) (g : Group) : Out :=
  match g.mbox with
  | [] => if bitAt f.sub 0 then .wait s .event else .done (setGroup s (pushG g (.val (quadOf (2 ^ 64)))))
  | d :: r =>
    .done (setGroup s (pushG { g with mbox := r, mbhead := (g.mbhead + 1) % 8 }
      (.val (quadOf (d.toNat + 2 ^ 72 * r.length)))))

/-- R301. -/
def execMrecv (c : Ctl) (f : CP) (s : State) : Res := issue (.mrecv c f) c (closing (mrecvBody f)) s

/-! ### The router's own steps -/

/-- A TIMER's period has passed: the edge (R282). -/
def timerEdge (s : State) (gid n : Nat) : State :=
  match getGroup s gid with
  | none => s
  | some g =>
    let b := bindingAt g n
    let p := bitsOf b.desc 63 0
    if b.kind = 6 ∧ p ≠ 0 ∧ p ≤ b.count then
      let s := modGroup s gid fun g => { g with evbind := g.evbind.set n { b with count := b.count - p } }
      latchEdge s gid fun k _ => k == n
    else s

/-- R282. -/
def execTimerEdge (gid : Nat) (n : BitVec 4) (s : State) : Res := .next (timerEdge s gid n.toNat)

/-- Every TIMER whose period has passed. -/
def timerEdges (s : State) : State :=
  s.groups.foldl (fun s g => if g.evbind.any fun b => b.kind == 6 then (upTo 16).foldl (fun s n => timerEdge s g.gid n) s
    else s) s

/-- R288: a group that waits in EVWAIT evaluates its list again. -/
def execEventDispatch (gid : Nat) (s : State) : Res :=
  match getGroup s gid with
  | none => .next s
  | some g => if g.st = .waiting ∧ g.wreason = .event then .next { s with resume := [gid] } else .next s

end Sys2Proof.Machine
end

