-- ==== Sys2Proof/Machine/Counters.lean ====
section
/-! DEFINITION. Performance counters (R412), the common snapshot trigger (R411), and asynchronous traps
of groups that may be saved (R79, R342). -/

namespace Sys2Proof.Machine

/-! ### Counters (R412) -/

/-- What one cycle adds to counter `i` of every cluster; the other codes count where their events happen. -/
def perfCycle (s : State) (i : Nat) : Nat := if pcselCode s i = 1 then 1 else 0

/-! ### Snapshots (R411) -/

/-- The trigger fires, or counts in LOST. -/
def fireSnap (s : State) (tag : BitVec 16) : State :=
  if s.snap.valid || s.snap.busy then
    { s with snap := { s.snap with lost := Nat.min (s.snap.lost + 1) 65535 } }
  else { s with snap := { s.snap with tag, seq := (s.snap.seq + 1) % 256, busy := true } }

/-- The record of one cluster: CYC and the eight counters. -/
def snapRecord (c : Cluster) : Nat × List Word := (c.cl, c.cyc :: c.perf)

/-- Every cluster latches, and the record is complete. -/
def latchSnap (s : State) : State :=
  if s.snap.busy then
    { s with snap := { s.snap with busy := false, valid := true, recs := s.clusters.map snapRecord } }
  else s

/-! ### Asynchronous traps -/

/-- An asynchronous trap reaches a group: at once, when traps are unmasked, or after the restore. -/
def asyncTrap (s : State) (gid : Nat) (c : Cause) (taddr : Word) : State :=
  match getGroup s gid with
  | none => s
  | some g => if g.st = .saved then holdTrap s gid c taddr else takeTrap s gid c true g.pc taddr

end Sys2Proof.Machine
end

