-- ==== Sys2Proof/Machine/Halt.lean ====
section
/-! DEFINITION. Stopping and restoring groups for hard pre-emption and YIELD (R192, R193, R225, R335,
R352): which group may issue, when one halts, what moves with a gang. -/

namespace Sys2Proof.Machine

/-! ### Who may issue -/

/-- The team is asked to halt: its context is SAVING, or it yields. -/
def askedToHalt (s : State) (g : Group) : Bool :=
  (match getCtx s g.ctx with | some c => c.st == .saving | none => false) ||
  (match teamOf s g with | some t => t.yielding | none => false)

/-- The context runs: it holds a partition and is not being saved or reset. -/
def ctxRuns (s : State) (ctx : Nat) : Bool :=
  match getCtx s ctx with
  | some c => c.st == .running || c.st == .draining
  | none => false

/-- A latched operation of the group's gang still lacks the group (R192). -/
def owesDelivery (s : State) (g : Group) : Bool :=
  match gangOf s g.gid with
  | none => false
  | some k => match memberOf k g.gid with
    | none => false
    | some m => !k.broken && k.ops.any fun o => gangPartial k o && !(o.parts.any fun p => p.memb == m.memb)

/-- The group may issue: new issue stops under a hard request but in a masked handler, and in a member
that owes a delivery (R79, R192, R352). A group of a lost tower does not issue (R379). -/
def mayIssue (s : State) (g : Group) : Bool :=
  (getBent s (bentOf g.cl)).online && if askedToHalt s g then (g.hnd && g.tmk) || owesDelivery s g else ctxRuns s g.ctx

/-! ### When a group halts (R352) -/

/-- Every message the group sent has performed its release (R353). -/
def msgsReleased (s : State) (gid : Nat) : Bool :=
  s.msgs.all fun m => m.gid != gid || (releaseSettled s gid m.scope m.op && storesPlaced s gid m.op)

/-- No load, atomic, query or engine read of the group awaits its answer. -/
def answersDone (s : State) (gid : Nat) : Bool :=
  (s.loads.all fun r => r.gid != gid || r.returned) && (s.atoms.all fun a => a.gid != gid) &&
  (s.queries.all fun q => q.gid != gid) && s.gangs.all fun k => k.tileOps.all fun t => t.gid != gid

/-- Every store of the group is globally performed, or lost: a loss goes with the group (R225, R236). -/
def storesHalt (s : State) (gid : Nat) : Bool :=
  (s.stores.all fun r => r.gid != gid || r.performed || r.st == .lost) && s.atoms.all fun a => a.gid != gid

/-- The conditions of R352, steps 1 to 4, for one group. -/
def haltReady (s : State) (g : Group) : Bool :=
  askedToHalt s g && (getBent s (bentOf g.cl)).online && (g.st == .ready || g.st == .waiting) && !(g.hnd && g.tmk) &&
  headerBit s g 6 && answersDone s g.gid && storesHalt s g.gid && seenPerformed s g.gid s.nextId && msgsReleased s g.gid &&
  !owesDelivery s g

/-- A group is saved, with its wait reason and count (R79). Its pending waits on barriers take their saved form, and
nothing resolves them before the restore (R274). -/
def saveGroup (s : State) (g : Group) : State :=
  let mine (w : BarWait) : Bool := w.gid == g.gid && (groupPends g).contains w.id
  let h := (s.barWaits.filter mine).foldl (fun h w => fillGroup w.id (quadOf (savedForm s g.gid w.id)) h) g
  setGroup { s with barWaits := s.barWaits.filter fun w => !mine w } { h with st := .saved, peerOk := none }

/-- Groups that can halt are saved. -/
def haltGroups (s : State) : State := (s.groups.filter (haltReady s)).foldl saveGroup s

/-- The same for one group, which has just unmasked its traps (R348). -/
def haltOne (s : State) (gid : Nat) : State :=
  match getGroup s gid with
  | none => s
  | some g => if haltReady s g then saveGroup s g else s

/-! ### Gangs move with their team (R192, R193) -/

/-- A gang with nothing latched and nothing under way. -/
def gangQuiet (k : Gang) : Bool := k.ops.isEmpty && k.tileOps.isEmpty

/-- The gang's tiles go to shadow storage. -/
def saveGang (s : State) (k : Gang) : State :=
  let mine := s.tiles.filter fun t => t.owner == some k.key
  let s := modGang s k.key fun k => { k with away := true, saved := mine.map fun t => (t.z, t.lost, t.words) }
  { s with tiles := s.tiles.map fun t => if t.owner = some k.key then { t with owner := none } else t }

/-- The saved tiles of a gang stand free on an engine. -/
def gangFits (s : State) (k : Gang) (cl eng : Nat) : Bool := k.saved.all fun x => tileFree s cl eng x.1

/-- Gangs find the engines on which they are to stand: their tiles are free there, and no two claim one tile (R193). -/
def gangsFit (s : State) (l : List (Gang × Nat × Nat)) : Bool :=
  l.all fun x => gangFits s x.1 x.2.1 x.2.2 && l.all fun y =>
    x.1.key == y.1.key || x.2 != y.2 || x.1.saved.all fun a => y.1.saved.all fun b => a.1 != b.1

/-- The gang resumes on an engine with its tiles. -/
def restoreGang (s : State) (k : Gang) (cl eng : Nat) : State :=
  let keep := s.tiles.filter fun t => !(t.cl == cl && t.eng == eng && k.saved.any fun x => x.1 == t.z)
  let mine := k.saved.map fun x =>
    ({ cl, eng, z := x.1, owner := some k.key, lastCtx := some k.ctx, words := x.2.2, lost := x.2.1 } : Tile)
  modGang { s with tiles := mine ++ keep } k.key fun k => { k with cl, eng, away := false, saved := [] }

/-- A g entry of a ring's or a barrier's saved form turns into a pending entry, whoever pushed it (R270,
R274); one whose pointer names no such object stays as it is. -/
def reviveEntry (gid : Nat) (s : State) (k : Nat) : State :=
  match getGroup s gid with
  | none => s
  | some g => match g.gages[k]? with
    | some (.val v) =>
      let ptr : Word := BitVec.ofNat 64 (bitsOf v 127 64)
      let pend (s : State) : State := modGroup { s with nextId := s.nextId + 1 } gid fun h =>
        { h with gages := h.gages.set k (.pend s.nextId) }
      if bitsOf v 63 56 ≠ 0xFF then s
      else if bitsOf v 55 48 = 1 then
        (match barLoc s g ptr none with
         | .at' s b =>
           let id := s.nextId
           let s := pend { s with barWaits := s.barWaits ++ [{ id, gid, bar := b, ptr, ph := bitsOf v 31 0 }] }
           if barState s b ≠ 1 then resolveBroken s b else resolvePassed s b
         | _ => s)
      else if 1 ≤ bitsOf v 55 49 ∧ bitsOf v 55 49 ≤ 4 then
        (match ringAt s g ptr with
         | .ok h =>
           let id := s.nextId
           let kind : RingWaitKind := if bitsOf v 55 49 = 1 then .claim else if bitsOf v 55 49 = 2 then .await else .sub
           let w : RingWait := { id, gid, teamNo := g.teamNo, ring := h, ptr, kind, span := spanOf v }
           let s := noteRing s h
           let s := pend { s with ringWaits := s.ringWaits ++ [w] }
           if ringState s h = 3 then resolveRing s h false else s
         | .error _ => s)
      else s
    | _ => s

/-- A group whose record lies in memory is as the record has it; the offset of the first field that fails (R94). -/
def readSaved (s : State) (g : Group) : Group × Option Nat :=
  match g.area with
  | none => (g, none)
  | some a => ({ groupOf s g a with area := none }, recordFault s g a)

/-- The traps that a restored group takes before it issues anything: ILLFLD for its record (R94), a loss that went
with it (R238), and what it holds (R342). -/
def restoreTraps (s : State) (gid : Nat) (bad : Option Nat) : State :=
  let s := match getGroup s gid, bad with
    | some g, some o => takeTrap s gid .illfld false g.pc (BitVec.ofNat 64 o)
    | _, _ => s
  let s := match getGroup s gid, lostStore s gid with
    | some g, some r => takeTrap (reportLoss s gid r.op) gid .acklost true g.pc r.ptr
    | _, _ => s
  deliverHeld s gid

/-- A group comes back on a core (R79): READY unless it waits. A fault that was served restarts; of another wait the
condition is tried at once, by issuing the blocked instruction again. The restore counts as FENCE.ar.dev (R225). -/
def restoreGroup (s : State) (gid cl core : Nat) : State :=
  match getGroup s gid with
  | none => s
  | some g =>
    let (g, bad) := readSaved s g
    let h := { g with cl, core, st := if g.wreason = .none then .ready else .waiting }
    let h := match g.wreason, g.fault with
      | .pflt, some (va, kind) => if g.served || faultServed s g.ctx va kind then restartRegion h else h
      | _, _ => h
    let s := fenceAt true true 4 (setGroup s h) h
    let s := restoreTraps ((upTo h.gages.length).foldl (reviveEntry gid) s) gid bad
    match getGroup s gid with
    | some k => if k.st = .waiting ∧ k.wreason ≠ .pflt then { s with resume := s.resume ++ [gid] } else s
    | none => s

end Sys2Proof.Machine
end

