-- ==== Sys2Proof/Machine/System.lean ====
section
/-! DEFINITION. System registers (R65, R87, R348): SRD and SWR; TRET, TMASK, SEGSET, SNAPT and the single
step (R348); ICINV (R315). -/

namespace Sys2Proof.Machine

/-! ### SRD -/

/-- ENGSTAT (R171). -/
def engstatVal (s : State) (g : Group) : Nat :=
  ((upTo 4).foldl (fun a z => a + b2n (!tileFree s g.cl (engineOf g) z) * 2 ^ z) 0) * 2 ^ 4 +
    b2n (engineNarrow s g.cl (engineOf g)) * 2 ^ 8

/-- HEADRM (R327). -/
def headrmVal (s : State) (g : Group) : Nat :=
  let b := getBent s (bentOf g.cl)
  b.hseq % 2 ^ 8 * 2 ^ 8 + b2n (b.h == 0) * 2 ^ 3 + b.h % 8

/-- SLICE (R330). -/
def sliceVal (s : State) (g : Group) : Nat :=
  match teamOf s g with
  | none => 0
  | some t =>
    let aff := match getSlice s g.ctx t.seq with | some x => x.aff.toNat | none => 0
    let late : Bool := t.overdue || decide (t.dl ≤ (getCluster s t.cl).cyc.toNat)
    t.seq % 2 ^ 32 * 2 ^ 32 + t.prio % 2 ^ 4 * 2 ^ 12 + b2n late * 2 ^ 11 + t.ecls % 8 * 2 ^ 8 + aff

/-- The value of a system register in a thread (R65). -/
def sregVal (s : State) (g : Group) (l : Nat) : SReg → Nat
  | .tid => if g.ident.spawned then l else g.ident.gidx * laneCount g + l
  | .lane => l
  | .gidx => g.ident.gidx
  | .team => g.ident.team.toNat
  | .nteam => g.ident.nteam.toNat
  | .ngrp => g.ident.ngrp
  | .rank => g.rank
  | .bent => bentOf g.cl
  | .core => g.core
  | .ghandle => (handleOf s g).toNat
  | .cyc => (getCluster s g.cl).cyc.toNat
  | .emask => g.emask.toNat
  | .amask => g.amask.toNat
  | .mode => g.mode.toNat
  | .flags => g.flags.toNat
  | .gangreg => gangregVal g.gang
  | .engstat => engstatVal s g
  | .headrm => headrmVal s g
  | .evpend => g.evpend.toNat
  | .evmaskr => g.evmask.toNat
  | .cstk => g.cstk.toNat
  | .cslim => g.cslim.toNat
  | .tcause => g.tcause.toNat
  | .tpc => g.tpc.toNat
  | .taddr => g.taddr.toNat
  | .trgn => g.trgn.toNat
  | .tvec => g.tvec.toNat
  | .seg n => ((g.segs[n]?).getD 0).toNat
  | .segl n => ((g.segls[n]?).getD 0).toNat
  | .wreason => 0
  | .wdog => g.wdog.toNat
  | .slice => sliceVal s g
  | .budget => match teamOf s g with | some t => (BitVec.ofInt 64 t.rem).toNat | none => 0
  | .deadln => match teamOf s g with | some t => t.dl | none => 0

def srdBody (c : Ctl) (f : SY) (s : State) (g : Group) : Out :=
  match SReg.ofNum f.sreg.toNat with
  | none => trapFree s g .illfld
  | some r => .done (setGroup s (pushLanes c (fun l => .val (quadOf (sregVal s g l r))) g))

/-- R348. -/
def execSrd (c : Ctl) (f : SY) (s : State) : Res := issue (.srd c f) c (srdBody c f) s

/-! ### SWR -/

/-- The group after a write of one of its own registers; reserved bits stay zero (R5). -/
def swrGroup (g : Group) (v : Word) : SReg → Group
  | .mode => { g with mode := modeWrite (v.setWidth 32) }
  | .flags => { g with flags := flagsWrite (v.setWidth 32) }
  | .cstk => { g with cstk := v }
  | .cslim => { g with cslim := v }
  | .tcause => { g with tcause := v.setWidth 32 &&& 0xFFFF }
  | .tpc => { g with tpc := v }
  | .taddr => { g with taddr := v }
  | .trgn => { g with trgn := v &&& 0x007FFFFFFFFFFFF9 }
  | .tvec => { g with tvec := v }
  | .wdog => { g with wdog := v.setWidth 32 }
  | _ => g

/-- The team after a privileged write of one of its registers (R329, R330). -/
def swrTeam (s : State) (t : Team) (v : Word) : SReg → Team
  | .slice => { t with prio := bitsOf v 15 12, ecls := bitsOf v 10 8 }
  | .budget => { t with rem := v.toInt, budgetDue := false }
  | .deadln => { t with dl := v.toNat, overdue := decide (v.toNat ≤ (getCluster s t.cl).cyc.toNat) }
  | _ => t

/-- The write, then the flag of a void operand: flags are ORed in after the instruction (R47). -/
def swrBody (f : SY) (s : State) (g : Group) : Out :=
  withArgs s g [0] [.src f.sa] fun vf =>
    let v : Word := (argVal g 0 (.src f.sa)).setWidth 64
    match SReg.ofNum f.sreg.toNat with
    | none => trapFree s g .illfld
    | some r => .done (modTeam (setGroup s (raiseFlags (swrGroup g v r) vf)) g.ctx g.teamNo fun t => swrTeam s t v r)

/-- R348. -/
def execSwr (c : Ctl) (f : SY) (s : State) : Res := issue (.swr c f) c (swrBody f) s

/-! ### TRET, TMASK, SEGSET, SNAPT (R348) -/

def tretBody (s : State) (g : Group) : Out :=
  let b := g.cstk - 0x29C0
  match stackLoc s g b 0x29C0 with
  | .error k => trapFree s g k
  | .ok l =>
    if stackSwaps s g b then .wait s .swap
    else if !objectReady s g.gid l 0x29C0 then .wait s .callsp
    else
      let h := returnGroup s g l
      let h := settleArms 2 { h with pc := g.tpc, st := .ready, wreason := .none, wdcnt := 0,
                                     step := stepAtReturn g b }
      .stay (haltOne (deliverHeld (setGroup s h) g.gid) g.gid)

/-- R348. -/
def execTret (c : Ctl) (f : SY) (s : State) : Res := issue (.tret c f) c tretBody s

/-- R348. -/
def execTmaskMask (c : Ctl) (f : SY) (s : State) : Res :=
  issue (.tmaskMask c f) c (fun s g => .done (setGroup s { g with tmk := true, hnd := true })) s

/-- R348: held traps are delivered after the instruction. -/
def execTmaskUnmask (c : Ctl) (f : SY) (s : State) : Res :=
  issue (.tmaskUnmask c f) c (fun s g =>
    .stay (haltOne (deliverHeld (finish (setGroup s { g with tmk := false }) g.gid (g.pc + 8)) g.gid) g.gid)) s

def segsetBody (f : SY) (s : State) (g : Group) : Out :=
  withArgs s g [0] [.src f.sa, .src f.sb] fun vf =>
    let n := bitsOf f.imm16 1 0
    let g := raiseFlags g vf
    .done (setGroup s { g with segs := g.segs.set n ((argVal g 0 (.src f.sa)).setWidth 64),
                               segls := g.segls.set n ((argVal g 0 (.src f.sb)).setWidth 32) })

/-- R348. -/
def execSegset (c : Ctl) (f : SY) (s : State) : Res := issue (.segset c f) c (segsetBody f) s

/-- R348, R411. -/
def execSnapt (c : Ctl) (f : SY) (s : State) : Res :=
  issue (.snapt c f) c (fun s _ => .done (fireSnap s f.imm16)) s

/-- R348: the trap after a single step. -/
def execStep (gid : Nat) (s : State) : Res :=
  match getGroup s gid with
  | none => .next s
  | some g => match g.step with
    | .due a => if g.st = .ready then .next (takeTrap s gid .step false g.pc a) else .next s
    | _ => .next s

/-! ### ICINV (R315) -/

/-- Physical locations of the mapped pages in a range of lines. -/
def icinvLocs (s : State) (ctx v n : Nat) : List Loc :=
  (upTo n).filterMap fun i => virtLoc s ctx (v / 128 * 128 + 128 * i)

/-- The lines of an ASID in the L1 caches of some clusters that `p` accepts are invalid. -/
def dropL1 (s : State) (asid : Nat) (cls : List Nat) (p : ICacheRec → Bool) : State :=
  { s with icache := s.icache.filter fun r => !(r.asid == asid && cls.contains r.cl && p r) }

/-- ICINV.all: the context's lines in its partition, and the shared lines that those cores filled. -/
def icinvAll (s : State) (asid : Nat) (cls : List Nat) : State :=
  dropL1 (dropIlines s fun x => x.cores.any fun k => cls.contains k.1) asid cls fun _ => true

/-- The context's lines of the range, and the shared lines of its mapped pages in all bents. -/
def icinvRange (s : State) (asid : Nat) (cls : List Nat) (ctx v n : Nat) : State :=
  let a := v / 128 * 128
  let ls := icinvLocs s ctx v n
  dropL1 (dropIlines s fun x => ls.contains x.loc) asid cls fun r => a ≤ r.va && r.va < a + 128 * n

def icinvBody (f : SY) (s : State) (g : Group) : Out :=
  let n := f.imm16.toNat
  withArgs s g [0] (if n = 0 then [] else [.src f.sa]) fun vf =>
    let v : Word := (argVal g 0 (.src f.sa)).setWidth 64
    if n ≠ 0 ∧ bitsOf v 63 55 ≠ 0 then .trap s .space g.pc v
    else if n ≠ 0 ∧ 2 ^ 48 < bitsOf v 54 7 + n then .trap s .bounds g.pc v
    else match coverRelease s g with
      | some o => o
      | none =>
        if !storesDone s g.gid then .wait s .fence
        else
          let at' : Nat × List Nat := match getCtx s g.ctx with | some c => (c.asid, c.ranks) | none => (0, [])
          let s := setGroup s (raiseFlags g vf)
          .done (if n = 0 then icinvAll s at'.1 at'.2 else icinvRange s at'.1 at'.2 g.ctx v.toNat n)

/-- R315. -/
def execIcinv (c : Ctl) (f : SY) (s : State) : Res := issue (.icinv c f) c (icinvBody f) s

end Sys2Proof.Machine
end

