-- ==== Sys2Proof/Machine/Sched.lean ====
section
/-! DEFINITION. The cluster schedulers (R321 to R330, R335): slots, windows, budgets, selection, placement,
deadlines, team budgets and YIELD. -/

namespace Sys2Proof.Machine

/-! ### What a rank has free (R326, R334) -/

/-- The context whose partition holds a physical cluster, with the cluster's rank. -/
def ownerOf (s : State) (cl : Nat) : Option (Context × Nat) :=
  s.ctxs.findSome? fun c => match c.ranks.idxOf? cl with
    | some r => some (c, r)
    | none => none

/-- The team of the group is yielded: it holds no slots. -/
def slotHeld (s : State) (g : Group) : Bool := match teamOf s g with | some t => !t.yielded | none => true

/-- Groups on a core of a rank. -/
def coreLoad (s : State) (ctx rank core : Nat) : Nat :=
  (s.groups.filter fun g => g.ctx == ctx && g.rank == rank && g.core == core && slotHeld s g).length

def rankLoad (s : State) (ctx rank : Nat) : Nat :=
  (s.groups.filter fun g => g.ctx == ctx && g.rank == rank && slotHeld s g).length

def rankTeams (s : State) (ctx rank : Nat) : List Team := s.teams.filter fun t => t.ctx == ctx && t.rank == rank
def windowBytes (s : State) (ctx rank : Nat) : Nat := ((rankTeams s ctx rank).map (·.wsize)).sum

/-- A window of a rank that no team holds. -/
def windowFree (s : State) (ctx rank wb n : Nat) : Bool :=
  wb + n ≤ 0x600000 && (rankTeams s ctx rank).all fun t => t.wb + t.wsize ≤ wb || wb + n ≤ t.wb || t.wsize == 0 || n == 0

/-- Spawned groups of a slice on a rank: those that have yielded hold no slot, but keep their window (R333, R335). -/
def spawnedOn (s : State) (x : Slice) (rank : Nat) (p : Team → Bool) : Nat :=
  ((rankTeams s x.ctx rank).filter fun t => t.seq == x.seq && t.spawned && p t).length

/-- Slots, and stack windows, that a slice still reserves on a rank, were it to hold a team there (R334). -/
def reserveLeft (s : State) (x : Slice) (rank : Nat) : Nat := x.rsv - spawnedOn s x rank fun t => !t.yielded
def stacksLeft (s : State) (x : Slice) (rank : Nat) : Nat := x.rsv - spawnedOn s x rank fun _ => true

/-- Slices of a context with a team on a rank. -/
def rankSlices (s : State) (ctx rank : Nat) : List Slice :=
  s.slices.filter fun x => x.ctx == ctx && (rankTeams s ctx rank).any fun t => t.seq == x.seq

/-- Slots and window bytes that the reserves of these slices keep free. -/
def reserveSlots (s : State) (xs : List Slice) (rank : Nat) : Nat := (xs.map fun x => reserveLeft s x rank).sum
def reserveBytes (s : State) (xs : List Slice) (rank : Nat) : Nat :=
  (xs.map fun x => stacksLeft s x rank * hdrStack x.hdr).sum

/-! ### The chain's budgets (R321) -/

/-- Teams of a region's subtree. -/
def regionTeams (s : State) (ctx node : Nat) : List Team :=
  s.teams.filter fun t => t.ctx == ctx && (match getSlice s ctx t.seq with
    | some x => x.chain.any fun n => n.1 == node
    | none => false)

/-- A team of `n` bytes on a cluster takes no node above its CLUST or SCRATCH. -/
def budgetsAllow (s : State) (x : Slice) (cl n : Nat) : Bool :=
  x.chain.all fun node =>
    let ts := regionTeams s x.ctx node.1
    distinct (cl :: ts.map (·.cl)) ≤ node.2.1 && (ts.map (·.wsize)).sum + n ≤ node.2.2.1

/-! ### Placements -/

/-- Groups of a placement set (R168). -/
def setSize (hdr : Word) : Nat :=
  let n := if bitsOf hdr 26 24 = 2 then 2 else if bitsOf hdr 26 24 = 3 then 4 else 1
  if hdrG16 hdr then 2 * n else n

/-- These cores hold the groups: slots are free, and each placement set has one core pair. -/
def coresFit (s : State) (ctx rank : Nat) (hdr : Word) (cores : List Nat) : Bool :=
  cores.length == hdrGroups hdr &&
  (cores.all fun k => k < 16 && coreLoad s ctx rank k + cores.count k ≤ 8) &&
  (upTo cores.length).all fun i =>
    (cores[i]?).getD 0 / 2 == (cores[i / setSize hdr * setSize hdr]?).getD 0 / 2

/-- Free slots of each core pair of a rank. -/
def pairsFree (s : State) (ctx rank : Nat) : List Nat :=
  (upTo 8).map fun p => 16 - coreLoad s ctx rank (2 * p) - coreLoad s ctx rank (2 * p + 1)

/-- Some cores can hold `n` groups in placement sets of a header. -/
def coresExist (s : State) (ctx rank : Nat) (hdr : Word) (n : Nat) : Bool :=
  let k := setSize hdr
  let free := pairsFree s ctx rank
  let cap := (free.map (· / k)).sum
  n / k < cap || (n / k == cap && free.any fun f => n % k ≤ f % k)

/-- Reserves allow a new team of the slice on the rank. -/
def reservesAllow (s : State) (x : Slice) (rank : Nat) : Bool :=
  let xs := x :: (rankSlices s x.ctx rank).filter fun y => y.seq != x.seq
  rankLoad s x.ctx rank + hdrGroups x.hdr + reserveSlots s xs rank ≤ 128 &&
  windowBytes s x.ctx rank + hdrScratch x.hdr + reserveBytes s xs rank ≤ 0x600000

/-- A new team of the slice fits the rank somewhere (R326). -/
def sliceFits (s : State) (x : Slice) (cl rank : Nat) : Bool :=
  coresExist s x.ctx rank x.hdr (hdrGroups x.hdr) && reservesAllow s x rank && budgetsAllow s x cl (hdrScratch x.hdr) &&
  (upTo 193).any fun i => windowFree s x.ctx rank (i * 32768) (hdrScratch x.hdr)

/-- A team number that no live team of the context has (R299). -/
def numberFree (s : State) (ctx no : Nat) : Bool :=
  no < 2 ^ 30 && s.teams.all fun t => !(t.ctx == ctx && t.no == no)

/-- The launch generation of a team number follows the one it had before (R299). -/
def genOk (s : State) (ctx no gen : Nat) : Bool :=
  gen < 2 ^ 16 && (match s.teamGens.find? fun x => x.1 == ctx && x.2.1 == no with
    | some x => gen == (x.2.2 + 1) % 2 ^ 16
    | none => true)

def noteGen (s : State) (ctx no gen : Nat) : State :=
  let rest := s.teamGens.filter fun x => !(x.1 == ctx && x.2.1 == no)
  { s with teamGens := (ctx, no, gen) :: rest }

/-- The placement places a new team of the slice (R168, R299, R310, R326). -/
def placementOk (s : State) (x : Slice) (cl rank : Nat) (p : Placement) : Bool :=
  coresFit s x.ctx rank x.hdr p.cores && reservesAllow s x rank && budgetsAllow s x cl (hdrScratch x.hdr) &&
  p.wb % 32768 == 0 && windowFree s x.ctx rank p.wb (hdrScratch x.hdr) &&
  (hdrScratch x.hdr != 0 || p.wb == 0) && numberFree s x.ctx p.teamNo && genOk s x.ctx p.teamNo p.gen

/-! ### Deadlines (R324, R325) -/

def cycOf (s : State) (cl : Nat) : Nat := (getCluster s cl).cyc.toNat

/-- The deadline of a delivery. -/
def deadlineOf (s : State) (x : Slice) (cl : Nat) : Nat :=
  if x.deadline = 0 then 2 ^ 64 - 1 else Nat.min (2 ^ 64 - 1) (cycOf s cl + x.deadline)

/-- A team's deadline on its cluster; a yielded team keeps the remainder. -/
def teamDl (s : State) (t : Team) : Nat := if t.yielded then Nat.min (2 ^ 64 - 1) (cycOf s t.cl + t.dl) else t.dl
def teamOverdue (s : State) (t : Team) : Bool := t.overdue || decide (teamDl s t ≤ cycOf s t.cl)
def candOverdue (s : State) (c : Cand) : Bool := c.overdue || decide (c.dl ≤ cycOf s c.cl)

/-- A saved team keeps DL - CYC (R325). -/
def saveDeadline (s : State) (t : Team) : Team :=
  { t with overdue := teamOverdue s t, dl := t.dl - cycOf s t.cl }
/-- A restored team's DL in the count of its cluster. -/
def restoreDeadline (s : State) (cl : Nat) (t : Team) : Team :=
  { t with cl, dl := Nat.min (2 ^ 64 - 1) (cycOf s cl + t.dl) }

/-- R324: the slice is marked OVERDUE on the cluster. -/
def execDeadlineExpire (cl ctx seq : Nat) (s : State) : Res :=
  .next { s with cands := s.cands.map fun c =>
    if c.cl = cl ∧ c.ctx = ctx ∧ c.seq = seq then { c with overdue := candOverdue s c } else c }

/-! ### Selection (R328) -/

/-- A candidate: a slice with unplaced teams or a yielded team, with what the selection compares. -/
structure Pick where
  dl : Nat
  seq : Nat
  /-- the number of a yielded team -/
  team : Option Nat
  eligible : Bool
deriving DecidableEq, Repr

def unplaced (x : Slice) : Bool := (x.st == .waiting || x.st == .launching) && x.nextTeam < x.teams

/-- The candidate list of a rank. -/
def candidates (s : State) (ctx rank cl : Nat) : List Pick :=
  let h := (getBent s (bentOf cl)).h
  ((s.teams.filter fun t => t.ctx == ctx && t.rank == rank && t.yielded).map fun t =>
    { dl := teamDl s t, seq := t.seq, team := some t.no, eligible := t.ecls ≤ h || teamOverdue s t }) ++
  s.cands.filterMap fun c =>
    if c.cl = cl ∧ c.ctx = ctx then
      (match getSlice s ctx c.seq with
       | some x => if unplaced x then
           some { dl := c.dl, seq := c.seq, team := none, eligible := x.ecls ≤ h || candOverdue s c } else none
       | none => none)
    else none

/-- The order of R328. -/
def Pick.before (a b : Pick) : Bool :=
  a.dl < b.dl || (a.dl == b.dl && (a.seq < b.seq || (a.seq == b.seq && a.team.isSome && b.team.isNone)))

def selectPick (l : List Pick) : Option Pick :=
  (l.filter (·.eligible)).foldl (fun b x => match b with
    | none => some x
    | some y => if x.before y then some x else some y) none

/-! ### Placing (R323, R329, R310) -/

/-- Place the next team of a slice. -/
def placeTeam (s : State) (c : Context) (x : Slice) (cl rank : Nat) (p : Placement) : State :=
  let dl := match s.cands.find? fun k => k.cl == cl && k.ctx == c.id && k.seq == x.seq with
    | some k => (k.dl, candOverdue s k)
    | none => (2 ^ 64 - 1, false)
  let t : Team :=
    { ctx := c.id, no := p.teamNo, gen := p.gen, seq := x.seq, index := x.nextTeam, cl, rank, wb := p.wb,
      wsize := hdrScratch x.hdr, hdr := x.hdr, rem := x.tbudget, dl := dl.1, overdue := dl.2, prio := x.prio,
      ecls := x.ecls, spawned := false, yielded := false, yielding := false, budgetDue := false }
  let gs := p.cores.mapIdx fun i core => teamGroup c x t (s.nextId + i) i core
  let s := noteGen s c.id t.no t.gen
  let s := { s with nextId := s.nextId + gs.length, teams := s.teams ++ [t], groups := s.groups ++ gs }
  modSlice s c.id x.seq fun x =>
    { x with nextTeam := x.nextTeam + 1, st := if x.nextTeam + 1 = x.teams then .launched else .launching }

/-- The engine on which a gang of the team comes to stand, from its members' new cores. -/
def gangEngine (gs : List (Nat × Nat)) (k : Gang) : Nat :=
  match gs.find? fun x => k.members.any fun m => m.gid == x.1 && !m.left with
  | some x => x.2 / 2
  | none => k.eng

/-- The groups that a team still has. -/
def teamGroups (s : State) (t : Team) : List Group := s.groups.filter fun g => g.ctx == t.ctx && g.teamNo == t.no

/-- Groups of a team, by number and place in the team, with the cores of a placement. -/
def teamCores (s : State) (t : Team) (p : Placement) : List (Nat × Nat) :=
  (teamGroups s t).map fun g => (g.gid, (p.cores[g.ident.gidx]?).getD 16)

/-- These cores take the groups a team still has (R168, R326). -/
def restoreCoresOk (s : State) (t : Team) (p : Placement) : Bool :=
  let gs := teamGroups s t
  let core (g : Group) : Nat := (p.cores[g.ident.gidx]?).getD 16
  (gs.all fun g => core g < 16 && coreLoad s t.ctx t.rank (core g) + (gs.filter fun h => core h == core g).length ≤ 8) &&
  gs.all fun g => gs.all fun h =>
    g.ident.gidx / setSize t.hdr != h.ident.gidx / setSize t.hdr || core g / 2 == core h / 2

/-- Slots for the groups that a team still has, beside the reserves. -/
def slotsFor (s : State) (t : Team) : Bool :=
  rankLoad s t.ctx t.rank + (teamGroups s t).length + reserveSlots s (rankSlices s t.ctx t.rank) t.rank ≤ 128

/-- Gangs of a team. -/
def teamGangs (s : State) (t : Team) : List Gang := s.gangs.filter fun k => k.ctx == t.ctx && k.teamNo == t.no

/-- The placement restores a yielded team: its groups find slots, its gangs their tiles. -/
def yieldFits (s : State) (t : Team) (p : Placement) : Bool :=
  restoreCoresOk s t p && slotsFor s t &&
  gangsFit s ((teamGangs s t).map fun k => (k, t.cl, gangEngine (teamCores s t p) k))

/-- A yielded team resumes on its rank at its window (R335). -/
def restoreYielded (s : State) (t : Team) (p : Placement) : State :=
  let gs := teamCores s t p
  let s := modTeam s t.ctx t.no fun t => { restoreDeadline s t.cl t with yielded := false }
  let s := (teamGangs s t).foldl (fun s k => restoreGang s k t.cl (gangEngine gs k)) s
  gs.foldl (fun s x => restoreGroup s x.1 t.cl x.2) s

/-- R328: the scheduler of a cluster places or restores what it selects. Under a soft request only yielded
teams come back, in any order (R351). -/
def execTeamPlace (cl : Nat) (p : Placement) (s : State) : Res :=
  match ownerOf s cl with
  | none => .next s
  | some (c, rank) =>
    if c.st = .draining then
      (match s.teams.find? fun t => t.ctx == c.id && t.rank == rank && t.yielded && t.no == p.teamNo with
       | some t => if yieldFits s t p then .next (restoreYielded s t p) else .next s
       | none => .next s)
    else if c.st ≠ .running then .next s
    else match selectPick (candidates s c.id rank cl) with
      | none => .next s
      | some k => match k.team with
        | some no => (match getTeam s c.id no with
          | some t => if yieldFits s t p then .next (restoreYielded s t p) else .next s
          | none => .next s)
        | none => match getSlice s c.id k.seq with
          | some x => if placementOk s x cl rank p then .next (placeTeam s c x cl rank p) else .next s
          | none => .next s

/-! ### Budgets (R329) -/

/-- Every group of a team whose budget has run out takes BUDGET. -/
def budgetTraps (s : State) (ctx team : Nat) : State :=
  match getTeam s ctx team with
  | none => s
  | some t =>
    if !t.budgetDue then s
    else
      let s := modTeam s ctx team fun t => { t with budgetDue := false }
      let gs := s.groups.filter fun g => g.ctx == ctx && g.teamNo == team
      gs.foldl (fun s g => asyncTrap s g.gid .budget (BitVec.ofNat 64 (t.index % 2 ^ 32))) s

/-- R329. -/
def execBudget (ctx team : Nat) (s : State) : Res := .next (budgetTraps s ctx team)

/-! ### YIELD (R335) -/

/-- A state in which the team holds nothing. -/
def withoutTeam (s : State) (t : Team) : State :=
  { s with teams := s.teams.filter fun x => !(x.ctx == t.ctx && x.no == t.no),
           groups := s.groups.filter (fun g => !(g.ctx == t.ctx && g.teamNo == t.no)),
           tiles := s.tiles.filter fun x => !((teamGangs s t).any fun k => x.owner == some k.key) }

/-- The placement sets of a team that has yielded: groups left, and the tiles of the gangs in the set (R168, R192). -/
def setsOf (s : State) (t : Team) : List (Nat × List Nat) :=
  let n := setSize t.hdr
  ((upTo (128 / n)).map fun i =>
    let gs := (teamGroups s t).filter fun g => g.ident.gidx / n == i
    (gs.length, ((teamGangs s t).filter fun k => k.members.any fun m => gs.any fun g => g.gid == m.gid).flatMap
      fun k => k.saved.map (·.1))).filter fun x => x.1 != 0

/-- The sets find core pairs: slots for their groups, and their tiles free on the pair's engine (R193, R326). `free` is
what each pair has, `used` the tiles that sets before these take. -/
def setsFit (s : State) (cl : Nat) : List (Nat × List Nat) → List Nat → List (Nat × Nat) → Bool
  | [], _, _ => true
  | x :: xs, free, used =>
    (upTo 8).any fun p =>
      x.1 ≤ (free[p]?).getD 0 && (x.2.all fun z => tileFree s cl p z && !used.contains (p, z)) && x.2.Nodup &&
      setsFit s cl xs (free.set p ((free[p]?).getD 0 - x.1)) (x.2.map (fun z => (p, z)) ++ used)

/-- A candidate fits its rank. -/
def pickFits (s : State) (ctx rank cl : Nat) (k : Pick) : Bool :=
  match k.team with
  | some no => (match getTeam s ctx no with
    | some t => setsFit s cl (setsOf s t) (pairsFree s ctx rank) [] && slotsFor s t
    | none => false)
  | none => match getSlice s ctx k.seq with
    | some x => sliceFits s x cl rank
    | none => false

/-- A candidate that precedes the team does not fit for want of what the team holds. -/
def yieldWanted (s : State) (t : Team) : Bool :=
  let me : Pick := { dl := t.dl, seq := t.seq, team := some t.no, eligible := true }
  (candidates s t.ctx t.rank t.cl).any fun k =>
    k.eligible && k.before me && !pickFits s t.ctx t.rank t.cl k && pickFits (withoutTeam s t) t.ctx t.rank t.cl k

/-- The team's full budget. -/
def teamBudget (s : State) (t : Team) : Int :=
  match getSlice s t.ctx t.seq with | some x => (x.tbudget : Int) | none => t.rem

def yieldBody (s : State) (g : Group) : Out :=
  match teamOf s g with
  | none => .done s
  | some t =>
    let s := modTeam s g.ctx g.teamNo fun t => { t with rem := teamBudget s t, budgetDue := false }
    if headerBit s g 6 ∧ yieldWanted s t then
      .done (modTeam s g.ctx g.teamNo fun t => { t with yielding := true })
    else .done s

/-- R335. -/
def execYield (c : Ctl) (f : CP) (s : State) : Res := issue (.yield c f) c (closing yieldBody) s

/-- A yielding team whose groups are all saved is yielded: its gangs' tiles are kept (R192, R335). -/
def settleYield (s : State) (t : Team) : State :=
  let gs := s.groups.filter fun g => g.ctx == t.ctx && g.teamNo == t.no
  let ks := teamGangs s t
  if t.yielding && (gs.all fun g => g.st == .saved) && ks.all gangQuiet && ctxRuns s t.ctx then
    let s := ks.foldl saveGang s
    modTeam s t.ctx t.no fun t => { saveDeadline s t with yielding := false, yielded := true }
  else s

end Sys2Proof.Machine
end

