-- ==== Sys2Proof/Machine/Spawn.lean ====
section
/-! DEFINITION. Spawn bins (R331 to R334): SPAWN, the bin timer, and the launch of a stage. -/

namespace Sys2Proof.Machine

/-! ### Bins (R332) -/

/-- Threads of a stage: 32, or 16 under G16. -/
def stageSize (g : Group) : Nat := laneCount g

def rankBins (s : State) (ctx rank : Nat) : List Bin := s.bins.filter fun b => b.ctx == ctx && b.rank == rank
def keyBin (s : State) (ctx rank : Nat) (key : Nat × Word) : Option Bin :=
  (rankBins s ctx rank).find? fun b => b.key == some key
def modBin (s : State) (id : Nat) (f : Bin → Bin) : State :=
  { s with bins := s.bins.map fun b => if b.id = id then f b else b }

/-- Move a fill stage to its empty launch stage; `n` is the order in which it filled. -/
def moveStage (n : Nat) (b : Bin) : Bin :=
  match b.key with
  | some k =>
    if b.fill.isEmpty then b
    else { b with lkey := k, launch := b.fill, filled := if b.due = 0 then n else b.due, fill := [], timer := 0, due := 0 }
  | none => b

/-- The bin that a flush takes: the least recently used one whose launch stage is empty, and whose key is
not wanted. -/
def flushable (s : State) (ctx rank : Nat) (keep : List (Nat × Word)) : Option Bin :=
  ((rankBins s ctx rank).filter fun b =>
    (match b.key with | some k => !keep.contains k | none => false) && b.launch.isEmpty).foldl (fun o b => match o with
    | none => some b
    | some x => if b.used < x.used then some b else some x) none

/-- Flush a bin: its fill stage launches as a partial group, and its key is free. -/
def flushBin (s : State) (id : Nat) : State :=
  modBin { s with nextId := s.nextId + 1 } id fun b => { moveStage s.nextId b with key := none }

/-- A bin whose key is free takes a key. -/
def keyFree (s : State) (ctx rank : Nat) (key : Nat × Word) : Option State :=
  match (rankBins s ctx rank).find? fun b => b.key.isNone with
  | some b => some (modBin s b.id fun b => { b with key := some key, fill := [], timer := 0, due := 0 })
  | none =>
    if (rankBins s ctx rank).length < 16 then
      some { s with nextId := s.nextId + 1, bins := s.bins ++ [{
        id := s.nextId, ctx, rank, key := some key, fill := [], lkey := (0, 0), launch := [], timer := 0, used := 0,
        due := 0, filled := 0 }] }
    else none

/-- Make sure that a bin has the key: an existing one, a free one, or one that a flush frees. -/
def makeBin (s : State) (ctx rank : Nat) (keep : List (Nat × Word)) (key : Nat × Word) : Option State :=
  match keyBin s ctx rank key with
  | some _ => some s
  | none => match keyFree s ctx rank key with
    | some s => some s
    | none => match flushable s ctx rank keep with
      | some b => keyFree (flushBin s b.id) ctx rank key
      | none => none

def makeBins (s : State) (ctx rank : Nat) (keep : List (Nat × Word)) : List (Nat × Word) → Option State
  | [] => some s
  | k :: ks => match makeBin s ctx rank keep k with
    | some s => makeBins s ctx rank keep ks
    | none => none

/-- The bin has room for `n` threads: in its fill stage, or its launch stage is empty. -/
def binRoom (size n : Nat) (b : Bin) : Bool := b.launch.isEmpty || b.fill.length + n ≤ size

/-- Append a thread to the bin of a key. -/
def appendThread (s : State) (ctx rank size : Nat) (key : Nat × Word) (v : List Quad) : State :=
  match keyBin s ctx rank key with
  | none => s
  | some b =>
    let s := { s with nextId := s.nextId + 1 }
    let b := { b with fill := b.fill ++ [v], used := s.nextId }
    let b := if b.fill.length < size then b else if b.launch.isEmpty then moveStage s.nextId b
      else { b with due := if b.due = 0 then s.nextId else b.due }
    modBin s b.id fun _ => b

/-! ### SPAWN (R331, R332) -/

/-- Spawn entries of the participating lanes. -/
def spawnEntry (f : CP) (g : Group) (l : Nat) : Word := (argVal g l (.src f.sa)).setWidth 64

/-- The first lane whose entry address fails (R111). -/
def spawnTrap (f : CP) (g : Group) : List Nat → Option (Cause × Word)
  | [] => none
  | l :: ls => match targetFails (spawnEntry f g l) with
    | some k => some (k, spawnEntry f g l)
    | none => spawnTrap f g ls

/-- The argument entries of SPAWN: ages k to k + n - 1. -/
def spawnArgs (f : CP) : List Arg :=
  (upTo (f.sub.toNat / 2)).map fun i => .src (.a (BitVec.ofNat 4 (bitsOf f.imm26 3 0 + i)))

def spawnBody (c : Ctl) (f : CP) (s : State) (g : Group) : Out :=
  let ls := participants g c
  withArgs s g ls (.src f.sa :: spawnArgs f) fun vf =>
    match spawnTrap f g ls with
    | some e => .trap s e.1 g.pc e.2
    | none =>
      if ls.isEmpty then .done s
      else
        let seq := match teamOf s g with | some t => t.seq | none => 0
        let key (l : Nat) : Nat × Word := (seq, spawnEntry f g l)
        let keys := (ls.map key).eraseDups
        match makeBins s g.ctx g.rank keys keys with
        | none => .wait s .spawnf
        | some s' =>
          let size := stageSize g
          let room : Bool := keys.all fun k => match keyBin s' g.ctx g.rank k with
            | some b => binRoom size (ls.filter fun l => key l == k).length b
            | none => false
          if !room then .wait s .spawnf
          else match releaseOut s g 4 with
            | some o => o
            | none =>
              let s := ls.foldl (fun s l =>
                appendThread s g.ctx g.rank size (key l) ((spawnArgs f).map (argVal g l))) s'
              .done (setGroup s (raiseFlags g vf))

/-- R332. -/
def execSpawn (c : Ctl) (f : CP) (s : State) : Res := issue (.spawn c f) c (closing (spawnBody c f)) s

/-! ### The timer (R332) -/

/-- The cycles that a bin's slice lets its timer count. -/
def binSpt (s : State) (b : Bin) : Nat :=
  match b.key with
  | some k => (match getSlice s b.ctx k.1 with | some x => if x.spt = 0 then 2048 else x.spt | none => 2048)
  | none => 0

/-- R332: the time has run out. -/
def execSpawnBinTimer (bin : Nat) (s : State) : Res :=
  match s.bins.find? fun b => b.id == bin with
  | none => .next s
  | some b =>
    if b.fill.isEmpty || b.timer < binSpt s b then .next s
    else
      let s := { s with nextId := s.nextId + 1 }
      .next (modBin s bin fun b =>
        if b.launch.isEmpty then moveStage s.nextId b else { b with due := if b.due = 0 then s.nextId else b.due })

/-! ### The launch (R333, R334) -/

/-- A slot and a window are free for a bin launch of the slice on a rank: the slice's own reserve first. -/
def launchRoom (s : State) (x : Slice) (rank : Nat) : Bool :=
  let others := (rankSlices s x.ctx rank).filter fun y => y.seq != x.seq
  rankLoad s x.ctx rank + reserveSlots s others rank < 128 &&
  windowBytes s x.ctx rank + hdrStack x.hdr + reserveBytes s others rank ≤ 0x600000

/-- A stage that filled earlier on the rank can launch, or belongs to the same slice. -/
def olderStage (s : State) (b : Bin) : Bool :=
  (rankBins s b.ctx b.rank).any fun o => !o.launch.isEmpty && o.filled < b.filled &&
    (o.lkey.1 == b.lkey.1 || (match getSlice s b.ctx o.lkey.1 with | some y => launchRoom s y b.rank | none => false))

/-- The team and the group of a launch stage (R87, R333). -/
def spawnTeam (s : State) (c : Context) (x : Slice) (b : Bin) (cl : Nat) (p : Placement) : Team :=
  let dl := match s.cands.find? fun k => k.cl == cl && k.ctx == c.id && k.seq == x.seq with
    | some k => (k.dl, candOverdue s k)
    | none => (deadlineOf s x cl, false)
  { ctx := c.id, no := p.teamNo, gen := p.gen, seq := x.seq, index := 2 ^ 32 - 1, cl, rank := b.rank, wb := p.wb,
    wsize := hdrStack x.hdr, hdr := x.hdr, rem := x.tbudget, dl := dl.1, overdue := dl.2, prio := x.prio,
    ecls := x.ecls, spawned := true, yielded := false, yielding := false, budgetDue := false }

def spawnGroup (c : Context) (x : Slice) (b : Bin) (t : Team) (gid core : Nat) : Group :=
  let n := b.launch.length
  let top := t.wb + hdrStack x.hdr
  newGroup gid c.id t.no
    { gidx := 0, team := 0xFFFFFFFF, nteam := BitVec.ofNat 32 x.teams, ngrp := 1, spawned := true, g16 := hdrG16 x.hdr }
    t.cl core t.rank b.lkey.2 (firstLanes n) (fun l => (b.launch[l]?).getD [])
    [quadOf x.args.toNat, 0xFFFFFFFF, 0] (ownScratch t.wb) (ownScratch top) c.wdog c.tvec

/-- R333: a launch stage launches as one group; the fill stage that waited follows. -/
def execSpawnBinLaunch (bin : Nat) (p : Placement) (s : State) : Res :=
  match s.bins.find? fun b => b.id == bin with
  | none => .next s
  | some b =>
    match getCtx s b.ctx, getSlice s b.ctx b.lkey.1 with
    | some c, some x =>
      let core := (p.cores[0]?).getD 16
      if b.launch.isEmpty || !ctxRuns s b.ctx || !launchRoom s x b.rank || olderStage s b || 16 ≤ core ||
          8 ≤ coreLoad s b.ctx b.rank core || !windowFree s b.ctx b.rank p.wb (hdrStack x.hdr) ||
          p.wb % 256 != 0 || !numberFree s b.ctx p.teamNo || !genOk s b.ctx p.teamNo p.gen then .next s
      else
        let t := spawnTeam s c x b ((c.ranks[b.rank]?).getD 0) p
        let g := spawnGroup c x b t s.nextId core
        let s := noteGen s b.ctx t.no t.gen
        let s := { s with nextId := s.nextId + 1, teams := s.teams ++ [t], groups := s.groups ++ [g] }
        .next (modBin s bin fun b =>
          let b := { b with launch := [] }
          if b.due ≠ 0 then moveStage b.due b else b)
    | _, _ => .next s

end Sys2Proof.Machine
end

