-- ==== Sys2Proof/Machine/Wake.lean ====
section
/-! DEFINITION. The steps that end a group's wait (R79, R80, R123, R126) and the watchdog (R357, R358). -/

namespace Sys2Proof.Machine

/-- R79: the group issues its blocked instruction again; where it still cannot proceed it waits on. -/
def execGroupWake (gid : Nat) (s : State) : Res :=
  match getGroup s gid with
  | none => .next s
  | some g =>
    if g.st = .waiting ∧ g.wreason ≠ .pflt ∧ g.wreason ≠ .nap ∧ !g.drain ∧ mayIssue s g then
      .next { s with resume := [gid] }
    else .next s

/-- R80: the exit drain goes on. -/
def execExitRetire (gid : Nat) (s : State) : Res :=
  match getGroup s gid with
  | none => .next s
  | some g => if g.st = .waiting ∧ g.drain then .next (applyOut gid g.pc (exitDrain s g)) else .next s

/-- R123, R376. -/
def execRegionRestart (gid : Nat) (s : State) : Res :=
  match getGroup s gid with
  | none => .next s
  | some g => if g.st = .waiting ∧ g.wreason = .pflt ∧ g.served then .next (setGroup s (restartRegion g)) else .next s

/-- R126. -/
def execNapExpiry (gid : Nat) (s : State) : Res :=
  match getGroup s gid with
  | none => .next s
  | some g =>
    if g.st = .waiting ∧ g.wreason = .nap ∧ g.wdcnt = 0 then .next (finish s gid (g.pc + 8)) else .next s

/-! ### The watchdog (R357, R358) -/

/-- Reasons in which WDCNT counts. -/
def WReason.counts : WReason → Bool
  | .none | .callsp | .pflt | .nap | .swap => false
  | _ => true

/-- SAVED, or suspended by a fault. -/
def absent (g : Group) : Bool := g.st == .saved || g.wreason == .pflt

/-- A group of a team that is absent. -/
def teamAbsent (s : State) (ctx no : Nat) : Bool := s.groups.any fun g => g.ctx == ctx && g.teamNo == no && absent g

/-- A scratch location. -/
def inScratch : Loc → Bool
  | .scr .. => true
  | _ => false

/-- The other holder of the ring that the group waits on is absent, or its subscription is paused. -/
def ringFrozen (s : State) (g : Group) : Bool :=
  match s.ringWaits.find? fun w => w.id == g.awaits with
  | none => false
  | some w =>
    let v := if w.kind = .claim then ringChold s w.ring else ringPhold s w.ring
    if v / 2 ^ 30 % 4 = 1 then teamAbsent s g.ctx (v % 2 ^ 30)
    else if 2 ≤ v / 2 ^ 30 % 4 then !ctxRuns s g.ctx else false

/-- The link of a wait trains, or its route is held (R398, R399): a package's route, or 32 for the Sill links. -/
def linkTrains (s : State) (d : Nat) : Bool :=
  let trains (st : PortState) : Bool := st == .training || st == .retraining
  if d = 32 then (upTo 2).any fun n => trains (sillAt s n)
  else s.held.contains d || (upTo 16).any fun n => ((s.routes[d]?).getD 0).getLsbD n && trains (portAt s n)

/-- A load, a store or an atomic of the group to a scratchpad is outstanding. -/
def scratchLoads (s : State) (gid : Nat) : Bool :=
  s.loads.any fun r => r.gid == gid && (match r.work with | .read _ _ l _ _ => inScratch l | _ => false)
def scratchStores (s : State) (gid : Nat) : Bool := s.stores.any fun r => r.gid == gid && inScratch r.loc
def scratchAtoms (s : State) (gid : Nat) : Bool := s.atoms.any fun a => a.gid == gid && inScratch a.loc

/-- A tile operation of the group on a scratchpad is outstanding (R181). -/
def scratchTiles (s : State) (gid : Nat) : Bool :=
  s.gangs.any fun k => k.tileOps.any fun t => t.gid == gid && (match t.kind with
    | .mmld base _ _ _ _ => inScratch base
    | .mmst base _ _ _ _ _ _ => inScratch base
    | _ => false)

/-- Members of its gang that a group waiting with GANG awaits (R173, R178, R179): in an MMA those that are five
operations behind it; in GANG #0 those that lack a part of an operation that it has delivered; before the gang is
complete, the groups that are still to join; and of the team's earlier gang, those that are still to leave. -/
def gangAwaits (s : State) (g : Group) : List Nat :=
  match gangOf s g.gid with
  | some k =>
    let me := match memberOf k g.gid with | some m => m.memb | none => 0
    let here := k.members.filter fun m => !m.left
    let mine := k.ops.filter fun o => gangPartial k o && o.parts.any fun p => p.memb == me
    let lag := here.filter fun m =>
      if g.awaits = 0 then mine.any fun o => !(o.parts.any fun p => p.memb == m.memb) else m.delivered + 4 < g.awaits
    let join := if here.length < k.size ∧ !k.granted then
        s.groups.filter fun h => h.ctx == g.ctx && h.teamNo == g.teamNo && h.ident.gidx / k.size == k.gid &&
          !(here.any fun m => m.gid == h.gid)
      else []
    (if k.granted then lag.map (·.gid) else []) ++ join.map (·.gid)
  | none =>
    (s.gangs.filter fun k => k.ctx == g.ctx && k.teamNo == g.teamNo && k.gid == g.ident.gidx / k.size).flatMap fun k =>
      (k.members.filter fun m => !m.left).map (·.gid)

/-- A wait with CNT awaits, in a class whose counter is over its limit, a scratchpad's location or a queue's copy. -/
def countsFrozen (s : State) (g : Group) : Bool :=
  let above (i n : Nat) : Bool := g.awaits / 16 ^ i % 16 < n
  (above 0 (cldOf s g.gid) && (scratchLoads s g.gid || scratchAtoms s g.gid)) ||
  (above 1 (cstOf s g.gid) && (scratchStores s g.gid || scratchAtoms s g.gid)) ||
  (above 2 (ccpOf s g.gid) && s.copies.any fun c => c.gid == g.gid && c.counts) ||
  (above 3 (ctlOf s g.gid) && scratchTiles s g.gid)

/-- The count of the group's wait is frozen (R357). -/
def wdogFrozen (s : State) (g : Group) : Bool :=
  let saving : Bool := match getCtx s g.ctx with | some c => c.st == .saving | none => false
  match g.wreason with
  | .age =>
    saving && (s.loads.any (fun r => r.id == g.awaits && (match r.work with | .read _ _ l _ _ => inScratch l | _ => false)) ||
      s.atoms.any (fun a => inScratch a.loc && (a.id == g.awaits || a.lanes.any fun x => x.pend == some g.awaits)) ||
      s.stores.any (fun r => r.id == g.awaits && inScratch r.loc) ||
      s.copies.any fun c => match c.token with | some t => t.2 == g.awaits | none => false)
  | .cnt => saving && countsFrozen s g
  | .fence =>
    saving && (scratchLoads s g.gid || scratchStores s g.gid || scratchAtoms s g.gid ||
      s.stores.any fun r => inScratch r.loc && g.sawFwd.any fun x => x.2 == r.id)
  | .cpyq | .spawnf => saving
  | .bar | .event => s.groups.any fun h => h.ctx == g.ctx && absent h
  | .rspace | .rdata => ringFrozen s g
  | .gang => (gangAwaits s g).any fun i => i != g.gid && (match getGroup s i with
    | some h => absent h
    | none => false)
  | .mailf => (match s.msgs.find? fun m => m.id == g.awaits with
    | some m => (match groupOfHandle s m.ctx m.target with | some t => absent t | none => false)
    | none => false)
  | .peer => linkTrains s g.awaits
  | _ => false

/-- One cycle of a group's wait: the watchdog count, or the cycles of a nap that remain (R126, R357). -/
def waitCycle (s : State) (g : Group) : Group :=
  if g.st ≠ .waiting then g
  else if g.wreason = .nap then { g with wdcnt := g.wdcnt - 1 }
  else if g.wreason.counts && !wdogFrozen s g then { g with wdcnt := g.wdcnt + 1 } else g

/-- R358: the wait is abandoned. -/
def execWdog (gid : Nat) (s : State) : Res :=
  match getGroup s gid with
  | none => .next s
  | some g =>
    if g.st = .waiting ∧ g.wreason.counts ∧ g.wdog ≠ 0xFFFFFFFF ∧ 0 < g.wdcnt ∧ g.wdog.toNat ≤ g.wdcnt then
      .next (asyncTrap (perfCount s g.cl 0x0A 1) gid .wdog (BitVec.ofNat 64 g.wreason.code))
    else .next s

end Sys2Proof.Machine
end

