-- ==== Sys2Proof/Machine/Context.lean ====
section
/-! DEFINITION. Contexts and partitions (R336, R337, R349 to R355): pre-emption, the drained and the halted
context, the forced reset, and the grant of a partition. -/

namespace Sys2Proof.Machine

/-! ### What goes with a partition or a context -/

/-- A location in a context's scratchpads. -/
def scratchOfCtx (ctx : Nat) : Loc → Bool
  | .scr c _ _ => c == ctx
  | _ => false

/-- The scratchpads of a context are gone, with the accesses to them and the rings and waits in them. -/
def dropScratch (s : State) (ctx : Nat) : State :=
  { s with
    scratch := s.scratch.filter (fun x => x.ctx ≠ ctx), rings := s.rings.filter (fun l => !scratchOfCtx ctx l),
    poison := s.poison.filter (fun p => !scratchOfCtx ctx p.1),
    stores := s.stores.filter (fun r => !scratchOfCtx ctx r.loc), atoms := s.atoms.filter (fun a => !scratchOfCtx ctx a.loc),
    subs := s.subs.filter (fun x => x.ctx ≠ ctx), cqueues := s.cqueues.filter (fun q => q.ctx ≠ ctx),
    ringWaits := s.ringWaits.filter (fun w => !scratchOfCtx ctx w.ring),
    bparents := s.bparents.filter (fun r => !scratchOfCtx ctx r.1),
    bteams := s.bteams.filter (fun r => !scratchOfCtx ctx r.1), upward := s.upward.filter (fun b => !scratchOfCtx ctx b),
    raised := s.raised.filter (fun r => !scratchOfCtx ctx r.child),
    releases := s.releases.filter (fun r => !scratchOfCtx ctx r.1) }

/-- Clusters that belong to no partition load every pending patch (R318). -/
def loadPatches (s : State) (cls : List Nat) : State :=
  cls.foldl (fun s cl => modCluster s cl fun c => { c with patch := s.fw.patches.length }) s

/-- The partition is free. -/
def freePartition (s : State) (ctx : Nat) : State :=
  match getCtx s ctx with
  | none => s
  | some c =>
    let s := loadPatches { s with cands := s.cands.filter fun k => k.ctx ≠ ctx } c.ranks
    modCtx { s with nextId := s.nextId + 1 } ctx fun c => { c with ranks := [], ts := none, th := none, req := s.nextId }

/-- The context is ABSENT: its queues, objects, slices, copies and cached translations go with it, and a later context
with its number is another one to the tiles (R177, R247). -/
def dropContext (s : State) (ctx : Nat) : State :=
  match getCtx s ctx with
  | none => s
  | some c =>
    let s := cancelCopies (dropScratch (freePartition s ctx) ctx) ctx
    { s with
      ctxs := s.ctxs.filter (fun x => x.id ≠ ctx), queues := s.queues.filter (fun q => q.ctx ≠ ctx),
      objs := s.objs.filter (fun o => o.ctx ≠ ctx), slices := s.slices.filter (fun x => x.ctx ≠ ctx),
      cands := s.cands.filter (fun k => k.ctx ≠ ctx), bins := s.bins.filter (fun b => b.ctx ≠ ctx),
      teamGens := s.teamGens.filter (fun x => x.1 ≠ ctx), bteams := s.bteams.filter (fun x => x.2.1 ≠ ctx),
      tiles := s.tiles.map (fun t => if t.lastCtx = some ctx then { t with lastCtx := none } else t),
      tlb := s.tlb.filter (fun t => t.asid ≠ c.asid), icache := s.icache.filter (fun r => r.asid ≠ c.asid) }

/-- The admin packets that waited for the context to go complete: its CTXDELs, and the QDELs of its queues (R390,
R392). -/
def answerDels (kind : Nat) (s : State) (d : Nat × Nat × Nat × Bool) : State :=
  complete s d.1 d.2.1 0 kind false d.2.2.1 0 d.2.2.2

/-- The context goes, and what waited for that completes. -/
def removeContext (s : State) (ctx : Nat) : State :=
  let dels := match getCtx s ctx with | some c => c.dels | none => []
  let qdels := (s.queues.filter fun q => q.ctx == ctx).flatMap (·.dels)
  dels.foldl (answerDels 0x02) (qdels.foldl (answerDels 0x04) (dropContext s ctx))

/-! ### The forced reset (R354) -/

/-- Break every ring in the context's scratch and every barrier that holds a combiner slot for it. -/
def breakContext (s : State) (ctx : Nat) : State :=
  let s := (s.rings.filter (scratchOfCtx ctx)).foldl (fun s h => breakRing s h 0) s
  let bs := (s.combiners.filter fun c => c.ctx == ctx).map (·.bar)
  let s := bs.foldl (fun s b => breakBar s ctx b 0) s
  { s with combiners := s.combiners.filter fun c => c.ctx ≠ ctx }

/-- R354. -/
def forcedReset (s : State) (ctx : Nat) (destroy : Bool) : State :=
  let s := journal s 4 0 ctx 0 0 0 []
  let s := modCtx s ctx fun c => { c with st := .resetting, destroy := c.destroy || destroy, ts := none, th := none }
  let s := breakContext s ctx
  let xs := s.slices.filter fun x => x.ctx == ctx
  let s := cancelCopies (xs.foldl (fun s x => killSlice s ctx x.seq) s) ctx
  { s with bins := s.bins.filter (fun b => b.ctx ≠ ctx), msgs := s.msgs.filter fun m => m.ctx ≠ ctx }

/-- Destroy (R337). -/
def destroyContext (s : State) (ctx : Nat) : State :=
  match getCtx s ctx with
  | none => s
  | some c => match c.st with
    | .idle | .saved =>
      let s := breakContext s ctx
      let ts := s.teams.filter fun t => t.ctx == ctx
      removeContext (ts.foldl (fun s t => killTeam s ctx t.no) s) ctx
    | .resetting => s
    | _ => forcedReset s ctx true

/-- R337, R354. -/
def execResetDone (ctx : Nat) (s : State) : Res :=
  match getCtx s ctx with
  | none => .next s
  | some c =>
    if c.st ≠ .resetting then .next s
    else if c.destroy then .next (removeContext s ctx)
    else .next (modCtx (dropScratch (freePartition s ctx) ctx) ctx fun c => { c with st := .idle })

/-! ### Pre-emption (R349 to R352) -/

/-- TH = 0 selects 8,192 cycles (R349). -/
def hardTime (th : Nat) : Nat := if th = 0 then 8192 else th

/-- The hard sequence starts. -/
def startHard (s : State) (ctx th : Nat) : State :=
  match getCtx s ctx with
  | none => s
  | some c =>
    let s := c.ranks.foldl (fun s cl => perfCount s cl 9 1) s
    haltGroups (modCtx s ctx fun c => { c with st := .saving, ts := none, th := some (hardTime th) })

/-- A request reaches a context (R337, R349, R350). -/
def preempt (s : State) (ctx : Nat) (hard : Bool) (ts th : Nat) : State :=
  match getCtx s ctx with
  | none => s
  | some c =>
    let hard := hard || ts == 0
    match c.st with
    | .running =>
      if hard then startHard s ctx th
      else modCtx s ctx fun c => { c with st := .draining, ts := some ts, thSet := th }
    | .draining => if hard then startHard s ctx th else s
    | _ => s

/-- R351. -/
def execSoftTimeout (ctx : Nat) (s : State) : Res :=
  match getCtx s ctx with
  | none => .next s
  | some c => if c.st = .draining ∧ c.ts = some 0 then .next (startHard s ctx c.thSet) else .next s

/-- R352, R354. -/
def execHardTimeout (ctx : Nat) (s : State) : Res :=
  match getCtx s ctx with
  | none => .next s
  | some c => if c.st = .saving ∧ c.th = some 0 then .next (forcedReset s ctx false) else .next s

/-- A copy can still move, or waits behind one that can (R249). -/
def copyPending (s : State) (c : CopyRec) : Bool :=
  !(s.copies.any fun x => x.ctx == c.ctx && x.rank == c.rank && x.q == c.q && x.st == .faulted)

/-- Drained (R337): no group or yielded team, empty bins; the copy queues have drained (R249). -/
def drained (s : State) (ctx : Nat) : Bool :=
  (s.groups.all fun g => g.ctx != ctx) && (s.teams.all fun t => t.ctx != ctx) &&
  (s.bins.all fun b => b.ctx != ctx || (b.fill.isEmpty && b.launch.isEmpty)) &&
  s.copies.all fun c => c.ctx != ctx || !copyPending s c

/-- R337, R351. -/
def execContextDrained (ctx : Nat) (s : State) : Res :=
  match getCtx s ctx with
  | none => .next s
  | some c =>
    if c.st = .draining ∧ drained s ctx then
      let s := cancelCopies (dropScratch (freePartition s ctx) ctx) ctx
      .next (modCtx { s with bins := s.bins.filter fun b => b.ctx ≠ ctx } ctx fun c => { c with st := .idle })
    else .next s

/-- Every group has halted, and its gangs with it (R192, R352). -/
def halted (s : State) (ctx : Nat) : Bool :=
  (s.groups.all fun g => g.ctx != ctx || g.st == .saved) && s.gangs.all fun k => k.ctx != ctx || gangQuiet k

/-- A team as the save leaves it (R325). -/
def saveTeam (s : State) (ctx : Nat) (t : Team) : Team :=
  if t.ctx = ctx ∧ !t.yielded then { saveDeadline s t with yielding := false } else t

/-- R352: state has reached shadow storage. -/
def execContextHalted (ctx : Nat) (s : State) : Res :=
  match getCtx s ctx with
  | none => .next s
  | some c =>
    let s := haltGroups s
    if c.st = .saving ∧ halted s ctx then
      let ks := s.gangs.filter fun k => k.ctx == ctx && !k.away
      let s := ks.foldl saveGang { s with teams := s.teams.map (saveTeam s ctx) }
      let s := freePartition s ctx
      .next (modCtx s ctx fun x =>
        { x with st := .saved, savedRanks := c.ranks.length, shadow := c.ranks.mapIdx fun r cl => (r, cl) })
    else .next s

/-! ### The grant (R336, R355) -/

/-- Clusters that a request asks for. -/
def requestSize (c : Context) : Nat := if c.st = .saved then c.savedRanks else c.ncl

def clusterOnline (s : State) (cl : Nat) : Bool := cl < 192 && (getBent s (bentOf cl)).online
def onlineClusters (s : State) : Nat := ((upTo 192).filter (clusterOnline s)).length

/-- The context asks for a partition. -/
def requesting (c : Context) : Bool := c.st == .idle || c.st == .saved

/-- A request that stands before this one: a higher PRIO, or an equal one and an earlier arrival. -/
def aheadOf (a b : Context) : Bool := b.prio < a.prio || (a.prio == b.prio && a.req < b.req)

/-- No request that the package could ever meet stands before this one (R336). -/
def grantTurn (s : State) (c : Context) : Bool :=
  s.ctxs.all fun a => !(requesting a && a.id != c.id && aheadOf a c) || onlineClusters s < requestSize a

/-- The clusters are free and online, and as many as asked for. -/
def clustersFit (s : State) (c : Context) (cls : List Nat) : Bool :=
  cls.length == requestSize c && cls.eraseDups.length == cls.length &&
  (cls.all fun cl => clusterOnline s cl && s.ctxs.all fun x => !x.ranks.contains cl) && requestSize c ≤ onlineClusters s

/-! ### Shadow storage and the save area (R355) -/

/-- Bytes of a rank's scratchpad, behind which its groups' records lie in the save area (log 52). -/
def rankBytes : Nat := 0x600000

/-- A rank's scratchpad in device memory: its cells at the area, and nothing else there. -/
def storeScratch (dev : List Host.Cell) (base : Nat) (m : List Host.Cell) : List Host.Cell :=
  m.foldl (fun d c => cellSet d (base + c.1) c.2) (dev.filter fun c => !(base ≤ c.1 && c.1 < base + rankBytes))

/-- The scratchpad that the area holds. -/
def loadScratch (dev : List Host.Cell) (base : Nat) : List Host.Cell :=
  (dev.filter fun c => base ≤ c.1 && c.1 < base + rankBytes).map fun c => (c.1 - base, c.2)

/-- Bytes of a tile. -/
def tileBytes : Nat := 0x10000

/-- A saved tile's words as bytes, and the words that bytes hold. -/
def tileImage (x : Nat × Nat × List (Nat × BitVec 32)) : List Byte :=
  let t : Tile := { cl := 0, eng := 0, z := x.1, owner := none, lastCtx := none, words := x.2.2, lost := x.2.1 }
  (upTo (tileBytes / 4)).flatMap fun k => bytesOf 4 (tileWordAt t k).toNat
def tileRead (s : State) (a : Loc) : List (Nat × BitVec 32) :=
  (upTo (tileBytes / 4)).filterMap fun k =>
    let v := readNat s (a.plus (4 * k)) 4
    if v = 0 then none else some (k, BitVec.ofNat 32 v)

/-- A saved gang's tiles go to a place in memory, and come back from it. -/
def evictGang (s : State) (key : Nat) (a : Loc) : State :=
  match s.gangs.find? fun k => k.key == key with
  | none => s
  | some k =>
    let s := k.saved.zipIdx.foldl (fun s x => deviceWrite s (a.plus (tileBytes * x.2)) (tileImage x.1)) s
    modGang s key fun k => { k with area := some a, saved := k.saved.map fun x => (x.1, 0, []) }
def fetchGang (s : State) (k : Gang) : Gang :=
  match k.area with
  | none => k
  | some a => { k with area := none,
                       saved := k.saved.zipIdx.map fun x => (x.1.1, 0, tileRead s (a.plus (tileBytes * x.2))) }

/-- The logical rank of a gang's team. -/
def gangRank (s : State) (k : Gang) : Option Nat := (getTeam s k.ctx k.teamNo).map (·.rank)

/-- A saved group's record goes to a place in memory. -/
def evictGroup (s : State) (gid : Nat) (a : Loc) : State :=
  match getGroup s gid with
  | none => s
  | some g => modGroup (deviceWrite s a (recordBytes s g)) gid fun g => { g with area := some a }

/-- What the shadow of a cluster holds of a rank moves to the context's save area: the scratchpad, the records and the
tiles. -/
def evictRank (s : State) (ctx rank : Nat) : State :=
  let base := Config.saveArea ctx rank
  let gs := (s.groups.filter fun g => g.ctx == ctx && g.rank == rank && g.st == .saved).map (·.gid)
  let ks := (s.gangs.filter fun k => k.ctx == ctx && k.away && gangRank s k == some rank).map (·.key)
  let s := dropLines (settleLines s (.dev base) rankBytes) (.dev base) rankBytes fun _ => false
  let s := { s with dev := storeScratch s.dev base (scratchOf s ctx rank),
                    scratch := s.scratch.filter fun x => !(x.ctx == ctx && x.rank == rank) }
  let s := modCtx s ctx fun c => { c with shadow := c.shadow.filter fun x => x.1 ≠ rank }
  let s := gs.zipIdx.foldl (fun s x => evictGroup s x.1 (.dev (base + rankBytes + 0x4C00 * x.2))) s
  let tiles := base + rankBytes + 0x4C00 * gs.length
  ks.zipIdx.foldl (fun s x => evictGang s x.1 (.dev (tiles + 4 * tileBytes * x.2))) s

/-- Other contexts' ranks leave the shadow of clusters that are granted. -/
def evictShadows (s : State) (ctx : Nat) (cls : List Nat) : State :=
  let out := (s.ctxs.filter fun c => c.id != ctx).flatMap fun c =>
    (c.shadow.filter fun x => cls.contains x.2).map fun x => (c.id, x.1)
  out.foldl (fun s x => evictRank s x.1 x.2) s

/-- The scratchpads and the tiles of a saved context that lie in its save area come back. -/
def fetchRanks (s : State) (c : Context) : State :=
  let away := (upTo c.savedRanks).filter fun r => c.shadow.all fun x => x.1 ≠ r
  { s with
    scratch := s.scratch ++ away.map fun r =>
      { ctx := c.id, rank := r, mem := loadScratch s.dev (Config.saveArea c.id r) }
    gangs := s.gangs.map fun k => if k.ctx = c.id then fetchGang s k else k }

/-- The team that made a barrier is alive. -/
def makerLives (s : State) (b : Loc) : Bool :=
  match s.bteams.find? fun x => x.1 == b with
  | some x => (match getTeam s x.2.1 x.2.2.1 with | some t => t.gen == x.2.2.2 | none => false)
  | none => true

/-- The bent-level parent that a team barrier, open or broken, has now. -/
def bentParent (s : State) (ctx : Nat) (b : Loc) : Option Nat :=
  if barState s b = 0 then none
  else match parentLoc s ctx b with
    | some (.dev a) => if ctrlLevel (barCtrl s (.dev a)) = 1 then some a else none
    | _ => none

/-- A rank whose team barrier has a bent-level parent returns to that parent's bent (R273). -/
def parentsFit (s : State) (ctx : Nat) (cls : List Nat) : Bool :=
  (knownBars s).all fun b => match b with
    | .scr c k _ => c != ctx || !makerLives s b || (match bentParent s ctx b with
        | some a => bentOf ((cls[k]?).getD 0) == homeOf a
        | none => true)
    | _ => true

/-- The core that a grant names for a group. -/
def grantCore (cores : List (Nat × Nat)) (gid : Nat) : Nat :=
  match cores.find? fun x => x.1 == gid with | some x => x.2 | none => 16

/-- Groups that a grant brings back: those of teams that have not yielded. -/
def returning (s : State) (ctx : Nat) : List Group := s.groups.filter fun g => g.ctx == ctx && slotHeld s g

/-- The cores take the groups: eight slots a core, placement sets on one core pair (R168). -/
def coresGranted (s : State) (ctx : Nat) (cores : List (Nat × Nat)) : Bool :=
  let gs := returning s ctx
  (gs.all fun g => grantCore cores g.gid < 16 &&
    (gs.filter fun h => h.rank == g.rank && grantCore cores h.gid == grantCore cores g.gid).length ≤ 8) &&
  gs.all fun g => gs.all fun h =>
    match teamOf s g with
    | some t => g.teamNo != h.teamNo || g.ident.gidx / setSize t.hdr != h.ident.gidx / setSize t.hdr ||
        grantCore cores g.gid / 2 == grantCore cores h.gid / 2
    | none => true

/-- The cluster a rank comes to. -/
def rankCl (cls : List Nat) (rank : Nat) : Nat := (cls[rank]?).getD 0

/-- The ranks' teams, queues, copies and subscriptions follow them (R199, R247, R325). -/
def moveRanks (s : State) (ctx : Nat) (cls : List Nat) : State :=
  let mv (a : AddrCtx) : AddrCtx := { a with cl := rankCl cls a.rank }
  let team (t : Team) : Team :=
    if t.ctx ≠ ctx then t else if t.yielded then { t with cl := rankCl cls t.rank }
    else restoreDeadline s (rankCl cls t.rank) t
  let queue (q : CopyQueue) : CopyQueue :=
    if q.ctx ≠ ctx then q
    else { q with qbar := q.qbar.map fun b => (b.1, mv b.2), qring := q.qring.map fun r => (r.1, r.2.1, mv r.2.2) }
  { s with teams := s.teams.map team, cqueues := s.cqueues.map queue,
           copies := s.copies.map fun c => if c.ctx = ctx then { c with actx := mv c.actx } else c }

/-- A subscription finds a slot of the loader or storer of its new bent, and its ring names it. -/
def moveSub (s : State) (id : Nat) : State :=
  match s.subs.find? fun x => x.id == id with
  | none => s
  | some x =>
    let cl := clusterOf s x.ring
    let taken : Bool := s.subs.any fun y => y.id != id && y.bent == bentOf cl && y.load == x.load && y.slot == x.slot
    let slot := if taken then (freeSlot s (bentOf cl) x.load).getD x.slot else x.slot
    let y := { x with bent := bentOf cl, slot, actx := { x.actx with cl } }
    let s := modSub s id fun _ => y
    if slot = x.slot then s else writeNat s (x.ring.plus (holdOff x.load)) 4 (subHolder y)

/-- Deliver a slice to the clusters of the partition whose bents lie in its mask (R322, R324, R326). -/
def deliverSlice (s : State) (c : Context) (x : Slice) : State :=
  let cls := c.ranks.filter fun cl => x.aff.getLsbD (bentOf cl)
  { s with cands := s.cands ++ cls.map fun cl =>
    ({ cl, ctx := c.id, seq := x.seq, dl := deadlineOf s x cl, overdue := false } : Cand) }

def liveSlice (x : Slice) : Bool := x.st.live

/-- Where a grant puts the saved gangs of a context: each with a member's cluster and core pair. -/
def gangSpots (s : State) (ctx : Nat) (cls : List Nat) (cores : List (Nat × Nat)) : List (Gang × Nat × Nat) :=
  let gs := returning s ctx
  (s.gangs.filter fun k => k.ctx == ctx && k.away).filterMap fun k =>
    (gs.find? fun g => k.members.any fun m => m.gid == g.gid && !m.left).map fun g =>
      (k, rankCl cls g.rank, grantCore cores g.gid / 2)

/-- Bring back the saved groups of a context, its scratchpads being there again (R193, R355). -/
def restoreContext (s : State) (c : Context) (cls : List Nat) (cores : List (Nat × Nat)) : State :=
  let gs := returning s c.id
  let s := moveRanks s c.id cls
  let subs := (s.subs.filter fun x => x.ctx == c.id).map (·.id)
  let s := subs.foldl moveSub s
  let s := (gangSpots s c.id cls cores).foldl (fun s x => restoreGang s x.1 x.2.1 x.2.2) s
  let s := (upTo cls.length).foldl (fun s r => restoreBars s c.id r) s
  gs.foldl (fun s g => restoreGroup s g.gid (rankCl cls g.rank) (grantCore cores g.gid)) s

/-- R336, R355: a partition is granted; a saved context is restored, and slices are delivered. -/
def execPartitionGrant (ctx : Nat) (clusters : List Nat) (cores : List (Nat × Nat)) (s : State) : Res :=
  match getCtx s ctx with
  | none => .next s
  | some c =>
    if s.pkg ≠ .ready ∨ !requesting c ∨ !grantTurn s c ∨ !clustersFit s c clusters ∨
        !parentsFit (fetchRanks s c) ctx clusters ∨ !coresGranted s ctx cores ∨
        !gangsFit s (gangSpots s ctx clusters cores) then .next s
    else
      let s := loadPatches (evictShadows s ctx clusters) clusters
      let s := if c.st = .idle then dropScratch s ctx else fetchRanks s c
      let s := modCtx s ctx fun c => { c with st := .running, ranks := clusters, shadow := [] }
      let s := if c.st = .saved then restoreContext s c clusters cores else s
      let xs := s.slices.filter fun x => x.ctx == ctx && liveSlice x
      .next (xs.foldl (fun s x => deliverSlice s { c with ranks := clusters } x) s)

end Sys2Proof.Machine
end

