-- ==== Sys2Proof/Machine/Queue.lean ====
section
/-! DEFINITION. Command queues (R386 to R392): the descriptor, the doorbell, the taking of a packet, and
the packets that act on queues and on words of memory. -/

namespace Sys2Proof

def Packet.tag (p : Packet) : Nat := bitsOf (p.word 0) 63 32
def Packet.after (p : Packet) : Bool := bitAt (p.word 0) 8
def Packet.nocpl (p : Packet) : Bool := bitAt (p.word 0) 9

end Sys2Proof

namespace Sys2Proof.Machine

/-! ### Taking a packet (R388 to R391) -/

/-- The bits that words 1 to 7 of a kind may set (R390). -/
def kindMasks (kind : Nat) : List Nat :=
  let f := 2 ^ 64 - 1
  match kind with
  | 0x01 => [f, f, f, 2 ^ 40 - 1, f, 15]
  | 0x02 => [0xFFFF]
  | 0x03 => [f]
  | 0x04 => [0x3FF]
  | 0x05 => [f, f]
  | 0x06 => [0xFFFFFF]
  | 0x07 => [0x0000FFFF00FFFFFF, f, 2 ^ 51 - 1, 2 ^ 48 - 1, f, f, 0xFFFF]
  | 0x08 => [1, f]
  | 0x09 => [f, 0xFFFF]
  | 0x0A => [0x1FFFF, f, 2 ^ 32 - 1]
  | 0x0B => [f]
  | 0x0C => [f, 7]
  | 0x0D => [0x107]
  | 0x0E => [f, f]
  | 0x0F => [f, f, 1]
  | 0x10 => [f, 2 ^ 32 - 1]
  | _ => []

/-- The kinds that only the admin queue accepts, and those of any queue (R390). -/
def adminKind (kind : Nat) : Bool := [0x01, 0x02, 0x03, 0x04, 0x0A, 0x0D, 0x10].contains kind
def anyKind (kind : Nat) : Bool := [0x00, 0x0E, 0x0F].contains kind

/-- The packet's own status before its kind acts (R390, R391). -/
def packetStatus (p : Packet) : Nat :=
  let k := p.kind
  if 0x10 < k then 1
  else if !anyKind k && (adminKind k != (p.q == 0)) then 2
  else if bitsOf (p.word 0) 31 10 ≠ 0 ∨
      (upTo 7).any fun i => (p.word (i + 1)).toNat &&& (2 ^ 64 - 1 - ((kindMasks k)[i]?).getD 0) != 0 then 3
  else 0

/-- What a packet comes to: it ends now with a status and a RESULT, it ends later, or it blocks its queue. -/
inductive Taken
  | ends (s : State) (status result : Nat)
  | later (s : State)
  | blocks (s : State)

/-- An eligible packet of a RUNNING queue (R388). -/
def eligible (q : Queue) : Bool := q.st == .running && q.head != q.tail

/-- A queue with a turn before another: the higher PRIO, then the longer time since its turn (R389). -/
def turnBefore (a b : Queue) : Bool := b.prio < a.prio || (a.prio == b.prio && a.turn < b.turn)

/-- The first queue of a list in an order. -/
def firstQueue (before : Queue → Queue → Bool) (l : List Queue) : Option Queue :=
  l.foldl (fun b q => match b with
    | none => some q
    | some x => if before q x then some q else some x) none

/-- Were `x` taken now, every other queue could still have its turn before it is passed over a sixteenth time: of
those that may be passed over at most k times more there are at most k + 1, for every k. -/
def turnsLeft (el : List Queue) (x : Queue) : Bool :=
  let others := el.filter fun q => q.id != x.id
  (upTo 15).all fun k => (others.filter fun q => 14 ≤ q.passed + k).length ≤ k + 1

/-- The queue whose packet is taken next: the highest PRIO in turn, but where that would pass some queue over a
sixteenth time, the one that has been passed over most (R389). -/
def nextQueue (s : State) : Option Queue :=
  let el := s.queues.filter eligible
  match firstQueue turnBefore el with
  | none => none
  | some x =>
    if (el.all fun q => q.id == x.id || q.passed < 15) && turnsLeft el x then some x
    else firstQueue (fun a b => b.passed < a.passed || (a.passed == b.passed && turnBefore a b)) el

/-- The queue takes its turn: the other eligible queues are passed over. -/
def takeTurn (s : State) (q : Nat) : State :=
  let f (x : Queue) : Queue :=
    if x.id = q then { x with passed := 0, turn := s.nextId }
    else if eligible x then { x with passed := x.passed + 1 } else x
  { s with queues := s.queues.map f, nextId := s.nextId + 1 }

/-- A RUNNING queue with nothing to take is IDLE (R392). -/
def settleEmpty (s : State) (q : Nat) : State :=
  modQueue s q fun x => if x.st = .running ∧ x.head = x.tail then { x with st := .idle } else x

/-- The packet is accepted: HEAD, the journal (R392, R394). -/
def acceptPacket (s : State) (qu : Queue) (p : Packet) : State :=
  let h := (qu.head + 1) % 2 ^ 32
  let s := match physLoc qu.desc with
    | some l => deviceNat s (l.plus 0x20) 4 h
    | none => s
  let s := modQueue s qu.id fun x => { x with head := h, live := x.live ++ [qu.head] }
  journal s 1 0 qu.ctx qu.id qu.head p.tag ((upTo 5).map fun i => (p.word (i + 1)).toNat)

/-- Block the queue on a packet (R392). -/
def blockQueue (s : State) (q : Nat) (p : Packet) (taken : Bool) : State :=
  modQueue s q fun x => { x with st := .blocked, blocked := p.words, taken }

/-- A packet that must wait for the earlier packets of its queue (R390). -/
def waitsAfter (p : Packet) : Bool := p.after || p.kind == 0x0E

/-- Take the packet of a RUNNING queue: it blocks, or is accepted, checked and acts (R389 to R392). The
body gets the queue and the packet's index. -/
def takeBody (p : Packet) (body : State → Queue → Nat → Taken) (s : State) : State :=
  match getQueue s p.q with
  | none => s
  | some qu =>
    if s.pkg ≠ .ready ∨ !eligible qu then s
    else if waitsAfter p && !qu.live.isEmpty then blockQueue s p.q p false
    else
      let s := acceptPacket s qu p
      let r := if packetStatus p ≠ 0 then Taken.ends s (packetStatus p) 0 else body s qu qu.head
      settleEmpty (match r with
        | .ends s st res => complete s p.q qu.head st p.kind false p.tag res p.nocpl
        | .later s => s
        | .blocks s => blockQueue s p.q p true) p.q

/-- The packet would be accepted and act now. -/
def acts (s : State) (p : Packet) : Bool :=
  match getQueue s p.q with
  | some qu => s.pkg == .ready && eligible qu && (!waitsAfter p || qu.live.isEmpty) && packetStatus p == 0
  | none => false

/-- A packet with a body. -/
def packet (p : Packet) (body : State → Queue → Nat → Taken) (s : State) : Res := .next (takeBody p body s)

/-- R390. -/
def execNopPacket (p : Packet) (s : State) : Res := packet p (fun s _ _ => .ends s 0 0) s

/-- R391. -/
def execBadkind (p : Packet) (s : State) : Res := packet p (fun s _ _ => .ends s 1 0) s

/-! ### SIGNAL and WAITMEM (R390) -/

/-- A SIGNAL's store can take its place. -/
def signalReady (s : State) (p : Packet) : Bool :=
  match physLoc (p.word 1) with
  | some l => lineQuiet s l 8
  | none => true

/-- R390. -/
def execSignal (p : Packet) (s : State) : Res :=
  if acts s p && !signalReady s p then .next s
  else packet p (fun s _ _ => match physLoc (p.word 1) with
    | none => .ends s 3 0
    | some l => .ends (deviceWord s l (p.word 2)) 0 0) s

/-- The condition of a WAITMEM. -/
def memHolds (s : State) (l : Loc) (p : Packet) : Bool :=
  if bitAt (p.word 3) 0 then decide ((p.word 2).toNat ≤ (readWord s l).toNat) else readWord s l == p.word 2

/-- R390, R392. -/
def execWaitmem (p : Packet) (s : State) : Res :=
  packet p (fun s _ _ => match physLoc (p.word 1) with
    | none => .ends s 3 0
    | some l => if memHolds s l p then .ends s 0 0 else .blocks s) s

/-! ### Descriptors, doorbells, QNEW, QDEL (R386 to R388, R392) -/

/-- R16, at a queue's creation. -/
def onlineMask (s : State) (m : BitVec 8) : BitVec 8 :=
  BitVec.ofNat 8 ((upTo 8).foldl (fun a b => a + 2 ^ b * b2n (m.getLsbD b && (getBent s b).online)) 0)
def maskOrAll (m : BitVec 8) : BitVec 8 := if m = 0 then 0xFF else m

/-- A GLOBAL pointer in the form that its space requires (R195). -/
def globalFormed (p : Word) : Bool := ptrFormed p && ptrSpace p == 0

/-- The queue that a descriptor describes, under an id (R386); its mask is as written. A descriptor that cannot be
read is none (R387). -/
def readDescriptor (s : State) (p : Word) (id : Nat) : Option Queue :=
  match physLoc p with
  | none => none
  | some l =>
    if isPoisoned s l 64 || wayTo s l == .dead then none else
    let c := readWord s l
    let ring := readWord s (l.plus 8)
    let cpl := readWord s (l.plus 16)
    let rcb := readWord s (l.plus 24)
    let ok : Bool := bitsOf c 3 0 == 1 && 4 ≤ bitsOf c 7 4 && 4 ≤ bitsOf c 11 8 && bitsOf c 31 24 == 0 &&
      bitsOf c 63 48 == 0 && (physLoc ring).isSome && (physLoc cpl).isSome && ring.toNat % 4096 == 0 &&
      cpl.toNat % 16 == 0 && globalFormed rcb && readNat s (l.plus 0x24) 28 == 0
    if !ok then none
    else some { id, ctx := bitsOf c 47 32, st := .idle, desc := p, ring, cpl, lgs := bitsOf c 7 4,
                lgc := bitsOf c 11 8, prio := bitsOf c 15 12, aff := BitVec.ofNat 8 (bitsOf c 23 16), rcb,
                head := 0, tail := 0, ncpl := 0, blocked := [], taken := false, passed := 0, turn := 0,
                live := [], dels := [] }

/-- Create a queue: HEAD := 0 (R392). -/
def createQueue (s : State) (qu : Queue) : State :=
  let s := match physLoc qu.desc with
    | some l => deviceNat s (l.plus 0x20) 4 0
    | none => s
  { s with queues := s.queues ++ [qu] }

/-- A packet of a queue of this id, perhaps of one that is gone, awaits the end of a load: the id is not free
(log 66). -/
def idAwaited (s : State) (id : Nat) : Bool :=
  s.objs.any fun o => (o.st == .loading && o.q == id) || o.held.any fun h => h.1 == id

/-- The lowest free queue id. -/
def freeQueueId (s : State) : Option Nat :=
  ((upTo 1024).drop 1).find? fun i => (getQueue s i).isNone && !idAwaited s i

def qnewBody (p : Packet) (s : State) : Taken :=
  match readDescriptor s (p.word 1) 0 with
  | none => .ends s 3 0
  | some qu =>
    let aff := onlineMask s (maskOrAll qu.aff)
    if qu.ctx = 0 then .ends s 3 0
    else if (getCtx s qu.ctx).isNone then .ends s 5 0
    else if aff = 0 then .ends s 4 0
    else match freeQueueId s with
      | none => .ends s 6 0
      | some id => .ends (createQueue s { qu with id, aff }) 0 id

/-- R386. -/
def execQnew (p : Packet) (s : State) : Res := packet p (fun s _ _ => qnewBody p s) s

/-- The blocked packet of a queue and its index (R392). -/
def blockedPacket (qu : Queue) : Packet × Nat :=
  ({ q := qu.id, words := qu.blocked }, if qu.taken then (qu.head + 2 ^ 32 - 1) % 2 ^ 32 else qu.head)

/-- Delete reaches a queue (R392). -/
def deleteQueue (s : State) (qu : Queue) : State :=
  let s := if qu.st = .blocked then
      let b := blockedPacket qu
      complete s qu.id b.2 8 b.1.kind false b.1.tag 0 b.1.nocpl
    else s
  modQueue s qu.id fun x => { x with st := .draining, tail := x.head, blocked := [] }

def qdelBody (p : Packet) (s : State) (index : Nat) : Taken :=
  let id := bitsOf (p.word 1) 9 0
  if id = 0 then .ends s 3 0
  else match getQueue s id with
    | none => .ends s 5 0
    | some qu =>
      let s := if qu.st = .draining then s else deleteQueue s qu
      let s := modQueue s id fun x => { x with dels := x.dels ++ [(p.q, index, p.tag, p.nocpl)] }
      .later (settleQueue s id)

/-- R392. -/
def execQdel (p : Packet) (s : State) : Res := packet p (fun s _ i => qdelBody p s i) s

/-- The register window is open: the package is READY, and the companion processor reaches it over a Sill port (R2,
R409). -/
def windowOpen (s : State) : Bool := s.pkg == .ready && sillOpen s

/-- R387; an empty mask fails the creation as a broken descriptor does (R16; DEDUCED, log 104). -/
def execAdmqWrite (v : Word) (s : State) : Res :=
  if !windowOpen s then .next s
  else
    if (getQueue s 0).isSome then .next (journal s 8 0 0 0 0 0 [0, v.toNat])
    else match readDescriptor s v 0 with
      | none => .next (journal { s with admq := v } 8 0 0 0 0 0 [0, v.toNat])
      | some qu =>
        let aff := onlineMask s (maskOrAll qu.aff)
        if aff = 0 then .next (journal { s with admq := v } 8 0 0 0 0 0 [0, v.toNat])
        else .next (createQueue { s with admq := v } { qu with ctx := 0, aff })

/-- R388, R392. -/
def execDoorbell (q : Nat) (tail : BitVec 32) (s : State) : Res :=
  let t := tail.toNat
  if !windowOpen s then .next s
  else match getQueue s q with
    | none => .next (journal s 8 0 0 q 0 0 [q, t])
    | some qu =>
      if qu.st = .draining ∨ t = qu.tail then .next s
      else if sub32 t qu.head ≤ sub32 qu.tail qu.head ∨ 2 ^ qu.lgs < sub32 t qu.head then
        .next (journal s 8 0 qu.ctx q 0 0 [q, t])
      else .next (modQueue s q fun x => { x with tail := t, st := if x.st = .idle then .running else x.st })

end Sys2Proof.Machine
end

