-- ==== Sys2Proof/Machine/Region.lean ====
section
/-! DEFINITION. Scheduling regions and slices (R319 to R322): a chain of region control blocks, its
effective values, and the creation of a slice. -/

namespace Sys2Proof.Machine

/-! ### Region control blocks (R319, R320) -/

/-- A region control block as read. -/
structure Rcb where
  at' : Word
  ovr : Nat
  prio : Nat
  fdom : Bool
  ver : Nat
  parent : Word
  clust : Nat
  ecap : Nat
  scratch : Nat
  tbudget : Nat
  /-- a reserved bit is set -/
  rsv : Bool
deriving DecidableEq, Repr

/-- The location of a block of device memory that a GLOBAL pointer names through a root table. -/
def devBlock (s : State) (root : Nat) (p : Word) : Option Loc :=
  let w := walkFrom s root (bitsOf p 54 0)
  if globalFormed p && (w.kind == .page || w.kind == .large) && !w.poisoned && !ptePSN w.entry && !pteHOST w.entry
  then some (leafLoc w (bitsOf p 54 0)) else none

def readRcb (s : State) (root : Nat) (p : Word) : Option Rcb :=
  if p.toNat % 256 ≠ 0 then none
  else match devBlock s root p with
    | none => none
    | some l =>
      if isPoisoned s l 256 then none
      else
        let c := readWord s l
        some { at' := p, ovr := bitsOf c 23 16, prio := bitsOf c 11 8, fdom := bitAt c 4, ver := bitsOf c 3 0,
               parent := readWord s (l.plus 8), clust := readNat s (l.plus 0x10) 4,
               ecap := readNat s (l.plus 0x14) 4 % 8, scratch := readNat s (l.plus 0x18) 8,
               tbudget := readNat s (l.plus 0x20) 8,
               rsv := bitsOf c 63 21 != 0 || bitsOf c 15 12 != 0 || bitsOf c 7 5 != 0 ||
                 readNat s (l.plus 0x14) 4 / 8 != 0 || readNat s (l.plus 0x28) 216 != 0 }

/-- The chain from a block up to the root, at most `n` nodes (R320). -/
def readChain (s : State) (root : Nat) : Nat → List Word → Word → Option (List Rcb)
  | 0, _, _ => none
  | n + 1, seen, p =>
    if seen.contains p then none
    else match readRcb s root p with
      | none => none
      | some r =>
        if r.ver ≠ 1 ∨ r.rsv then none
        else if r.parent = 0 then some [r]
        else match readChain s root n (p :: seen) r.parent with
          | none => none
          | some l => some (r :: l)

/-- The effective values of a node and its chain (R320). -/
structure Effective where
  nodes : List (Nat × Nat × Nat × Bool)
  clust : Nat
  scratch : Nat
  tbudget : Nat
  ecap : Nat
  prio : Nat
deriving DecidableEq, Repr

/-- Unlimited, as a budget of bytes and as one of cycles. -/
def noScratchLimit : Nat := 2 ^ 64 - 1
def noBudget : Nat := 2 ^ 63 - 1

/-- Cycles that a region's TBUDGET stands for; 0 is unlimited (R319). -/
def budgetCycles (n : Nat) : Nat := if n = 0 then noBudget else Nat.min n noBudget

/-- The effective values, from the root down (R320); `ncl` is the partition's cluster count. -/
def effective (ncl : Nat) : List Rcb → Effective
  | [] => ⟨[], ncl, noScratchLimit, noBudget, 7, 8⟩
  | r :: up =>
    let e := effective ncl up
    let o (i : Nat) : Bool := r.ovr / 2 ^ i % 2 == 1
    let clust := if o 0 then r.clust else e.clust
    let scratch := if o 1 then r.scratch else e.scratch
    { nodes := (r.at'.toNat, clust, scratch, r.fdom) :: e.nodes, clust, scratch,
      tbudget := if o 2 then budgetCycles r.tbudget else e.tbudget,
      ecap := if o 3 then r.ecap else e.ecap, prio := if o 4 then r.prio else e.prio }

/-! ### Creating a slice (R322) -/

/-- A code object that a launch can name. -/
def getObj (s : State) (ctx num : Nat) : Option CodeObj := s.objs.find? fun o => o.ctx == ctx && o.num == num
def modObj (s : State) (ctx num : Nat) (f : CodeObj → CodeObj) : State :=
  { s with objs := s.objs.map fun o => if o.ctx = ctx ∧ o.num = num then f o else o }

/-- The kernel that a LAUNCH names, in a READY object: header and entry (R309). -/
def launchKernel (s : State) (ctx : Nat) (p : Packet) : Option (Word × Word) :=
  match getObj s ctx (bitsOf (p.word 1) 23 0) with
  | some o => if o.st = .ready then o.kernels[bitsOf (p.word 1) 47 32]? else none
  | none => none

/-- The LAUNCH's mask under R16 and R390, before offline bents go. -/
def launchMask (qu : Queue) (p : Packet) : BitVec 8 :=
  let a : BitVec 8 := BitVec.ofNat 8 (bitsOf (p.word 3) 39 32)
  if a = 0 then maskOrAll qu.aff else maskOrAll qu.aff &&& a

/-- The mask without the bents that have no cluster of the context's partition, while it holds one. -/
def partitionMask (c : Context) (m : BitVec 8) : BitVec 8 :=
  if c.ranks.isEmpty then m
  else m &&& c.ranks.foldl (fun a cl => a ||| ((1 : BitVec 8) <<< bentOf cl)) 0

/-- The parameters lie in their limits (R322). -/
def shapeOk (hdr : Word) (p : Packet) : Bool :=
  bitsOf (p.word 3) 31 0 != 0 && bitsOf (p.word 3) 47 40 ≤ 128 && (bitsOf (p.word 3) 47 40 == 0 || bitAt hdr 7) &&
  (p.word 5).toNat < 2 ^ 62

/-- The slice that a LAUNCH creates. -/
def newSlice (c : Context) (qu : Queue) (p : Packet) (index : Nat) (k : Word × Word) (e : Effective)
    (aff : BitVec 8) : Slice :=
  { ctx := c.id, seq := c.nextSeq, st := .waiting, hdr := k.1, entry := k.2, args := p.word 2,
    teams := bitsOf (p.word 3) 31 0, aff, deadline := bitsOf (p.word 4) 47 0,
    tbudget := if p.word 5 = 0 then e.tbudget else (p.word 5).toNat, ecls := bitsOf (p.word 3) 50 48,
    rsv := bitsOf (p.word 3) 47 40, spt := if bitsOf (p.word 7) 15 0 = 0 then 2048 else bitsOf (p.word 7) 15 0,
    prio := e.prio, chain := e.nodes, nextTeam := 0, finished := 0, retiring := [], q := qu.id, index,
    tag := p.tag, nocpl := p.nocpl }

/-- The region of a LAUNCH: its own, the queue's, or the context's root (log 31). -/
def launchRcb (c : Context) (qu : Queue) (p : Packet) : Word :=
  if p.word 6 ≠ 0 then p.word 6 else if qu.rcb ≠ 0 then qu.rcb else c.rcb

/-- The creation of a slice: its status, or the slice (R322). -/
def sliceFor (s : State) (c : Context) (qu : Queue) (p : Packet) (index : Nat) : Except Nat Slice :=
  match launchKernel s c.id p with
  | none => .error 0x24
  | some k =>
    match readChain s c.root 16 [] (launchRcb c qu p) with
    | none => .error 0x21
    | some l =>
      let e := effective c.ncl l
      let aff := partitionMask c (onlineMask s (launchMask qu p))
      if !shapeOk k.1 p then .error 0x23
      else if e.ecap < bitsOf (p.word 3) 50 48 then .error 0x22
      else if aff = 0 then .error 0x20
      else .ok (newSlice c qu p index k e aff)

/-- Create the slice of a LAUNCH and report its acceptance, or report why not (R322, R391). -/
def createSlice (s : State) (ctx q index : Nat) (p : Packet) : State :=
  match getCtx s ctx, getQueue s q with
  | some c, some qu =>
    (match sliceFor s c qu p index with
     | .error st => settleQueue (completeIn s ctx q index st 0x07 false p.tag 0 p.nocpl) q
     | .ok x =>
       let s := modCtx { s with slices := s.slices ++ [x] } ctx fun c => { c with nextSeq := c.nextSeq + 1 }
       let s := deliverSlice s c x
       completionRecord s q index 0 0x07 false p.tag (x.seq % 2 ^ 32) p.nocpl)
  | _, _ => s

/-- A packet waits for the end of a load (R309). -/
def holdPacket (s : State) (ctx num index : Nat) (p : Packet) : State :=
  modObj s ctx num fun o => { o with held := o.held ++ [(p.q, index, p.words)] }

def launchBody (p : Packet) (s : State) (qu : Queue) (index : Nat) : Taken :=
  match getObj s qu.ctx (bitsOf (p.word 1) 23 0) with
  | some o =>
    if o.st = .loading then .later (holdPacket s qu.ctx o.num index p) else .later (createSlice s qu.ctx p.q index p)
  | none => .later (createSlice s qu.ctx p.q index p)

/-- R322; while its object loads, the launch waits (R309). -/
def execLaunch (p : Packet) (s : State) : Res := packet p (launchBody p) s

end Sys2Proof.Machine
end

