-- ==== Sys2Proof/Machine/Elf.lean ====
section
/-! DEFINITION. A code object's image as the loader reads it (R302 to R307): ELF64 tables, notes,
relocation records, kernel metadata, and the status of the first check that fails. The manual names ELF and
states its own values; the layout of ELF's tables is the ELF64 format's (log 32). -/

namespace Sys2Proof.Machine

/-- The image: `n` bytes at an offset as a number, where they lie in it. -/
abbrev Image := Nat → Nat → Option Nat

/-- The image that a LOAD names: pointer and byte length. -/
def imageOf (s : State) (p : Word) (len : Nat) : Image := fun o n =>
  match physLoc p with
  | some l => if o + n ≤ len then some (readNat s (l.plus o) n) else none
  | none => none

/-- A section header. -/
structure Sec where
  type : Nat
  flags : Nat
  addr : Nat
  off : Nat
  size : Nat
  link : Nat
  info : Nat
  align : Nat
deriving DecidableEq, Repr

def Sec.none : Sec := ⟨0, 0, 0, 0, 0, 0, 0, 0⟩

def readSec (im : Image) (o : Nat) : Option Sec := do
  let type ← im (o + 4) 4
  let flags ← im (o + 8) 8
  let addr ← im (o + 16) 8
  let off ← im (o + 24) 8
  let size ← im (o + 32) 8
  let link ← im (o + 40) 4
  let info ← im (o + 44) 4
  let align ← im (o + 48) 8
  return ⟨type, flags, addr, off, size, link, info, align⟩

/-- The section headers, where the table lies in the image. -/
def readSecs (im : Image) : Option (List Sec) := do
  let shoff ← im 40 8
  let esz ← im 58 2
  let n ← im 60 2
  if n ≠ 0 ∧ esz ≠ 64 then Option.none else (upTo n).mapM fun i => readSec im (shoff + 64 * i)

/-- The header of R302. -/
def headerOk (im : Image) : Bool :=
  im 0 4 == some 0x464C457F && im 4 1 == some 2 && im 5 1 == some 1 && im 7 1 == some 0 &&
  im 18 2 == some 0xC6A1 && (im 16 2 == some 2 || im 16 2 == some 3) && (im 0 64).isSome

/-- Kernel text, linkage table, metadata, layouts (R303). -/
def Sec.isText (c : Sec) : Bool := c.type == 0x70000001
def Sec.isLink (c : Sec) : Bool := c.type == 0x70000002
def Sec.isMeta (c : Sec) : Bool := c.type == 0x70000003
def Sec.isLayouts (c : Sec) : Bool := c.type == 0x70000004
def Sec.isNote (c : Sec) : Bool := c.type == 7
def Sec.known (c : Sec) : Bool :=
  c.isText || c.isLink || c.isMeta || c.isLayouts || [1, 8, 2, 3, 4, 7, 0].contains c.type
/-- The section is mapped; PROGBITS and NOBITS where their flags have ALLOC. -/
def Sec.mapped (c : Sec) : Bool :=
  c.isText || c.isLink || c.isLayouts || ((c.type == 1 || c.type == 8) && c.flags / 2 % 2 == 1)
/-- The section's bytes lie in the image. -/
def Sec.stored (c : Sec) : Bool := c.known && c.type != 8 && c.type != 0
/-- Write and execute permission of a mapped section. -/
def Sec.writes (c : Sec) : Bool := c.isLink || ((c.type == 1 || c.type == 8) && c.flags % 2 == 1)
def Sec.executes (c : Sec) : Bool := c.isText || ((c.type == 1 || c.type == 8) && c.flags / 4 % 2 == 1)

/-- The constraints of R303. -/
def secOk (im : Image) (c : Sec) : Bool :=
  (!c.stored || (im c.off c.size).isSome) &&
  (!(c.isText || c.isLink) || (8 ≤ c.align && c.size % 8 == 0)) && (!c.isMeta || c.size % 32 == 0) &&
  (!c.isLayouts || (64 ≤ c.align && c.size % 64 == 0)) && (!c.mapped || c.align ≤ 1 || c.addr % c.align == 0)

/-! ### Notes (R305) -/

structure Note where
  owner : List Byte
  type : Nat
  desc : Nat
deriving DecidableEq, Repr

def pad4 (n : Nat) : Nat := (n + 3) / 4 * 4
/-- A string without the zero bytes that end it. -/
def trimZeros (l : List Byte) : List Byte := l.takeWhile (· ≠ 0)

/-- The notes in `r` bytes from offset `o`; none where they are not whole. -/
def readNotes (im : Image) : Nat → Nat → Nat → Option (List Note)
  | 0, _, r => if r = 0 then some [] else Option.none
  | n + 1, o, r =>
    if r = 0 then some []
    else if r < 12 then Option.none
    else do
      let nsz ← im o 4
      let dsz ← im (o + 4) 4
      let type ← im (o + 8) 4
      let used := if dsz = 0 then 12 + nsz else 12 + pad4 nsz + dsz
      if r < used then Option.none
      else do
        let name ← im (o + 12) nsz
        let desc ← if dsz = 0 then some 0 else im (o + 12 + pad4 nsz) dsz
        let step := Nat.min r (12 + pad4 nsz + pad4 dsz)
        let rest ← readNotes im n (o + step) (r - step)
        return ⟨trimZeros (bytesOf nsz name), type, desc⟩ :: rest

def secNotes (im : Image) (c : Sec) : Option (List Note) := readNotes im (c.size / 12 + 1) c.off c.size

/-- "Haresol". -/
def haresol : List Byte := [0x48, 0x61, 0x72, 0x65, 0x73, 0x6F, 0x6C]

/-- Haresol's notes of an object whose notes are whole. -/
def ownNotes (im : Image) (secs : List Sec) : List Note :=
  ((secs.filter (·.isNote)).flatMap fun c => (secNotes im c).getD []).filter fun n => n.owner == haresol

def knownNote (n : Note) : Bool := n.type == 1 || n.type == 0x80000001 || n.type == 0x80000002

/-- What the load report records: types, and GENERATOR's descriptor (R305). -/
def reportNotes (l : List Note) : List (Nat × Nat) :=
  (l.filter fun n => n.type < 2 ^ 31).map fun n => (n.type, if n.type = 1 then n.desc else 0)

/-! ### Symbols and relocation (R306) -/

structure Sym where
  name : List Byte
  info : Nat
  shndx : Nat
  value : Nat
deriving DecidableEq, Repr

/-- The string at an offset of a string table. -/
def readString (im : Image) (c : Sec) (o : Nat) : List Byte :=
  match im (c.off + o) (c.size - o) with
  | some v => if o < c.size then trimZeros (bytesOf (c.size - o) v) else []
  | Option.none => []

def secAt (secs : List Sec) (i : Nat) : Sec := (secs[i]?).getD Sec.none

/-- Symbol `i` of a symbol table; symbol 0 is none. -/
def readSym (im : Image) (secs : List Sec) (tab : Sec) (i : Nat) : Option Sym :=
  if i = 0 ∨ tab.type ≠ 2 ∨ tab.size < 24 * (i + 1) then Option.none
  else do
    let o := tab.off + 24 * i
    let nm ← im o 4
    let info ← im (o + 4) 1
    let shndx ← im (o + 6) 2
    let value ← im (o + 8) 8
    return ⟨readString im (secAt secs tab.link) nm, info, shndx, value⟩

def Sym.defined (y : Sym) : Bool := y.shndx != 0
/-- S of R306: an absolute symbol does not move with the object. -/
def Sym.at' (y : Sym) (bias : Nat) : Nat := if y.shndx = 0xFFF1 then y.value else y.value + bias

/-- The symbols that an object exports, with their values: the global ones that it defines (R427). -/
def exportsOf (im : Image) (secs : List Sec) (bias : Nat) : List (List Byte × Word) :=
  (secs.filter fun c => c.type == 2).flatMap fun tab =>
    ((upTo (tab.size / 24)).filterMap (readSym im secs tab)).filterMap fun y =>
      if y.defined && 16 ≤ y.info && !y.name.isEmpty then some (y.name, BitVec.ofNat 64 (y.at' bias)) else Option.none

/-- A relocation record, with the section it applies to. -/
structure Rel where
  sec : Nat
  place : Nat
  type : Nat
  sym : Option Sym
  addend : Int
deriving DecidableEq, Repr

/-- The section that holds a link address. -/
def secHolding (secs : List Sec) (a : Nat) : Nat :=
  (secs.findIdx? fun c => c.mapped && c.addr ≤ a && a < c.addr + c.size).getD 0

def readRel (im : Image) (secs : List Sec) (tab : Sec) (i : Nat) : Option Rel := do
  let o := tab.off + 24 * i
  let place ← im o 8
  let info ← im (o + 8) 8
  let add ← im (o + 16) 8
  return { sec := if tab.info = 0 then secHolding secs place else tab.info, place, type := info % 2 ^ 32,
           sym := readSym im secs (secAt secs tab.link) (info / 2 ^ 32), addend := sxNat 64 add }

def relsOf (im : Image) (secs : List Sec) : List Rel :=
  (secs.filter fun c => c.type == 4).flatMap fun tab => (upTo (tab.size / 24)).filterMap (readRel im secs tab)

/-- What a record does: bytes of a section, or a linkage entry. -/
inductive RelDoes
  | patch (sec off : Nat) (bytes : List Byte)
  | link (e : LinkEntry) (target : Word)
deriving DecidableEq, Repr

/-- A signed count of instructions that fits `n` bits (R306). -/
def relUnits (n : Nat) (d : Int) : Option Nat :=
  if d % 8 ≠ 0 then Option.none
  else if d / 8 < -((2 ^ (n - 1) : Nat) : Int) ∨ ((2 ^ (n - 1) : Nat) : Int) ≤ d / 8 then Option.none
  else some (wrapInt n (d / 8))

/-- The effect of a record, or none where R306 rejects it. -/
def relEffect (secs : List Sec) (bias : Nat) (r : Rel) : Option RelDoes :=
  let c := secAt secs r.sec
  let off := r.place - c.addr
  if c.size = 0 ∨ r.place < c.addr ∨ c.size < off + 8 ∨ !(c.stored || c.mapped) then Option.none
  else if r.type = 6 then
    (if !c.isLink || off % 8 ≠ 0 then Option.none
     else match r.sym with
       | some y => some (.link ⟨r.place + bias, y.name, y.defined⟩ (BitVec.ofNat 64 (y.at' bias)))
       | Option.none => some (.link ⟨r.place + bias, [], false⟩ 0))
  else match r.sym with
    | Option.none => Option.none
    | some y =>
      if !y.defined then Option.none
      else
        let v : Int := y.at' bias + r.addend
        let d : Int := v - (r.place + bias + 8 : Nat)
        let word := wrapInt 64 v
        (match r.type with
         | 1 => if v < -(2 ^ 63) ∨ 2 ^ 64 ≤ v then Option.none else some (.patch r.sec off (bytesOf 8 word))
         | 2 => (relUnits 32 d).map fun u => .patch r.sec off (bytesOf 4 u)
         | 3 => (relUnits 16 d).map fun u => .patch r.sec (off + 2) (bytesOf 2 u)
         | 4 => some (.patch r.sec off (bytesOf 4 word))
         | 5 => some (.patch r.sec off (bytesOf 4 (word / 2 ^ 32)))
         | _ => Option.none)

/-! ### Kernel metadata (R307) -/

/-- Put bytes over a list at an offset. -/
def overlay (l : List Byte) (o : Nat) (bs : List Byte) : List Byte :=
  l.mapIdx fun i b => if o ≤ i then (bs[i - o]?).getD b else b

/-- The bytes of section `i` after relocation. -/
def secBytes (im : Image) (secs : List Sec) (rels : List RelDoes) (i : Nat) : List Byte :=
  let c := secAt secs i
  let base := bytesOf c.size (if c.stored then (im c.off c.size).getD 0 else 0)
  rels.foldl (fun l r => match r with
    | .patch j o bs => if j = i then overlay l o bs else l
    | .link .. => l) base

/-- The 32-byte records of the metadata sections. -/
def kernelRecords (im : Image) (secs : List Sec) (rels : List RelDoes) : List (List Byte) :=
  ((upTo secs.length).filter fun i => (secAt secs i).isMeta).flatMap fun i =>
    let bs := secBytes im secs rels i
    (upTo (bs.length / 32)).map fun k => (bs.drop (32 * k)).take 32

/-- The kernel header word is well formed (R307). -/
def kernelHdrOk (h : Word) : Bool :=
  bitsOf h 3 0 == 1 && bitsOf h 31 27 == 0 && bitsOf h 63 48 == 0 && bitsOf h 23 16 ≤ 192 && bitsOf h 26 24 ≤ 3 &&
  (bitsOf h 26 24 == 0 || bitAt h 5) && hdrGroups h * hdrStack h ≤ hdrScratch h

/-- Text ranges of an object. -/
def textRanges (secs : List Sec) (bias : Nat) : List (Nat × Nat) :=
  (secs.filter (·.isText)).map fun c => (c.addr + bias, c.size)

def recordHdr (r : List Byte) : Word := BitVec.ofNat 64 (ofBytes (r.take 8))
def recordEntryPoint (r : List Byte) : Word := BitVec.ofNat 64 (ofBytes ((r.drop 8).take 8))

/-- R307, for one record. -/
def recordOk (text : List (Nat × Nat)) (r : List Byte) : Bool :=
  let e := (recordEntryPoint r).toNat
  kernelHdrOk (recordHdr r) && e % 8 == 0 && (text.any fun t => t.1 ≤ e && e < t.1 + t.2) &&
  (r.drop 20).all (· == 0)

/-! ### The status (R302) -/

/-- An object as the loader has read it. -/
structure Elf where
  exec : Bool
  secs : List Sec
  rels : List RelDoes
  kernels : List (Word × Word)
  exports : List (List Byte × Word)
  text : List (Nat × Nat)
  notes : List (Nat × Nat)
deriving DecidableEq, Repr

/-- R302, R303 and R305's first check: the object has the form that the loader accepts. -/
def formatOk (im : Image) : Bool :=
  headerOk im && (match readSecs im with
    | Option.none => false
    | some secs => secs.all (secOk im) && (secs.all fun c => !c.isNote || (secNotes im c).isSome) &&
        (ownNotes im secs).all fun n => n.type != 0x80000002 || n.desc == 1)

/-- Read an object placed with a bias; the error is the status of the first check that fails. -/
def readElf (im : Image) (bias : Nat) : Except Nat Elf :=
  if !formatOk im then .error 1
  else
    let secs := (readSecs im).getD []
    let notes := ownNotes im secs
    let effects := (relsOf im secs).map (relEffect secs bias)
    let rels := effects.filterMap id
    let text := textRanges secs bias
    let recs := kernelRecords im secs rels
    if secs.any fun c => !c.known && c.flags / 2 ^ 28 % 2 == 1 then .error 2
    else if notes.any fun n => !knownNote n && 2 ^ 31 ≤ n.type then .error 3
    else if !(recs.all (recordOk text)) then .error 4
    else if effects.any (·.isNone) then .error 5
    else if notes.any fun n => n.type == 0x80000001 && 6 < n.desc then .error 6
    else .ok { exec := im 16 2 == some 2, secs, rels, kernels := recs.map fun r => (recordHdr r, recordEntryPoint r),
               exports := exportsOf im secs bias, text, notes := reportNotes notes }

end Sys2Proof.Machine
end

