-- ==== Sys2Proof/Machine/Stub.lean ====
section
/-! DEFINITION. The resolver stub and the wait stub of R311 and R313 as words of this instruction set.
The manual states what the stubs do and that they use only uniform instructions; this code is the model's
(log 33). The resolver finds a definition through a word of the model's own, one for each linkage entry, at
the entry's address with bit 54 flipped: the definition plus 1, or 0 for none (log 33). -/

namespace Sys2Proof.Machine

def stubCtl : Ctl := { u := true, ge := false, gp := 0, gs := false }
/-- The control fields of an instruction of the whole group, which has no uniform form. -/
def stubGrp : Ctl := { u := false, ge := false, gp := 0, gs := false }
def stubG (k : Nat) : Src := .g (BitVec.ofNat 4 k)
def noSrc : Src := .a 0

def stubQ3 (a b c : Src) (ty : Ty) (imm : Bool) (v : Nat) : Q3 :=
  { sa := a, sb := b, sc := c, rm := 0, ty, pd := 0, imm, sat := false, mod := 0, imm16 := BitVec.ofNat 16 v }
def stubBr (a : Src) (aux : Nat) (d : Int) : BR :=
  { sa := a, sb := noSrc, aux := BitVec.ofNat 4 aux, kind := 0, offs := BitVec.ofInt 32 d }
def stubSy (v : Nat) : SY := { sa := noSrc, sb := noSrc, rsv := 0, sreg := 0, imm16 := BitVec.ofNat 16 v }
def stubMe (a b c : Src) (ord : Nat) (ack : Bool) : ME :=
  { sa := a, sb := b, sc := c, sz := 3, ord := BitVec.ofNat 2 ord, scope := if ord = 0 then 0 else 4, ack,
    sx := false, mod := 0, offset := 0 }

def iPass (k : Nat) : Instr := .pass stubCtl (stubQ3 (stubG k) noSrc noSrc .b128 false 0)
def iXor (a b : Nat) : Instr := .xor stubCtl (stubQ3 (stubG a) (stubG b) noSrc .n64 false 0)
def iMinOne (a : Nat) : Instr := .min stubCtl (stubQ3 (stubG a) noSrc noSrc .n64 true 1)
def iSubOne (a : Nat) : Instr := .sub stubCtl (stubQ3 (stubG a) noSrc noSrc .n64 true 1)
/-- Pushes a * v + c. -/
def iMad (a : Nat) (v : Int) (c : Nat) : Instr :=
  .mad stubCtl { stubQ3 (stubG a) noSrc (stubG c) .n64 true 0 with imm16 := BitVec.ofInt 16 v }
/-- Pushes a pointer `d` bytes on. -/
def iLea (a : Nat) (d : Nat) : Instr :=
  .leaImm stubCtl { sa := stubG a, sb := noSrc, fn := 32, z := false, imm32 := BitVec.ofNat 32 d }
def iLdi (fn v : Nat) (z : Bool) : Instr :=
  .ldi stubCtl { sa := noSrc, sb := noSrc, fn := BitVec.ofNat 6 fn, z, imm32 := BitVec.ofNat 32 v }
def iLdih (a v : Nat) : Instr :=
  .ldih stubCtl { sa := stubG a, sb := noSrc, fn := 0, z := false, imm32 := BitVec.ofNat 32 v }
def iBrx (a : Nat) : Instr := .brx stubGrp (stubBr (stubG a) 0 0)
/-- Branch by `d` instructions from the next. -/
def iBra (d : Int) : Instr := .bra stubGrp (stubBr noSrc 0 d)
def iTrap (n : Nat) : Instr := .trap stubGrp (stubSy n)
def iLoad (a : Nat) (acq : Bool) : Instr := .ld stubCtl (stubMe (stubG a) noSrc noSrc (if acq then 1 else 0) false)

/-- Where W lies behind R (as in the run of R421). -/
def waitOffset : Nat := 0x200

/-- `five` copies of one position, then the two given. -/
def rebuild (five x y : Nat) : List Instr := List.replicate 5 (iPass five) ++ [iPass x, iPass y]

/-- The resolver stub: g0 = R, g1 = E, g2 to g6 the arguments. The arms start at instruction 7 (another
binder), 15 (bind), 22 (look up), 30 (none found) and 39 (found). -/
def resolver : List Instr :=
  [iLea 0 waitOffset, .cas stubCtl (stubMe (stubG 2) (stubG 0) (stubG 1) 1 false), iXor 0 2, iMinOne 0,
   iLea 4 (8 * 15), iMad 1 (-64) 0, iBrx 0] ++
  rebuild 12 12 10 ++ [iBrx 0] ++
  rebuild 12 12 12 ++
  [iLdi 1 0 true, iLdih 0 0x400000, iXor 0 3, iLoad 0 false, iMinOne 0, iLea 5 (8 * 30), iMad 1 72 0, iBrx 0] ++
  rebuild 13 13 13 ++ [iTrap 2, iBra (-17)] ++
  [iSubOne 3, .st stubCtl (stubMe (stubG 9) (stubG 0) noSrc 2 true)] ++ rebuild 14 14 6 ++ [iBrx 0]

/-- The wait stub: g0 = W or an entry that was W, g1 = E. Instruction 9 starts a poll, 16 follows one that
read W, 26 one that did not. -/
def waitStub : List Instr :=
  [iLdi 0 65536 false, .save stubCtl (stubQ3 (stubG 0) noSrc noSrc .i8 false 0x17)] ++ rebuild 7 7 7 ++
  [.nap stubGrp (stubSy 256), iLoad 1 true, iXor 0 1, iMinOne 0, iLea 3 (8 * 16), iMad 1 80 0, iBrx 0] ++
  rebuild 11 11 11 ++ [.loop stubGrp (stubBr noSrc 7 (-15)), iTrap 1, iBra (-26)] ++
  rebuild 11 11 10 ++ [iBrx 0]

/-- The word of an instruction. -/
def stubWord (i : Instr) : Word := (encode i).getD 0

/-- Write instructions at a location. -/
def writeCode (s : State) (l : Loc) (is : List Instr) : State :=
  deviceWrite s l (is.flatMap fun i => bytesOf 8 (stubWord i).toNat)

/-- Bytes from the start of the resolver to the end of the wait stub. -/
def stubBytes : Nat := waitOffset + 8 * waitStub.length

/-- Both stubs, at `l`. -/
def writeStubs (s : State) (l : Loc) : State := writeCode (writeCode s l resolver) (l.plus waitOffset) waitStub

end Sys2Proof.Machine
end

