-- ==== Sys2Proof/Machine/Loader.lean ====
section
/-! DEFINITION. The life of a code object (R302, R309, R311, R427): LOAD and UNLOAD, the end of a load,
linkage entries and the export table, and the drained object. -/

namespace Sys2Proof.Machine

/-! ### The export table and linkage (R311, R427) -/

/-- The definition that stands for a name: the earliest READY object's. -/
def lookupExport (s : State) (ctx : Nat) (name : List Byte) : Option Word :=
  (s.objs.filter fun o => o.ctx == ctx && o.st == .ready).findSome? fun o =>
    (o.exports.find? fun x => x.1 == name).map (·.2)

/-- The word from which the resolver learns the definition of an entry's symbol (log 33). -/
def shadowAddr (a : Nat) : Nat := a ^^^ 2 ^ 54

/-- Write a word at a virtual address of a context, where its page is mapped. -/
def writeVirt (s : State) (ctx va : Nat) (v : Word) : State :=
  match virtLoc s ctx va with
  | some l => deviceWord s l v
  | none => s

/-- Bring the resolver's words of a context up to date with its export table. -/
def refreshExports (s : State) (ctx : Nat) : State :=
  (s.objs.filter fun o => o.ctx == ctx).foldl (fun s o => o.linkage.foldl (fun s e =>
    writeVirt s ctx (shadowAddr e.addr) (match lookupExport s ctx e.name with
      | some t => t + 1
      | none => 0)) s) s

/-! ### Memory in use -/

/-- A table of a context: where the entry that names it stands (none for level 1), its frame, the first
virtual page below it. -/
structure TableAt where
  entry : Option Loc
  frame : Nat
  vpn : Nat
deriving DecidableEq, Repr

/-- The entries of a table that are not zero, by their indexes. -/
def entriesIn (s : State) (table : Nat) : List Nat :=
  ((s.dev.filter fun c => table ≤ c.1 && c.1 < table + 65536).map fun c => (c.1 - table) / 8).eraseDups

/-- The tables below one table at a level. -/
def tablesBelow (s : State) (table level vpn : Nat) : List TableAt :=
  (entriesIn s table).filterMap fun i =>
    let l := Loc.dev (table + 8 * i)
    let e := readWord s l
    if pteKind level e = .table ∧ !ptePSN e then
      some ⟨some l, pteFrame e, vpn + i * 2 ^ (13 * (3 - level))⟩
    else none

/-- Every table of a context, the higher levels first; level 3 tables are the last list. -/
def tablesOf (s : State) (c : Context) : List TableAt × List TableAt :=
  if c.root / 2048 % 2 = 1 then ([], []) else
  let l2 := tablesBelow s c.root 1 0
  (⟨none, c.root, 0⟩ :: l2, l2.flatMap fun t => tablesBelow s t.frame 2 t.vpn)

/-- The entries of a table that stand for something other than a table: the first virtual page and their number. -/
def blockedAt (s : State) (table level vpn : Nat) : List (Nat × Nat) :=
  (entriesIn s table).filterMap fun i =>
    let e := readWord s (.dev (table + 8 * i))
    let n := 2 ^ (13 * (3 - level))
    if pteKind level e = .unmapped ∨ (pteKind level e = .table ∧ !ptePSN e) then none else some (vpn + i * n, n)

/-- The ranges of a context's virtual pages that are mapped, sparse, malformed or behind a stranded table. -/
def blockedPages (s : State) (c : Context) : List (Nat × Nat) :=
  if c.root / 2048 % 2 = 1 then [(0, 2 ^ 39)] else
  let t := tablesOf s c
  blockedAt s c.root 1 0 ++ ((t.1.drop 1).flatMap fun x => blockedAt s x.frame 2 x.vpn) ++
    t.2.flatMap fun x => blockedAt s x.frame 3 x.vpn

/-- The device memory of the leaves below a table: base and size. -/
def framesBelow (s : State) (level : Nat) (x : TableAt) : List (Nat × Nat) :=
  (entriesIn s x.frame).filterMap fun i =>
    let e := readWord s (.dev (x.frame + 8 * i))
    if pteHOST e then none
    else if level = 2 ∧ pteKind 2 e = .large then some (pteFrame e, 2 ^ 29)
    else if level = 3 ∧ pteKind 3 e = .page then some (pteFrame e, 65536) else none

/-- A context uses a frame: for a table or a page, or in its commit pool. -/
def frameUsed (s : State) (f : Nat) (c : Context) : Bool :=
  let t := tablesOf s c
  (c.pool.any fun l => l.contains f) || ((t.1 ++ t.2).any fun x => x.frame == f) ||
  ((t.1.drop 1).flatMap (framesBelow s 2) ++ t.2.flatMap (framesBelow s 3)).any fun l => l.1 ≤ f && f < l.1 + l.2

/-- A frame that neither a context nor the evacuation reserve has. -/
def frameFree (s : State) (f : Nat) : Bool := !s.evacReserve.contains f && !s.ctxs.any (frameUsed s f)

/-! ### Placement (R303, R309) -/

/-- The pages of a section placed with a bias. -/
def secPages (bias : Nat) (c : Sec) : List Nat :=
  if c.size = 0 then [] else
  let a := (c.addr + bias) / 65536
  (upTo ((c.addr + bias + c.size - 1) / 65536 + 1 - a)).map (a + ·)

def mappedSecs (secs : List Sec) : List Sec := secs.filter (·.mapped)
/-- An object's own pages, and the pages of the words that the resolver reads. -/
def objectPages (secs : List Sec) (bias : Nat) : List Nat := ((mappedSecs secs).flatMap (secPages bias)).eraseDups
def shadowPages (secs : List Sec) (bias : Nat) : List Nat :=
  (((mappedSecs secs).filter (·.isLink)).flatMap (secPages bias)).eraseDups.map (· ^^^ 2 ^ 38)

/-- Permissions of a page: what any section on it needs. -/
def pagePerm (e : Elf) (bias p : Nat) : Nat :=
  let on := (mappedSecs e.secs).filter fun c => (secPages bias c).contains p
  16 * b2n (on.any (·.writes)) + 32 * b2n (on.any (·.executes))

/-- The leaf of a page: valid, readable, homed where its frame lies (R361). -/
def leafEntry (frame perm : Nat) : Word := BitVec.ofNat 64 (frame + 2 ^ 12 * homeOf frame + 11 + perm)

/-- Follow a table entry, or put a new table in its place. -/
def descend (s : State) (tables : List Nat) (level : Nat) (e : Loc × Word) : Option (State × List Nat × Nat) :=
  match pteKind level e.2, tables with
  | .table, ts => if ptePSN e.2 then none else some (s, ts, pteFrame e.2)
  | .unmapped, t :: ts => some (deviceWord (zeroFrame s t) e.1 (BitVec.ofNat 64 (t + 1)), ts, t)
  | _, _ => none

/-- Map one page that is not mapped, with what new tables it takes. -/
def mapPage (s : State) (root : Nat) (tables : List Nat) (page : Nat) (leaf : Word) : Option (State × List Nat) := do
  let va := page * 65536
  let a ← descend s tables 1 (walkAt s root 1 va)
  let b ← descend a.1 a.2.1 2 (walkAt a.1 a.2.2 2 va)
  let e := walkAt b.1 b.2.2 3 va
  if pteKind 3 e.2 = .unmapped then some (deviceWord b.1 e.1 leaf, b.2.1) else none

/-- Map pages to the plan's frames, which read as zero at first. -/
def mapPages (root : Nat) : State → List Nat → List (Nat × Nat) → List Nat → Option State
  | s, _, [], _ => some s
  | _, _, _ :: _, [] => none
  | s, ts, (p, perm) :: ps, f :: fs => do
    let r ← mapPage (zeroFrame s f) root ts p (leafEntry f perm)
    mapPages root r.1 r.2 ps fs

/-- The pages that a load maps, with their permissions: the stubs' first, when the context has none. -/
def loadPages (c : Context) (e : Elf) (bias : Nat) (plan : LoadPlan) : List (Nat × Nat) :=
  (if c.stub.isNone then [(plan.stub / 65536, 32)] else []) ++
  (objectPages e.secs bias).map (fun p => (p, pagePerm e bias p)) ++ (shadowPages e.secs bias).map fun p => (p, 0)

/-- Frames that a load can use: whole frames of online bents that are free, each once. -/
def framesOk (s : State) (fs : List Nat) : Bool :=
  fs.eraseDups.length == fs.length &&
  fs.all fun f => f % 65536 == 0 && f < 2 ^ 40 && (getBent s (homeOf f)).online && frameFree s f

/-- A page of the context's address space on which nothing is. -/
def pageFree (s : State) (c : Context) (p : Nat) : Bool :=
  let w := walkFrom s c.root (p * 65536)
  p < 2 ^ 39 && w.kind == .unmapped && !w.poisoned

/-- The pages that sections take with a bias, the resolver's words among them. -/
def takenPages (secs : List Sec) (bias : Nat) : List Nat := objectPages secs bias ++ shadowPages secs bias

/-- Sections have room in a context's address space with a bias (R302). -/
def sitsAt (s : State) (c : Context) (secs : List Sec) (bias : Nat) : Bool :=
  let ps := takenPages secs bias
  bias % 65536 == 0 && ((mappedSecs secs).all fun x => x.align ≤ 1 || bias % x.align == 0) &&
  ps.eraseDups.length == ps.length && ps.all (pageFree s c)

/-- The stubs have room in the page that a plan names, whatever the object takes. -/
def stubFits (s : State) (c : Context) (secs : List Sec) (bias stub : Nat) : Bool :=
  stub % 8 == 0 && stub % 65536 + stubBytes ≤ 65536 && pageFree s c (stub / 65536) &&
  !(takenPages secs bias).contains (stub / 65536)

/-- The plan places the object on unmapped pages, and in free frames (R302). -/
def planOk (s : State) (c : Context) (e : Elf) (bias : Nat) (plan : LoadPlan) : Bool :=
  sitsAt s c e.secs bias && (c.stub.isSome || stubFits s c e.secs bias plan.stub) && framesOk s (plan.frames ++ plan.tables)

/-! ### The end of a load (R309) -/

def writeVirtBytes (s : State) (ctx va : Nat) (bs : List Byte) : State :=
  (bs.zipIdx).foldl (fun s b => match virtLoc s ctx (va + b.2) with
    | some l => deviceWrite s l [b.1]
    | none => s) s

/-- A section has bytes of its own: it is stored, or a record relocates a place in it (R306). -/
def written (e : Elf) (i : Nat) : Bool :=
  (secAt e.secs i).stored || e.rels.any fun r => match r with
    | .patch j _ _ => j == i
    | .link .. => false

/-- Copy the sections, as relocation leaves them, to their addresses. -/
def placeSections (s : State) (ctx : Nat) (im : Image) (e : Elf) (bias : Nat) : State :=
  ((upTo e.secs.length).filter fun i => (secAt e.secs i).mapped && written e i).foldl (fun s i =>
    writeVirtBytes s ctx ((secAt e.secs i).addr + bias) (secBytes im e.secs e.rels i)) s

/-- Linkage entries of an object with what Complete writes into them (R311). -/
def linkWords (e : Elf) (stub : Nat) : List (LinkEntry × Word) :=
  e.rels.filterMap fun r => match r with
    | .link l t => some (l, if l.own then t else BitVec.ofNat 64 stub)
    | .patch .. => none

/-- Invalidate the lines of text as ICINV does (R309, R315). -/
def dropText (s : State) (ctx : Nat) (text : List (Nat × Nat)) : State :=
  match getCtx s ctx with
  | none => s
  | some c => text.foldl (fun s t => icinvRange s c.asid c.ranks ctx t.1 ((t.1 % 128 + t.2 + 127) / 128)) s

/-- The status that a load reports, and the object's number (R390). -/
def loadResult (st num : Nat) : Nat := st + 2 ^ 8 * num

/-- Apply an Unload (R309, R390). -/
def applyUnload (s : State) (ctx num index : Nat) (p : Packet) : State :=
  match getObj s ctx num with
  | some o =>
    if o.st = .ready then
      let ts := (s.teams.filter fun t => t.ctx == ctx).map (·.no)
      let s := modObj s ctx num fun o => { o with st := .draining, before := ts }
      completeIn (refreshExports s ctx) ctx p.q index 0 0x06 false p.tag 0 p.nocpl
    else completeIn s ctx p.q index 0x24 0x06 false p.tag 0 p.nocpl
  | none => completeIn s ctx p.q index 0x24 0x06 false p.tag 0 p.nocpl

/-- The packets that waited for the load act, in their order; those that still wait stay with the object, so that
their queues do not end before them (R392). -/
def applyHeld (ctx num : Nat) : List (Nat × Nat × List Word) → State → State
  | [], s => s
  | h :: r, s =>
    let s := modObj s ctx num fun o => { o with held := r }
    let p : Packet := { q := h.1, words := h.2.2 }
    applyHeld ctx num r (if p.kind = 6 then applyUnload s ctx num h.2.1 p else createSlice s ctx h.1 h.2.1 p)

/-- The READY object; it goes behind those that became READY before it. -/
def readyObject (o : CodeObj) (e : Elf) (bias : Nat) (links : List (LinkEntry × Word)) : CodeObj :=
  { o with st := .ready, kernels := e.kernels, exports := e.exports, linkage := links.map (·.1),
           mapped := takenPages e.secs bias, text := e.text, notes := e.notes }

/-- The bias of an object under a plan (R302). -/
def loadBias (im : Image) (plan : LoadPlan) : Nat := if im 16 2 = some 2 then 0 else plan.vbase

/-- R309: the load ends well. -/
def execLoadComplete (ctx obj : Nat) (plan : LoadPlan) (s : State) : Res :=
  match getCtx s ctx, getObj s ctx obj with
  | some c, some o =>
    if o.st ≠ .loading then .next s
    else
      let im := imageOf s o.image o.len
      let bias := loadBias im plan
      (match readElf im bias with
       | .error _ => .next s
       | .ok e =>
         if !planOk s c e bias plan then .next s
         else match mapPages c.root s plan.tables (loadPages c e bias plan) plan.frames with
           | none => .next s
           | some t =>
             let stub := c.stub.getD plan.stub
             let t := if c.stub.isSome then t else match virtLoc t ctx stub with
               | some l => writeStubs t l
               | none => t
             let t := modCtx t ctx fun c => { c with stub := some stub }
             let t := placeSections t ctx im e bias
             let links := linkWords e stub
             let t := links.foldl (fun t l => writeVirt t ctx l.1.addr l.2) t
             let t := dropText t ctx e.text
             let t := { t with objs := (t.objs.filter fun x => !(x.ctx == ctx && x.num == obj)) ++
                                 [readyObject o e bias links] }
             let t := refreshExports t ctx
             .next (applyHeld ctx obj o.held
               (completeIn t ctx o.q o.index 0 0x05 false o.tag (loadResult 0 obj) o.nocpl)))
  | _, _ => .next s

/-- The lowest multiple of `a` from `n` on. -/
def roundUp (n a : Nat) : Nat := (n + a - 1) / a * a

/-- The alignment of a shared object's placement. -/
def placeAlign (secs : List Sec) : Nat := (mappedSecs secs).foldl (fun a x => Nat.max a x.align) 65536

/-- The lowest placements that can lie in a free range: at 0, or just behind what is mapped. -/
def placeTries (s : State) (c : Context) (secs : List Sec) : List Nat :=
  0 :: (blockedPages s c).flatMap fun r =>
    (takenPages secs 0).map fun p => roundUp ((r.1 + r.2 - p) * 65536) (placeAlign secs)

/-- Frames that a load needs: its pages, and the tables that lead to them and are missing. -/
def framesNeeded (s : State) (c : Context) (e : Elf) (bias stub : Nat) : Nat :=
  let ps := takenPages e.secs bias ++ if c.stub.isNone then [stub / 65536] else []
  let level (p : Nat) := (walkFrom s c.root (p * 65536)).level
  ps.length + ((ps.filter fun p => level p == 1).map (· / 2 ^ 26)).eraseDups.length +
    ((ps.filter fun p => level p ≤ 2).map (· / 2 ^ 13)).eraseDups.length

/-- The status with which a load ends (R302): that of the checks at the placement that the loader chose, else
LOAD_NOMEM where the object has no room there or the loader has too few frames or names (log 71); 0 where nothing
fails. A shared object for which no free range exists passes the other checks at its link addresses. -/
def loadStatus (s : State) (c : Context) (im : Image) (tried : LoadTry) : Nat :=
  let exec : Bool := im 16 2 == some 2
  let secs := (readSecs im).getD []
  let bias := if exec then 0 else tried.vbase
  if exec || sitsAt s c secs bias then
    (match readElf im bias with
     | .error k => k
     | .ok e =>
       if !sitsAt s c secs bias || tried.frames < framesNeeded s c e bias tried.stub || tried.names < e.exports.length then 7
       else 0)
  else if (placeTries s c secs).any (sitsAt s c secs) then (if formatOk im then 0 else 1)
  else match readElf im 0 with
    | .error k => k
    | .ok _ => 7

/-- R302: the load fails, and the object leaves no trace. The packets that waited for it find no object that is READY
(R309). -/
def execLoadReject (ctx obj : Nat) (tried : LoadTry) (s : State) : Res :=
  match getCtx s ctx, getObj s ctx obj with
  | some c, some o =>
    if o.st ≠ .loading then .next s
    else
      let st := loadStatus s c (imageOf s o.image o.len) tried
      if st = 0 then .next s
      else
        let s := completeIn s ctx o.q o.index 0 0x05 false o.tag (loadResult st obj) o.nocpl
        let s := applyHeld ctx obj o.held s
        .next { s with objs := s.objs.filter fun x => !(x.ctx == ctx && x.num == obj) }
  | _, _ => .next s

/-! ### LOAD and UNLOAD (R302, R309, R390) -/

def loadPacketBody (p : Packet) (s : State) (qu : Queue) (index : Nat) : Taken :=
  match physLoc (p.word 1), getCtx s qu.ctx with
  | some _, some c =>
    let o : CodeObj :=
      { ctx := c.id, num := c.nextObj, st := .loading, image := p.word 1, len := (p.word 2).toNat, q := p.q, index,
        tag := p.tag, nocpl := p.nocpl, kernels := [], exports := [], linkage := [], mapped := [], text := [],
        notes := [], held := [], before := [] }
    .later (modCtx { s with objs := s.objs ++ [o] } c.id fun c => { c with nextObj := (c.nextObj + 1) % 2 ^ 24 })
  | none, _ => .ends s 3 0
  | _, none => .ends s 5 0

/-- R302. -/
def execLoad (p : Packet) (s : State) : Res := packet p (loadPacketBody p) s

def unloadPacketBody (p : Packet) (s : State) (qu : Queue) (index : Nat) : Taken :=
  let num := bitsOf (p.word 1) 23 0
  match getObj s qu.ctx num with
  | some o =>
    if o.st = .loading then .later (holdPacket s qu.ctx num index p) else .later (applyUnload s qu.ctx num index p)
  | none => .ends s 0x24 0

/-- R309. -/
def execUnload (p : Packet) (s : State) : Res := packet p (unloadPacketBody p) s

/-! ### The drained object (R309, R427) -/

/-- An entry's value points into the object. -/
def boundInto (s : State) (o : CodeObj) (e : LinkEntry) : Bool :=
  match virtLoc s o.ctx e.addr with
  | some l => let v := readWord s l; globalFormed v && o.mapped.contains (bitsOf v 54 16)
  | none => false

/-- Unmap a page of an object. -/
def unmapPage (s : State) (c : Context) (p : Nat) : State :=
  let w := walkFrom s c.root (p * 65536)
  if w.kind = .page then removeRange (deviceWord s w.at' 0) c.asid p 1 else s

/-- R309: no team launched before the Unload remains. -/
def execCodeObjectDrained (ctx obj : Nat) (s : State) : Res :=
  match getCtx s ctx, getObj s ctx obj with
  | some c, some o =>
    if o.st ≠ .draining ∨ !o.before.isEmpty then .next s
    else
      let es := (s.objs.filter fun x => x.ctx == ctx).flatMap (·.linkage)
      let s := (es.filter (boundInto s o)).foldl (fun s e =>
        writeVirt s ctx e.addr (BitVec.ofNat 64 (c.stub.getD 0))) s
      let s := dropText s ctx o.text
      let s := o.mapped.foldl (fun s p => unmapPage s c p) s
      .next { s with objs := s.objs.filter fun x => !(x.ctx == ctx && x.num == obj) }
  | _, _ => .next s

end Sys2Proof.Machine
end

