-- ==== Sys2Proof/Machine/Admin.lean ====
section
/-! DEFINITION. The packets that act on contexts, translations, pools and faults (R390), and the census
(R395). -/

namespace Sys2Proof.Machine

/-! ### Contexts (R337, R363, R390) -/

/-- The lowest free context id; 0 is the admin queue's. -/
def freeCtxId (s : State) : Option Nat := ((upTo 65536).drop 1).find? fun i => (getCtx s i).isNone

/-- The fields of a CTXNEW and of its address-space record lie in their limits (R363, R390). -/
def ctxRecordOk (s : State) (p : Packet) (l : Loc) : Bool :=
  let root := readNat s l 8
  root % 65536 == 0 && root < 2 ^ 40 && readNat s (l.plus 8) 2 < 2 ^ 12 && readNat s (l.plus 10) 2 == 0 &&
  readNat s (l.plus 12) 4 < 2 && 1 ≤ bitsOf (p.word 4) 39 32 && bitsOf (p.word 4) 39 32 ≤ 192 &&
  (physLoc (p.word 5)).isSome && 4 ≤ bitsOf (p.word 6) 3 0

/-- The context that a CTXNEW creates, with the effective PRIO of its root region (R320, R336). -/
def newContext (s : State) (p : Packet) (l : Loc) (id : Nat) (r : Rcb) : Context :=
  { id, st := .idle, root := readNat s l 8, asid := readNat s (l.plus 8) 2, gen := 0,
    evac := readNat s (l.plus 12) 4 % 2 == 1, rcb := p.word 2, prio := (effective 0 [r]).prio, tvec := p.word 3,
    wdog := BitVec.ofNat 32 (bitsOf (p.word 4) 31 0), ncl := bitsOf (p.word 4) 39 32, fring := p.word 5,
    lgf := bitsOf (p.word 6) 3 0, fcount := 0, nextSeq := 0, nextObj := 1, ranks := [], savedRanks := 0, ts := none,
    th := none, thSet := 0, hard := false, req := s.nextId, destroy := false, shadow := [],
    pool := List.replicate 8 [], stub := none, dels := [] }

/-- The root region of a CTXNEW, where it is one (R390). -/
def rootRcb (s : State) (p : Packet) (l : Loc) : Option Rcb :=
  match readRcb s (readNat s l 8) (p.word 2) with
  | some r => if r.ver = 1 ∧ !r.rsv ∧ r.parent = 0 then some r else none
  | none => none

def ctxnewBody (p : Packet) (s : State) : Taken :=
  match physLoc (p.word 1) with
  | none => .ends s 3 0
  | some l =>
    if !ctxRecordOk s p l then .ends s 3 0
    else match rootRcb s p l with
      | none => .ends s 3 0
      | some r =>
        if s.ctxs.any fun c => c.asid == readNat s (l.plus 8) 2 then .ends s 6 0
        else match freeCtxId s with
          | none => .ends s 6 0
          | some id => .ends { s with ctxs := s.ctxs ++ [newContext s p l id r], nextId := s.nextId + 1 } 0 id

/-- R390. -/
def execCtxnew (p : Packet) (s : State) : Res := packet p (fun s _ _ => ctxnewBody p s) s

/-- R337, R390: where a forced reset has to finish first, the packet ends with it. A reset that no Destroy caused goes
on as it was. -/
def ctxdelBody (p : Packet) (s : State) (index : Nat) : Taken :=
  let id := bitsOf (p.word 1) 15 0
  if (getCtx s id).isNone then .ends s 5 0
  else
    let s := destroyContext s id
    match getCtx s id with
    | none => .ends s 0 0
    | some c =>
      if c.destroy then .later (modCtx s id fun c => { c with dels := c.dels ++ [(p.q, index, p.tag, p.nocpl)] })
      else .ends s 0 0

/-- R337, R390. -/
def execCtxdel (p : Packet) (s : State) : Res := packet p (fun s _ i => ctxdelBody p s i) s

/-- R349, R390. -/
def execPreempt (p : Packet) (s : State) : Res :=
  packet p (fun s qu _ =>
    .ends (preempt s qu.ctx (bitAt (p.word 1) 0) (bitsOf (p.word 2) 31 0) (bitsOf (p.word 2) 63 32)) 0 0) s

/-! ### Translations, faults (R368, R376, R390) -/

/-- The range of a TINVQ: first page and pages, 0 for the whole context. -/
def tinvqRange (p : Packet) : Except Cause (Nat × Nat) :=
  let n := bitsOf (p.word 2) 15 0
  if n = 0 then .ok (0, 0) else match pageRange (p.word 1) n with
    | .ok a => .ok (a, n)
    | .error c => .error c

/-- No access in flight holds up the invalidation of a TINVQ. -/
def tinvqReady (s : State) (p : Packet) : Bool :=
  match getQueue s p.q, tinvqRange p with
  | some qu, .ok r => invalidateReady s qu.ctx r.1 r.2
  | _, _ => true

/-- R368, R390: the packet is taken once the accesses that it waits for are performed. -/
def execTinvq (p : Packet) (s : State) : Res :=
  if acts s p && !tinvqReady s p then .next s
  else packet p (fun s qu _ => match tinvqRange p with
    | .error _ => .ends s 3 0
    | .ok r => .ends (invalidate s qu.ctx r.1 r.2) 0 0) s

/-- A suspended group whose fault can be retried with success: an unmapped page, or a remote fault that
system software has served (R376, R402). -/
def retryServes (s : State) (g : Group) : Bool :=
  match g.fault with
  | some (va, kind) => g.wreason == .pflt && (ptrSpace va != 0 || faultServed s g.ctx va kind)
  | none => false

/-- R376, R390. -/
def execRetry (p : Packet) (s : State) : Res :=
  packet p (fun s qu _ => match groupOfHandle s qu.ctx (p.word 1) with
    | some g => .ends (if retryServes s g then modGroup s g.gid fun g => { g with served := true } else s) 0 0
    | none => .ends s 0 0) s

/-! ### Commit pools (R370, R390) -/

/-- The frame addresses of a POOL's array. -/
def poolArray (s : State) (l : Loc) (n : Nat) : List Nat := (upTo n).map fun i => readNat s (l.plus (8 * i)) 8

/-- R370, R390. -/
def execPoolAdd (p : Packet) (s : State) : Res :=
  packet p (fun s _ _ =>
    let id := bitsOf (p.word 1) 15 0
    match getCtx s id, physLoc (p.word 2) with
    | none, _ => .ends s 5 0
    | _, none => .ends s 3 0
    | some _, some l =>
      let n := bitsOf (p.word 3) 31 0
      let fs := poolArray s l n
      if fs.all fun f => f % 65536 == 0 && f < 2 ^ 40 then .ends (fs.foldl (fun s f => giveFrame s id f) s) 0 n
      else .ends s 3 0) s

/-- Take up to `n` frames, bent by bent from the head of each list, into an array. -/
def takeFrames (ctx : Nat) : Nat → Nat → State → Loc → State × Nat
  | 0, k, s, _ => (s, k)
  | n + 1, k, s, l =>
    let pool := match getCtx s ctx with | some c => c.pool | none => []
    match firstFrame pool (upTo 8) with
    | none => (s, k)
    | some (b, f) => takeFrames ctx n (k + 1) (deviceNat (takeFrame s ctx b) (l.plus (8 * k)) 8 f) l

/-- Frames in a pool. -/
def poolCount (c : Context) : Nat := (c.pool.map List.length).sum

/-- R370, R390. -/
def execPoolTake (p : Packet) (s : State) : Res :=
  packet p (fun s _ _ =>
    let id := bitsOf (p.word 1) 15 0
    match getCtx s id, physLoc (p.word 2) with
    | none, _ => .ends s 5 0
    | _, none => .ends s 3 0
    | some c, some l =>
      let r := takeFrames id (Nat.min (bitsOf (p.word 3) 31 0) (poolCount c)) 0 s l
      .ends r.1 0 r.2) s

/-! ### The census (R395) -/

def CtxState.code : CtxState → Nat
  | .idle => 0 | .running => 1 | .draining => 2 | .saving => 3 | .saved => 4 | .resetting => 5
def QState.code : QState → Nat
  | .idle => 0 | .running => 1 | .blocked => 2 | .draining => 3
def ObjState.code : ObjState → Nat
  | .loading => 0 | .ready => 1 | .draining => 2
def SliceState.code : SliceState → Nat
  | .waiting => 0 | .launching => 1 | .launched => 2 | .done => 3 | .killed => 4

/-- One live entity: which table it has, its ids, its state as a place in that table. -/
def censusEntities (s : State) : List (Nat × Nat × Nat × Nat) :=
  s.ctxs.map (fun c => (0, c.id, 0, c.st.code)) ++ s.queues.map (fun q => (1, q.ctx, q.id, q.st.code)) ++
  s.objs.map (fun o => (2, o.ctx, o.num, o.st.code)) ++
  (s.slices.filter fun x => x.st.live).map fun x => (3, x.ctx, x.seq, x.st.code)

/-- The 32 bytes of an entity: the type in [7:0]; the state code in [15:8], the context in [31:16] and the number in
[63:32], which is the model's choice of places (log 105). -/
def censusBytes (e : Nat × Nat × Nat × Nat) : List Byte :=
  bytesOf 32 ((Config.censusType e.1).toNat + 2 ^ 8 * (Config.censusState e.1 e.2.2.2).toNat +
    2 ^ 16 * (e.2.1 % 2 ^ 16) + 2 ^ 32 * (e.2.2.1 % 2 ^ 32))

/-- R395. -/
def execCensus (p : Packet) (s : State) : Res :=
  packet p (fun s qu index => match physLoc (p.word 1) with
    | none => .ends s 3 0
    | some l =>
      let es := censusEntities s
      if bitsOf (p.word 2) 31 0 < 32 * es.length then .ends s 3 0
      else
        let s := journal s 9 0 qu.ctx qu.id index p.tag [(p.word 1).toNat]
        .ends (deviceWrite s l (es.flatMap censusBytes)) 0 es.length) s

end Sys2Proof.Machine
end

