-- ==== Sys2Proof/Machine/Integer.lean ====
section
/-! DEFINITION. Integer arithmetic (R133 to R137), logic and bit fields (R138 to R141), dot products and
requantisation (R142, R143), pointers (R144 to R146). Each computes one entry a lane from its operands. -/

namespace Sys2Proof.Machine

abbrev LaneFn := Group → Nat → List Quad → Quad × Nat

def args1 (f : Q3) : List Arg := [.src f.sa]
def args2 (f : Q3) : List Arg := [.src f.sa, argB f]
def args3 (f : Q3) : List Arg := [.src f.sa, argB f, .src f.sc]

/-- Element by element on integers: the exact result, wrapped or clamped (R133). -/
def intFn (f : Q3) (op : Int → Int → Int → Int) : LaneFn := fun _ _ xs =>
  elementwise f.ty fun j => fitInt f.ty.signed f.ty.width f.sat
    (op (elemInt f.ty (opnd xs 0) j) (elemInt f.ty (opnd xs 1) j) (elemInt f.ty (opnd xs 2) j))

/-! ### Arithmetic -/

/-- R133. -/
def execAdd (c : Ctl) (f : Q3) (s : State) : Res :=
  issue (.add c f) c (valueBody c (args2 f) (intFn f fun a b _ => a + b)) s
/-- R133. -/
def execSub (c : Ctl) (f : Q3) (s : State) : Res :=
  issue (.sub c f) c (valueBody c (args2 f) (intFn f fun a b _ => a - b)) s
/-- R133. -/
def execMul (c : Ctl) (f : Q3) (s : State) : Res :=
  issue (.mul c f) c (valueBody c (args2 f) (intFn f fun a b _ => a * b)) s
/-- R134: the high half of the exact product. -/
def execMulh (c : Ctl) (f : Q3) (s : State) : Res :=
  issue (.mulh c f) c (valueBody c (args2 f) (intFn f fun a b _ => a * b / (2 ^ f.ty.width : Nat))) s
/-- R133. -/
def execMad (c : Ctl) (f : Q3) (s : State) : Res :=
  issue (.mad c f) c (valueBody c (args3 f) (intFn f fun a b d => a * b + d)) s

/-- a × b + c at twice the width (R134). -/
def madwFn (f : Q3) : LaneFn := fun _ _ xs =>
  let w := 2 * f.ty.width
  let d := opnd xs 2
  let cv : Int := if f.ty.signed then sxNat w d.toNat else (d.toNat % 2 ^ w : Nat)
  let r := fitInt f.ty.signed w f.sat (elemInt f.ty (opnd xs 0) 0 * elemInt f.ty (opnd xs 1) 0 + cv)
  (quadOf r.1, r.2)

/-- R134. -/
def execMadw (c : Ctl) (f : Q3) (s : State) : Res :=
  issue (.madw c f) c (valueBody c (args3 f) (madwFn f)) s
/-- R133. -/
def execMin (c : Ctl) (f : Q3) (s : State) : Res :=
  issue (.min c f) c (valueBody c (args2 f) (intFn f fun a b _ => if a ≤ b then a else b)) s
/-- R133. -/
def execMax (c : Ctl) (f : Q3) (s : State) : Res :=
  issue (.max c f) c (valueBody c (args2 f) (intFn f fun a b _ => if a ≤ b then b else a)) s
/-- R135. -/
def execAbs (c : Ctl) (f : Q3) (s : State) : Res :=
  issue (.abs c f) c (valueBody c (args1 f) (intFn f fun a _ _ => a.natAbs)) s
/-- R135. -/
def execNeg (c : Ctl) (f : Q3) (s : State) : Res :=
  issue (.neg c f) c (valueBody c (args1 f) (intFn f fun a _ _ => -a)) s
/-- R135. -/
def execAdif (c : Ctl) (f : Q3) (s : State) : Res :=
  issue (.adif c f) c (valueBody c (args2 f) (intFn f fun a b _ => (a - b).natAbs)) s
/-- R135. -/
def execClamp (c : Ctl) (f : Q3) (s : State) : Res :=
  issue (.clamp c f) c (valueBody c (args3 f) (intFn f fun a b d => if a < b then b else if d < a then d else a)) s

/-- Quotient or remainder of one element: division by zero raises DZ (R136). -/
def divElem (t : Ty) (sat rem : Bool) (a b : Int) : Nat × Nat :=
  if b = 0 then (wrapInt t.width (if rem then a else -1), flDZ)
  else fitInt t.signed t.width sat (if rem then a.tmod b else a.tdiv b)

def divFn (f : Q3) (rem : Bool) : LaneFn := fun _ _ xs =>
  elementwise f.ty fun j => divElem f.ty f.sat rem (elemInt f.ty (opnd xs 0) j) (elemInt f.ty (opnd xs 1) j)

/-- R136. -/
def execDiv (c : Ctl) (f : Q3) (s : State) : Res :=
  issue (.div c f) c (valueBody c (args2 f) (divFn f false)) s
/-- R136. -/
def execRem (c : Ctl) (f : Q3) (s : State) : Res :=
  issue (.rem c f) c (valueBody c (args2 f) (divFn f true)) s

/-- The w + 1 bits of ADDX (R137). -/
def addxVal (w m a b k : Nat) : Nat :=
  if bitAt (BitVec.ofNat 4 m) 1 then (a + 2 ^ (w + 1) - b - k) % 2 ^ w + 2 ^ w * b2n (a < b + k)
  else (a + b + k) % 2 ^ (w + 1)

def addxFn (f : Q3) : LaneFn := fun _ _ xs =>
  let w := f.ty.width
  let k := if bitAt f.mod 0 then 0 else (opnd xs 2).toNat / 2 ^ w % 2
  (quadOf (addxVal w f.mod.toNat (elemAt w (opnd xs 0) 0) (elemAt w (opnd xs 1) 0) k), 0)

/-- R137. -/
def execAddx (c : Ctl) (f : Q3) (s : State) : Res :=
  issue (.addx c f) c (valueBody c (if bitAt f.mod 0 then args2 f else args3 f) (addxFn f)) s

/-! ### Logic and bit fields -/

/-- Element by element on plain binary elements. -/
def bitFn (f : Q3) (op : Nat → Nat → Nat → Nat) : LaneFn := fun _ _ xs =>
  let w := f.ty.width
  elementwise f.ty fun j => (op (elemAt w (opnd xs 0) j) (elemAt w (opnd xs 1) j) (elemAt w (opnd xs 2) j) % 2 ^ w, 0)

/-- All ones but the bits of `x`, in width `w`. -/
def notIn (w x : Nat) : Nat := 2 ^ w - 1 - x % 2 ^ w

/-- R138. -/
def execAnd (c : Ctl) (f : Q3) (s : State) : Res :=
  issue (.and c f) c (valueBody c (args2 f) (bitFn f fun a b _ => a &&& b)) s
/-- R138. -/
def execOr (c : Ctl) (f : Q3) (s : State) : Res :=
  issue (.or c f) c (valueBody c (args2 f) (bitFn f fun a b _ => a ||| b)) s
/-- R138. -/
def execXor (c : Ctl) (f : Q3) (s : State) : Res :=
  issue (.xor c f) c (valueBody c (args2 f) (bitFn f fun a b _ => a ^^^ b)) s
/-- R138. -/
def execAndn (c : Ctl) (f : Q3) (s : State) : Res :=
  issue (.andn c f) c (valueBody c (args2 f) (bitFn f fun a b _ => a &&& notIn f.ty.width b)) s
/-- R138. -/
def execNot (c : Ctl) (f : Q3) (s : State) : Res :=
  issue (.not c f) c (valueBody c (args1 f) (bitFn f fun a _ _ => notIn f.ty.width a)) s

/-- SHL with its clamp (R139). -/
def shlFn (f : Q3) : LaneFn := fun _ _ xs =>
  let w := f.ty.width
  elementwise f.ty fun j =>
    fitInt f.ty.signed w f.sat (elemInt f.ty (opnd xs 0) j * (2 ^ (elemAt w (opnd xs 1) j % 256) : Nat))

/-- R139. -/
def execShl (c : Ctl) (f : Q3) (s : State) : Res :=
  issue (.shl c f) c (valueBody c (args2 f) (shlFn f)) s
/-- R139. -/
def execShr (c : Ctl) (f : Q3) (s : State) : Res :=
  issue (.shr c f) c (valueBody c (args2 f) (bitFn f fun a b _ => a / 2 ^ (b % 256))) s

def sarFn (f : Q3) : LaneFn := fun _ _ xs =>
  let w := f.ty.width
  elementwise f.ty fun j =>
    (wrapInt w (elemInt f.ty (opnd xs 0) j / (2 ^ (elemAt w (opnd xs 1) j % 256) : Nat)), 0)

/-- R139. -/
def execSar (c : Ctl) (f : Q3) (s : State) : Res :=
  issue (.sar c f) c (valueBody c (args2 f) (sarFn f)) s

/-- Rotate left in width `w`. -/
def rotl (w a n : Nat) : Nat := (a * 2 ^ (n % w)) % 2 ^ w + a / 2 ^ (w - n % w)

/-- R139. -/
def execRol (c : Ctl) (f : Q3) (s : State) : Res :=
  issue (.rol c f) c (valueBody c (args2 f) (bitFn f fun a b _ => rotl f.ty.width a (b % 256))) s

/-- The field of BFE (R140). -/
def bfeVal (t : Ty) (a spec : Nat) : Nat :=
  let w := t.width
  let p := Nat.min (spec % 256) w
  let n := Nat.min (spec / 256 % 256) (w - p)
  let x := a / 2 ^ p % 2 ^ n
  if t.signed then wrapInt w (sxNat n x) else x

/-- R140: the position and length are the low 16 bits of operand b, or IMM16 itself. -/
def execBfe (c : Ctl) (f : Q3) (s : State) : Res :=
  issue (.bfe c f) c (valueBody c [.src f.sa, if f.imm then .imm (f.imm16.setWidth 128) else .src f.sb]
    fun _ _ xs => (quadOf (bfeVal f.ty (elemAt f.ty.width (opnd xs 0) 0) (opnd xs 1).toNat), 0)) s

/-- The insertion of BFI (R140). -/
def bfiVal (w a b spec : Nat) : Nat :=
  let p := Nat.min (spec % 256) w
  let n := Nat.min (spec / 256 % 256) (w - p)
  let m := (2 ^ n - 1) * 2 ^ p
  (a - (a &&& m)) + (b % 2 ^ n) * 2 ^ p

/-- R140. -/
def execBfi (c : Ctl) (f : Q3) (s : State) : Res :=
  issue (.bfi c f) c (valueBody c (args3 f) fun _ _ xs =>
    (quadOf (bfiVal f.ty.width (elemAt f.ty.width (opnd xs 0) 0) (elemAt f.ty.width (opnd xs 1) 0)
      (opnd xs 2).toNat), 0)) s

def popcount (w a : Nat) : Nat := (upTo w).foldl (fun n i => n + a / 2 ^ i % 2) 0
def leadingZeros (w a : Nat) : Nat := if a = 0 then w else w - 1 - Nat.log2 a
def reverseBits (w a : Nat) : Nat := (upTo w).foldl (fun r i => 2 * r + a / 2 ^ i % 2) 0

/-- R138. -/
def execPopc (c : Ctl) (f : Q3) (s : State) : Res :=
  issue (.popc c f) c (valueBody c (args1 f) (bitFn f fun a _ _ => popcount f.ty.width a)) s
/-- R138. -/
def execClz (c : Ctl) (f : Q3) (s : State) : Res :=
  issue (.clz c f) c (valueBody c (args1 f) (bitFn f fun a _ _ => leadingZeros f.ty.width a)) s
/-- R138. -/
def execBrev (c : Ctl) (f : Q3) (s : State) : Res :=
  issue (.brev c f) c (valueBody c (args1 f) (bitFn f fun a _ _ => reverseBits f.ty.width a)) s

/-- A truth table over three words (R141). -/
def tableBits (tt w a b d : Nat) : Nat :=
  (upTo w).foldl (fun r i =>
    r + tt / 2 ^ (4 * (d / 2 ^ i % 2) + 2 * (b / 2 ^ i % 2) + a / 2 ^ i % 2) % 2 * 2 ^ i) 0

/-- R141. -/
def execBtab (c : Ctl) (f : Q3) (s : State) : Res :=
  issue (.btab c f) c (valueBody c [.src f.sa, .src f.sb, .src f.sc]
    (bitFn f fun a b d => tableBits f.imm16.toNat f.ty.width a b d)) s

/-- The byte that a selector of BPIK builds (R141). -/
def pickByte (a b : Quad) (v : Nat) : Nat :=
  let x := if v % 32 < 16 then elemAt 8 a (v % 32) else elemAt 8 b (v % 32 - 16)
  match v / 32 % 4 with
  | 0 => x
  | 1 => 0
  | 2 => reverseBits 8 x
  | _ => 255 - x

/-- R141. -/
def execBpik (c : Ctl) (f : Q3) (s : State) : Res :=
  issue (.bpik c f) c (valueBody c [.src f.sa, .src f.sb, .src f.sc] fun _ _ xs =>
    (packElems 8 ((upTo 16).map fun i => pickByte (opnd xs 0) (opnd xs 1) (elemAt 8 (opnd xs 2) i)), 0)) s

/-! ### Dot products and RQS -/

/-- `n` products of elements a 32-bit lane (R142). -/
def dotFn (f : Q3) (n : Nat) : LaneFn := fun _ _ xs =>
  let w := f.ty.width
  let bs := !bitAt f.mod 0
  let rs := f.ty.signed || bs
  let num (sg : Bool) (w : Nat) (x : Quad) (j : Nat) : Int :=
    if sg then sxNat w (elemAt w x j) else (elemAt w x j : Nat)
  elementwise (if rs then .i32x4 else .n32x4) fun k =>
    fitInt rs 32 f.sat ((upTo n).foldl (fun t j =>
      t + num f.ty.signed w (opnd xs 0) (n * k + j) * num bs w (opnd xs 1) (n * k + j)) (num rs 32 (opnd xs 2) k))

/-- R142. -/
def execDot4 (c : Ctl) (f : Q3) (s : State) : Res :=
  issue (.dot4 c f) c (valueBody c [.src f.sa, .src f.sb, .src f.sc] (dotFn f 4)) s
/-- R142. -/
def execDot2 (c : Ctl) (f : Q3) (s : State) : Res :=
  issue (.dot2 c f) c (valueBody c [.src f.sa, .src f.sb, .src f.sc] (dotFn f 2)) s

/-- One element of RQS (R143). -/
def rqsElem (t : Ty) (sat : Bool) (v : FEnv) (a : Int) (b : Nat) : Nat × Nat :=
  let y := a * sxNat 32 b
  let r := roundAt v.rm v.idx (y < 0) y.natAbs (2 ^ (b / 2 ^ 32 % 64)) 0 0
  let x : Int := if y < 0 then -(r.1 : Int) else r.1
  let z := fitInt t.signed t.width sat (x + sxNat 16 (b / 2 ^ 48))
  (z.1, z.2 ||| (if r.2 then 0 else flNX))

def rqsFn (f : Q3) : LaneFn := fun g l xs =>
  let q := f.imm16.toNat % 4
  elementwise f.ty fun j =>
    if j / 4 = q then
      rqsElem f.ty f.sat (envAt g (effRm g f.rm) f.sat ((l * 4 + j % 4) % 32))
        (sxNat 32 (elemAt 32 (opnd xs 0) (j % 4))) (opnd xs 1).toNat
    else (elemAt f.ty.width (opnd xs 2) j, 0)

/-- R143. -/
def execRqs (c : Ctl) (f : Q3) (s : State) : Res :=
  issue (.rqs c f) c (valueBody c [.src f.sa, .src f.sb, .src f.sc] (rqsFn f)) s

/-! ### Pointers -/

/-- R144. -/
def execLeaReg (c : Ctl) (f : Q3) (s : State) : Res :=
  issue (.leaReg c f) c (valueBody c [.src f.sa, .src f.sb] fun _ _ xs =>
    ((ptrAdd ((opnd xs 0).setWidth 64) (elemInt f.ty (opnd xs 1) 0 * (2 ^ (f.imm16.toNat % 64) : Nat))).setWidth 128,
      0)) s

/-- The addend of the QI form (R144). -/
def leaAddend (f : QI) : Int :=
  (if f.z then (f.imm32.toNat : Int) else f.imm32.toInt) * (2 ^ (f.fn.toNat % 32) : Nat)

/-- R144. -/
def execLeaImm (c : Ctl) (f : QI) (s : State) : Res :=
  issue (.leaImm c f) c (valueBody c [.src f.sa] fun _ _ xs =>
    ((ptrAdd ((opnd xs 0).setWidth 64) (leaAddend f)).setWidth 128, 0)) s

/-- R145. -/
def ptagVal (m a b : Nat) : Nat :=
  match m with
  | 0 => a % 2 ^ 55
  | 1 => 1 * 2 ^ 61 + b % 2 ^ 13 * 2 ^ 48 + a % 2 ^ 48
  | 2 => 2 * 2 ^ 61 + b % 2 ^ 13 * 2 ^ 48 + a % 2 ^ 48
  | _ => 3 * 2 ^ 61 + b % 4 * 2 ^ 59 + a % 2 ^ 32

/-- R145. -/
def execPtag (c : Ctl) (f : Q3) (s : State) : Res :=
  issue (.ptag c f) c (valueBody c (if f.mod = 0 then args1 f else args2 f) fun _ _ xs =>
    (quadOf (ptagVal f.mod.toNat (opnd xs 0).toNat (opnd xs 1).toNat), 0)) s

/-- R146. -/
def pfldVal (m : Nat) (p : Word) : Nat :=
  let sp := ptrSpace p
  match m with
  | 0 => sp
  | 1 => if sp = 1 ∨ sp = 2 then bitsOf p 60 48 else if sp = 3 then bitsOf p 60 59 else 0
  | 2 =>
    if sp = 0 then bitsOf p 54 0 else if sp = 1 ∨ sp = 2 then bitsOf p 47 0
    else if sp = 3 then bitsOf p 31 0 else bitsOf p 60 0
  | _ => b2n (ptrFormed p && (sp != 1 || bitsOf p 22 0 < 0x600000))

/-- R146. -/
def execPfld (c : Ctl) (f : Q3) (s : State) : Res :=
  issue (.pfld c f) c (valueBody c (args1 f) fun _ _ xs =>
    (quadOf (pfldVal f.mod.toNat ((opnd xs 0).setWidth 64)), 0)) s

end Sys2Proof.Machine
end

