-- ==== Sys2Proof/Machine/FloatOps.lean ====
section
/-! DEFINITION. Floating-point arithmetic (R147 to R156): each instruction over the exact operations of
Float.lean, element by element. -/

namespace Sys2Proof.Machine

/-- Element `j` of an operand as a floating-point value. -/
def elemF (t : Ty) (v : FEnv) (x : Quad) (j : Nat) : FVal := fDecode (tyFmt t) v.ftzi (elemAt t.width x j)

/-- The rounding of element `j` of a thread (R30). -/
def elemEnv (g : Group) (f : Q3) (n l j : Nat) : FEnv := envAt g (effRm g f.rm) f.sat ((l * n + j) % 32)

/-- Negate when a MOD bit asks for it (R148). -/
def negIf (b : Bool) (x : FVal) : FVal := if b then x.negate else x

/-- Element by element on floating-point values, after the negations of MOD. -/
def floatFn (f : Q3) (op : FFmt → FEnv → FVal → FVal → FVal → Nat × Nat) : LaneFn := fun g l xs =>
  elementwise f.ty fun j =>
    let v := elemEnv g f f.ty.count l j
    op (tyFmt f.ty) v (negIf (bitAt f.mod 0) (elemF f.ty v (opnd xs 0) j))
      (negIf (bitAt f.mod 1) (elemF f.ty v (opnd xs 1) j)) (negIf (bitAt f.mod 2) (elemF f.ty v (opnd xs 2) j))

/-- a - b: a NaN keeps its sign (R24). -/
def fSub (fm : FFmt) (v : FEnv) (a b : FVal) : Nat × Nat := fAdd fm v a (if b.isNan then b else b.negate)

/-- R148. -/
def execFadd (c : Ctl) (f : Q3) (s : State) : Res :=
  issue (.fadd c f) c (valueBody c (args2 f) (floatFn f fun m v a b _ => fAdd m v a b)) s
/-- R148. -/
def execFsub (c : Ctl) (f : Q3) (s : State) : Res :=
  issue (.fsub c f) c (valueBody c (args2 f) (floatFn f fun m v a b _ => fSub m v a b)) s
/-- R148. -/
def execFmul (c : Ctl) (f : Q3) (s : State) : Res :=
  issue (.fmul c f) c (valueBody c (args2 f) (floatFn f fun m v a b _ => fMul m v a b)) s
/-- R148. -/
def execFma (c : Ctl) (f : Q3) (s : State) : Res :=
  issue (.fma c f) c (valueBody c (args3 f) (floatFn f fMa)) s

def minMaxFn (f : Q3) (mx : Bool) : LaneFn := fun g l xs =>
  elementwise f.ty fun j =>
    fMinMax (tyFmt f.ty) (elemEnv g f f.ty.count l j) mx (bitAt f.mod 0) (elemAt f.ty.width (opnd xs 0) j)
      (elemAt f.ty.width (opnd xs 1) j)

/-- R151. -/
def execFmin (c : Ctl) (f : Q3) (s : State) : Res :=
  issue (.fmin c f) c (valueBody c (args2 f) (minMaxFn f false)) s
/-- R151. -/
def execFmax (c : Ctl) (f : Q3) (s : State) : Res :=
  issue (.fmax c f) c (valueBody c (args2 f) (minMaxFn f true)) s

/-- R152. -/
def execFcmp (c : Ctl) (f : Q3) (s : State) : Res :=
  issue (.fcmp c f) c (predBody c f.pd (args2 f) fun g l xs =>
    let v := elemEnv g f 1 l 0
    fCompare (f.mod.toNat % 8) (bitAt f.mod 3) (elemF f.ty v (opnd xs 0) 0) (elemF f.ty v (opnd xs 1) 0)) s

/-- R153. -/
def execFcls (c : Ctl) (f : Q3) (s : State) : Res :=
  issue (.fcls c f) c (predBody c f.pd (args1 f) fun _ _ xs =>
    (bitAt f.imm16 (fClass (tyFmt f.ty) (elemAt f.ty.width (opnd xs 0) 0)), 0)) s

/-- R149. -/
def execFrcp (c : Ctl) (f : Q3) (s : State) : Res :=
  issue (.frcp c f) c (valueBody c (args1 f) (floatFn f fun m v a _ _ => fRcp m v a)) s
/-- R149. -/
def execFrsq (c : Ctl) (f : Q3) (s : State) : Res :=
  issue (.frsq c f) c (valueBody c (args1 f) (floatFn f fun m v a _ _ => fRsq m v a)) s
/-- R149. -/
def execFsqrt (c : Ctl) (f : Q3) (s : State) : Res :=
  issue (.fsqrt c f) c (valueBody c (args1 f) (floatFn f fun m v a _ _ => fSqrt m v a)) s
/-- R149. -/
def execFdiv (c : Ctl) (f : Q3) (s : State) : Res :=
  issue (.fdiv c f) c (valueBody c (args2 f) (floatFn f fun m v a b _ => fDiv m v a b)) s

/-- A faithfully rounded function of one operand (R150); the format names the operand's type. -/
def elemFn (f : Q3) (op : FFmt → FEnv → Nat → Nat → Nat × Nat) : LaneFn := fun g l xs =>
  elementwise f.ty fun j =>
    let m := tyFmt f.ty
    op m (elemEnv g f f.ty.count l j) (64 * m.eb + m.fb) (elemAt f.ty.width (opnd xs 0) j)

/-- R150. -/
def execFex2 (c : Ctl) (f : Q3) (s : State) : Res :=
  issue (.fex2 c f) c (valueBody c (args1 f) (elemFn f fEx2)) s
/-- R150. -/
def execFlg2 (c : Ctl) (f : Q3) (s : State) : Res :=
  issue (.flg2 c f) c (valueBody c (args1 f) (elemFn f fLg2)) s
/-- R150. -/
def execFsin (c : Ctl) (f : Q3) (s : State) : Res :=
  issue (.fsin c f) c (valueBody c (args1 f) (elemFn f fSinPi)) s
/-- R150. -/
def execFcos (c : Ctl) (f : Q3) (s : State) : Res :=
  issue (.fcos c f) c (valueBody c (args1 f) (elemFn f fCosPi)) s
/-- R150. -/
def execFtnh (c : Ctl) (f : Q3) (s : State) : Res :=
  issue (.ftnh c f) c (valueBody c (args1 f) (elemFn f fTanh)) s

/-- Operand b of FSCL is an integer of a's width, an immediate too (R154). -/
def argScl (f : Q3) : Arg :=
  if f.imm then .imm (splat f.ty (wrapInt f.ty.width (sxNat 16 f.imm16.toNat))) else .src f.sb

/-- R154. -/
def execFscl (c : Ctl) (f : Q3) (s : State) : Res :=
  issue (.fscl c f) c (valueBody c [.src f.sa, argScl f] fun g l xs =>
    elementwise f.ty fun j =>
      let v := elemEnv g f f.ty.count l j
      fScl (tyFmt f.ty) v (elemF f.ty v (opnd xs 0) j) (sxNat f.ty.width (elemAt f.ty.width (opnd xs 1) j))) s

/-- R155. -/
def execFrnd (c : Ctl) (f : Q3) (s : State) : Res :=
  issue (.frnd c f) c (valueBody c (args1 f) (floatFn f fun m v a _ _ => fRnd m v a)) s

/-- R156. DEDUCED, log 91: an element with a NaN operand takes the NaN of R24 and raises IV for a signalling one
only, a product 0 × ∞ beside it too; R148's exception names FMA. -/
def fdot2Fn (f : Q3) : LaneFn := fun g l xs =>
  elementwise .f32x4 fun k =>
    let v := elemEnv g f 4 l k
    let a (j : Nat) := elemF f.ty v (opnd xs 0) (2 * k + j)
    let b (j : Nat) := elemF f.ty v (opnd xs 1) (2 * k + j)
    let d := elemF .f32x4 v (opnd xs 2) k
    fWith fmtF32 v [a 0, a 1, b 0, b 1, d] (sumTerms v.rm [fProd (a 0) (b 0), fProd (a 1) (b 1), fTerm d])

/-- R156. -/
def execFdot2 (c : Ctl) (f : Q3) (s : State) : Res :=
  issue (.fdot2 c f) c (valueBody c [.src f.sa, .src f.sb, .src f.sc] (fdot2Fn f)) s

end Sys2Proof.Machine
end

