-- ==== Sys2Proof/Machine/Convert.lean ====
section
/-! DEFINITION. Conversions (R157 to R162). -/

namespace Sys2Proof.Machine

/-- FTZ acts on f16, bf16, f32 and f64 only (R25). -/
def ftzType (t : Ty) : Bool := t.isFp

/-- The environment of a conversion from `st` to `dt`. -/
def cvtEnv (g : Group) (f : Q3) (st dt : Ty) (pos : Nat) : FEnv :=
  let v := envAt g (effRm g f.rm) f.sat pos
  { v with ftzi := v.ftzi && ftzType st, ftzo := v.ftzo && ftzType dt }

/-- One element of CVT (R157, R32, R33). -/
def cvtElem (st dt : Ty) (sat : Bool) (v : FEnv) (x : Nat) : Nat × Nat :=
  let xi : Int := if st.signed then sxNat st.width x else (x : Nat)
  if st.isInt then
    (if dt.isInt then fitInt dt.signed dt.width sat xi else fOfInt (tyFmt dt) v xi)
  else
    let a := fDecode (tyFmt st) v.ftzi x
    if dt.isInt then fToInt dt.signed dt.width v a else fConvert (tyFmt dt) v a

/-- One element of CVTU (R159). -/
def cvtuElem (st dt : Ty) (v : FEnv) (x : Nat) : Nat × Nat :=
  if st.isInt then
    fOfNorm st.signed st.width (tyFmt dt) v (if st.signed then sxNat st.width x else (x : Nat))
  else fToNorm dt.signed dt.width v (fDecode (tyFmt st) v.ftzi x)

/-- The source element of destination element `j`, or none when it comes from c (R158). -/
def cvtSource (ns nd p j : Nat) : Option Nat :=
  let k := Nat.min ns nd
  if nd ≤ ns then some (p * k + j) else if p * k ≤ j ∧ j < p * k + k then some (j - p * k) else none

/-- CVT and CVTU element by element (R158). -/
def cvtFn (f : Q3) (conv : FEnv → Nat → Nat × Nat) : LaneFn := fun g l xs =>
  let st := cvtSrc f
  let dt := f.ty
  elementwise dt fun j =>
    match cvtSource st.count dt.count (cvtPart f) j with
    | some i => conv (cvtEnv g f st dt ((l * dt.count + j) % 32)) (elemAt st.width (opnd xs 0) i)
    | none => (elemAt dt.width (opnd xs 1) j, 0)

def cvtArgs (f : Q3) : List Arg :=
  if (cvtSrc f).count < f.ty.count then [.src f.sa, .src f.sc] else [.src f.sa]

/-- R157. -/
def execCvt (c : Ctl) (f : Q3) (s : State) : Res :=
  issue (.cvt c f) c (valueBody c (cvtArgs f) (cvtFn f (cvtElem (cvtSrc f) f.ty f.sat))) s

/-- R159. -/
def execCvtu (c : Ctl) (f : Q3) (s : State) : Res :=
  issue (.cvtu c f) c (valueBody c (cvtArgs f) (cvtFn f (cvtuElem (cvtSrc f) f.ty))) s

/-! ### CVTB (R160, R161) -/

/-- The value lane `i` gives the block. -/
def blockSource (g : Group) (c : Ctl) (f : Q3) (i : Nat) : FVal :=
  let vt := cvtSrc f
  if participates g c i then
    fDecode (tyFmt vt) (modeFtzi g) (elemAt vt.width (argVal g i (.src f.sa)) 0)
  else .fin false 0 0

/-- What an encoding form pushes, and the flags it raises. -/
def cvtbEncode (g : Group) (c : Ctl) (f : Q3) : Quad × Nat :=
  let b := encodeBlock f.ty (fun i => envAt g (effRm g f.rm) false i) ((upTo 32).map (blockSource g c f))
  let w := f.ty.width
  match f.mod.toNat with
  | 0 => (packElems w (b.codes.take (if w = 4 then 32 else 16)), b.fl)
  | 1 => (packElems w (b.codes.drop 16), b.fl)
  | _ => (quadOf b.md, b.mdFl)

/-- One decoded element. -/
def cvtbDecode (c : Ctl) (f : Q3) : LaneFn := fun g l xs =>
  let r := bitsOf f.imm16 9 5
  let e := if c.u then r else (l + r) % 32
  let w := f.ty.width
  let code := if w = 4 then elemAt 4 (opnd xs 0) e
    else if e < 16 then elemAt 8 (opnd xs 0) e else elemAt 8 (opnd xs 2) (e - 16)
  let vt := cvtSrc f
  let x := fConvert (tyFmt vt) (envAt g (effRm g f.rm) false e) (blockVal f.ty ((opnd xs 1).toNat % 65536) code)
  (quadOf x.1, x.2)

/-- R161; DPH follows R31. DEDUCED, log 97: the group executes a CVTB also where its guard holds in no active
thread, and DPH then advances. -/
def cvtbBody (c : Ctl) (f : Q3) (s : State) (g : Group) : Out :=
  let ls := execLanes g c
  let rm := effRm g f.rm
  if f.mod = 3 then
    let args := [.src f.sa, .src f.sb] ++ (if f.ty.width = 8 then [.src f.sc] else [])
    let r (l : Nat) := cvtbDecode c f g l (args.map (argVal g l))
    withArgs s g ls args fun vf =>
      settle s g (vf ||| orFlags ls fun l => (r l).2) fun h => advanceDph (pushLanes c (fun l => .val (r l).1) h) rm
  else
    withArgs s g ls [.src f.sa] fun vf =>
      let r := cvtbEncode g c f
      settle s g (vf ||| (if ls.isEmpty then 0 else r.2)) fun h =>
        advanceDph (pushLanes c (fun _ => .val r.1) h) rm

/-- R160. -/
def execCvtb (c : Ctl) (f : Q3) (s : State) : Res := issue (.cvtb c f) c (cvtbBody c f) s

/-! ### PACK (R162) -/

/-- The source type that a destination of PACK determines. -/
def packSource (f : Q3) : Ty :=
  let m := bitAt f.mod 0
  match f.ty with
  | .i8x16 | .n8x16 => if m then .n16x8 else .i16x8
  | .i16x8 | .n16x8 => if m then .n32x4 else .i32x4
  | .f16x8 | .bf16x8 => .f32x4
  | _ => if m then .bf16x8 else .f16x8

def packFn (f : Q3) : LaneFn := fun g l xs =>
  let st := packSource f
  let n := f.ty.count
  elementwise f.ty fun j =>
    let x := if j < n / 2 then elemAt st.width (opnd xs 0) j else elemAt st.width (opnd xs 1) (j - n / 2)
    cvtElem st f.ty f.sat (cvtEnv g f st f.ty ((l * n + j) % 32)) x

/-- R162. -/
def execPack (c : Ctl) (f : Q3) (s : State) : Res :=
  issue (.pack c f) c (valueBody c [.src f.sa, .src f.sb] (packFn f)) s

end Sys2Proof.Machine
end

