-- ==== Sys2Proof/Machine/Offline.lean ====
section
/-! DEFINITION. Migration and offline towers (R377 to R379): MIGRATE, OFFLINE, its management command, and
the loss of a tower. -/

namespace Sys2Proof.Machine

/-! ### A frame moves (R377) -/

/-- A location that the move of `n` bytes takes along. -/
def moveLoc (old new : Loc) (n : Nat) (l : Loc) : Loc :=
  if inside l 1 old n then new.plus (l.pos - old.pos) else l

/-- The bytes listed in a range of device or host memory. -/
def cellsIn (s : State) (l : Loc) (n : Nat) : List Host.Cell :=
  match l with
  | .dev a => s.dev.filter fun c => a ≤ c.1 && c.1 < a + n
  | .host a => s.host.filter fun c => a ≤ c.1 && c.1 < a + n
  | _ => []

/-- Zeros in every byte of a range, as memory that lists none of them. -/
def clearRange (s : State) (l : Loc) (n : Nat) : State :=
  match l with
  | .dev a => { s with dev := s.dev.filter fun c => !(a ≤ c.1 && c.1 < a + n) }
  | .host a => { s with host := s.host.filter fun c => !(a ≤ c.1 && c.1 < a + n) }
  | _ => s

/-- Copy the bytes of a range. -/
def copyRange (s : State) (old new : Loc) (n : Nat) : State :=
  (cellsIn s old n).foldl (fun s c => writeByte s (new.plus (c.1 - old.pos)) c.2) (clearRange s new n)

/-- What stood at a frame before the move goes: its poison, its written bits, what its values carried. -/
def dropMarks (s : State) (l : Loc) (n : Nat) : State :=
  { s with poison := s.poison.filter fun p => !overlaps p.1 p.2 l n,
           written := s.written.filter fun p => !inside p 1 l n,
           carries := s.carries.filter fun c => !overlaps c.1 c.2.1 l n }

def moveWork (f : Loc → Loc) : LoadWork → LoadWork
  | .read lo hi loc n sx => .read lo hi (f loc) n sx
  | w => w

def moveBinding (f : Loc → Loc) (b : Binding) : Binding := { b with loc := b.loc.map f }

def moveTileKind (f : Loc → Loc) : TileKind → TileKind
  | .mmld b m ta raw pitch => .mmld (f b) (f m) ta raw pitch
  | .mmst b m ta raw pitch rm dph => .mmst (f b) (f m) ta raw pitch rm dph
  | k => k
def moveGang (f : Loc → Loc) (x : Gang) : Gang :=
  { x with tileOps := x.tileOps.map fun o => { o with kind := moveTileKind f o.kind } }

/-- A combiner slot follows the barrier's page: a bent combiner is the one of the bent that homes it (R272). -/
def moveCombiner (f : Loc → Loc) (c : Combiner) : Combiner :=
  { c with bar := f c.bar, bent := if f c.bar = c.bar then c.bent else c.bent.map fun _ => homeOf (f c.bar).pos }

/-- Accesses under way and what stands at memory locations go to the new home (R377). -/
def moveFlight (s : State) (f : Loc → Loc) : State :=
  { s with
    poison := s.poison.map fun p => (f p.1, p.2), written := s.written.map f,
    stores := s.stores.map fun r => { r with loc := f r.loc }, atoms := s.atoms.map fun a => { a with loc := f a.loc },
    loads := s.loads.map fun l => { l with work := moveWork f l.work },
    barWaits := s.barWaits.map fun w => { w with bar := f w.bar },
    combiners := s.combiners.map (moveCombiner f), gangs := s.gangs.map (moveGang f),
    carries := s.carries.map fun c => (f c.1, c.2), upward := s.upward.map f,
    bteams := s.bteams.map (fun x => (f x.1, x.2)),
    raised := s.raised.map (fun r => { r with child := f r.child, parent := f r.parent }),
    releases := s.releases.map (fun r => (f r.1, f r.2)), bparents := s.bparents.map (fun r => (f r.1, f r.2)),
    groups := s.groups.map fun g => { g with evbind := g.evbind.map (moveBinding f) } }

/-- The combiner slots that a move takes away: the new bent's 256 are taken, or the page leaves device memory
(DESIGN CHOICE, log 125). -/
def slotsLost (s : State) (old new : Loc) (n : Nat) : List Combiner :=
  let out := s.combiners.filter fun c => inside c.bar 1 old n
  match new with
  | .dev a =>
    let there := s.combiners.filter fun c => c.bent == some (homeOf a) && !inside c.bar 1 old n
    (out.filter (·.bent.isSome)).drop (256 - there.length)
  | _ => out

/-- A combiner slot is lost: its barrier breaks (R278). -/
def loseSlot (s : State) (c : Combiner) : State := breakBar (dropSlot s c.bar) c.ctx c.bar 0x18

/-- No cache keeps a line of a range. -/
def dropCached (s : State) (l : Loc) (n : Nat) : State :=
  dropLines (dropIlines s fun r => inside r.loc 1 l n) l n fun _ => false

/-- Move `n` bytes between physical ranges: bytes, poison, written bits, and the accesses that the old home holds,
once the writes that have their place there are performed (R377). A move changes no value, so poison that the new
frame had goes. -/
def moveRange (s : State) (old new : Loc) (n : Nat) : State :=
  let s := settleLines s old n
  let s := (slotsLost s old new n).foldl loseSlot s
  let s := dropCached (dropCached (copyRange s old new n) old n) new n
  moveFlight (dropMarks s new n) (moveLoc old new n)

/-! ### Frames to move to (R378) -/

/-- The first of `n` frames that stand together at their alignment in a list. -/
def findBlock (fs : List Nat) (n : Nat) : Option Nat :=
  fs.find? fun f => f % (65536 * n) == 0 && (upTo n).all fun i => fs.contains (f + 65536 * i)
/-- The frames of a block. -/
def blockFrames (f n : Nat) : List Nat := (upTo n).map fun i => f + 65536 * i
def dropFrames (fs : List Nat) (f n : Nat) : List Nat := fs.filter fun x => !(blockFrames f n).contains x

/-- Frames of a list that some bent homes. -/
def framesAt (fs : List Nat) (b : Nat) : List Nat := fs.filter fun f => homeOf f == b

/-- Online bents other than `b`, nearest first. -/
def otherBents (s : State) (b : Nat) : List Nat := (bentsFrom b).filter fun x => x != b && (getBent s x).online

/-- Frames of a context's pool at a bent. -/
def poolAt (s : State) (ctx b : Nat) : List Nat :=
  match getCtx s ctx with | some c => (c.pool[b]?).getD [] | none => []
def dropPool (s : State) (ctx b f n : Nat) : State :=
  modCtx s ctx fun c => { c with pool := c.pool.modify b fun l => dropFrames l f n }

/-- Where `n` frames go that leave bent `b`: the evacuation reserve, the context's pool, then the host's
reserve where the context permits it (R378). -/
def evacTarget (s : State) (ctx b n : Nat) (hostToo : Bool) : Option (State × Loc) :=
  match (otherBents s b).findSome? fun x => findBlock (framesAt s.evacReserve x) n with
  | some f => some ({ s with evacReserve := dropFrames s.evacReserve f n }, .dev f)
  | none => match (otherBents s b).findSome? fun x => (findBlock (poolAt s ctx x) n).map fun f => (x, f) with
    | some (x, f) => some (dropPool s ctx x f n, .dev f)
    | none =>
      if !hostToo then none
      else (findBlock s.hostReserve n).map fun f =>
        ({ s with hostReserve := dropFrames s.hostReserve f n }, .host f)

/-! ### Entries that name a frame -/

/-- A leaf with another frame (R377): PFN and HOME, and HOST for a page that goes to host memory. -/
def movedEntry (e : Word) (new : Loc) : Word :=
  let keep := e &&& ~~~(BitVec.ofNat 64 (2 ^ 52 - 65536 + 7 * 2 ^ 12 + 2 ^ 7))
  match new with
  | .host a => keep ||| BitVec.ofNat 64 (a + 2 ^ 7)
  | l => keep ||| BitVec.ofNat 64 (l.pos + 2 ^ 12 * homeOf l.pos)

/-- A unit that moves whole: first virtual page, pages, the locations of its entries with their words. -/
structure LeafUnit where
  vpn : Nat
  n : Nat
  entries : List (Loc × Word)
deriving DecidableEq, Repr

def LeafUnit.frame (u : LeafUnit) : Nat := match u.entries with | e :: _ => pteFrame e.2 | [] => 0

/-- Move a unit to new frames and write its entries. -/
def moveUnit (s : State) (asid : Nat) (u : LeafUnit) (new : Loc) : State :=
  let s := moveRange s (.dev u.frame) new (65536 * u.n)
  let s := u.entries.zipIdx.foldl (fun s e =>
    deviceMap s e.1.1 fun w => movedEntry w (new.plus (65536 * e.2))) s
  removeRange s asid u.vpn u.n

/-- The unit that holds a device page of a context: a large page, a run, or one page (R361, R362). -/
def unitAt (s : State) (root va : Nat) : Option LeafUnit :=
  let w := walkFrom s root va
  if w.poisoned ∨ ptePSN w.entry ∨ pteHOST w.entry then none
  else if w.kind = .large then some ⟨va / 2 ^ 29 * 8192, 8192, [(w.at', w.entry)]⟩
  else if w.kind = .page then
    (if runOk s w va then
      let base := va / 2 ^ 21 * 2 ^ 21
      some ⟨base / 65536, 32, (upTo 32).map fun i =>
        let x := walkFrom s root (base + 65536 * i)
        (x.at', x.entry)⟩
     else some ⟨va / 65536, 1, [(w.at', w.entry)]⟩)
  else none

/-! ### MIGRATE (R377) -/

/-- The frames that a MIGRATE takes on the named bent, from the context's pool or the reserve (log 36). -/
def migrateTarget (s : State) (ctx b n : Nat) : Option (State × Loc) :=
  match findBlock (poolAt s ctx b) n with
  | some f => some (dropPool s ctx b f n, .dev f)
  | none => (findBlock (framesAt s.evacReserve b) n).map fun f =>
      ({ s with evacReserve := dropFrames s.evacReserve f n }, .dev f)

def migrateBody (p : Packet) (s : State) (ctx : Nat) : Taken :=
  let b := bitsOf (p.word 2) 2 0
  match getCtx s ctx with
  | none => .ends s 5 0
  | some c =>
    if !globalFormed (p.word 1) then .ends s 3 0
    else match unitAt s c.root (bitsOf (p.word 1) 54 0) with
      | none => .ends s 3 0
      | some u =>
        if homeOf u.frame = b then .ends s 0 0
        else if !(getBent s b).online then .ends s 3 0
        else match migrateTarget s ctx b u.n with
          | none => .ends s 6 0
          | some (t, new) =>
            let t := moveUnit t c.asid u new
            .ends ((blockFrames u.frame u.n).foldl (fun t f => giveFrame t ctx f) t) 0 0

/-- R377, R390. -/
def execMigrate (p : Packet) (s : State) : Res := packet p (fun s qu _ => migrateBody p s qu.ctx) s

/-! ### What a bent homes (R378) -/

/-- A kind of entry at a level that stands for pages: a large page or a sparse one, a page or a sparse one. -/
def pageKind (level : Nat) (k : PteKind) : Bool := k == .sparse || k == (if level = 2 then .large else .page)

/-- The pages below the tables, sparse ones too, as virtual addresses. -/
def leavesOf (s : State) (c : Context) : List Nat :=
  let t := tablesOf s c
  let at2 := (t.1.drop 1).flatMap fun x => (entriesIn s x.frame).filterMap fun i =>
    if pageKind 2 (pteKind 2 (readWord s (.dev (x.frame + 8 * i)))) then some ((x.vpn + i * 8192) * 65536) else none
  let at3 := t.2.flatMap fun x => (entriesIn s x.frame).filterMap fun i =>
    if pageKind 3 (pteKind 3 (readWord s (.dev (x.frame + 8 * i)))) then some ((x.vpn + i) * 65536) else none
  at2 ++ at3

/-- The units of device memory that a bent homes, each once. -/
def unitsAt (s : State) (c : Context) (b : Nat) : List LeafUnit :=
  ((leavesOf s c).filterMap (unitAt s c.root)).eraseDups.filter fun u => homeOf u.frame == b

/-! ### Evacuation and stranding (R378, R379) -/

/-- Move a table page: its bytes, and the word that names it. -/
def moveTable (s : State) (c : Context) (t : TableAt) (new : Loc) : State :=
  let s := moveRange s (.dev t.frame) new 65536
  match t.entry with
  | some l =>
    let l := moveLoc (.dev t.frame) new 65536 l
    deviceMap s l fun w => BitVec.ofNat 64 (new.pos + w.toNat % 65536)
  | none => modCtx s c.id fun c => { c with root := new.pos }

/-- Evacuate one table of a bent, found afresh because tables above it may have moved. -/
def evacTable (b : Nat) (ctx : Nat) (s : State) : Option (Option State) :=
  match getCtx s ctx with
  | none => none
  | some c =>
    let t := tablesOf s c
    match (t.1 ++ t.2).find? fun x => homeOf x.frame == b with
    | none => none
    | some x => some ((evacTarget s ctx b 1 false).map fun r => moveTable r.1 c x r.2)

/-- Evacuate the tables of a context: the state, and whether each found room. -/
def evacTables (b ctx : Nat) : Nat → State → State × Bool
  | 0, s => (s, true)
  | n + 1, s => match evacTable b ctx s with
    | none => (s, true)
    | some none => (s, false)
    | some (some t) => evacTables b ctx n t

/-- Evacuate the leaf units of a context. -/
def evacLeaves (b ctx : Nat) : List LeafUnit → State → State × Bool
  | [], s => (s, true)
  | u :: us, s => match getCtx s ctx with
    | none => (s, true)
    | some c => match evacTarget s ctx b u.n c.evac with
      | none => let r := evacLeaves b ctx us s; (r.1, false)
      | some (t, new) => evacLeaves b ctx us (moveUnit t c.asid u new)

/-- Number of tables of a context that a bent homes. -/
def tableCount (s : State) (c : Context) (b : Nat) : Nat :=
  let t := tablesOf s c
  ((t.1 ++ t.2).filter fun x => homeOf x.frame == b).length

/-- Evacuate the table pages of one context. -/
def evacCtxTables (b : Nat) (r : State × Bool) (ctx : Nat) : State × Bool :=
  match getCtx r.1 ctx with
  | none => r
  | some c =>
    let t := evacTables b ctx (tableCount r.1 c b) r.1
    (t.1, r.2 && t.2)

/-- Evacuate the other pages of one context. -/
def evacCtxLeaves (b : Nat) (r : State × Bool) (ctx : Nat) : State × Bool :=
  match getCtx r.1 ctx with
  | none => r
  | some c =>
    let l := evacLeaves b ctx (unitsAt r.1 c b) r.1
    (l.1, r.2 && l.2)

/-- The table pages of every context go first (R378). -/
def evacuate (s : State) (b : Nat) : State × Bool :=
  let ids := s.ctxs.map (·.id)
  ids.foldl (evacCtxLeaves b) (ids.foldl (evacCtxTables b) (s, true))

/-- Stranded pages of a context: homed in the bent, or below a stranded table. A sparse page has no home. -/
def strandedPages (s : State) (c : Context) (b : Nat) : List Nat :=
  let t := tablesOf s c
  (leavesOf s c).filter fun va =>
    let w := walkFrom s c.root va
    (w.kind != .sparse && !pteHOST w.entry && homeOf (pteFrame w.entry) == b) || homeOf c.root == b ||
    (t.1.drop 1).any (fun x => homeOf x.frame == b && x.vpn / 2 ^ 26 == va / 2 ^ 42) ||
    t.2.any fun x => homeOf x.frame == b && x.vpn / 2 ^ 13 == va / 2 ^ 29

/-- Mark the stranded entries: PSN in the leaf, or in the entry that names a stranded table. -/
def markStranded (s : State) (c : Context) (b : Nat) : State :=
  if homeOf c.root = b then modCtx s c.id fun c => { c with root := c.root + 2048 }
  else
    let t := tablesOf s c
    let s := (t.1 ++ t.2).foldl (fun s x => match x.entry with
      | some l => if homeOf x.frame = b ∧ homeOf l.pos ≠ b then deviceOr s l 0x800 else s
      | none => s) s
    (unitsAt s c b).foldl (fun s u => u.entries.foldl (fun s e =>
      deviceOr s e.1 0x800) s) s

def smallest (l : List Nat) : Nat := match l with | a :: as => as.foldl Nat.min a | [] => 0

/-- Strand what a bent still homes for one context: the journal's list, PAGELOST, the marks (R379). -/
def strandContext (b : Nat) (r : State × Nat) (ctx : Nat) : State × Nat :=
  match getCtx r.1 ctx with
  | none => r
  | some c =>
    let ps := strandedPages r.1 c b
    let s := markStranded r.1 c b
    if ps.isEmpty then (s, r.2)
    else
      let s := match physLoc (Config.strandList ctx) with
        | some l => deviceWrite s l (ps.flatMap fun p => bytesOf 8 (Config.strandEntry p).toNat)
        | none => s
      let s := journal s 6 0 ctx 0 0 0 [ps.length, (Config.strandList ctx).toNat]
      let s := ps.foldl (fun s va => removeRange s c.asid (va / 65536) 1) s
      let gs := s.groups.filter fun g => g.ctx == ctx
      (gs.foldl (fun s g => asyncTrap s g.gid .pagelost (BitVec.ofNat 64 (smallest ps))) s, r.2 + ps.length)

/-- A location in a page that a bent homes. -/
def homedIn (b : Nat) : Loc → Bool
  | .dev a => homeOf a == b
  | _ => false

/-- A location at which a bent's tower performs accesses: in a page that it homes, or in a scratchpad of one of its
clusters. -/
def servedBy (s : State) (b : Nat) : Loc → Bool
  | .scr c r o => (getCtx s c).isSome && bentOf (clusterOf s (.scr c r o)) == b
  | l => homedIn b l

/-- Accesses in flight to a home that is gone, or from its clusters: stores and atomics are lost (R237), the entries of
loads from its pages resolve poisoned (R216, R379). -/
def loseHome (s : State) (b : Nat) : State :=
  let ids := ((s.stores.filter fun r => r.bent == b || servedBy s b r.loc).map (·.id)) ++
    (s.atoms.filter fun a => a.bent == b || servedBy s b a.loc).map (·.id)
  let s := ids.foldl loseId s
  { s with loads := s.loads.map fun r => match r.work with
      | .read _ _ l _ _ => if homedIn b l then { r with work := .poisoned r.ptr false } else r
      | _ => r }

/-- The bent is offline; frames that it homes serve no pool (log 37). -/
def bentOffline (s : State) (b : Nat) : State :=
  let s := modBent s b fun x => { x with online := false }
  { s with evacReserve := s.evacReserve.filter fun f => homeOf f != b,
           ctxs := s.ctxs.map fun c => { c with pool := c.pool.modify b fun _ => [] } }

def strand (s : State) (b : Nat) : State × Nat := (s.ctxs.map (·.id)).foldl (strandContext b) (s, 0)

/-- The contexts whose partitions hold a cluster of the bent. -/
def holders (s : State) (b : Nat) : List Nat :=
  (s.ctxs.filter fun c => c.ranks.any fun cl => bentOf cl == b).map (·.id)

/-- Hard-pre-empt those partitions (R378). -/
def preemptHolders (s : State) (b : Nat) : State := (holders s b).foldl (fun s ctx => preempt s ctx true 0 0) s

/-- An offline request waits for the pre-emption of the partitions that hold clusters of the bent. -/
def offlineWaits (s : State) (b : Nat) : Bool := (getBent s b).online && !(holders s b).isEmpty

/-- The barriers that a tower takes with it: those it homes, those whose combiner slot it holds, and the team barriers
of the ranks on its clusters (R272, R278). -/
def towerBars (s : State) (b : Nat) : List Loc :=
  (s.combiners.filter fun c => c.bent == some b || homedIn b c.bar).map (·.bar) ++
  (knownBars s).filter fun l => match l with
    | .scr ctx rank _ => (match getCtx s ctx with
      | some c => (match c.ranks[rank]? with | some cl => bentOf cl == b | none => false)
      | none => false)
    | _ => false

/-- A bent goes offline with what it still homes: its barriers break, its pages are stranded (R278, R379). -/
def loseTower (s : State) (b : Nat) : State × Nat :=
  let s := (towerBars s b).foldl (fun s l => breakBar s (barCtx s l) l 0x18) s
  let t := strand s b
  (loseHome (bentOffline t.1 b) b, t.2)

/-- Take a bent offline that no partition holds: pages stranded, or none where it is refused. -/
def takeOffline (s : State) (b : Nat) (force : Bool) : State × Option Nat :=
  if !(getBent s b).online then (s, some 0)
  else
    let r := evacuate s b
    if !force && !r.2 then (journal r.1 7 0 0 0 0 0 [b], none)
    else
      let t := loseTower r.1 b
      (t.1, some t.2)

/-- R378, R390: the packet is taken once the partitions have been pre-empted. -/
def execOffline (p : Packet) (s : State) : Res :=
  let b := bitsOf (p.word 1) 2 0
  if acts s p && offlineWaits s b then .next (preemptHolders s b)
  else packet p (fun s _ _ => match takeOffline s b (bitAt (p.word 1) 8) with
    | (s, some n) => .ends s 0 n
    | (s, none) => .ends s 7 0) s

/-- R379: a forced offline that evacuates nothing. -/
def execTowerLoss (bent : BitVec 3) (s : State) : Res :=
  let b := bent.toNat
  if !(getBent s b).online then .next s
  else
    .next (loseTower (preemptHolders s b) b).1

/-! ### QUEUE_UNBLOCK (R392) -/

/-- The packet of a blocked queue acts. -/
def runPacket (p : Packet) (s : State) : Res :=
  match p.kind with
  | 0x00 => execNopPacket p s
  | 0x01 => execCtxnew p s
  | 0x02 => execCtxdel p s
  | 0x03 => execQnew p s
  | 0x04 => execQdel p s
  | 0x05 => execLoad p s
  | 0x06 => execUnload p s
  | 0x07 => execLaunch p s
  | 0x08 => execPreempt p s
  | 0x09 => execTinvq p s
  | 0x0A => if bitAt (p.word 1) 16 then execPoolTake p s else execPoolAdd p s
  | 0x0B => execRetry p s
  | 0x0C => execMigrate p s
  | 0x0D => execOffline p s
  | 0x0E => execSignal p s
  | 0x0F => execWaitmem p s
  | 0x10 => execCensus p s
  | _ => execBadkind p s

/-- The condition on which the queue waits. -/
def unblockReady (s : State) (qu : Queue) : Bool :=
  let b := blockedPacket qu
  if qu.taken then (match physLoc (b.1.word 1) with | some l => memHolds s l b.1 | none => true)
  else qu.live.isEmpty

/-- R392. -/
def execQueueUnblock (q : Nat) (s : State) : Res :=
  match getQueue s q with
  | none => .next s
  | some qu =>
    if s.pkg ≠ .ready ∨ qu.st ≠ .blocked ∨ !unblockReady s qu then .next s
    else
      let b := blockedPacket qu
      let s := modQueue s q fun x => { x with st := .running, blocked := [], taken := false }
      if qu.taken then .next (settleEmpty (complete s q b.2 0 b.1.kind false b.1.tag 0 b.1.nocpl) q)
      else runPacket b.1 s

end Sys2Proof.Machine
end

