-- ==== Sys2Proof/Machine/Link.lean ====
section
/-! DEFINITION. The links (R396 to R403, R410): the life of a port, routes, and remote accesses. -/

namespace Sys2Proof.Machine

/-! ### Replies of the management port (R410) -/

/-- The management port has power (R409). -/
def standbyPower (s : State) : Bool := s.pkg != .off

def reply (s : State) (code status : Nat) (data : List Nat) (bytes : List Byte) : State :=
  { s with replies := s.replies ++ [{ code, status, data, bytes }] }

/-- A command that needs READY (R410). -/
def whenReady (s : State) (code : Nat) (body : State → Res) : Res :=
  if !standbyPower s then .next s
  else if s.pkg ≠ .ready then .next (reply s code 1 [] [])
  else body s

/-! ### Routes (R398) -/

def getPort (s : State) (p : Port) : Option PortRec := s.ports.find? fun x => x.port == p
def modPort (s : State) (p : Port) (f : PortRec → PortRec) : State :=
  { s with ports := s.ports.map fun x => if x.port = p then f x else x }

/-- The DIDs whose routes use a port. -/
def didsOf (s : State) : Port → List Nat
  | .sill _ => []
  | .ridge n => (upTo 32).filter fun d => ((s.routes[d]?).getD 0).getLsbD n.toNat

/-- The location lies in the package with a DID. -/
def toDid (d : Nat) : Loc → Bool
  | .peer e _ _ _ _ => e == d
  | _ => false

/-- An access to locations that `p` accepts is on its way. -/
def outstanding (s : State) (p : Loc → Bool) : Bool :=
  s.stores.any (fun r => p r.loc && r.st != .lost && r.st != .visible) || s.atoms.any (fun a => p a.loc) ||
  s.loads.any fun r => match r.work with
    | .read _ _ l _ _ => p l
    | _ => false

/-- The routes with a port whose membership among the UP ports has changed hold new accesses. -/
def holdRoutes (s : State) (ds : List Nat) : State :=
  { s with held := s.held ++ ds.filter fun d => !s.held.contains d }

/-- R398. -/
def execRouteHoldRelease (did : BitVec 5) (s : State) : Res :=
  if outstanding s (toDid did.toNat) then .next s else .next { s with held := s.held.filter (· ≠ did.toNat) }

/-! ### The life of a port (R399, R400) -/

/-- The fate of every outstanding access to locations that `p` accepts, whose last port has gone (R400). A store that
is not acknowledged is outstanding. -/
def severLoad (p : Loc → Bool) (r : LoadRec) : LoadRec :=
  match r.work with
  | .read _ _ l _ _ => if p l then { r with work := .poisoned r.ptr false } else r
  | _ => r
def severAtom (s : State) (a : AtomRec) : State := if hasResult a then poisonAtom s a else loseAtom s a
def sever (s : State) (p : Loc → Bool) : State :=
  let s := ((s.stores.filter fun r => p r.loc).map (·.id)).foldl loseId s
  let s := (s.atoms.filter fun a => p a.loc).foldl severAtom s
  { s with loads := s.loads.map (severLoad p) }

/-- Where a pointer of a copy's line leads, whether its package can be reached or not. -/
def lineTarget (s : State) (ac : AddrCtx) (need : Need) (p : Word) (n : Nat) : Option Loc :=
  match resolveSeg ac p n with
  | .error _ => none
  | .ok q =>
    if ptrSpace q = 2 then
      (importAt s ac.ctx (bitsOf q 60 48)).bind fun i =>
        if i.did = s.did.toNat then none else some (.peer i.did i.rctx i.eidx i.key (bitsOf q 47 0))
    else match (engineLoc s ac need p n).2 with
      | .ok l => some l
      | .error _ => none

/-- The first pointer of a move that leads to a location that `p` accepts. -/
def cutMove (s : State) (ac : AddrCtx) (p : Loc → Bool) (m : Move) : Option Word :=
  let cut (need : Need) (x : Word) : Option Word :=
    match lineTarget s ac need x m.n with
    | some l => if p l then some x else none
    | none => none
  (m.src.bind (cut .load)).or (cut .store m.dst)

/-- The line operation that a running copy has outstanding to such a location faults with POISON (R254, R400; DEDUCED,
log 122). -/
def severCopy (p : Loc → Bool) (s : State) (c : CopyRec) : State :=
  match c.kind with
  | .moves l =>
    if copyMoves s c && c.st == .running then
      (match (nextLine s c.actx l).1.findSome? (cutMove s c.actx p) with
       | some x => faultCopy s c .poison x
       | none => s)
    else s
  | _ => s
def severCopies (s : State) (p : Loc → Bool) : State := s.copies.foldl (severCopy p) s

/-- The port on which an unacknowledged access goes again when its own has left its route. -/
def resendPort (s : State) (n : Nat) (port : Option Nat) (l : Loc) : Option Nat :=
  match port, l with
  | some k, .peer d _ _ _ o => if k = n then (linePort s d o).or port else port
  | _, _ => port

/-- R400: what is unacknowledged on a Ridge port goes again on another UP port of the same route. -/
def resend (s : State) (n : Nat) : State :=
  { s with
    stores := s.stores.map (fun r => { r with port := resendPort s n r.port r.loc }),
    atoms := s.atoms.map (fun a => { a with port := resendPort s n a.port a.loc }),
    loads := s.loads.map fun r => match r.work with
      | .read _ _ l _ _ => { r with port := resendPort s n r.port l }
      | _ => r }

/-- The accesses on a port that enters FENCED or OFF: re-sent, or severed where no port remains (R400). -/
def leaveTraffic (s : State) (p : Port) (cut : Loc → Bool) : State :=
  match p with
  | .ridge n => sever (resend s n.toNat) cut
  | .sill _ => sever s cut

/-- The locations that lose their way when a port has left: packages with no UP port, host lines of a Sill
port. -/
def cutOff (s : State) (p : Port) (l : Loc) : Bool :=
  match p, l with
  | .sill n, .host a => a / 128 % 2 == n.toNat
  | .ridge _, .peer d _ _ _ _ =>
    (didsOf s p).contains d && (upPorts s ((s.routes[d]?).getD 0)).isEmpty
  | _, _ => false

/-- The journal record of a transition into FENCED (R400). -/
def journalFenced (s : State) (p : Port) : State :=
  let n := match p with | .sill n => n.toNat | .ridge n => 2 + n.toNat
  journal s Config.fencedKind 0 0 0 0 0 (Config.fencedPayload n)

/-- A port enters a state; attempts and cycles count from 0. The journal starts when the package is READY (R409): what
was fenced before is recorded then. A FENCED port that goes OFF has no traffic (R399). -/
def setPort (s : State) (p : Port) (st : PortState) : State :=
  match getPort s p with
  | none => s
  | some x =>
    let s := modPort s p fun x => { x with st, tries := 0, cycles := 0 }
    let s := if (x.st == .up) != (st == .up) then holdRoutes s (didsOf s p) else s
    let s := if (st = .fenced ∨ st = .off) ∧ x.st ≠ .fenced then leaveTraffic s p (cutOff s p) else s
    let s := if (st = .fenced ∨ st = .off) ∧ (x.st = .up ∨ x.st = .retraining) then severCopies s (cutOff s p) else s
    if st = .fenced ∧ s.pkg = .ready then journalFenced s p else s

/-- One event of R399's table. -/
inductive PortEvent
  | enable | fence | unfence | disable | trainOk | trainFail | error | timeout
deriving DecidableEq, Repr

/-- A training attempt has failed: the eighth, or one at 65,536 cycles of retraining, fences the port (R399). -/
def attemptFails (s : State) (x : PortRec) : State :=
  if 8 ≤ x.tries + 1 ∨ (x.st = .retraining ∧ 65536 ≤ x.cycles) then setPort s x.port .fenced
  else modPort s x.port fun x => { x with tries := x.tries + 1 }

/-- R399. -/
def portEvent (s : State) (p : Port) (e : PortEvent) : State :=
  match getPort s p with
  | none => s
  | some x => match x.st, e with
    | .off, .enable => setPort s p .training
    | .training, .trainOk => setPort s p .up
    | .training, .trainFail => attemptFails s x
    | .training, .fence => setPort s p .fenced
    | .training, .disable => setPort s p .off
    | .up, .error => setPort s p .retraining
    | .up, .fence => setPort s p .fenced
    | .up, .disable => setPort s p .off
    | .retraining, .trainOk => setPort s p .up
    | .retraining, .trainFail => attemptFails s x
    | .retraining, .timeout => if 65536 ≤ x.cycles then setPort s p .fenced else s
    | .retraining, .fence => setPort s p .fenced
    | .retraining, .disable => setPort s p .off
    | .fenced, .unfence => setPort s p .training
    | .fenced, .disable => setPort s p .off
    | _, _ => s

/-- R396: a replay changes nothing; more than 16 of one flit are an Error. -/
def execFlitReplay (port : Port) (replays : Nat) (s : State) : Res :=
  if 16 < replays then .next (portEvent s port .error) else .next s
/-- R399. -/
def execTrainOk (port : Port) (s : State) : Res := .next (portEvent s port .trainOk)
/-- R399. -/
def execTrainFail (port : Port) (s : State) : Res := .next (portEvent s port .trainFail)
/-- R399. -/
def execRetrainTimeout (port : Port) (s : State) : Res := .next (portEvent s port .timeout)

/-- The LINK command with one of its four events. -/
def linkCommand (s : State) (port : Port) (e : PortEvent) : Res :=
  whenReady s 0x04 fun s => .next (reply (portEvent s port e) 0x04 0 [] [])

/-- R399, R410. -/
def execLinkEnable (port : Port) (s : State) : Res := linkCommand s port .enable
/-- R399, R410. -/
def execLinkFence (port : Port) (s : State) : Res := linkCommand s port .fence
/-- R399, R410. -/
def execLinkUnfence (port : Port) (s : State) : Res := linkCommand s port .unfence
/-- R399, R410. -/
def execLinkDisable (port : Port) (s : State) : Res := linkCommand s port .disable

/-- Every Ridge port is OFF or FENCED. -/
def ridgeQuiet (s : State) : Bool :=
  s.ports.all fun p => (match p.port with | .sill _ => true | .ridge _ => false) || p.st == .off || p.st == .fenced

/-- R398, R410. -/
def execSetdid (did : BitVec 8) (s : State) : Res :=
  whenReady s 0x02 fun s =>
    if 31 < did.toNat then .next (reply s 0x02 3 [] [])
    else if !ridgeQuiet s then .next (reply s 0x02 2 [] [])
    else .next (reply { s with did := did.setWidth 5 } 0x02 0 [] [])

/-- R398, R410. -/
def execSetroute (did : BitVec 8) (mask : BitVec 16) (s : State) : Res :=
  whenReady s 0x03 fun s =>
    let d := did.toNat
    if 31 < d then .next (reply s 0x03 3 [] [])
    else
      let old := (s.routes[d]?).getD 0
      let t := { s with routes := s.routes.set d mask }
      .next (reply (if upPorts s old = upPorts s mask then t else holdRoutes t [d]) 0x03 0 [] [])

/-! ### Remote accesses (R402, R403) -/

/-- An access that left on a port can be performed at the package it went to: the port is UP. -/
def portOpen (s : State) (port : Option Nat) (l : Loc) : Bool :=
  match l, port with
  | .peer .., some n => portAt s n == .up
  | _, _ => false

/-- A part of a remote load returns. -/
def peerLoad (s : State) (r : LoadRec) (part : Nat) (data : List Byte) : State :=
  match r.work with
  | .read lo hi loc n sx =>
    let done : Bool := (part == 0 && lo.isSome) || (part == 1 && hi.isSome) || partBytes n part == 0
    if done || !portOpen s r.port loc || !(acquiresDone s r.gid r.op && readMayGo s r.gid r.port r.op loc n) then s
    else if data.isEmpty then poisonRead s r
    else if data.length ≠ partBytes n part then s
    else fillRead s r lo hi loc n sx part data
  | _ => s

/-- A remote store is performed and acknowledged. -/
def peerStore (s : State) (r : StoreRec) (data : List Byte) : State :=
  if !portOpen s r.port r.loc || !orderReady s r then s
  else if data.isEmpty then dropStore s r.id else discardStore s r

/-- A remote atomic is performed; its lanes' old values return. -/
def peerAtom (s : State) (a : AtomRec) (data : List Byte) : State :=
  if !portOpen s a.port a.loc || !atomReady s a then s
  else if hasResult a then
    (if data.isEmpty then poisonAtom s a
     else if data.length ≠ a.width * a.lanes.length then s
     else
       let ans := a.lanes.zipIdx.filterMap fun l => l.1.pend.map fun p =>
         answerRec a p (.value (quadOf (ofBytes ((data.drop (a.width * l.2)).take a.width))))
       { s with atoms := s.atoms.filter (fun x => x.id ≠ a.id),
                loads := if (getGroup s a.gid).isSome then s.loads ++ ans else s.loads })
  else if data.isEmpty then { s with atoms := s.atoms.filter fun x => x.id ≠ a.id }
  else poisonAtom s a

/-- The need that an incoming operation has, and its bytes. -/
def peerNeed : PeerOp → Need × Nat
  | .load n => (.load, n)
  | .store d => (.store, d.length)
  | .atomic n _ _ => (.atomic, n)

def peerReply (s : State) (st : Nat) (bytes : List Byte) : State :=
  { s with peerReplies := s.peerReplies ++ [(st, bytes)] }

/-- Another package's access, after the checks, at its location (R403). -/
def peerPerform (s : State) (l : Loc) (op : PeerOp) : State :=
  match op with
  | .load n => peerReply s 0 (readBytes s l n)
  | .store d => peerReply (setCarries (writeBytes s l d) l d.length []) 0 []
  | .atomic n code lanes =>
    let r := atomLanes code (8 * n) (readNat s l n) (lanes.map fun x => { pend := some 0, d := x.1, cmp := x.2 })
    peerReply (if r.2.1 then writeNat s l n r.1 else s) 0 (r.2.2.flatMap fun x => bytesOf n x.2)

/-- The fault of a copy line that a remote check finds (R254): a page fault there is PFAULTNR. -/
def lineCause (code : BitVec 8) : Cause := if code = 0x13 then .pfaultnr else remoteCause code

/-- What other packages answer to the pointers of a copy line. -/
def lineAns (fail : Option (Nat × BitVec 8)) : LineAns :=
  some fun i => match fail with
    | some (k, code) => if k = i then some (lineCause code) else none
    | none => none

/-- The group waits for the remote checks, and the route to that package takes new accesses (R398). -/
def checksReach (s : State) (g : Group) : Bool :=
  g.st == .waiting && g.wreason == .peer && (leavingPort s g.awaits 0).isSome

/-- R402, R403. -/
def execPeerRemoteAccess (act : PeerAct) (s : State) : Res :=
  match act with
  | .checked gid fail => match getGroup s gid with
    | some g =>
      if checksReach s g then
        .next { modGroup s gid (fun g => { g with peerOk := some fail }) with resume := [gid] }
      else .next s
    | none => .next s
  | .line id fail data => .next (copyLine s id (lineAns fail) data)
  | .performed id part data =>
    (match s.loads.find? fun r => r.id == id with
     | some r => .next (peerLoad s r part data)
     | none => match getStore s id with
       | some r => .next (peerStore s r data)
       | none => match s.atoms.find? fun a => a.id == id with
         | some a => .next (peerAtom s a data)
         | none => .next s)
  | .incoming rctx eidx key off rights op =>
    let n := peerNeed op
    if s.pkg ≠ .ready ∨ n.2 = 0 then .next s
    else match remoteCheck s n.1 rctx eidx key off n.2 rights with
      | (t, .ok l) =>
        if isPoisoned t l n.2 then .next (peerReply t 0x16 [])
        else if !lineQuiet t l n.2 then .next s
        else .next (peerPerform t l op)
      | (t, .poisoned _) => .next (peerReply t 0x16 [])
      | (t, .trap c) => .next (peerReply t c.code [])
      | (t, .fault) => .next (peerReply t Cause.pfault.code [])

end Sys2Proof.Machine
end

