-- ==== Sys2Proof/Machine/HostPort.lean ====
section
/-! DEFINITION. What the companion processor does over the Sill link: accesses to device memory and writes
of its own memory (R397), and writes of the package's registers (R385, R411, R412). -/

namespace Sys2Proof.Machine

/-- Register 0x4000 (R411). -/
def snapWord (p : Snap) : Word :=
  BitVec.ofNat 64 (2 ^ 32 * p.tag.toNat + 2 ^ 16 * p.lost + 2 ^ 8 * p.seq + 2 * b2n p.busy + b2n p.valid)

/-- A word of the snapshot records, by its offset from 0x1_0000: CYC, the counters, else zero (R411). -/
def snapRecWord (p : Snap) (o : Nat) : Word :=
  match p.recs.find? fun r => r.1 == o / 0x80 with
  | some r => (r.2[o % 0x80 / 8]?).getD 0
  | none => 0

/-- The word that a read of the register window returns (R385, R411, R412); 0 where the window has no register, and
for the doorbells, which are only written (log 106). -/
def windowWord (s : State) (off : Nat) : Word :=
  match off with
  | 0x0000 => s.admq
  | 0x0008 => s.jbase
  | 0x0010 => BitVec.ofNat 64 s.jlg
  | 0x0018 => BitVec.ofNat 64 s.jnext
  | 0x4000 => snapWord s.snap
  | 0x5000 => s.pcsel
  | _ => if 0x10000 ≤ off ∧ off % 8 = 0 then snapRecWord s.snap (off - 0x10000) else 0

/-- An answer to the companion processor. -/
def hostReply (s : State) (bytes : List Byte) : State := { s with hostReplies := s.hostReplies ++ [bytes] }

/-- The pages of a range beyond its first are written too (R369). -/
def markFurther (s : State) (l : Loc) (n : Nat) : State :=
  (upTo ((l.pos % 65536 + n - 1) / 65536)).foldl (fun s k => markWritten s (l.plus (65536 * (k + 1) - l.pos % 65536))) s

/-- R397. Device memory ends at 1 TiB (R360). A read of the register window names an offset there. -/
def execHostAccess (addr : Nat) (act : HostAct) (s : State) : Res :=
  let n := match act with | .read n => n | .write d => d.length | .readRegister => 0
  if 2 ^ 40 < addr + n then .fault .noMemory
  else if !sillOpen s then .next s
  else match act with
    | .read n => .next (hostReply s (readBytes s (.dev addr) n))
    | .write d =>
      if !lineQuiet s (.dev addr) d.length then .next s
      else if isPoisoned s (.dev addr) d.length then .next s
      else .next (setCarries (markFurther (writeBytes s (.dev addr) d) (.dev addr) d.length) (.dev addr) d.length [])
    | .readRegister =>
      if windowOpen s then .next (hostReply s (bytesOf 8 (windowWord s addr).toNat)) else .next s

/-- R397: a write of the companion processor to a host line, ordered at the line's Sill port. -/
def execCompanionHostLineWrite (line : Nat) (data : List Byte) (s : State) : Res :=
  let l : Loc := .host (128 * line)
  if 128 < data.length ∨ sillAt s (line % 2) ≠ .up ∨ isPoisoned s l data.length then .next s
  else .next (setCarries (writeBytes s l data) l data.length [])

/-- R412: every counter of every cluster starts anew. -/
def execPcselWrite (v : Word) (s : State) : Res :=
  if !windowOpen s then .next s
  else .next { s with pcsel := v, clusters := s.clusters.map fun c => { c with perf := List.replicate 8 0 } }

/-- VALID and LOST are cleared (R411). -/
def clearSnap (s : State) : State := { s with snap := { s.snap with valid := false, lost := 0 } }

/-- R411. -/
def execSnapValidClear (s : State) : Res := if windowOpen s then .next (clearSnap s) else .next s

/-- R385: a write at an offset of the register window; the registers with a behaviour act, the others keep
what they hold. -/
def execRegisterWrite (off : Nat) (v : Word) (s : State) : Res :=
  if off = 0 then execAdmqWrite v s
  else if 0x1000 ≤ off ∧ off < 0x3000 ∧ off % 8 = 0 then execDoorbell ((off - 0x1000) / 8) (v.setWidth 32) s
  else if off = 0x4000 ∧ bitAt v 0 then execSnapValidClear s
  else if off = 0x5000 then execPcselWrite v s
  else .next s

end Sys2Proof.Machine
end

