-- ==== Sys2Proof/Machine/Lanes.lean ====
section
/-! DEFINITION. Across lanes and elements: LXCH, REDG, SCAN (R163 to R166), VEXT, VINS, VPERM, VSPLT
(R167). -/

namespace Sys2Proof.Machine

/-! ### LXCH -/

/-- The lane whose entry lane `l` takes (R164). -/
def lxchLane (w mode d l : Nat) : Nat :=
  match mode with
  | 0 => d % w
  | 1 => (l + d) % w
  | 2 => l ^^^ (d % w)
  | _ => l ^^^ (2 ^ Nat.min (Nat.max (d % 8) 1) (Nat.log2 w) - 1)

/-- An index immediate or SB (R54). -/
def argIndex (f : Q3) : Arg := if f.imm then .imm (f.imm16.setWidth 128) else .src f.sb

/-- R164. -/
def lxchBody (c : Ctl) (f : Q3) (s : State) (g : Group) : Out :=
  let ls := participants g c
  let src (l : Nat) := lxchLane (laneCount g) f.mod.toNat ((argVal g l (argIndex f)).toNat % 256) l
  let hit (l : Nat) := participates g c (src l)
  let v (l : Nat) := argVal g (if hit l then src l else l) (.src f.sa)
  withArgs s g ls [.src f.sa, argIndex f] fun vf =>
    settle s g vf fun h => mapLanes h (participates g c) fun l t =>
      setPred f.pd.toNat (hit l) (pushThread t (.val (v l)))

/-- R164. -/
def execLxch (c : Ctl) (f : Q3) (s : State) : Res := issue (.lxch c f) c (lxchBody c f) s

/-! ### Reductions -/

/-- The effective rounding of a reduction: .rds from MODE rounds as .rne (R165). -/
def reduceEnv (g : Group) (f : Q3) : FEnv :=
  let rm := effRm g f.rm
  envAt g (if rm = 6 then 1 else rm) false 0

/-- A floating-point combination of two codes, each an operand of a node of the tree or of a step of the scan.
DEDUCED, log 81: FTZI flushes a subnormal partial result too, since it is an operand of the next operation
(R25); under FTZO no such result is left. -/
def floatPair (t : Ty) (v : FEnv) (op : Nat) (x y : Nat) : Nat × Nat :=
  match op with
  | 0 => fAdd (tyFmt t) v (fDecode (tyFmt t) v.ftzi x) (fDecode (tyFmt t) v.ftzi y)
  | 1 => fMinMax (tyFmt t) v false false x y
  | _ => fMinMax (tyFmt t) v true false x y

/-- An integer combination on exact values: sum, minimum, maximum, and the three bitwise ones. -/
def intPair (t : Ty) (op : Nat) (x y : Int) : Int :=
  let bits (k : Nat → Nat → Nat) : Int :=
    let r := k (wrapInt t.width x) (wrapInt t.width y)
    if t.signed then sxNat t.width r else (r : Nat)
  match op with
  | 0 => x + y
  | 1 => if x ≤ y then x else y
  | 2 => if x ≤ y then y else x
  | 3 => bits (· &&& ·)
  | 4 => bits (· ||| ·)
  | _ => bits (· ^^^ ·)

/-- Two nodes of the tree: codes with the flags raised below them. -/
def combine (k : Nat → Nat → Nat × Nat) : Option (Nat × Nat) → Option (Nat × Nat) → Option (Nat × Nat)
  | none, y => y
  | x, none => x
  | some x, some y => let r := k x.1 y.1; some (r.1, x.2 ||| y.2 ||| r.2)

/-- One level of the tree of R165. -/
def treeLevel (k : Nat → Nat → Nat × Nat) : List (Option (Nat × Nat)) → List (Option (Nat × Nat))
  | a :: b :: r => combine k a b :: treeLevel k r
  | r => r

/-- The tree over the lanes in order: as many levels as the list needs. -/
def treeReduce (k : Nat → Nat → Nat × Nat) (n : Nat) (l : List (Option (Nat × Nat))) : Option (Nat × Nat) :=
  ((upTo n).foldl (fun l _ => treeLevel k l) l).headD none

/-- The values that participating lanes bring, in lane order: element `j`. -/
def laneElems (g : Group) (c : Ctl) (f : Q3) (j : Nat) : List (Option Nat) :=
  (upTo 32).map fun l =>
    if participates g c l then some (elemAt f.ty.width (argVal g l (.src f.sa)) j) else none

/-- One element of REDG (R165). One participant's value meets no operation: `fDeliver`, log 81. -/
def redgElem (g : Group) (c : Ctl) (f : Q3) (j : Nat) : Nat × Nat :=
  let xs := laneElems g c f j
  let op := f.mod.toNat
  if f.ty.isInt then
    let ints : List Int := xs.filterMap fun x => x.map fun x =>
      if f.ty.signed then sxNat f.ty.width x else (x : Nat)
    match ints with
    | [] => (0, 0)
    | a :: r => fitInt f.ty.signed f.ty.width f.sat (r.foldl (intPair f.ty op) a)
  else
    let v := reduceEnv g f
    fDeliver (tyFmt f.ty) v ((treeReduce (floatPair f.ty v op) 5
      (xs.map fun x => x.map fun x => (fCode (tyFmt f.ty) v.ftzi x, 0))).getD (0, 0))

/-- R165. -/
def redgBody (c : Ctl) (f : Q3) (s : State) (g : Group) : Out :=
  withArgs s g (participants g c) [.src f.sa] fun vf =>
    let r := elementwise f.ty (redgElem g c f)
    settle s g (vf ||| r.2) (pushLanes c fun _ => .val r.1)

/-- R165. -/
def execRedg (c : Ctl) (f : Q3) (s : State) : Res := issue (.redg c f) c (redgBody c f) s

/-- The identity of an operation (R166). -/
def scanIdentity (t : Ty) (op : Nat) : Nat :=
  match op with
  | 1 => if t.isInt then wrapInt t.width (intMax t.signed t.width) else (tyFmt t).infCode
  | 2 => if t.isInt then wrapInt t.width (intMin t.signed t.width)
         else (tyFmt t).signBit true + (tyFmt t).infCode
  | 3 => 2 ^ t.width - 1
  | _ => 0

/-- Prefixes of a list of integers: before or after each one, exact, then wrapped or clamped. -/
def intPrefixes (f : Q3) (op : Nat) (excl : Bool) : Option Int → List Int → List (Nat × Nat)
  | _, [] => []
  | acc, x :: r =>
    let nx := match acc with | some a => intPair f.ty op a x | none => x
    let out := if excl
      then (match acc with
        | some a => fitInt f.ty.signed f.ty.width f.sat a
        | none => (scanIdentity f.ty op, 0))
      else fitInt f.ty.signed f.ty.width f.sat nx
    out :: intPrefixes f op excl (some nx) r

/-- Prefixes of a list of codes, rounding at each step; a step whose result no lane receives is not made. The
first value meets no operation: `fDeliver`, log 81. -/
def floatPrefixes (t : Ty) (v : FEnv) (op : Nat) (excl : Bool) : Option (Nat × Nat) → List Nat → List (Nat × Nat)
  | _, [] => []
  | acc, x :: r =>
    let nx : Nat × Nat := match acc with | some a => floatPair t v op a.1 x | none => (x, 0)
    let out : Nat × Nat := if excl
      then (match acc with | some a => a | none => (scanIdentity t op, 0))
      else nx
    fDeliver (tyFmt t) v out :: floatPrefixes t v op excl (some nx) r

/-- Element `j` of SCAN for the participating lanes in order. -/
def scanElem (g : Group) (c : Ctl) (f : Q3) (j : Nat) : List (Nat × Nat) :=
  let xs := (laneElems g c f j).filterMap id
  let op := f.mod.toNat % 8
  let excl := bitAt f.mod 3
  if f.ty.isInt then
    intPrefixes f op excl none (xs.map fun x => if f.ty.signed then sxNat f.ty.width x else (x : Nat))
  else
    let v := reduceEnv g f
    floatPrefixes f.ty v op excl none (xs.map (fCode (tyFmt f.ty) v.ftzi))

/-- R166. -/
def scanBody (c : Ctl) (f : Q3) (s : State) (g : Group) : Out :=
  let ls := participants g c
  withArgs s g ls [.src f.sa] fun vf =>
    let cols := (upTo f.ty.count).map (scanElem g c f)
    let fl := cols.foldl (fun a col => col.foldl (fun a x => a ||| x.2) a) 0
    let v (l : Nat) : Quad :=
      let i := ls.findIdx (· == l)
      packElems f.ty.width (cols.map fun col => ((col[i]?).getD (0, 0)).1)
    settle s g (vf ||| fl) (pushLanes c fun l => .val (v l))

/-- R166. -/
def execScan (c : Ctl) (f : Q3) (s : State) : Res := issue (.scan c f) c (scanBody c f) s

/-! ### Elements (R167) -/

/-- R167. -/
def execVext (c : Ctl) (f : Q3) (s : State) : Res :=
  issue (.vext c f) c (valueBody c [.src f.sa, argIndex f] fun _ _ xs =>
    (quadOf (elemAt f.ty.width (opnd xs 0) ((opnd xs 1).toNat % 256 % f.ty.count)), 0)) s

/-- R167. -/
def execVins (c : Ctl) (f : Q3) (s : State) : Res :=
  issue (.vins c f) c (valueBody c [.src f.sa, .src f.sb] fun _ _ xs =>
    elementwise f.ty fun j =>
      (elemAt f.ty.width (if j = f.imm16.toNat then opnd xs 1 else opnd xs 0) (if j = f.imm16.toNat then 0 else j), 0)) s

/-- R167. -/
def vpermFn (f : Q3) : LaneFn := fun _ _ xs =>
  let w := f.ty.width
  let n := f.ty.count
  elementwise f.ty fun i =>
    let k := elemAt 8 (opnd xs 2) i % (2 * n)
    (if k < n then elemAt w (opnd xs 0) k else elemAt w (opnd xs 1) (k - n), 0)

/-- R167. -/
def execVperm (c : Ctl) (f : Q3) (s : State) : Res :=
  issue (.vperm c f) c (valueBody c [.src f.sa, .src f.sb, .src f.sc] (vpermFn f)) s

/-- R167. -/
def execVsplt (c : Ctl) (f : Q3) (s : State) : Res :=
  issue (.vsplt c f) c (valueBody c [.src f.sa] fun _ _ xs =>
    (splat f.ty (elemAt f.ty.width (opnd xs 0) (if f.mod = 0 then f.imm16.toNat else 0)), 0)) s

end Sys2Proof.Machine
end

