-- ==== Sys2Proof/Machine/Crypto.lean ====
section
/-! DEFINITION. The digest and the signature scheme that R413 names: SHA-384, and ECDSA over P-384 with it. The manual
names them and states no more; their arithmetic is that of the standards of these names (FIPS 180-4, FIPS 186;
PRESUMED, log 78). -/

namespace Sys2Proof.Machine

/-! ### SHA-384 -/

/-- The round constants. -/
def shaK : List Nat :=
  [0x428A2F98D728AE22, 0x7137449123EF65CD, 0xB5C0FBCFEC4D3B2F, 0xE9B5DBA58189DBBC, 0x3956C25BF348B538] ++
  [0x59F111F1B605D019, 0x923F82A4AF194F9B, 0xAB1C5ED5DA6D8118, 0xD807AA98A3030242, 0x12835B0145706FBE] ++
  [0x243185BE4EE4B28C, 0x550C7DC3D5FFB4E2, 0x72BE5D74F27B896F, 0x80DEB1FE3B1696B1, 0x9BDC06A725C71235] ++
  [0xC19BF174CF692694, 0xE49B69C19EF14AD2, 0xEFBE4786384F25E3, 0x0FC19DC68B8CD5B5, 0x240CA1CC77AC9C65] ++
  [0x2DE92C6F592B0275, 0x4A7484AA6EA6E483, 0x5CB0A9DCBD41FBD4, 0x76F988DA831153B5, 0x983E5152EE66DFAB] ++
  [0xA831C66D2DB43210, 0xB00327C898FB213F, 0xBF597FC7BEEF0EE4, 0xC6E00BF33DA88FC2, 0xD5A79147930AA725] ++
  [0x06CA6351E003826F, 0x142929670A0E6E70, 0x27B70A8546D22FFC, 0x2E1B21385C26C926, 0x4D2C6DFC5AC42AED] ++
  [0x53380D139D95B3DF, 0x650A73548BAF63DE, 0x766A0ABB3C77B2A8, 0x81C2C92E47EDAEE6, 0x92722C851482353B] ++
  [0xA2BFE8A14CF10364, 0xA81A664BBC423001, 0xC24B8B70D0F89791, 0xC76C51A30654BE30, 0xD192E819D6EF5218] ++
  [0xD69906245565A910, 0xF40E35855771202A, 0x106AA07032BBD1B8, 0x19A4C116B8D2D0C8, 0x1E376C085141AB53] ++
  [0x2748774CDF8EEB99, 0x34B0BCB5E19B48A8, 0x391C0CB3C5C95A63, 0x4ED8AA4AE3418ACB, 0x5B9CCA4F7763E373] ++
  [0x682E6FF3D6B2B8A3, 0x748F82EE5DEFB2FC, 0x78A5636F43172F60, 0x84C87814A1F0AB72, 0x8CC702081A6439EC] ++
  [0x90BEFFFA23631E28, 0xA4506CEBDE82BDE9, 0xBEF9A3F7B2C67915, 0xC67178F2E372532B, 0xCA273ECEEA26619C] ++
  [0xD186B8C721C0C207, 0xEADA7DD6CDE0EB1E, 0xF57D4F7FEE6ED178, 0x06F067AA72176FBA, 0x0A637DC5A2C898A6] ++
  [0x113F9804BEF90DAE, 0x1B710B35131C471B, 0x28DB77F523047D84, 0x32CAAB7B40C72493, 0x3C9EBE0A15C9BEBC] ++
  [0x431D67C49C100D4C, 0x4CC5D4BECB3E42B6, 0x597F299CFC657E2A, 0x5FCB6FAB3AD6FAEC, 0x6C44198C4A475817]

/-- The first hash value. -/
def shaStart : List Nat :=
  [0xCBBB9D5DC1059ED8, 0x629A292A367CD507, 0x9159015A3070DD17, 0x152FECD8F70E5939, 0x67332667FFC00B31,
   0x8EB44A8768581511, 0xDB0C2E0D64F98FA7, 0x47B5481DBEFA4FA4]

/-- Rotate a 64-bit word right. -/
def rotr64 (n x : Nat) : Nat := x / 2 ^ n + x % 2 ^ n * 2 ^ (64 - n)
def shaSum0 (x : Nat) : Nat := rotr64 28 x ^^^ rotr64 34 x ^^^ rotr64 39 x
def shaSum1 (x : Nat) : Nat := rotr64 14 x ^^^ rotr64 18 x ^^^ rotr64 41 x
def shaSig0 (x : Nat) : Nat := rotr64 1 x ^^^ rotr64 8 x ^^^ x / 2 ^ 7
def shaSig1 (x : Nat) : Nat := rotr64 19 x ^^^ rotr64 61 x ^^^ x / 2 ^ 6

/-- The message schedule, the newest word first, grows by `n` words. -/
def shaSchedule : Nat → List Nat → List Nat
  | 0, w => w
  | n + 1, w =>
    let at' (i : Nat) : Nat := (w[i]?).getD 0
    shaSchedule n ((shaSig1 (at' 1) + at' 6 + shaSig0 (at' 14) + at' 15) % 2 ^ 64 :: w)

/-- One round. -/
def shaRound (v : List Nat) (kw : Nat × Nat) : List Nat :=
  match v with
  | [a, b, c, d, e, f, g, h] =>
    let t := h + shaSum1 e + ((e &&& f) ^^^ (e ^^^ (2 ^ 64 - 1)) &&& g) + kw.1 + kw.2
    [(t + shaSum0 a + ((a &&& b) ^^^ (a &&& c) ^^^ (b &&& c))) % 2 ^ 64, a, b, c, (d + t) % 2 ^ 64, e, f, g]
  | l => l

/-- A number from bytes, the most significant first, and back. -/
def ofBytesBE (l : List Byte) : Nat := ofBytes l.reverse
def bytesBE (n v : Nat) : List Byte := (bytesOf n v).reverse

/-- The hash of one 128-byte block after a hash value. -/
def shaBlock (h : List Nat) (block : List Byte) : List Nat :=
  let w := (List.range 16).map fun i => ofBytesBE ((block.drop (8 * i)).take 8)
  let v := (shaK.zip (shaSchedule 64 w.reverse).reverse).foldl shaRound h
  h.zipWith (fun x y => (x + y) % 2 ^ 64) v

/-- The padded message. -/
def shaPad (m : List Byte) : List Byte :=
  m ++ 0x80 :: List.replicate ((111 + 128 - m.length % 128) % 128) 0 ++ bytesBE 16 (8 * m.length)

/-- The SHA-384 digest. -/
def sha384 (m : List Byte) : List Byte :=
  let p := shaPad m
  let h := (List.range (p.length / 128)).foldl (fun h i => shaBlock h ((p.drop (128 * i)).take 128)) shaStart
  (h.take 6).flatMap (bytesBE 8)

/-! ### P-384 -/

def p384 : Nat := 2 ^ 384 - 2 ^ 128 - 2 ^ 96 + 2 ^ 32 - 1
/-- The order of the group. -/
def n384 : Nat := 0xFFFFFFFFFFFFFFFFFFFFFFFFFFFFFFFFFFFFFFFFFFFFFFFFC7634D81F4372DDF581A0DB248B0A77AECEC196ACCC52973
/-- The curve is y^2 = x^3 - 3 x + b. -/
def b384 : Nat := 0xB3312FA7E23EE7E4988E056BE3F82D19181D9C6EFE8141120314088F5013875AC656398D8A2ED19D2A85C8EDD3EC2AEF

/-- A point as X / Z^2 and Y / Z^3; Z = 0 at infinity. -/
structure Jac where
  x : Nat
  y : Nat
  z : Nat
deriving DecidableEq, Repr

/-- The base point. -/
def g384 : Jac :=
  { x := 0xAA87CA22BE8B05378EB1C71EF320AD746E1D3B628BA79B9859F741E082542A385502F25DBF55296C3A545E3872760AB7,
    y := 0x3617DE4A96262C6F5D9E98BF9292DC29F8F41DBD289A147CE9DA3113B5F0B8C00A60B1CE1D7E819D7A431D7C90EA0E5F, z := 1 }

/-- The difference in the field. -/
def fieldSub (a b : Nat) : Nat := (a + p384 - b % p384) % p384

def Jac.double (a : Jac) : Jac :=
  let yy := a.y * a.y % p384
  let u := 4 * a.x * yy % p384
  let zz := a.z * a.z % p384
  let m := 3 * fieldSub a.x zz * (a.x + zz) % p384
  let x := fieldSub (m * m) (2 * u)
  { x, y := fieldSub (m * fieldSub u x) (8 * yy * yy), z := 2 * a.y * a.z % p384 }

def Jac.add (a b : Jac) : Jac :=
  if a.z = 0 then b else if b.z = 0 then a else
  let az := a.z * a.z % p384
  let bz := b.z * b.z % p384
  let u := a.x * bz % p384
  let s := a.y * bz * b.z % p384
  let h := fieldSub (b.x * az) u
  let r := fieldSub (b.y * az * a.z) s
  if h = 0 then (if r = 0 then a.double else ⟨1, 1, 0⟩) else
  let hh := h * h % p384
  let hhh := hh * h % p384
  let v := u * hh % p384
  let x := fieldSub (r * r) (hhh + 2 * v)
  { x, y := fieldSub (r * fieldSub v x) (s * hhh), z := a.z * b.z * h % p384 }

/-- The top `n` bits of two numbers of 384 bits, as multiples of two points that are added, `ab` being their sum. -/
def mulTwo (a b ab : Jac) (i j : Nat) : Nat → Jac
  | 0 => ⟨1, 1, 0⟩
  | n + 1 =>
    let t := (mulTwo a b ab i j n).double
    let k := 383 - n
    match i / 2 ^ k % 2, j / 2 ^ k % 2 with
    | 0, 0 => t
    | 0, _ => t.add b
    | _, 0 => t.add a
    | _, _ => t.add ab

/-- `x` to the power that the top `n` of 384 bits of `e` make, modulo `m`. -/
def powMod (m x e : Nat) : Nat → Nat
  | 0 => 1 % m
  | n + 1 =>
    let t := powMod m x e n
    let t := t * t % m
    if e / 2 ^ (383 - n) % 2 = 1 then t * x % m else t

/-- A point of the curve. -/
def onCurve (x y : Nat) : Bool :=
  x < p384 && y < p384 && y * y % p384 == fieldSub (x * x * x + b384) (3 * x)

/-- ECDSA: the signature (r, s) of a message with digest `e` verifies under the key (x, y). -/
def ecdsaVerify (x y r s e : Nat) : Bool :=
  if !onCurve x y || r = 0 || n384 ≤ r || s = 0 || n384 ≤ s then false else
  let w := powMod n384 s (n384 - 2) 384
  let q : Jac := ⟨x, y, 1⟩
  let t := mulTwo g384 q (g384.add q) (e * w % n384) (r * w % n384) 384
  let zz := t.z * t.z % p384
  t.z != 0 && (t.x == r * zz % p384 || (r + n384 < p384 && t.x == (r + n384) * zz % p384))

/-! ### The image's signature (R413) -/

/-- The header that is signed, in the order of R413 and little-endian as R3 stores words: SVN, key slot, generation,
length (DESIGN CHOICE, log 78). -/
def imageHeader (i : FwImage) : List Byte :=
  bytesOf 2 i.svn.toNat ++ bytesOf 1 i.keySlot ++ bytesOf 1 i.gen ++ bytesOf 4 i.body.length

/-- The signature verifies: key and signature are two numbers of 48 bytes each, the most significant byte first
(DESIGN CHOICE, log 78). -/
def signatureOk (i : FwImage) : Bool :=
  i.key.length == 96 && i.signature.length == 96 &&
  ecdsaVerify (ofBytesBE (i.key.take 48)) (ofBytesBE (i.key.drop 48)) (ofBytesBE (i.signature.take 48))
    (ofBytesBE (i.signature.drop 48)) (ofBytesBE (sha384 (imageHeader i ++ i.body)))

end Sys2Proof.Machine
end

