-- ==== Sys2Proof/Machine/Tick.lean ====
section
/-! DEFINITION. One cycle of the 800 MHz clock (R4): what counts cycles, the snapshot latch, and the halts
that a hard request or YIELD has asked for. -/

namespace Sys2Proof.Machine

/-- The main side has power (R409). -/
def mainPower (s : State) : Bool := s.pkg == .boot || s.pkg == .ready || s.pkg == .failed

/-- A cluster's counters (R324, R412). -/
def clusterCycle (s : State) (c : Cluster) : Cluster :=
  let f (i : Nat) (v : Word) : Word := v + BitVec.ofNat 64 (perfCycle s i)
  { c with cyc := c.cyc + 1, perf := if s.pcsel = 0 then c.perf else c.perf.mapIdx f }

/-- A TIMER counts, in a saved group too (R282, R291). -/
def timerCycle (b : Binding) : Binding := if b.kind = 6 then { b with count := b.count + 1 } else b

def groupCycle (s : State) (g : Group) : Group := waitCycle s { g with evbind := g.evbind.map timerCycle }

/-- A team's REM (R329). -/
def teamCycle (s : State) (t : Team) : Team :=
  let live : Bool := s.groups.any fun g => g.ctx == t.ctx && g.teamNo == t.no && (g.st == .ready || g.st == .waiting)
  if !live || t.rem = 0 || t.rem = 2 ^ 63 - 1 then t
  else { t with rem := t.rem - 1, budgetDue := t.budgetDue || t.rem == 1 }

/-- Timers of a pre-emption request (R349). -/
def ctxCycle (c : Context) : Context := { c with ts := c.ts.map (· - 1), th := c.th.map (· - 1) }

/-- The timer of a bin's fill stage (R332). -/
def binCycle (s : State) (b : Bin) : Bin :=
  if b.fill.isEmpty || !ctxRuns s b.ctx then b else { b with timer := b.timer + 1 }

def portCycle (p : PortRec) : PortRec := if p.st = .retraining then { p with cycles := p.cycles + 1 } else p
def bentCycle (b : Bent) : Bent := { b with period := Nat.min (b.period + 1) 1024 }
def storeCycle (r : StoreRec) : StoreRec := { r with age := r.age + 1 }
def atomCycle (a : AtomRec) : AtomRec := { a with age := a.age + 1 }

/-- What a cycle brings about by itself: the edges of TIMERs (R282), the loss of overdue stores (R237), BUDGET (R329),
the halts that have been asked for (R335, R352), and upward arrivals that waited for releases (R280). -/
def settleCycle (s : State) : State :=
  let s := raiseWaiting (loseOverdue (timerEdges s))
  let s := s.teams.foldl (fun s t => budgetTraps s t.ctx t.no) s
  let s := haltGroups (latchSnap s)
  s.teams.foldl settleYield s

/-- One cycle. -/
def tick (s : State) : State :=
  if !mainPower s then s
  else
    settleCycle { s with
      fresh := s.fresh + 1,
      clusters := s.clusters.map (clusterCycle s), groups := s.groups.map (groupCycle s),
      teams := s.teams.map (teamCycle s), stores := s.stores.map storeCycle, atoms := s.atoms.map atomCycle,
      bins := s.bins.map (binCycle s), ctxs := s.ctxs.map ctxCycle, ports := s.ports.map portCycle,
      bents := s.bents.map bentCycle }

end Sys2Proof.Machine
end

