-- ==== Sys2Proof/Machine/Package.lean ====
section
/-! DEFINITION. The package (R408 to R415): power, bring-up, the management port's commands, firmware and
identity. -/

namespace Sys2Proof.Machine

/-! ### Power management (R408) -/

/-- The target level: how many of the thresholds of R408 the power lies below. -/
def targetLevel (watts cap : Nat) (hot : Bool) : Nat :=
  if hot then 0 else ([100, 94, 88, 80, 70, 60, 50].filter fun t => watts * 100 < t * cap).length

def nextLevel (h target : Nat) : Nat := if target < h then target else if h < target then h + 1 else h

/-- R408: the end of a period. -/
def execPowerPeriod (bent : BitVec 3) (watts : Nat) (hot : Bool) (s : State) : Res :=
  let b := getBent s bent.toNat
  if !mainPower s || b.period < 1024 then .next s
  else
    let h := nextLevel b.h (targetLevel watts b.bcap hot)
    .next (modBent s bent.toNat fun b =>
      { b with h, hseq := if h = b.h then b.hseq else (b.hseq + 1) % 256, period := 0 })

/-- R408, R410. -/
def execBcap (bent : BitVec 8) (watts : Nat) (s : State) : Res :=
  if !standbyPower s then .next s
  else if 8 ≤ bent.toNat ∨ watts < 200 ∨ 1500 < watts then .next (reply s 0x06 3 [] [])
  else .next (reply (modBent s bent.toNat fun b => { b with bcap := watts }) 0x06 0 [] [])

/-! ### Bring-up (R409) -/

/-- What survives the loss of main power: management settings, firmware slots and fuses, what other devices
have seen or hold. The model's own numbers go on. -/
def mainLost (s : State) (pkg : PkgState) : State :=
  { State.reset with
    pkg, fw := { s.fw with patches := [] }, bootKey := s.bootKey, did := s.did, routes := s.routes,
    bents := s.bents.map fun b => { Bent.reset with bcap := b.bcap },
    host := s.host, replies := s.replies, hostReplies := s.hostReplies, peerReplies := s.peerReplies,
    agenda := s.agenda, fresh := s.fresh, nextId := s.nextId }

/-- R409. -/
def execStandbyOn (s : State) : Res := if s.pkg = .off then .next { s with pkg := .standby } else .next s

/-- R409: all state is lost; what other devices hold is not the package's. -/
def execStandbyOff (s : State) : Res :=
  if s.pkg = .off then .next s
  else .next { State.reset with
    fw := { s.fw with patches := [] }, host := s.host, replies := s.replies, hostReplies := s.hostReplies,
    peerReplies := s.peerReplies, agenda := s.agenda, fresh := s.fresh, nextId := s.nextId }

/-- A staged image takes effect as the package enters BOOT: the security controller tries its slot first (R413;
DEDUCED, log 107). -/
def Firmware.bringUp (fw : Firmware) : Firmware :=
  if fw.staged then { fw with activeA := !fw.activeA, staged := false } else fw

/-- R409, R413. -/
def execMainOn (s : State) : Res :=
  if s.pkg = .standby then .next { s with pkg := .boot, fw := s.fw.bringUp, bootKey := none } else .next s

/-- R409. -/
def execMainOff (s : State) : Res :=
  if s.pkg = .ready ∨ s.pkg = .boot ∨ s.pkg = .failed then .next (mainLost s .standby) else .next s

/-- The image passes the checks of R413; the fuses hold the hash of each slot's public key. -/
def acceptsImage (fw : Firmware) (i : FwImage) : Bool :=
  i.keySlot < 4 && !fw.revoked.getLsbD i.keySlot && sha384 i.key == (fw.keyHashes[i.keySlot]?).getD [] &&
  signatureOk i && fw.minSvn ≤ i.svn.toNat && i.gen == 6

def slotImage (fw : Firmware) (a : Bool) : Option FwImage := if a then fw.slotA else fw.slotB
def slotAccepted (fw : Firmware) (a : Bool) : Bool :=
  match slotImage fw a with | some i => acceptsImage fw i | none => false

/-- The slot that bring-up accepts: the active one, then the other (R413). -/
def acceptedSlot (fw : Firmware) : Option Bool :=
  if slotAccepted fw fw.activeA then some fw.activeA
  else if slotAccepted fw (!fw.activeA) then some (!fw.activeA) else none

/-- The numbers by which a measurement tells an image (log 126). -/
def imageNumbers (i : FwImage) : List Nat :=
  [i.svn.toNat, i.keySlot, i.gen, i.body.length] ++ i.body.map BitVec.toNat ++ i.signature.map BitVec.toNat

/-- What a measurement index measures (R415). -/
def measured (s : State) (index : Nat) : List Nat :=
  match index with
  | 1 => Config.controllerFirmware
  | 2 => (match slotImage s.fw s.fw.activeA with | some i => imageNumbers i | none => [])
  | 3 => Config.baseTable ++ s.fw.patches.flatMap imageNumbers
  | 4 => [s.fw.minSvn, s.fw.revoked.toNat]
  | 5 => if s.pkg = .ready then s.did.toNat :: s.routes.map BitVec.toNat else []
  | _ => []

/-- The alias key is derived anew, once the active slot of this BOOT is known (R415; DESIGN CHOICE, log 126). -/
def deriveAlias (s : State) : State := { s with bootKey := some { controller := measured s 1, image := measured s 2 } }

/-- R409, R413: the Sill ports train from here. -/
def execAuthOk (s : State) : Res :=
  if s.pkg ≠ .boot ∨ s.authed then .next s
  else match acceptedSlot s.fw with
    | none => .next s
    | some a =>
      let s := deriveAlias { s with authed := true, fw := { s.fw with activeA := a } }
      .next (portEvent (portEvent s (.sill 0) .enable) (.sill 1) .enable)

/-- R409, R413. -/
def execAuthFail (s : State) : Res :=
  if s.pkg = .boot ∧ !s.authed ∧ acceptedSlot s.fw = none then .next (deriveAlias { s with pkg := .failed, failCause := 1 })
  else .next s

/-- A Sill port that was fenced in the bring-up is journalled where the journal starts (R400; DEDUCED, log 108). -/
def journalBoot (s : State) : State :=
  (s.ports.filter fun p => p.st == .fenced).foldl (fun s p => journalFenced s p.port) s

/-- R409: READY, with the register window open, the journal at 0 and the Sill ports UP. Each cluster counts from its
own power-up, at some cycle of the bring-up (R324). -/
def execTrainDone (s : State) : Res :=
  if s.pkg ≠ .boot ∨ !s.authed then .next s
  else
    let s := portEvent (portEvent s (.sill 0) .trainOk) (.sill 1) .trainOk
    .next (journalBoot
      { s with pkg := .ready, jnext := 0, jbase := Config.journalBase, evacReserve := Config.evacFrames,
               hostReserve := Config.hostFrames, fresh := s.fresh + 1,
               clusters := s.clusters.map fun c =>
                 { c with cyc := BitVec.ofNat 64 (Config.cycStart s.fresh c.cl % (c.cyc.toNat + 1)) } })

/-- R409. -/
def execBootTrainFail (s : State) : Res :=
  if s.pkg = .boot ∧ s.authed then .next { s with pkg := .failed, failCause := 2 } else .next s

/-! ### Commands of the management port (R410, R411, R413, R414) -/

def PkgState.code : PkgState → Nat
  | .off => 0 | .standby => 1 | .boot => 2 | .ready => 3 | .failed => 4

/-- SVN of the active image; 0 for an empty slot. -/
def activeSvn (fw : Firmware) : Nat := match slotImage fw fw.activeA with | some i => i.svn.toNat | none => 0

/-- R410: state, failure cause, active slot, SVN. -/
def execStatus (s : State) : Res :=
  if !standbyPower s then .next s
  else .next (reply s 0x01 0 [s.pkg.code, s.failCause, b2n (!s.fw.activeA), activeSvn s.fw] [])

/-- R378, R379, R410. -/
def execMgmtOffline (bent : BitVec 8) (force : Bool) (s : State) : Res :=
  whenReady s 0x05 fun s =>
    let b := bent.toNat
    if 8 ≤ b then .next (reply s 0x05 3 [] [])
    else if offlineWaits s b then .next (preemptHolders s b)
    else match takeOffline s b force with
      | (s, some n) => .next (reply s 0x05 0 [n] [])
      | (s, none) => .next (reply s 0x05 2 [] [])

/-- R410, R411. -/
def execSnap (tag : BitVec 16) (s : State) : Res :=
  whenReady s 0x07 fun s => .next (reply (fireSnap s tag) 0x07 0 [] [])

/-- What SNAPREAD reads: register 0x4000, then the record of each physical cluster, 16 words each (R411). -/
def snapData (p : Snap) : List Nat :=
  (snapWord p).toNat :: (upTo (192 * 16)).map fun i => (snapRecWord p (8 * i)).toNat

/-- R410, R411. -/
def execSnapread (s : State) : Res :=
  whenReady s 0x08 fun s => .next (reply (clearSnap s) 0x08 0 (snapData s.snap) [])

/-- R410, R413. -/
def execFwstage (img : FwImage) (s : State) : Res :=
  if !standbyPower s then .next s
  else if !acceptsImage s.fw img then .next (reply s 0x09 4 [] [])
  else
    let fw := if s.fw.activeA then { s.fw with slotB := some img } else { s.fw with slotA := some img }
    .next (reply { s with fw := { fw with staged := true } } 0x09 0 [] [])

/-- R409, R410: Reset acts as MainOn. -/
def execMgmtReset (s : State) : Res :=
  if !standbyPower s then .next s
  else
    let t := if s.pkg = .ready ∨ s.pkg = .failed then mainLost { s with fw := s.fw.bringUp, bootKey := none } .boot
      else s
    .next (reply t 0x0A 0 [] [])

/-- Clusters that belong to no partition. -/
def freeClusters (s : State) : List Nat := (upTo 192).filter fun cl => s.ctxs.all fun c => !c.ranks.contains cl

/-- R318, R414. -/
def execPatch (img : FwImage) (s : State) : Res :=
  whenReady s 0x0B fun s =>
    if !acceptsImage s.fw img then .next (reply s 0x0B 4 [] [])
    else
      let s := { s with fw := { s.fw with patches := s.fw.patches ++ [img] } }
      .next (reply (loadPatches s (freeClusters s)) 0x0B 0 [] [])

/-- R410, R413. -/
def execFwcommit (s : State) : Res :=
  if !standbyPower s then .next s
  else .next (reply { s with fw := { s.fw with minSvn := Nat.max s.fw.minSvn (activeSvn s.fw) } } 0x0C 0 [] [])

/-- R410: an answer to an MCTP control message. -/
def execMctpControl (s : State) : Res :=
  if !standbyPower s then .next s
  else .next (reply { s with fresh := s.fresh + 1 } 0x100 0 [] (Config.mctpBytes s.fresh))

/-! ### SPDM (R415) -/

/-- Versions 1.2 and 1.3. -/
def spdmVersionOk (r : SpdmReq) : Bool := r.version == 0x12 || r.version == 0x13

/-- The keys that the responder holds: the DeviceID key, and the alias key of the last BOOT. -/
def spdmKeys (s : State) : List Byte :=
  Config.deviceIdKey ++ (match s.bootKey with | some k => Config.aliasKey k.controller k.image | none => [])

/-- An answer of the responder, with what it reports; status 1 is ERROR UnsupportedRequest. -/
def spdmReply (s : State) (code : Nat) (ok : Bool) (args data : List Nat) : Res :=
  if !standbyPower s then .next s
  else if ok then
    .next (reply { s with fresh := s.fresh + 1 } code 0 data (Config.identityBytes code (s.fresh :: args ++ data) (spdmKeys s)))
  else .next (reply s code 1 [] [])

/-- R415. -/
def execGetVersion (_ : SpdmReq) (s : State) : Res := spdmReply s 0x184 true [] [0x12, 0x13]
/-- R415. -/
def execGetCapabilities (r : SpdmReq) (s : State) : Res := spdmReply s 0x1E1 (spdmVersionOk r) [r.version] []
/-- R415: ECDSA over P-384 with SHA-384 is what it offers; both are told by their sizes. -/
def execNegotiateAlgorithms (r : SpdmReq) (s : State) : Res :=
  spdmReply s 0x1E3 (spdmVersionOk r) [r.version] [384, 384]
/-- R415. -/
def execGetDigests (r : SpdmReq) (s : State) : Res := spdmReply s 0x181 (spdmVersionOk r) [r.version, r.slot] []
/-- R415: slot 0 only. -/
def execGetCertificate (r : SpdmReq) (s : State) : Res :=
  spdmReply s 0x182 (spdmVersionOk r && r.slot == 0) [r.version, r.slot] []
/-- R415. -/
def execChallenge (r : SpdmReq) (s : State) : Res :=
  spdmReply s 0x183 (spdmVersionOk r && r.slot == 0) [r.version, r.slot, r.nonce] []

/-- R415: signed measurements. -/
def execGetMeasurements (r : SpdmReq) (s : State) : Res :=
  spdmReply s 0x1E0 (spdmVersionOk r && r.signed && 1 ≤ r.index && r.index ≤ 5) [r.version, r.index, r.nonce]
    (measured s r.index)

/-- R415. -/
def execSpdmUnsupportedRequest (_ : SpdmReq) (s : State) : Res := spdmReply s 0x1FF false [] []

end Sys2Proof.Machine
end

