-- ==== Sys2Proof/Machine/Dispatch.lean ====
section
/-! DEFINITION. One arm for each constructor of Instr, each a direct call of its meaning. -/

namespace Sys2Proof.Machine

def exec (i : Instr) (s : State) : Host.Outcome State Fault Refusal :=
  match i with
  | .nop c f => Sys2Proof.Machine.execNop c f s
  | .pass c f => Sys2Proof.Machine.execPass c f s
  | .ldi c f => Sys2Proof.Machine.execLdi c f s
  | .ldih c f => Sys2Proof.Machine.execLdih c f s
  | .save c f => Sys2Proof.Machine.execSave c f s
  | .rest c f => Sys2Proof.Machine.execRest c f s
  | .lane c f => Sys2Proof.Machine.execLane c f s
  | .unif c f => Sys2Proof.Machine.execUnif c f s
  | .bra c f => Sys2Proof.Machine.execBra c f s
  | .brc c f => Sys2Proof.Machine.execBrc c f s
  | .brd c f => Sys2Proof.Machine.execBrd c f s
  | .join c f => Sys2Proof.Machine.execJoin c f s
  | .call c f => Sys2Proof.Machine.execCall c f s
  | .calli c f => Sys2Proof.Machine.execCalli c f s
  | .ret c f => Sys2Proof.Machine.execRet c f s
  | .loop c f => Sys2Proof.Machine.execLoop c f s
  | .brx c f => Sys2Proof.Machine.execBrx c f s
  | .exit c f => Sys2Proof.Machine.execExit c f s
  | .region c f => Sys2Proof.Machine.execRegion c f s
  | .bkpt c f => Sys2Proof.Machine.execBkpt c f s
  | .trap c f => Sys2Proof.Machine.execTrap c f s
  | .wait c f => Sys2Proof.Machine.execWait c f s
  | .nap c f => Sys2Proof.Machine.execNap c f s
  | .pset c f => Sys2Proof.Machine.execPset c f s
  | .plop c f => Sys2Proof.Machine.execPlop c f s
  | .pmov c f => Sys2Proof.Machine.execPmov c f s
  | .pgat c f => Sys2Proof.Machine.execPgat c f s
  | .sel c f => Sys2Proof.Machine.execSel c f s
  | .fspill c f => Sys2Proof.Machine.execFspill c f s
  | .ffill c f => Sys2Proof.Machine.execFfill c f s
  | .add c f => Sys2Proof.Machine.execAdd c f s
  | .sub c f => Sys2Proof.Machine.execSub c f s
  | .mul c f => Sys2Proof.Machine.execMul c f s
  | .mulh c f => Sys2Proof.Machine.execMulh c f s
  | .mad c f => Sys2Proof.Machine.execMad c f s
  | .madw c f => Sys2Proof.Machine.execMadw c f s
  | .min c f => Sys2Proof.Machine.execMin c f s
  | .max c f => Sys2Proof.Machine.execMax c f s
  | .abs c f => Sys2Proof.Machine.execAbs c f s
  | .neg c f => Sys2Proof.Machine.execNeg c f s
  | .adif c f => Sys2Proof.Machine.execAdif c f s
  | .clamp c f => Sys2Proof.Machine.execClamp c f s
  | .div c f => Sys2Proof.Machine.execDiv c f s
  | .rem c f => Sys2Proof.Machine.execRem c f s
  | .addx c f => Sys2Proof.Machine.execAddx c f s
  | .and c f => Sys2Proof.Machine.execAnd c f s
  | .or c f => Sys2Proof.Machine.execOr c f s
  | .xor c f => Sys2Proof.Machine.execXor c f s
  | .andn c f => Sys2Proof.Machine.execAndn c f s
  | .not c f => Sys2Proof.Machine.execNot c f s
  | .shl c f => Sys2Proof.Machine.execShl c f s
  | .shr c f => Sys2Proof.Machine.execShr c f s
  | .sar c f => Sys2Proof.Machine.execSar c f s
  | .rol c f => Sys2Proof.Machine.execRol c f s
  | .bfe c f => Sys2Proof.Machine.execBfe c f s
  | .bfi c f => Sys2Proof.Machine.execBfi c f s
  | .popc c f => Sys2Proof.Machine.execPopc c f s
  | .clz c f => Sys2Proof.Machine.execClz c f s
  | .brev c f => Sys2Proof.Machine.execBrev c f s
  | .btab c f => Sys2Proof.Machine.execBtab c f s
  | .bpik c f => Sys2Proof.Machine.execBpik c f s
  | .dot4 c f => Sys2Proof.Machine.execDot4 c f s
  | .dot2 c f => Sys2Proof.Machine.execDot2 c f s
  | .rqs c f => Sys2Proof.Machine.execRqs c f s
  | .leaReg c f => Sys2Proof.Machine.execLeaReg c f s
  | .leaImm c f => Sys2Proof.Machine.execLeaImm c f s
  | .ptag c f => Sys2Proof.Machine.execPtag c f s
  | .pfld c f => Sys2Proof.Machine.execPfld c f s
  | .fadd c f => Sys2Proof.Machine.execFadd c f s
  | .fsub c f => Sys2Proof.Machine.execFsub c f s
  | .fmul c f => Sys2Proof.Machine.execFmul c f s
  | .fma c f => Sys2Proof.Machine.execFma c f s
  | .fmin c f => Sys2Proof.Machine.execFmin c f s
  | .fmax c f => Sys2Proof.Machine.execFmax c f s
  | .fcmp c f => Sys2Proof.Machine.execFcmp c f s
  | .fcls c f => Sys2Proof.Machine.execFcls c f s
  | .frcp c f => Sys2Proof.Machine.execFrcp c f s
  | .frsq c f => Sys2Proof.Machine.execFrsq c f s
  | .fsqrt c f => Sys2Proof.Machine.execFsqrt c f s
  | .fdiv c f => Sys2Proof.Machine.execFdiv c f s
  | .fex2 c f => Sys2Proof.Machine.execFex2 c f s
  | .flg2 c f => Sys2Proof.Machine.execFlg2 c f s
  | .fsin c f => Sys2Proof.Machine.execFsin c f s
  | .fcos c f => Sys2Proof.Machine.execFcos c f s
  | .ftnh c f => Sys2Proof.Machine.execFtnh c f s
  | .fscl c f => Sys2Proof.Machine.execFscl c f s
  | .frnd c f => Sys2Proof.Machine.execFrnd c f s
  | .fdot2 c f => Sys2Proof.Machine.execFdot2 c f s
  | .cvt c f => Sys2Proof.Machine.execCvt c f s
  | .cvtb c f => Sys2Proof.Machine.execCvtb c f s
  | .cvtu c f => Sys2Proof.Machine.execCvtu c f s
  | .pack c f => Sys2Proof.Machine.execPack c f s
  | .lxch c f => Sys2Proof.Machine.execLxch c f s
  | .redg c f => Sys2Proof.Machine.execRedg c f s
  | .scan c f => Sys2Proof.Machine.execScan c f s
  | .vext c f => Sys2Proof.Machine.execVext c f s
  | .vins c f => Sys2Proof.Machine.execVins c f s
  | .vperm c f => Sys2Proof.Machine.execVperm c f s
  | .vsplt c f => Sys2Proof.Machine.execVsplt c f s
  | .gang c f => Sys2Proof.Machine.execGang c f s
  | .gangLeave c f => Sys2Proof.Machine.execGangLeave c f s
  | .mma c f => Sys2Proof.Machine.execMma c f s
  | .mmz c f => Sys2Proof.Machine.execMmz c f s
  | .mmld c f => Sys2Proof.Machine.execMmld c f s
  | .mmst c f => Sys2Proof.Machine.execMmst c f s
  | .mmrd c f => Sys2Proof.Machine.execMmrd c f s
  | .mmstat c f => Sys2Proof.Machine.execMmstat c f s
  | .ld c f => Sys2Proof.Machine.execLd c f s
  | .st c f => Sys2Proof.Machine.execSt c f s
  | .ldz c f => Sys2Proof.Machine.execLdz c f s
  | .atom c f => Sys2Proof.Machine.execAtom c f s
  | .atomn c f => Sys2Proof.Machine.execAtomn c f s
  | .cas c f => Sys2Proof.Machine.execCas c f s
  | .fence c f => Sys2Proof.Machine.execFence c f s
  | .alloc c f => Sys2Proof.Machine.execAlloc c f s
  | .free c f => Sys2Proof.Machine.execFree c f s
  | .pcommit c f => Sys2Proof.Machine.execPcommit c f s
  | .pdecommit c f => Sys2Proof.Machine.execPdecommit c f s
  | .pquery c f => Sys2Proof.Machine.execPquery c f s
  | .cpyl c f => Sys2Proof.Machine.execCpyl c f s
  | .cpyt c f => Sys2Proof.Machine.execCpyt c f s
  | .cpyfJoin c f => Sys2Proof.Machine.execCpyfJoin c f s
  | .cpyfBar c f => Sys2Proof.Machine.execCpyfBar c f s
  | .cpyfCring c f => Sys2Proof.Machine.execCpyfCring c f s
  | .cpyrResume c f => Sys2Proof.Machine.execCpyrResume c f s
  | .cpyrSkip c f => Sys2Proof.Machine.execCpyrSkip c f s
  | .rinit c f => Sys2Proof.Machine.execRinit c f s
  | .rclm c f => Sys2Proof.Machine.execRclm c f s
  | .rcmt c f => Sys2Proof.Machine.execRcmt c f s
  | .rcmtQ c f => Sys2Proof.Machine.execRcmtQ c f s
  | .rawt c f => Sys2Proof.Machine.execRawt c f s
  | .rret c f => Sys2Proof.Machine.execRret c f s
  | .rsub c f => Sys2Proof.Machine.execRsub c f s
  | .rclose c f => Sys2Proof.Machine.execRclose c f s
  | .binit c f => Sys2Proof.Machine.execBinit c f s
  | .barv c f => Sys2Proof.Machine.execBarv c f s
  | .bwait c f => Sys2Proof.Machine.execBwait c f s
  | .barw c f => Sys2Proof.Machine.execBarw c f s
  | .bexp c f => Sys2Proof.Machine.execBexp c f s
  | .evbind c f => Sys2Proof.Machine.execEvbind c f s
  | .evmask c f => Sys2Proof.Machine.execEvmask c f s
  | .evwait c f => Sys2Proof.Machine.execEvwait c f s
  | .evpoll c f => Sys2Proof.Machine.execEvpoll c f s
  | .evraise c f => Sys2Proof.Machine.execEvraise c f s
  | .evclr c f => Sys2Proof.Machine.execEvclr c f s
  | .msend c f => Sys2Proof.Machine.execMsend c f s
  | .mrecv c f => Sys2Proof.Machine.execMrecv c f s
  | .spawn c f => Sys2Proof.Machine.execSpawn c f s
  | .yield c f => Sys2Proof.Machine.execYield c f s
  | .srd c f => Sys2Proof.Machine.execSrd c f s
  | .swr c f => Sys2Proof.Machine.execSwr c f s
  | .tret c f => Sys2Proof.Machine.execTret c f s
  | .tmaskMask c f => Sys2Proof.Machine.execTmaskMask c f s
  | .tmaskUnmask c f => Sys2Proof.Machine.execTmaskUnmask c f s
  | .segset c f => Sys2Proof.Machine.execSegset c f s
  | .harvest c f => Sys2Proof.Machine.execHarvest c f s
  | .tinv c f => Sys2Proof.Machine.execTinv c f s
  | .icinv c f => Sys2Proof.Machine.execIcinv c f s
  | .snapt c f => Sys2Proof.Machine.execSnapt c f s
  | .step gid => Sys2Proof.Machine.execStep gid s
  | .groupWake gid => Sys2Proof.Machine.execGroupWake gid s
  | .loadDataArrive id part => Sys2Proof.Machine.execLoadDataArrive id part s
  | .exitRetire gid => Sys2Proof.Machine.execExitRetire gid s
  | .regionRestart gid => Sys2Proof.Machine.execRegionRestart gid s
  | .tlbWalk ctx cl page => Sys2Proof.Machine.execTlbWalk ctx cl page s
  | .storeOrder id => Sys2Proof.Machine.execStoreOrder id s
  | .storeForward id => Sys2Proof.Machine.execStoreForward id s
  | .storeAcknowledge id => Sys2Proof.Machine.execStoreAcknowledge id s
  | .atomicPerform id => Sys2Proof.Machine.execAtomicPerform id s
  | .storeLossPathDown id => Sys2Proof.Machine.execStoreLossPathDown id s
  | .storeAckTimeout id => Sys2Proof.Machine.execStoreAckTimeout id s
  | .acklostExpire id => Sys2Proof.Machine.execAcklostExpire id s
  | .napExpiry gid => Sys2Proof.Machine.execNapExpiry gid s
  | .wdog gid => Sys2Proof.Machine.execWdog gid s
  | .budget ctx team => Sys2Proof.Machine.execBudget ctx team s
  | .gangTileGrant gang => Sys2Proof.Machine.execGangTileGrant gang s
  | .jointOpPerform gang => Sys2Proof.Machine.execJointOpPerform gang s
  | .tileOpPerform gang id => Sys2Proof.Machine.execTileOpPerform gang id s
  | .copyStart id => Sys2Proof.Machine.execCopyStart id s
  | .copyLine id => Sys2Proof.Machine.execCopyLine id s
  | .copyCompletion id => Sys2Proof.Machine.execCopyCompletion id s
  | .copyJoinRelease id => Sys2Proof.Machine.execCopyJoinRelease id s
  | .ringClaimGrant id => Sys2Proof.Machine.execRingClaimGrant id s
  | .ringAwaitResolve id => Sys2Proof.Machine.execRingAwaitResolve id s
  | .ringQueuedCommit id => Sys2Proof.Machine.execRingQueuedCommit id s
  | .loaderBox id => Sys2Proof.Machine.execLoaderBox id s
  | .storerBox id => Sys2Proof.Machine.execStorerBox id s
  | .barrierParentRelease child => Sys2Proof.Machine.execBarrierParentRelease child s
  | .barrierCombinerLost bar => Sys2Proof.Machine.execBarrierCombinerLost bar s
  | .timerEdge gid n => Sys2Proof.Machine.execTimerEdge gid n s
  | .eventDispatch gid => Sys2Proof.Machine.execEventDispatch gid s
  | .mailDeliver id => Sys2Proof.Machine.execMailDeliver id s
  | .spawnBinTimer bin => Sys2Proof.Machine.execSpawnBinTimer bin s
  | .spawnBinLaunch bin p => Sys2Proof.Machine.execSpawnBinLaunch bin p s
  | .teamPlace cl p => Sys2Proof.Machine.execTeamPlace cl p s
  | .deadlineExpire cl ctx seq => Sys2Proof.Machine.execDeadlineExpire cl ctx seq s
  | .powerPeriod bent watts hot => Sys2Proof.Machine.execPowerPeriod bent watts hot s
  | .partitionGrant ctx clusters cores => Sys2Proof.Machine.execPartitionGrant ctx clusters cores s
  | .contextDrained ctx => Sys2Proof.Machine.execContextDrained ctx s
  | .contextHalted ctx => Sys2Proof.Machine.execContextHalted ctx s
  | .softTimeout ctx => Sys2Proof.Machine.execSoftTimeout ctx s
  | .hardTimeout ctx => Sys2Proof.Machine.execHardTimeout ctx s
  | .resetDone ctx => Sys2Proof.Machine.execResetDone ctx s
  | .loadComplete ctx obj plan => Sys2Proof.Machine.execLoadComplete ctx obj plan s
  | .loadReject ctx obj tried => Sys2Proof.Machine.execLoadReject ctx obj tried s
  | .codeObjectDrained ctx obj => Sys2Proof.Machine.execCodeObjectDrained ctx obj s
  | .towerLoss bent => Sys2Proof.Machine.execTowerLoss bent s
  | .admqWrite v => Sys2Proof.Machine.execAdmqWrite v s
  | .doorbell q tail => Sys2Proof.Machine.execDoorbell q tail s
  | .pcselWrite v => Sys2Proof.Machine.execPcselWrite v s
  | .snapValidClear => Sys2Proof.Machine.execSnapValidClear s
  | .registerWrite off v => Sys2Proof.Machine.execRegisterWrite off v s
  | .nopPacket p => Sys2Proof.Machine.execNopPacket p s
  | .ctxnew p => Sys2Proof.Machine.execCtxnew p s
  | .ctxdel p => Sys2Proof.Machine.execCtxdel p s
  | .qnew p => Sys2Proof.Machine.execQnew p s
  | .qdel p => Sys2Proof.Machine.execQdel p s
  | .load p => Sys2Proof.Machine.execLoad p s
  | .unload p => Sys2Proof.Machine.execUnload p s
  | .launch p => Sys2Proof.Machine.execLaunch p s
  | .preempt p => Sys2Proof.Machine.execPreempt p s
  | .tinvq p => Sys2Proof.Machine.execTinvq p s
  | .poolAdd p => Sys2Proof.Machine.execPoolAdd p s
  | .poolTake p => Sys2Proof.Machine.execPoolTake p s
  | .retry p => Sys2Proof.Machine.execRetry p s
  | .migrate p => Sys2Proof.Machine.execMigrate p s
  | .offline p => Sys2Proof.Machine.execOffline p s
  | .signal p => Sys2Proof.Machine.execSignal p s
  | .waitmem p => Sys2Proof.Machine.execWaitmem p s
  | .census p => Sys2Proof.Machine.execCensus p s
  | .badkind p => Sys2Proof.Machine.execBadkind p s
  | .queueUnblock q => Sys2Proof.Machine.execQueueUnblock q s
  | .hostAccess addr act => Sys2Proof.Machine.execHostAccess addr act s
  | .peerRemoteAccess act => Sys2Proof.Machine.execPeerRemoteAccess act s
  | .flitReplay port replays => Sys2Proof.Machine.execFlitReplay port replays s
  | .trainOk port => Sys2Proof.Machine.execTrainOk port s
  | .trainFail port => Sys2Proof.Machine.execTrainFail port s
  | .retrainTimeout port => Sys2Proof.Machine.execRetrainTimeout port s
  | .routeHoldRelease did => Sys2Proof.Machine.execRouteHoldRelease did s
  | .standbyOn => Sys2Proof.Machine.execStandbyOn s
  | .standbyOff => Sys2Proof.Machine.execStandbyOff s
  | .mainOn => Sys2Proof.Machine.execMainOn s
  | .mainOff => Sys2Proof.Machine.execMainOff s
  | .authOk => Sys2Proof.Machine.execAuthOk s
  | .authFail => Sys2Proof.Machine.execAuthFail s
  | .trainDone => Sys2Proof.Machine.execTrainDone s
  | .bootTrainFail => Sys2Proof.Machine.execBootTrainFail s
  | .mctpControl => Sys2Proof.Machine.execMctpControl s
  | .status => Sys2Proof.Machine.execStatus s
  | .setdid did => Sys2Proof.Machine.execSetdid did s
  | .setroute did mask => Sys2Proof.Machine.execSetroute did mask s
  | .linkEnable port => Sys2Proof.Machine.execLinkEnable port s
  | .linkFence port => Sys2Proof.Machine.execLinkFence port s
  | .linkUnfence port => Sys2Proof.Machine.execLinkUnfence port s
  | .linkDisable port => Sys2Proof.Machine.execLinkDisable port s
  | .mgmtOffline bent force => Sys2Proof.Machine.execMgmtOffline bent force s
  | .bcap bent watts => Sys2Proof.Machine.execBcap bent watts s
  | .snap tag => Sys2Proof.Machine.execSnap tag s
  | .snapread => Sys2Proof.Machine.execSnapread s
  | .fwstage img => Sys2Proof.Machine.execFwstage img s
  | .mgmtReset => Sys2Proof.Machine.execMgmtReset s
  | .patch img => Sys2Proof.Machine.execPatch img s
  | .fwcommit => Sys2Proof.Machine.execFwcommit s
  | .getVersion r => Sys2Proof.Machine.execGetVersion r s
  | .getCapabilities r => Sys2Proof.Machine.execGetCapabilities r s
  | .negotiateAlgorithms r => Sys2Proof.Machine.execNegotiateAlgorithms r s
  | .getDigests r => Sys2Proof.Machine.execGetDigests r s
  | .getCertificate r => Sys2Proof.Machine.execGetCertificate r s
  | .challenge r => Sys2Proof.Machine.execChallenge r s
  | .getMeasurements r => Sys2Proof.Machine.execGetMeasurements r s
  | .spdmUnsupportedRequest r => Sys2Proof.Machine.execSpdmUnsupportedRequest r s
  | .uncorrectableSoftError loc => Sys2Proof.Machine.execUncorrectableSoftError loc s
  | .companionHostLineWrite line data => Sys2Proof.Machine.execCompanionHostLineWrite line data s

end Sys2Proof.Machine
end

