-- ==== Sys2Proof/Machine/Run.lean ====
section
/-! DEFINITION. What acts next: a group that issues, a packet that is taken, a step of another agent, a
cycle (log 9). Step.lean calls `reissue`, `perform` or `idleStep`. -/

namespace Sys2Proof.Machine

/-- The word at a group's PC is fetched, decoded and executed; one that is no valid instruction traps (R62). `pre` is
what the issue itself counts. -/
def fetchIssue (s : State) (g : Group) (pre : State → State) : Res :=
  match fetch s g with
  | .out o => .next (applyOut g.gid g.pc o)
  | .word s w =>
    match decodeWord w with
    | .ok i => exec i { pre s with cur := g.gid }
    | .error .illop => .next (takeTrap s g.gid .illop false g.pc w)
    | .error .illfld => .next (takeTrap s g.gid .illfld false g.pc w)

/-- A group issues: a due single step first (R348), else fetch, decode, execute. -/
def issueGroup (s : State) (gid : Nat) : Res :=
  match getGroup s gid with
  | none => .next s
  | some g =>
    if g.st ≠ .ready ∨ !mayIssue s g then .next s
    else match g.step with
    | .due _ => exec (.step gid) s
    | _ => fetchIssue s g fun s => perfCount s g.cl 2 1

/-- A group that a wake or a restore found able to go on issues its blocked instruction again (R79); a nap whose
count has run out completes (R126), and an exit drain goes on (R80). The word at its PC is fetched again, and may have
been written since the instruction blocked (DESIGN CHOICE, log 112). -/
def reissue (s : State) (gid : Nat) : Res :=
  match getGroup s gid with
  | none => .next s
  | some g =>
    if g.st ≠ .waiting then .next s
    else if g.drain then exec (.exitRetire gid) s
    else if g.wreason = .nap then exec (.napExpiry gid) s
    else if mayIssue s g then fetchIssue s g id
    else .next s

/-- The packet at a queue's head, as the ring holds it. -/
def headPacket (s : State) (qu : Queue) : Packet :=
  { q := qu.id, words := match physLoc qu.ring with
      | some l => (upTo 8).map fun i => readWord s (l.plus (64 * (qu.head % 2 ^ qu.lgs) + 8 * i))
      | none => [] }

/-- The control processor takes the packet of a queue whose turn it is (R388, R389). -/
def takePacket (s : State) (q : Nat) : Res :=
  match nextQueue s with
  | none => .next s
  | some qu => if qu.id ≠ q ∨ s.pkg ≠ .ready then .next s else exec (decodePacket (headPacket s qu)) (takeTurn s q)

/-- The instruction is a packet's: NOP to BADKIND (chapter 17), which stand together in `Instr`. -/
def isPacket (i : Instr) : Bool :=
  let p : Packet := { q := 0, words := [] }
  (Instr.nopPacket p).ctorIdx ≤ i.ctorIdx && i.ctorIdx ≤ (Instr.badkind p).ctorIdx

/-- A packet named takes place when its queue's turn is next and the ring's head holds it. -/
def performPacket (i : Instr) (s : State) : Res :=
  match nextQueue s with
  | some qu => if decodePacket (headPacket s qu) = i then takePacket s qu.id else .next s
  | none => .next s

/-- A step of another agent. Words are issued by groups, and packets are taken from their rings in turn: named here,
a word does nothing. -/
def performEvent (i : Instr) (s : State) : Res :=
  if i.isWord then .next s else if isPacket i then performPacket i s else exec i s

/-- One choice takes place. -/
def perform (c : Choice) (s : State) : Res :=
  match c with
  | .issue g => issueGroup s g
  | .take q => takePacket s q
  | .tick => .next (tick s)
  | .prefetch g va => .next (prefetch s g va)
  | .event i => performEvent i s

/-! ### The default (log 9) -/

def gangSteps (k : Gang) : List Instr :=
  .gangTileGrant k.key :: .jointOpPerform k.key :: k.tileOps.map fun t => .tileOpPerform k.key t.id

/-- Steps of the other agents that bring what is under way to its end. -/
def pendingSteps (s : State) : List Instr :=
  List.flatten [
    s.stores.flatMap fun r => [.storeOrder r.id, .storeForward r.id, .storeAcknowledge r.id],
    s.atoms.map fun a => .atomicPerform a.id,
    s.loads.flatMap fun r => [.loadDataArrive r.id 0, .loadDataArrive r.id 1],
    s.queries.map fun q => .loadDataArrive q.id 0,
    s.gangs.flatMap gangSteps,
    s.copies.flatMap fun c => [.copyStart c.id, .copyLine c.id, .copyCompletion c.id, .copyJoinRelease c.id,
      .ringQueuedCommit c.id],
    s.ringWaits.flatMap fun w => [.ringClaimGrant w.id, .ringAwaitResolve w.id],
    s.subs.flatMap fun x => [.loaderBox x.id, .storerBox x.id],
    s.releases.map fun r => .barrierParentRelease r.1,
    s.msgs.map fun m => .mailDeliver m.id,
    s.groups.flatMap fun g => [.exitRetire g.gid, .regionRestart g.gid, .napExpiry g.gid],
    s.queues.map fun q => .queueUnblock q.id,
    s.ctxs.flatMap fun c => [.contextDrained c.id, .contextHalted c.id, .resetDone c.id]]

/-- The step is enabled: it changes the state. -/
def changes (s : State) (i : Instr) : Bool :=
  match exec i s with
  | .next t => t != s
  | _ => false

/-- The choice when the agenda is empty: the first group that is READY, else the first queue with a packet to take,
else the first step of another agent that is enabled; a cycle where nothing else is left. -/
def defaultChoice (s : State) : Choice :=
  match s.groups.find? fun g => g.st == .ready && mayIssue s g with
  | some g => .issue g.gid
  | none => match nextQueue s with
    | some q => .take q.id
    | none => match (pendingSteps s).find? (changes s) with
      | some i => .event i
      | none => .tick

/-- The groups that wait to issue an instruction again. -/
def waiters (s : State) : List Nat :=
  (s.groups.filter fun g => g.st == .waiting && g.wreason != .pflt && g.wreason != .nap && !g.drain).map (·.gid)

/-- A step with an empty agenda. After a cycle every group that waits tries its instruction again. -/
def idleStep (s : State) : Res :=
  match defaultChoice s with
  | .tick => let t := tick s; .next { t with resume := t.resume ++ waiters t }
  | c => perform c s

end Sys2Proof.Machine
end

