-- ==== Sys2Proof/Machine/Step.lean ====
section
/-! DEFINITION. The step of the package, and the state that holds one instruction ready to run. -/

namespace Sys2Proof.Machine

/-- One step: a group that a wake or a restore found able to go on first, then the head of the agenda, or the default
when it is empty. -/
def step (s : State) : Host.Outcome State Fault Refusal :=
  match s.resume with
  | g :: rest => reissue { s with resume := rest } g
  | [] => match s.agenda with
    | c :: rest => perform c { s with agenda := rest }
    | [] => idleStep s

/-- The context, page tables, team and group that a fetched instruction needs (log 12): page tables at
0x10000, 0x20000 and 0x30000 map virtual page 1 to the frame at 0x40000, where the group's PC points. -/
def fetchSetting (s : State) : State :=
  let s := { s with
    pkg := .ready,
    ctxs := [{ id := 1, st := .running, root := 0x10000, asid := 1, gen := 0, evac := false, rcb := 0, prio := 0,
               tvec := 0x10400, wdog := 0xFFFFFFFF, ncl := 1, fring := 0x50000, lgf := 4, fcount := 0,
               nextSeq := 1, nextObj := 1, ranks := [0], savedRanks := 1, ts := none, th := none, thSet := 0,
               hard := false, req := 0, destroy := false, shadow := [], pool := List.replicate 8 [],
               stub := none, dels := [] }],
    teams := [{ ctx := 1, no := 1, gen := 0, seq := 0, index := 0, cl := 0, rank := 0, wb := 0,
                wsize := 0x100000, hdr := 0x00000100002000A1, rem := 1000000, dl := 0, overdue := false,
                prio := 0, ecls := 0, spawned := false, yielded := false, yielding := false,
                budgetDue := false }],
    groups := [newGroup 1 1 1 { gidx := 0, team := 0, nteam := 1, ngrp := 1, spawned := false, g16 := false }
      0 0 0 0x10000 (firstLanes 32) (fun l => [quadOf l, 0]) [0, 0, 0] (ownScratch 0xF0000)
      (ownScratch 0x100000) 0xFFFFFFFF 0x10400] }
  let s := writeWord s (.dev 0x10000) 0x20001
  let s := writeWord s (.dev 0x20000) 0x30001
  writeWord s (.dev 0x30008) 0x4013B

/-- The state with an instruction's bits at the PC of a READY group that issues next. -/
def State.withFetchWord (s : State) (nbits w : Nat) : State :=
  let s := writeWord (fetchSetting s) (.dev 0x40000) (BitVec.ofNat 64 (w % 2 ^ nbits))
  { s with agenda := [.issue 1], cur := 1, resume := [] }

end Sys2Proof.Machine
end

