-- ==== Sys2Proof/Safety.lean ====
section
/-! DEFINITION. What counts as a safe step, and the vocabulary in which statements about a group's
instructions are made. -/

namespace Sys2Proof.Machine

/-- The step goes on. -/
def Proceeds (s : State) : Prop := ∃ t, step s = .next t

/-- Group `g` issues and no check of R62 or R114 keeps instruction `i` from acting. -/
def Acts (s : State) (g : Group) (i : Instr) (c : Ctl) : Prop :=
  getGroup s s.cur = some g ∧ issueTrap s g i c = none

/-- The group after an instruction completes: the next PC, READY, and an arm that the PC ends (R79, R114). -/
def completed (g : Group) (pc : Word) : Group :=
  settleArms 2 { g with pc, st := .ready, wreason := .none, wdcnt := 0, peerOk := none,
                        step := if g.step = .armed then .due g.pc else g.step }

/-- The group numbered as `h` becomes `h` and every other group stays. -/
def GroupsBecome (s t : State) (h : Group) : Prop :=
  getGroup t h.gid = some h ∧
  t.groups.filter (fun k => k.gid ≠ h.gid) = s.groups.filter (fun k => k.gid ≠ h.gid)

/-- The whole effect of an instruction that changes the issuing group only: every other group, memory and
every other field of the state are as before. -/
def CompletesWith (s : State) (i : Instr) (g' : Group) (pc : Word) : Prop :=
  ∃ t, exec i s = .next t ∧ t = { s with groups := t.groups } ∧ GroupsBecome s t (completed g' pc)

/-- The sources that these lanes read hold values (R83). -/
def Readable (g : Group) (ls : List Nat) (args : List Arg) : Prop := argPends g ls args = []

/-- An entry whose element `j` of width `w` is the low bits of `code j`, with zeros above its `n` elements (R20, R130). -/
def IsEntry (w n : Nat) (code : Nat → Nat) (v : Quad) : Prop :=
  v.toNat < 2 ^ (w * n) ∧ ∀ j < n, v.toNat / 2 ^ (w * j) % 2 ^ w = code j % 2 ^ w

/-- R81, R84, R88: an entry goes onto each executing thread's file, or onto the uniform file. -/
def pushed (c : Ctl) (v : Nat → Quad) (g : Group) : Group :=
  if c.u then { g with gages := (.val (v 0) :: g.gages).take 20 }
  else { g with threads := g.threads.mapIdx fun l t =>
    if participates g c l then { t with ages := (.val (v l) :: t.ages).take 20, pcnt := min (t.pcnt + 1) 15 }
    else t }

/-- Predicate `p` of each executing thread, or of each active one, becomes `b` (R129). -/
def predicated (c : Ctl) (p : BitVec 4) (b : Nat → Bool) (g : Group) : Group :=
  { g with threads := g.threads.mapIdx fun l t =>
    if (if c.u then g.amask.getLsbD l else participates g c l) then
      setPred p.toNat (b (if c.u then 0 else l)) t
    else t }

/-- R47: raised flags are ORed into FLAGS. -/
def flagged (fl : Nat) (g : Group) : Group := { g with flags := g.flags ||| BitVec.ofNat 32 (fl % 128) }

/-- What an instruction that computes an entry a lane is, in the manual's terms: its operands, the element
width and count of the result, and each element with the flags it raises. -/
structure ValueRow where
  ctl : Ctl
  args : List Arg
  width : Nat
  count : Nat
  elem : Group → Nat → List Quad → Nat → Nat × Nat

/-- The operands of a lane. -/
def ValueRow.vals (r : ValueRow) (g : Group) (l : Nat) : List Quad := r.args.map (argVal g l)

/-- The flags that the row raises in all lanes and elements (R47), with VOIDR (R82). -/
def ValueRow.raised (r : ValueRow) (g : Group) : Nat :=
  voidFlag g (execLanes g r.ctl) r.args |||
  orFlags (execLanes g r.ctl) fun l => orFlags (upTo r.count) fun j => (r.elem g l (r.vals g l) j).2

/-- What an instruction that computes a predicate a lane is. -/
structure PredRow where
  ctl : Ctl
  pd : BitVec 4
  args : List Arg
  holds : Group → Nat → List Quad → Bool × Nat

def PredRow.vals (r : PredRow) (g : Group) (l : Nat) : List Quad := r.args.map (argVal g l)

def PredRow.raised (r : PredRow) (g : Group) : Nat :=
  voidFlag g (execLanes g r.ctl) r.args ||| orFlags (execLanes g r.ctl) fun l => (r.holds g l (r.vals g l)).2

/-- Every instruction of a table pushes what its row says, raises the row's flags, and changes nothing
else: for every well-formed word, in every state in which it may act, with its operands there and no
enabled FPEXC. -/
def PushesRow (row : Instr → Option ValueRow) : Prop :=
  ∀ i r s g, row i = some r → Acts s g i r.ctl → Readable g (execLanes g r.ctl) r.args →
    trapsFp g (r.raised g) = false →
    ∃ v : Nat → Quad,
      (∀ l ∈ execLanes g r.ctl, IsEntry r.width r.count (fun j => (r.elem g l (r.vals g l) j).1) (v l)) ∧
      CompletesWith s i (pushed r.ctl v (flagged (r.raised g) g)) (g.pc + 8)

/-- The same for predicates. -/
def SetsRow (row : Instr → Option PredRow) : Prop :=
  ∀ i r s g, row i = some r → Acts s g i r.ctl → Readable g (execLanes g r.ctl) r.args →
    trapsFp g (r.raised g) = false →
    CompletesWith s i (predicated r.ctl r.pd (fun l => (r.holds g l (r.vals g l)).1) (flagged (r.raised g) g))
      (g.pc + 8)

/-- What an instruction that changes the issuing group only does, in the manual's terms: the lanes and
operands it reads, when it acts without a trap, the flags it raises beside VOIDR, the group it leaves, and the
next PC. -/
structure GroupRow where
  ctl : Ctl
  lanes : Group → List Nat := fun _ => []
  args : Group → List Arg := fun _ => []
  ok : Group → Bool := fun _ => true
  raised : Group → Nat := fun _ => 0
  effect : Group → Group := id
  next : Group → Word := fun g => g.pc + 8

/-- The flags of a row with VOIDR (R82). -/
def GroupRow.flags (r : GroupRow) (g : Group) : Nat := voidFlag g (r.lanes g) (r.args g) ||| r.raised g

/-- Every instruction of a table leaves the group that its row says, and changes nothing else. -/
def LeavesRow (row : Instr → Option GroupRow) : Prop :=
  ∀ i r s g, row i = some r → Acts s g i r.ctl → r.ok g = true → Readable g (r.lanes g) (r.args g) →
    trapsFp g (r.flags g) = false →
    CompletesWith s i (flagged (r.flags g) (r.effect g)) (r.next g)

end Sys2Proof.Machine
end

