-- ==== Sys2Proof/Certificates/Slice0/Obligations.lean ====
section
/-! DEFINITION. The statements for the provers, with the tables and predicates they are made of. -/

namespace Sys2Proof.Claims
open Sys2Proof.Machine

/-! ### Moves, integers, logic (chapters 4 and 5) -/

/-- An exact integer as the low `w` bits (R21). -/
def low (w : Nat) (x : Int) : Nat := (x % 2 ^ w).toNat

/-- The range of an integer type (R20). -/
def minOf (sg : Bool) (w : Nat) : Int := if sg then -2 ^ (w - 1) else 0
def maxOf (sg : Bool) (w : Nat) : Int := if sg then 2 ^ (w - 1) - 1 else 2 ^ w - 1

/-- R21: an exact result wraps, or clamps and raises SATF (bit 6 of FLAGS). -/
def fits (sg : Bool) (w : Nat) (sat : Bool) (x : Int) : Nat × Nat :=
  if sat ∧ x < minOf sg w then (low w (minOf sg w), 64)
  else if sat ∧ maxOf sg w < x then (low w (maxOf sg w), 64)
  else (low w x, 0)

/-- The moves (R100 to R103, R109). -/
def moveRow : Instr → Option ValueRow
  | .pass c f => some ⟨c, [if f.imm then .imm (immVal f.ty f.imm16) else .src f.sa], 128, 1,
      fun _ _ xs _ => ((opnd xs 0).toNat, 0)⟩
  | .ldi c f => some ⟨c, [], 128, 1, fun _ _ _ _ => (
      if f.fn = 0 then f.imm32.toNat
      else if f.fn = 1 then (if f.z then f.imm32.toNat else low 64 f.imm32.toInt)
      else f.imm32.toNat * (1 + 2 ^ 32 + 2 ^ 64 + 2 ^ 96), 0)⟩
  | .ldih c f => some ⟨c, [.src f.sa], 32, 4, fun _ _ xs j =>
      (if j = f.fn.toNat + 1 then f.imm32.toNat else elemAt 32 (opnd xs 0) j, 0)⟩
  | .rest c f => some ⟨c, [], 128, 1, fun g l _ _ =>
      ((if bitAt f.imm16 4 then g.gframes[bitsOf f.imm16 3 0]?.getD 0
        else (threadAt g l).frames[bitsOf f.imm16 3 0]?.getD 0).toNat, 0)⟩
  | .lane c f => some ⟨c, [], 32, 1, fun _ l _ _ =>
      (if f.mod = 0 then l else if f.mod = 1 then 2 ^ l - 1 else 2 ^ l, 0)⟩
  | .sel c f => some ⟨c, [.src f.sa, argB f], f.ty.width * f.ty.count, 1, fun g l xs _ =>
      (((if (threadAt g l).preds.getLsbD f.pd.toNat = f.mod.getLsbD 0 then opnd xs 1 else opnd xs 0).toNat) %
        2 ^ (f.ty.width * f.ty.count), 0)⟩
  | _ => none

/-- An integer instruction: element `j` is `op` of the elements `j` of its operands, exact, then R21. -/
def intOp (c : Ctl) (f : Q3) (args : List Arg) (op : Int → Int → Int → Int) : ValueRow :=
  ⟨c, args, f.ty.width, f.ty.count, fun _ _ xs j => fits f.ty.signed f.ty.width f.sat
    (op (elemInt f.ty (opnd xs 0) j) (elemInt f.ty (opnd xs 1) j) (elemInt f.ty (opnd xs 2) j))⟩

/-- A bitwise instruction: bit `b` of element `j` from the bits of the operands' elements. -/
def bitOp (c : Ctl) (f : Q3) (args : List Arg) (op : Bool → Bool → Bool → Bool) : ValueRow :=
  ⟨c, args, f.ty.width, f.ty.count, fun _ _ xs j => (((upTo f.ty.width).map fun b =>
    if op ((elemAt f.ty.width (opnd xs 0) j).testBit b) ((elemAt f.ty.width (opnd xs 1) j).testBit b)
      ((elemAt f.ty.width (opnd xs 2) j).testBit b) then 2 ^ b else 0).sum, 0)⟩

/-- An instruction on plain binary elements. -/
def natOp (c : Ctl) (f : Q3) (args : List Arg) (op : Nat → Nat → Nat) : ValueRow :=
  ⟨c, args, f.ty.width, f.ty.count, fun _ _ xs j =>
    (op (elemAt f.ty.width (opnd xs 0) j) (elemAt f.ty.width (opnd xs 1) j), 0)⟩

/-- Integer arithmetic (R133 to R137). -/
def arithRow : Instr → Option ValueRow
  | .add c f => some (intOp c f [.src f.sa, argB f] fun a b _ => a + b)
  | .sub c f => some (intOp c f [.src f.sa, argB f] fun a b _ => a - b)
  | .mul c f => some (intOp c f [.src f.sa, argB f] fun a b _ => a * b)
  | .mulh c f => some (intOp c f [.src f.sa, argB f] fun a b _ => a * b / 2 ^ f.ty.width)
  | .mad c f => some (intOp c f [.src f.sa, argB f, .src f.sc] fun a b d => a * b + d)
  | .madw c f => some ⟨c, [.src f.sa, argB f, .src f.sc], 2 * f.ty.width, 1, fun _ _ xs _ =>
      let w := 2 * f.ty.width
      let d : Int := ((opnd xs 2).toNat % 2 ^ w : Nat)
      fits f.ty.signed w f.sat (elemInt f.ty (opnd xs 0) 0 * elemInt f.ty (opnd xs 1) 0 +
        (if f.ty.signed ∧ 2 ^ (w - 1) ≤ d then d - 2 ^ w else d))⟩
  | .min c f => some (intOp c f [.src f.sa, argB f] fun a b _ => Min.min a b)
  | .max c f => some (intOp c f [.src f.sa, argB f] fun a b _ => Max.max a b)
  | .abs c f => some (intOp c f [.src f.sa] fun a _ _ => |a|)
  | .neg c f => some (intOp c f [.src f.sa] fun a _ _ => -a)
  | .adif c f => some (intOp c f [.src f.sa, argB f] fun a b _ => |a - b|)
  | .clamp c f => some (intOp c f [.src f.sa, argB f, .src f.sc] fun a b d =>
      if a < b then b else if a > d then d else a)
  | .div c f => some ⟨c, [.src f.sa, argB f], f.ty.width, f.ty.count, fun _ _ xs j =>
      let a := elemInt f.ty (opnd xs 0) j
      let b := elemInt f.ty (opnd xs 1) j
      if b = 0 then (2 ^ f.ty.width - 1, 8) else fits f.ty.signed f.ty.width f.sat (a.tdiv b)⟩
  | .rem c f => some ⟨c, [.src f.sa, argB f], f.ty.width, f.ty.count, fun _ _ xs j =>
      let a := elemInt f.ty (opnd xs 0) j
      let b := elemInt f.ty (opnd xs 1) j
      if b = 0 then (low f.ty.width a, 8) else (low f.ty.width (a - b * a.tdiv b), 0)⟩
  | .addx c f => some ⟨c, if f.mod.getLsbD 0 then [.src f.sa, argB f] else [.src f.sa, argB f, .src f.sc],
      f.ty.width + 1, 1, fun _ _ xs _ =>
      let w := f.ty.width
      let a := elemAt w (opnd xs 0) 0
      let b := elemAt w (opnd xs 1) 0
      let k := if f.mod.getLsbD 0 then 0 else b2n ((opnd xs 2).getLsbD w)
      (if f.mod.getLsbD 1 then low w (a - b - k) + (if a < b + k then 2 ^ w else 0) else a + b + k, 0)⟩
  | _ => none

/-- Logic, shifts and bit fields (R138 to R141). -/
def logicRow : Instr → Option ValueRow
  | .and c f => some (bitOp c f [.src f.sa, argB f] fun a b _ => a && b)
  | .or c f => some (bitOp c f [.src f.sa, argB f] fun a b _ => a || b)
  | .xor c f => some (bitOp c f [.src f.sa, argB f] fun a b _ => a ^^ b)
  | .andn c f => some (bitOp c f [.src f.sa, argB f] fun a b _ => a && !b)
  | .not c f => some (bitOp c f [.src f.sa] fun a _ _ => !a)
  | .shl c f => some (intOp c f [.src f.sa, argB f] fun a b _ => a * 2 ^ (low f.ty.width b % 256))
  | .shr c f => some (natOp c f [.src f.sa, argB f] fun a n => a >>> (n % 256))
  | .sar c f => some ⟨c, [.src f.sa, argB f], f.ty.width, f.ty.count, fun _ _ xs j =>
      (low f.ty.width (elemInt f.ty (opnd xs 0) j >>> (elemAt f.ty.width (opnd xs 1) j % 256)), 0)⟩
  | .rol c f => some (natOp c f [.src f.sa, argB f] fun a n =>
      ((BitVec.ofNat f.ty.width a).rotateLeft (n % 256)).toNat)
  | .bfe c f => some ⟨c, [.src f.sa, if f.imm then .imm (f.imm16.setWidth 128) else .src f.sb], f.ty.width, 1,
      fun _ _ xs _ =>
      let w := f.ty.width
      let p := min (bitsOf (opnd xs 1) 7 0) w
      let n := min (bitsOf (opnd xs 1) 15 8) (w - p)
      let x := elemAt w (opnd xs 0) 0 >>> p % 2 ^ n
      (if f.ty.signed ∧ n ≠ 0 ∧ x.testBit (n - 1) then x + 2 ^ w - 2 ^ n else x, 0)⟩
  | .bfi c f => some ⟨c, [.src f.sa, argB f, .src f.sc], f.ty.width, 1, fun _ _ xs _ =>
      let w := f.ty.width
      let p := min (bitsOf (opnd xs 2) 7 0) w
      let n := min (bitsOf (opnd xs 2) 15 8) (w - p)
      (((upTo w).map fun b => if (if p ≤ b ∧ b < p + n then (elemAt w (opnd xs 1) 0).testBit (b - p)
        else (elemAt w (opnd xs 0) 0).testBit b) then 2 ^ b else 0).sum, 0)⟩
  | .popc c f => some (natOp c f [.src f.sa] fun a _ => (upTo f.ty.width).countP a.testBit)
  | .clz c f => some (natOp c f [.src f.sa] fun a _ => f.ty.width - a.size)
  | .brev c f => some (natOp c f [.src f.sa] fun a _ =>
      ((upTo f.ty.width).map fun b => if a.testBit (f.ty.width - 1 - b) then 2 ^ b else 0).sum)
  | .btab c f => some (bitOp c f [.src f.sa, .src f.sb, .src f.sc] fun a b d =>
      f.imm16.getLsbD (4 * b2n d + 2 * b2n b + b2n a))
  | .bpik c f => some ⟨c, [.src f.sa, .src f.sb, .src f.sc], 8, 16, fun _ _ xs j =>
      let v := elemAt 8 (opnd xs 2) j
      let x := elemAt 8 (if v % 32 < 16 then opnd xs 0 else opnd xs 1) (v % 16)
      (if v / 32 % 4 = 0 then x else if v / 32 % 4 = 1 then 0
       else if v / 32 % 4 = 2 then ((upTo 8).map fun b => if x.testBit (7 - b) then 2 ^ b else 0).sum
       else 255 - x, 0)⟩
  | _ => none

/-- Lane `k` of a dot product of `n` elements of `w` bits (R142). -/
def dotElem (f : Q3) (n w : Nat) (_ : Group) (_ : Nat) (xs : List Quad) (k : Nat) : Nat × Nat :=
  let sb : Bool := !f.mod.getLsbD 0
  let sr : Bool := f.ty.signed || sb
  let num (sg : Bool) (w : Nat) (x : Nat) : Int := if sg ∧ 2 ^ (w - 1) ≤ x then x - 2 ^ w else x
  fits sr 32 f.sat (num sr 32 (elemAt 32 (opnd xs 2) k) +
    ((upTo n).map fun j => num f.ty.signed w (elemAt w (opnd xs 0) (n * k + j)) *
      num sb w (elemAt w (opnd xs 1) (n * k + j))).sum)

/-- R144: the offset field of a pointer plus `d`, wrapped to the field's width. -/
def leaPtr (a : Nat) (d : Int) : Nat :=
  let n := if a / 2 ^ 61 = 1 ∨ a / 2 ^ 61 = 2 then 48 else 61
  a / 2 ^ n * 2 ^ n + low n (a % 2 ^ n + d)

/-- Dot products, requantisation and pointers (R142 to R146). -/
def dotRow : Instr → Option ValueRow
  | .dot4 c f => some ⟨c, [.src f.sa, .src f.sb, .src f.sc], 32, 4, dotElem f 4 8⟩
  | .dot2 c f => some ⟨c, [.src f.sa, .src f.sb, .src f.sc], 32, 4, dotElem f 2 16⟩
  | .rqs c f => some ⟨c, [.src f.sa, .src f.sb, .src f.sc], f.ty.width, f.ty.count, fun g l xs j =>
      if j / 4 = f.imm16.toNat % 4 then
        let y := sxNat 32 (elemAt 32 (opnd xs 0) (j % 4)) * sxNat 32 (opnd xs 1).toNat
        let v := envAt g (effRm g f.rm) f.sat ((l * 4 + j % 4) % 32)
        let r := roundAt v.rm v.idx (y < 0) y.natAbs (2 ^ bitsOf (opnd xs 1) 37 32) 0 0
        let z := fits f.ty.signed f.ty.width f.sat ((if y < 0 then -(r.1 : Int) else r.1) + sxNat 16 (bitsOf (opnd xs 1) 63 48))
        (z.1, z.2 ||| (if r.2 then 0 else 1))
      else (elemAt f.ty.width (opnd xs 2) j, 0)⟩
  | .leaReg c f => some ⟨c, [.src f.sa, .src f.sb], 64, 1, fun _ _ xs _ =>
      (leaPtr ((opnd xs 0).toNat % 2 ^ 64) (elemInt f.ty (opnd xs 1) 0 * 2 ^ (f.imm16.toNat % 64)), 0)⟩
  | .leaImm c f => some ⟨c, [.src f.sa], 64, 1, fun _ _ xs _ =>
      (leaPtr ((opnd xs 0).toNat % 2 ^ 64)
        ((if f.z then (f.imm32.toNat : Int) else f.imm32.toInt) * 2 ^ (f.fn.toNat % 32)), 0)⟩
  | .ptag c f => some ⟨c, if f.mod = 0 then [.src f.sa] else [.src f.sa, argB f], 64, 1, fun _ _ xs _ =>
      let a := (opnd xs 0).toNat
      let b := (opnd xs 1).toNat
      (if f.mod = 0 then a % 2 ^ 55 else if f.mod = 3 then 3 * 2 ^ 61 + b % 4 * 2 ^ 59 + a % 2 ^ 32
       else f.mod.toNat * 2 ^ 61 + b % 2 ^ 13 * 2 ^ 48 + a % 2 ^ 48, 0)⟩
  | .pfld c f => some ⟨c, [.src f.sa], 64, 1, fun _ _ xs _ =>
      let p : Word := (opnd xs 0).setWidth 64
      let sp := bitsOf p 63 61
      (if f.mod = 0 then sp
       else if f.mod = 1 then (if sp = 1 ∨ sp = 2 then bitsOf p 60 48 else if sp = 3 then bitsOf p 60 59 else 0)
       else if f.mod = 2 then bitsOf p (if sp = 0 then 54 else if sp = 1 ∨ sp = 2 then 47 else if sp = 3 then 31 else 60) 0
       else if (sp = 0 ∧ bitsOf p 60 55 = 0) ∨ (sp = 1 ∧ bitsOf p 47 23 = 0 ∧ bitsOf p 22 0 < 0x600000) ∨ sp = 2 ∨
          (sp = 3 ∧ bitsOf p 58 32 = 0) then 1 else 0, 0)⟩
  | _ => none

/-! ### Floating point, conversions, lanes (chapter 5) -/

/-- Element `j` of an operand of a type, subnormals read as zero under FTZI (R22, R25). -/
def felem (t : Ty) (v : FEnv) (x : Quad) (j : Nat) : FVal :=
  fDecode (tyFmt t) v.ftzi (x.toNat / 2 ^ (t.width * j) % 2 ^ t.width)

/-- The rounding of element `j` of `n` of thread `l` (R27, R30). -/
def roundingOf (g : Group) (f : Q3) (n l j : Nat) : FEnv :=
  envAt g (if f.rm = 0 then modeRm g else f.rm.toNat) f.sat ((l * n + j) % 32)

/-- A floating-point instruction on decoded elements, after the negations of MOD (R148). -/
def floatOp (c : Ctl) (f : Q3) (args : List Arg) (op : FEnv → FVal → FVal → FVal → Nat × Nat) : ValueRow :=
  ⟨c, args, f.ty.width, f.ty.count, fun g l xs j =>
    let v := roundingOf g f f.ty.count l j
    let neg (k : Nat) (x : FVal) : FVal := if f.mod.getLsbD k then x.negate else x
    op v (neg 0 (felem f.ty v (opnd xs 0) j)) (neg 1 (felem f.ty v (opnd xs 1) j))
      (neg 2 (felem f.ty v (opnd xs 2) j))⟩

/-- A floating-point instruction on raw element codes; `k` names the operand's format to the functions that
R150 leaves a choice. -/
def codeOp (c : Ctl) (f : Q3) (args : List Arg) (op : FEnv → Nat → Nat → Nat → Nat × Nat) : ValueRow :=
  ⟨c, args, f.ty.width, f.ty.count, fun g l xs j =>
    op (roundingOf g f f.ty.count l j) (64 * (tyFmt f.ty).eb + (tyFmt f.ty).fb)
      (elemAt f.ty.width (opnd xs 0) j) (elemAt f.ty.width (opnd xs 1) j)⟩

/-- Floating-point arithmetic (R147 to R156). -/
def floatRow : Instr → Option ValueRow
  | .fadd c f => some (floatOp c f [.src f.sa, argB f] fun v a b _ => fAdd (tyFmt f.ty) v a b)
  | .fsub c f => some (floatOp c f [.src f.sa, argB f] fun v a b _ =>
      fAdd (tyFmt f.ty) v a (if b.isNan then b else b.negate))
  | .fmul c f => some (floatOp c f [.src f.sa, argB f] fun v a b _ => fMul (tyFmt f.ty) v a b)
  | .fma c f => some (floatOp c f [.src f.sa, argB f, .src f.sc] fun v a b d => fMa (tyFmt f.ty) v a b d)
  | .fmin c f => some (codeOp c f [.src f.sa, argB f] fun v _ x y =>
      fMinMax (tyFmt f.ty) v false (f.mod.getLsbD 0) x y)
  | .fmax c f => some (codeOp c f [.src f.sa, argB f] fun v _ x y =>
      fMinMax (tyFmt f.ty) v true (f.mod.getLsbD 0) x y)
  | .frcp c f => some (floatOp c f [.src f.sa] fun v a _ _ => fDiv (tyFmt f.ty) v (.fin false 1 0) a)
  | .frsq c f => some (floatOp c f [.src f.sa] fun v a _ _ => fRsq (tyFmt f.ty) v a)
  | .fsqrt c f => some (floatOp c f [.src f.sa] fun v a _ _ => fSqrt (tyFmt f.ty) v a)
  | .fdiv c f => some (floatOp c f [.src f.sa, argB f] fun v a b _ => fDiv (tyFmt f.ty) v a b)
  | .fex2 c f => some (codeOp c f [.src f.sa] fun v k x _ => fEx2 (tyFmt f.ty) v k x)
  | .flg2 c f => some (codeOp c f [.src f.sa] fun v k x _ => fLg2 (tyFmt f.ty) v k x)
  | .fsin c f => some (codeOp c f [.src f.sa] fun v k x _ => fSinPi (tyFmt f.ty) v k x)
  | .fcos c f => some (codeOp c f [.src f.sa] fun v k x _ => fCosPi (tyFmt f.ty) v k x)
  | .ftnh c f => some (codeOp c f [.src f.sa] fun v k x _ => fTanh (tyFmt f.ty) v k x)
  | .fscl c f => some ⟨c, [.src f.sa, if f.imm then .imm (splat f.ty (low f.ty.width f.imm16.toInt)) else .src f.sb],
      f.ty.width, f.ty.count, fun g l xs j =>
      let v := roundingOf g f f.ty.count l j
      fScl (tyFmt f.ty) v (felem f.ty v (opnd xs 0) j) (sxNat f.ty.width (elemAt f.ty.width (opnd xs 1) j))⟩
  | .frnd c f => some (floatOp c f [.src f.sa] fun v a _ _ => fRnd (tyFmt f.ty) v a)
  | .fdot2 c f => some ⟨c, [.src f.sa, .src f.sb, .src f.sc], 32, 4, fun g l xs k =>
      let v := roundingOf g f 4 l k
      let a (j : Nat) := felem f.ty v (opnd xs 0) (2 * k + j)
      let b (j : Nat) := felem f.ty v (opnd xs 1) (2 * k + j)
      let d := felem .f32x4 v (opnd xs 2) k
      if [a 0, a 1, b 0, b 1, d].any FVal.isNan then
        (nanResult fmtF32 v [a 0, a 1, b 0, b 1, d], nanFlags [a 0, a 1, b 0, b 1, d])
      else fFinish fmtF32 v (sumTerms v.rm [fProd (a 0) (b 0), fProd (a 1) (b 1), fTerm d])⟩
  | _ => none

/-- The rounding of a conversion: FTZ bits act on f16, bf16, f32 and f64 elements only (R25). -/
def convRounding (g : Group) (f : Q3) (st dt : Ty) (pos : Nat) : FEnv :=
  let v := envAt g (if f.rm = 0 then modeRm g else f.rm.toNat) f.sat pos
  { v with ftzi := v.ftzi && st.isFp, ftzo := v.ftzo && dt.isFp }

/-- A conversion (R158): destination element `j` from source element `i`, or from operand c. -/
def convOp (c : Ctl) (f : Q3) (conv : Ty → Ty → FEnv → Nat → Nat × Nat) : ValueRow :=
  let st := cvtSrc f
  let p := bitsOf f.imm16 6 5
  ⟨c, if st.count < f.ty.count then [.src f.sa, .src f.sc] else [.src f.sa], f.ty.width, f.ty.count,
    fun g l xs j =>
      let v := convRounding g f st f.ty ((l * f.ty.count + j) % 32)
      let from' (i : Nat) := conv st f.ty v (elemAt st.width (opnd xs 0) i)
      if f.ty.count ≤ st.count then from' (p * f.ty.count + j)
      else if p * st.count ≤ j ∧ j < p * st.count + st.count then from' (j - p * st.count)
      else (elemAt f.ty.width (opnd xs 1) j, 0)⟩

/-- One element from one type to another (R32, R33, R157). -/
def convElem (sat : Bool) (st dt : Ty) (v : FEnv) (x : Nat) : Nat × Nat :=
  let xi : Int := if st.signed ∧ 2 ^ (st.width - 1) ≤ x then x - 2 ^ st.width else x
  if st.isInt ∧ dt.isInt then fits dt.signed dt.width sat xi
  else if st.isInt then fRound (tyFmt dt) v (xi < 0) xi.natAbs 1 0
  else if dt.isInt then fToInt dt.signed dt.width v (fDecode (tyFmt st) v.ftzi x)
  else fConvert (tyFmt dt) v (fDecode (tyFmt st) v.ftzi x)

/-- Normalised integers (R159). -/
def normElem (st dt : Ty) (v : FEnv) (x : Nat) : Nat × Nat :=
  if st.isInt then
    let lim := if st.signed then 2 ^ (st.width - 1) - 1 else 2 ^ st.width - 1
    let xi : Int := if st.signed ∧ 2 ^ (st.width - 1) ≤ x then x - 2 ^ st.width else x
    fRound (tyFmt dt) v (xi < 0) (min xi.natAbs lim) lim 0
  else fToNorm dt.signed dt.width v (fDecode (tyFmt st) v.ftzi x)

/-- Conversions and the instructions within an entry (R157 to R159, R162, R167). -/
def convertRow : Instr → Option ValueRow
  | .cvt c f => some (convOp c f (convElem f.sat))
  | .cvtu c f => some (convOp c f normElem)
  | .pack c f =>
    let su := f.mod.getLsbD 0
    let st : Ty := match f.ty with
      | .i8x16 | .n8x16 => if su then .n16x8 else .i16x8
      | .i16x8 | .n16x8 => if su then .n32x4 else .i32x4
      | .f16x8 | .bf16x8 => .f32x4
      | _ => if su then .bf16x8 else .f16x8
    some ⟨c, [.src f.sa, .src f.sb], f.ty.width, f.ty.count, fun g l xs j =>
      convElem f.sat st f.ty (convRounding g f st f.ty ((l * f.ty.count + j) % 32))
        (if j < f.ty.count / 2 then elemAt st.width (opnd xs 0) j
         else elemAt st.width (opnd xs 1) (j - f.ty.count / 2))⟩
  | .vext c f => some ⟨c, [.src f.sa, if f.imm then .imm (f.imm16.setWidth 128) else .src f.sb], f.ty.width, 1,
      fun _ _ xs _ => (elemAt f.ty.width (opnd xs 0) (bitsOf (opnd xs 1) 7 0 % f.ty.count), 0)⟩
  | .vins c f => some ⟨c, [.src f.sa, .src f.sb], f.ty.width, f.ty.count, fun _ _ xs j =>
      (if j = f.imm16.toNat then elemAt f.ty.width (opnd xs 1) 0 else elemAt f.ty.width (opnd xs 0) j, 0)⟩
  | .vperm c f => some ⟨c, [.src f.sa, .src f.sb, .src f.sc], f.ty.width, f.ty.count, fun _ _ xs j =>
      let k := bitsOf (opnd xs 2) (8 * j + 7) (8 * j) % (2 * f.ty.count)
      (if k < f.ty.count then elemAt f.ty.width (opnd xs 0) k
       else elemAt f.ty.width (opnd xs 1) (k - f.ty.count), 0)⟩
  | .vsplt c f => some ⟨c, [.src f.sa], f.ty.width, f.ty.count, fun _ _ xs _ =>
      (elemAt f.ty.width (opnd xs 0) (if f.mod = 0 then f.imm16.toNat else 0), 0)⟩
  | _ => none

/-- What thread `t` brings to a reduction, as its type reads it; absent when it does not participate. -/
def brings (g : Group) (c : Ctl) (f : Q3) (j t : Nat) : Option Nat :=
  if participates g c t then some (elemAt f.ty.width (argVal g t (.src f.sa)) j) else none

/-- The values of participating threads in lane order, as integers. -/
def bringsInt (g : Group) (c : Ctl) (f : Q3) (j : Nat) (ts : List Nat) : List Int :=
  (ts.filterMap (brings g c f j)).map fun x =>
    if f.ty.signed ∧ 2 ^ (f.ty.width - 1) ≤ x then (x : Int) - 2 ^ f.ty.width else x

/-- An integer reduction of at least one value (R165). -/
def reduceInt (t : Ty) (sat : Bool) (op : Nat) (l : List Int) : Nat × Nat :=
  let codes := l.map (low t.width)
  match op with
  | 0 => fits t.signed t.width sat l.sum
  | 1 => (low t.width (l.tail.foldl min (l.headD 0)), 0)
  | 2 => (low t.width (l.tail.foldl max (l.headD 0)), 0)
  | 3 => (codes.tail.foldl (· &&& ·) (codes.headD 0), 0)
  | 4 => (codes.foldl (· ||| ·) 0, 0)
  | _ => (codes.foldl (· ^^^ ·) 0, 0)

/-- Two operands of a floating-point reduction with the flags below them (R165). -/
def reducePair (t : Ty) (v : FEnv) (op : Nat) (x y : Nat × Nat) : Nat × Nat :=
  let r := if op = 0 then fAdd (tyFmt t) v (fDecode (tyFmt t) v.ftzi x.1) (fDecode (tyFmt t) v.ftzi y.1)
    else fMinMax (tyFmt t) v (op == 2) false x.1 y.1
  (r.1, x.2 ||| y.2 ||| r.2)

/-- node(j, m) of R165. -/
def node (k : Nat × Nat → Nat × Nat → Nat × Nat) (leaf : Nat → Option (Nat × Nat)) : Nat → Nat → Option (Nat × Nat)
  | 0, m => leaf m
  | j + 1, m => match node k leaf j (2 * m), node k leaf j (2 * m + 1) with
    | some x, some y => some (k x y)
    | x, none => x
    | none, y => y

/-- The effective rounding of a reduction (R165): .rds from MODE rounds as .rne. -/
def reduceRounding (g : Group) (f : Q3) : FEnv :=
  let rm := if f.rm = 0 then modeRm g else f.rm.toNat
  envAt g (if rm = 6 then 1 else rm) false 0

/-- The identity of an operation (R166). -/
def identityOf (t : Ty) (op : Nat) : Nat :=
  match op with
  | 1 => if t.isInt then low t.width (maxOf t.signed t.width) else (tyFmt t).infCode
  | 2 => if t.isInt then low t.width (minOf t.signed t.width) else 2 ^ (t.width - 1) + (tyFmt t).infCode
  | 3 => 2 ^ t.width - 1
  | _ => 0

/-- REDG and SCAN (R165, R166). A prefix of one value, and the result of a reduction of one value, is that
value read under FTZI and flushed under FTZO. -/
def reduceRow : Instr → Option ValueRow
  | .redg c f => some ⟨c, [.src f.sa], f.ty.width, f.ty.count, fun g _ _ j =>
      if f.ty.isInt then reduceInt f.ty f.sat f.mod.toNat (bringsInt g c f j (upTo 32))
      else
        let v := reduceRounding g f
        fDeliver (tyFmt f.ty) v ((node (reducePair f.ty v f.mod.toNat)
          (fun t => (brings g c f j t).map fun x => (fCode (tyFmt f.ty) v.ftzi x, 0)) 5 0).getD (0, 0))⟩
  | .scan c f => some ⟨c, [.src f.sa], f.ty.width, f.ty.count, fun g l _ j =>
      let op := f.mod.toNat % 8
      let ts := upTo (if f.mod.getLsbD 3 then l else l + 1)
      if ts.all fun t => (brings g c f j t).isNone then
        (if f.ty.isInt then (identityOf f.ty op, 0)
         else fDeliver (tyFmt f.ty) (reduceRounding g f) (identityOf f.ty op, 0))
      else if f.ty.isInt then reduceInt f.ty f.sat op (bringsInt g c f j ts)
      else
        let v := reduceRounding g f
        let xs := (ts.filterMap (brings g c f j)).map fun x => (fCode (tyFmt f.ty) v.ftzi x, 0)
        fDeliver (tyFmt f.ty) v (xs.tail.foldl (reducePair f.ty v op) (xs.headD (0, 0)))⟩
  | _ => none

/-! ### Predicates (R105, R106, R108, R152, R153) -/

/-- A comparison code (R105). -/
def compares (m : Nat) (a b : Int) : Bool :=
  [decide (a = b), decide (a ≠ b), decide (a < b), decide (a ≤ b), decide (a > b), decide (a ≥ b), true].getD m false

/-- Instructions that write a predicate and nothing else. -/
def predRow : Instr → Option PredRow
  | .pset c f => some ⟨c, f.pd, if f.mod.toNat ≤ 5 then [.src f.sa, argB f] else [], fun _ _ xs =>
      (compares f.mod.toNat (elemInt f.ty (opnd xs 0) 0) (elemInt f.ty (opnd xs 1) 0), 0)⟩
  | .plop c f => some ⟨c, f.pd, [], fun g l _ =>
      let p (x : Src) := b2n ((threadAt g l).preds.getLsbD x.num)
      (f.imm16.getLsbD (4 * p f.sa + 2 * p f.sb + p f.sc), 0)⟩
  | .fcmp c f => some ⟨c, f.pd, [.src f.sa, argB f], fun g l xs =>
      let v := roundingOf g f 1 l 0
      let a := felem f.ty v (opnd xs 0) 0
      let b := felem f.ty v (opnd xs 1) 0
      let un : Bool := a.isNan || b.isNan
      let k := f.mod.toNat % 8
      (if un then [false, true, false, false, false, false, true, false].getD k false
       else [fEq a b, !fEq a b, fLess a b, fLess a b || fEq a b, fLess b a, fLess b a || fEq a b, false, true].getD k false,
       if a.isSig || b.isSig || (un && f.mod.getLsbD 3 && 2 ≤ k && k ≤ 5) then 16 else 0)⟩
  | .fcls c f => some ⟨c, f.pd, [.src f.sa], fun _ _ xs =>
      let x := elemAt f.ty.width (opnd xs 0) 0
      let k := match fDecode (tyFmt f.ty) false x with
        | .nan _ _ _ sig => if sig then 0 else 1
        | .inf n => if n then 2 else 9
        | .fin n m _ => if m = 0 then (if n then 5 else 6)
          else if m < 2 ^ (tyFmt f.ty).fb then (if n then 4 else 7) else (if n then 3 else 8)
      (f.imm16.getLsbD k, 0)⟩
  | _ => none

/-! ### Frames, predicates, lanes, branches, divergence (chapters 4 and 5) -/

/-- Update the threads that `p` names. -/
def threadsWhere (p : Nat → Bool) (f : Nat → Thread → Thread) (g : Group) : Group :=
  { g with threads := g.threads.mapIdx fun l t => if p l then f l t else t }

/-- The threads that take part: active, with the guard true (R50). -/
def takesPart (c : Ctl) (g : Group) (l : Nat) : Bool :=
  g.amask.getLsbD l && (!c.ge || (threadAt g l).preds.getLsbD c.gp.toNat != c.gs)

def parts (c : Ctl) (g : Group) : List Nat := (upTo 32).filter (takesPart c g)
def actives (g : Group) : List Nat := (upTo 32).filter g.amask.getLsbD

/-- The lane of UNIF (R104). -/
def unifLane (f : Q3) (g : Group) : Nat := if f.mod = 0 then bitsOf f.imm16 8 4 else (actives g).headD 0

/-- A mask from its threads. -/
def laneMask (ts : List Nat) : Nat := (ts.map fun t => 2 ^ t).sum

/-- The lane that lane `l` reads in an exchange (R164). -/
def exchangeLane (g : Group) (m d l : Nat) : Nat :=
  let w := if g.ident.g16 then 16 else 32
  if m = 0 then d % w else if m = 1 then (l + d) % w else if m = 2 then l ^^^ (d % w)
  else l ^^^ (2 ^ min (max (d % 8) 1) (if g.ident.g16 then 4 else 5) - 1)

/-- Moves of entries and predicates beside the rows above (R99, R102, R104, R107, R108, R164). -/
def entryRow : Instr → Option GroupRow
  | .nop c _ => some { ctl := c }
  | .save c f =>
    let j := bitsOf f.imm16 3 0
    let v (g : Group) (l : Nat) : Quad := argVal g l (.src f.sa)
    some { ctl := c, lanes := (execLanes · c), args := fun _ => [.src f.sa],
           effect := fun g => if c.u then { g with gframes := g.gframes.set j (v g 0) }
             else threadsWhere (takesPart c g) (fun l t => { t with frames := t.frames.set j (v g l) }) g }
  | .unif c f =>
    let a : Arg := .src (.a (BitVec.ofNat 4 (bitsOf f.imm16 3 0)))
    let live (g : Group) : Bool := g.emask.getLsbD (unifLane f g)
    some { ctl := c, lanes := fun g => if live g then [unifLane f g] else [], args := fun _ => [a],
           raised := fun g => if live g then 0 else 32,
           effect := fun g => { g with
             gages := (.val (if live g then argVal g (unifLane f g) a else 0) :: g.gages).take 20 } }
  | .pmov c f =>
    if f.mod = 0 then
      some { ctl := c, effect := fun g => pushed c (fun l => (threadAt g l).preds.setWidth 128) g }
    else
      some { ctl := c, lanes := parts c, args := fun _ => [.src f.sa],
             effect := fun g => threadsWhere (takesPart c g) (fun l t => { t with
               preds := (t.preds &&& ~~~f.imm16) ||| ((argVal g l (.src f.sa)).setWidth 16 &&& f.imm16) }) g }
  | .pgat c f =>
    let q (g : Group) := (parts c g).filter fun t => (threadAt g t).preds.getLsbD (bitsOf f.imm16 3 0)
    let all (g : Group) : Bool := (q g).length == (parts c g).length
    some { ctl := c, effect := fun g => match f.mod.toNat with
      | 0 => predicated c f.pd (fun _ => all g) g
      | 1 => predicated c f.pd (fun _ => !(q g).isEmpty) g
      | 2 => predicated c f.pd (fun _ => (q g).isEmpty || all g) g
      | 3 => pushed c (fun _ => BitVec.ofNat 128 (laneMask (q g))) g
      | 4 => pushed c (fun _ => BitVec.ofNat 128 (q g).length) g
      | _ => pushed c (fun _ => BitVec.ofNat 128 ((q g).headD (if g.ident.g16 then 16 else 32))) g }
  | .lxch c f =>
    let b : Arg := if f.imm then .imm (f.imm16.setWidth 128) else .src f.sb
    let src (g : Group) (l : Nat) := exchangeLane g f.mod.toNat ((argVal g l b).toNat % 256) l
    let hit (g : Group) (l : Nat) : Bool := takesPart c g (src g l)
    some { ctl := c, lanes := parts c, args := fun _ => [.src f.sa, b],
           effect := fun g => predicated c f.pd (hit g)
             (pushed c (fun l => argVal g (if hit g l then src g l else l) (.src f.sa)) g) }
  | _ => none

/-- The value of thread `i` in a block that CVTB encodes (R161). -/
def blockValue (c : Ctl) (f : Q3) (g : Group) (i : Nat) : FVal :=
  let vt := cvtSrc f
  if takesPart c g i then
    fDecode (tyFmt vt) (bitAt g.mode 3) ((argVal g i (.src f.sa)).toNat % 2 ^ vt.width)
  else .fin false 0 0

/-- The block that every encoding form sees (R161). -/
def blockOf (c : Ctl) (f : Q3) (g : Group) : Block :=
  encodeBlock f.ty (fun i => envAt g (if f.rm = 0 then modeRm g else f.rm.toNat) false i)
    ((upTo 32).map (blockValue c f g))

/-- What a decoding form pushes in lane `l` (R161). -/
def blockDecoded (c : Ctl) (f : Q3) (g : Group) (l : Nat) : Nat × Nat :=
  let e := if c.u then bitsOf f.imm16 9 5 else (l + bitsOf f.imm16 9 5) % 32
  let codes : Nat := (argVal g l (.src f.sa)).toNat +
    (if f.ty.width = 8 then 2 ^ 128 * (argVal g l (.src f.sc)).toNat else 0)
  fConvert (tyFmt (cvtSrc f)) (envAt g (if f.rm = 0 then modeRm g else f.rm.toNat) false e)
    (blockVal f.ty ((argVal g l (.src f.sb)).toNat % 2 ^ 16) (codes / 2 ^ (f.ty.width * e) % 2 ^ f.ty.width))

/-- DPH after a CVTB (R31). -/
def phased (f : Q3) (g : Group) : Group :=
  if bitAt g.mode 13 ∧ (if f.rm = 0 then modeRm g else f.rm.toNat) = 6 then
    { g with mode := (g.mode &&& ~~~0x1F00#32) ||| BitVec.ofNat 32 ((bitsOf g.mode 12 8 + 1) % 32 * 256) }
  else g

/-- CVTB (R160, R161). -/
def blockRow : Instr → Option GroupRow
  | .cvtb c f =>
    if f.mod = 3 then
      some { ctl := c, lanes := (execLanes · c),
             args := fun _ => [.src f.sa, .src f.sb] ++ (if f.ty.width = 8 then [.src f.sc] else []),
             raised := fun g => orFlags (execLanes g c) fun l => (blockDecoded c f g l).2,
             effect := fun g => phased f (pushed c (fun l => BitVec.ofNat 128 (blockDecoded c f g l).1) g) }
    else
      let w := f.ty.width
      some { ctl := c, lanes := parts c, args := fun _ => [.src f.sa],
             raised := fun g => if (parts c g).isEmpty then 0 else if f.mod = 2 then (blockOf c f g).mdFl else (blockOf c f g).fl,
             effect := fun g =>
               let b := blockOf c f g
               phased f (pushed c (fun _ =>
                 if f.mod = 2 then BitVec.ofNat 128 b.md
                 else packElems w ((if f.mod = 1 then b.codes.drop 16 else b.codes).take (128 / w))) g) }
  | _ => none

/-- The target of a relative branch: `d` units of 8 bytes from the next instruction (R56). -/
def relative (g : Group) (d : Int) : Word := g.pc + 8 + BitVec.ofInt 64 (8 * d)

/-- The group as a whole: the guard holds in an active thread (R97). -/
def asWhole (c : Ctl) (g : Group) : Bool := !c.ge || (parts c g) != []

/-- The push counts of the active threads agree (R113). -/
def counts (g : Group) : List Nat := (actives g).map fun l => (threadAt g l).pcnt
def agree (g : Group) : Bool := (counts g).all (· == (counts g).headD 0)

/-- The threads that a BRD sends to its target, and those that fall through (R113). -/
def takenMask (f : BR) (g : Group) : BitVec 32 :=
  BitVec.ofNat 32 (laneMask ((actives g).filter fun l =>
    (threadAt g l).preds.getLsbD f.aux.toNat != f.kind.getLsbD 0))
def fallMask (f : BR) (g : Group) : BitVec 32 := g.amask &&& ~~~takenMask f g

/-- The group after a BRD (R113). -/
def diverged (f : BR) (g : Group) : Group :=
  let t := takenMask f g
  let fall := fallMask f g
  let e : Div := {
    jaddr := relative g (bitsOf f.offs 15 0), trel := (f.offs.extractLsb' 16 16).toInt - bitsOf f.offs 15 0,
    mask := if fall ≠ 0 then t else 0, phase := fall = 0,
    outer := if g.dstk = [] then 0 else (counts g).headD 0 }
  { threadsWhere g.amask.getLsbD (fun _ t => { t with pcnt := 0 }) g with
    ropen := false, dstk := g.dstk ++ [e], amask := if fall ≠ 0 then fall else t }

/-- The group after a JOIN (R116). -/
def joined (f : BR) (e : Div) (g : Group) : Group :=
  let n := f.aux.toNat
  let d := bitsOf f.offs 27 24
  { threadsWhere g.amask.getLsbD (fun _ t => { t with
      ages := if t.pcnt = d ∧ n < d then
          (((upTo n).map fun j => (t.ages[bitsOf f.offs (4 * j + 3) (4 * j)]?).getD (.val 0)) ++ t.ages.drop d).take
            (t.ages.length - (d - n))
        else t.ages,
      pcnt := min (e.outer + n) 15 }) g with ropen := false, dstk := g.dstk.dropLast }

/-- Branches and divergence (R110 to R113, R116). -/
def branchRow : Instr → Option GroupRow
  | .bra c f => some { ctl := c, next := fun g => if asWhole c g then relative g f.offs.toInt else g.pc + 8 }
  | .brc c f =>
    let all (g : Group) : Bool := (actives g).all fun l => (threadAt g l).preds.getLsbD f.aux.toNat
    let any (g : Group) : Bool := (actives g).any fun l => (threadAt g l).preds.getLsbD f.aux.toNat
    some { ctl := c, next := fun g =>
      if [all g, any g, !any g, !all g].getD f.kind.toNat false then relative g f.offs.toInt else g.pc + 8 }
  | .brx c f =>
    let t (g : Group) : Word := (argVal g 0 (.src f.sa)).setWidth 64
    some { ctl := c, lanes := fun g => if asWhole c g then [0] else [], args := fun _ => [.src f.sa],
           ok := fun g => !asWhole c g || (bitsOf (t g) 63 55 == 0 && bitsOf (t g) 2 0 == 0),
           next := fun g => if asWhole c g then t g else g.pc + 8 }
  | .loop c f =>
    let j := f.aux.toNat % 8
    let v (g : Group) : BitVec 32 := ((g.gframes[j]?).getD 0).setWidth 32 - 1
    some { ctl := c, effect := fun g => { g with gframes := g.gframes.set j ((v g).setWidth 128) },
           next := fun g => if v g ≠ 0 then relative g f.offs.toInt else g.pc + 8 }
  | .brd c f => some {
      ctl := c, ok := fun g => g.dstk.length != 8 && (g.dstk.isEmpty || agree g), effect := diverged f,
      next := fun g => if fallMask f g = 0 then relative g (f.offs.extractLsb' 16 16).toInt else g.pc + 8 }
  | .join c f => some {
      ctl := c,
      ok := fun g => match innermost g with
        | some e => g.pc == e.jaddr && (actives g).all fun l =>
            (threadAt g l).pcnt == f.aux.toNat || (threadAt g l).pcnt == bitsOf f.offs 27 24
        | none => false,
      effect := fun g => match innermost g with | some e => joined f e g | none => g }
  | _ => none

/-! ### Calls, frames on the stack, regions, waiting, ending (chapter 4) -/

/-- Memory, its written bits, the lines of the L1 data caches and the groups aside, `t` is `s`. -/
def SameBeside (s t : State) : Prop :=
  t = { s with groups := t.groups, dev := t.dev, host := t.host, scratch := t.scratch, written := t.written,
               dcache := t.dcache }

/-- The instruction traps with `c` at its own address, its effect aside; the manual does not state TADDR there, and it
is free. -/
def TrapsAt (s : State) (i : Instr) (g : Group) (c : Cause) : Prop :=
  ∃ taddr, exec i s = .next (takeTrap { s with fresh := s.fresh + 1 } g.gid c false g.pc taddr)

/-- The same where the manual states TADDR. -/
def TrapsWith (s : State) (i : Instr) (g : Group) (c : Cause) (taddr : Word) : Prop :=
  exec i s = .next (takeTrap s g.gid c false g.pc taddr)

/-- R111: what a code address that an instruction reads from an entry fails. -/
def badTarget (t : Word) : Option Cause :=
  if bitsOf t 63 55 ≠ 0 then some .space else if bitsOf t 2 0 ≠ 0 then some .align else none

/-- Every byte but those of the listed blocks reads as before. -/
def OnlyBytes (s t : State) (blocks : List (Loc × Nat)) : Prop :=
  ∀ m, (∀ b ∈ blocks, ∀ k < b.2, m ≠ b.1.plus k) → readByte t m = readByte s m

/-- The first `n` ages of a file hold no pending entry. -/
def Settled (f : List Entry) (n : Nat) : Prop := filePends (f.take n) = []

/-- CALL's instruction fields as R117 names them. -/
structure CallForm where
  nargs : Nat
  nuni : Nat
  keep : Nat
  target : Word

/-- The call that an instruction makes (R117), and the group's own checks of the target. -/
def callForm (g : Group) : Instr → Option (Ctl × CallForm)
  | .call c f => some (c, ⟨f.aux.toNat, f.kind.toNat, f.sb.num, relative g f.offs.toInt⟩)
  | .calli c f => some (c, ⟨f.aux.toNat, f.kind.toNat, f.sb.num, (argVal g 0 (.src f.sa)).setWidth 64⟩)
  | _ => none

/-- A CALLI reads its target: the entry has arrived, and the address passes R111. -/
def TargetReady (g : Group) : Instr → Prop
  | .calli _ f => Readable g [0] [.src f.sa] ∧
      bitsOf ((argVal g 0 (.src f.sa)).setWidth 64 : Word) 63 55 = 0 ∧
      bitsOf ((argVal g 0 (.src f.sa)).setWidth 64 : Word) 2 0 = 0
  | _ => True

/-- The group in the callee (R117). -/
def called (k : CallForm) (g : Group) : Group :=
  { threadsWhere g.amask.getLsbD (fun _ t => { t with
      ages := (upTo k.nargs).map fun j => .val (ageVal t.ages j), pcnt := 0 }) g with
    gages := (upTo k.nuni).map fun j => .val (ageVal g.gages j), ropen := false,
    cstk := g.cstk + BitVec.ofNat 64 (k.keep * 512 + 0x160), cdepth := g.cdepth + 1 }

/-- The fixed part of a call record (R118). -/
def FixedPart (t : State) (x : Loc) (g : Group) (keep : Nat) : Prop :=
  (∀ k < 20, readQuad t (x.plus (16 * k)) = ageVal g.gages k) ∧
  readWord t (x.plus 0x140) = g.pc + 8 ∧
  readNat t (x.plus 0x148) 4 = keep + 2 ^ 5 * g.dstk.length + 2 ^ 9 * g.gages.length ∧
  readNat t (x.plus 0x14C) 4 = g.amask.toNat ∧
  ∀ l < 32, readNat t (x.plus 0x150) 16 / 16 ^ l % 16 = (threadAt g l).pcnt

/-- The lists of a group have the lengths that chapter 4 gives them. -/
def InRange (g : Group) : Prop :=
  g.threads.length = 32 ∧ g.gages.length ≤ 20 ∧ g.dstk.length ≤ 8 ∧
  ∀ t ∈ g.threads, t.ages.length ≤ 20 ∧ t.pcnt ≤ 15 ∧ t.frames.length = 12

/-- The group after RET, from a record whose fixed part is at `x` and whose kept ages stand from the pointer `b` (R119). -/
def returned (s : State) (x : Loc) (b : Word) (nr nrg : Nat) (g : Group) : Group :=
  let keep := readNat s (x.plus 0x148) 4 % 32
  let gvd := readNat s (x.plus 0x148) 4 / 2 ^ 9 % 32
  { threadsWhere g.amask.getLsbD (fun l t => { t with
      ages := (upTo (min (nr + keep) 20)).map fun j =>
        .val (if j < nr then ageVal t.ages j else readQuad s (slotAt g b ((j - nr) * 512 + l * 16))),
      pcnt := min (readNat s (x.plus 0x150) 16 / 16 ^ l % 16 + nr) 15 }) g with
    gages := (upTo (min (nrg + gvd) 20)).map fun k =>
      .val (if k < nrg then ageVal g.gages k else readQuad s (x.plus (16 * (k - nrg)))),
    amask := BitVec.ofNat 32 (readNat s (x.plus 0x14C) 4) &&& g.emask, ropen := false,
    cstk := g.cstk - BitVec.ofNat 64 (0x160 + keep * 512), cdepth := g.cdepth - 1 }

/-- The group as REGION opens the region (R121). -/
def regioned (n m : Nat) (g : Group) : Group :=
  { g with
    threads := g.threads.mapIdx fun l t => { t with
      rpred := t.preds
      latch := if g.amask.getLsbD l then ((upTo n).map fun k => ageVal t.ages k) ++ t.latch.drop n else t.latch },
    glatch := ((upTo m).map fun k => ageVal g.gages k) ++ g.glatch.drop m,
    rpc := g.pc + 8, ramask := g.amask, rdepth := g.dstk.length, rln := n, rlg := m, ropen := true,
    rcnt := if g.dstk = [] then g.rcnt else (counts g).headD 0 }

/-- The group that an EXIT's threads have left (R115). -/
def exited (c : Ctl) (g : Group) : Group :=
  let m := BitVec.ofNat 32 (laneMask (parts c g))
  { g with emask := g.emask &&& ~~~m, amask := g.amask &&& ~~~m, ropen := false,
           dstk := g.dstk.map fun e => { e with mask := e.mask &&& ~~~m } }

/-- The open entries up to the innermost that still has an arm or joined threads (R115). -/
def openEntries (g : Group) : List Div := (g.dstk.reverse.dropWhile fun e => e.mask = 0).reverse

/-- The single step as entry leaves it (R343, R348): an asynchronous trap interrupts it until its handler returns, and
any other ends it, the WDOG of the stepped instruction among them. That it is interrupted is the model's choice
(log 95). -/
def stepAfterEntry (c : Cause) (async : Bool) (g : Group) : StepArm :=
  match g.step with
  | .armed => if async = true ∧ c ≠ .wdog then .paused none g.cstk else .off
  | .due a => if async = true then .paused (some a) g.cstk else .off
  | .off => .off
  | .paused a b => .paused a b

/-- The group as trap entry leaves it (R343). -/
def entered (c : Cause) (async : Bool) (tpc taddr : Word) (g : Group) : Group :=
  { g with
    trgn := BitVec.ofNat 64 (bitsOf g.rpc 54 3 * 8 + b2n g.ropen), ropen := false,
    tcause := BitVec.ofNat 32 (c.code + 256 * b2n g.prv + 512 * b2n g.tmk + 1024 * b2n async + 4096 * g.dstk.length),
    tpc, taddr, cstk := g.cstk + 0x29C0, prv := true, tmk := true, hnd := true, amask := g.emask,
    threads := g.threads.mapIdx fun l t => if g.emask.getLsbD l then { t with ages := [], pcnt := 0 } else t,
    gages := [], pc := g.tvec, st := .ready, wreason := .none, wdcnt := 0, step := stepAfterEntry c async g, drain := false,
    peerOk := none, fault := none, served := false }

/-- The trap record of a group at `b` (R344). -/
def TrapRecord (t : State) (b : Loc) (g : Group) : Prop :=
  (∀ l < 32, g.emask.getLsbD l = true → ∀ k < 20,
    readQuad t (b.plus (k * 0x200 + l * 0x10)) = ageVal (threadAt g l).ages k) ∧
  (∀ k < 20, readQuad t (b.plus (0x2800 + 16 * k)) = ageVal g.gages k) ∧
  (∀ p < 16, ∀ l < 32, (readNat t (b.plus (0x2940 + 4 * p)) 4).testBit l = (threadAt g l).preds.getLsbD p) ∧
  (∀ l < 32, readNat t (b.plus 0x2980) 16 / 16 ^ l % 16 = (threadAt g l).pcnt) ∧
  (∀ l < 32, (readByte t (b.plus (0x2990 + l))).toNat = (threadAt g l).ages.length) ∧
  readNat t (b.plus 0x29B0) 4 = g.amask.toNat ∧ readNat t (b.plus 0x29B4) 12 = g.gages.length

/-- Entry with a cause, as R343 gives it, for a group none of whose entries is pending. -/
def Enters (s t : State) (g : Group) (c : Cause) (async : Bool) (tpc taddr : Word) (b : Loc) : Prop :=
  GroupsBecome s t (entered c async tpc taddr g) ∧ SameBeside s t ∧ TrapRecord t b g ∧
  OnlyBytes s t [(b, 0x29C0)]

/-- Entry is possible: a handler, traps not masked, room for the record on the call stack (R343), and no access
of the group to the record's place is still to be performed. -/
def CanEnter (s : State) (g : Group) (b : Loc) : Prop :=
  g.tvec ≠ 0 ∧ bitsOf g.tvec 63 55 = 0 ∧ bitsOf g.tvec 2 0 = 0 ∧ g.tmk = false ∧ bitsOf g.cstk 3 0 = 0 ∧
  g.cstk.toNat + 0x29C0 ≤ g.cslim.toNat ∧ stackLoc s g g.cstk 0x29C0 = .ok b ∧
  busyBytes s g.gid b 0x29C0 = false ∧ groupPends g = []

/-- What checks 2 to 5 of R62 find first for an instruction with word `w`. -/
def firstCheck (s : State) (g : Group) (i : Instr) (w : Word) : Option Cause :=
  let unifLane : Bool := match i with
    | .unif _ f => g.ident.g16 && f.mod == 0 && 16 ≤ bitsOf f.imm16 8 4
    | _ => false
  let privileged : Bool := match i with
    | .tret .. | .tmaskMask .. | .tmaskUnmask .. | .segset .. | .harvest .. | .tinv .. | .snapt .. => true
    | .swr _ f => ((SReg.ofNum f.sreg.toNat).map SReg.privileged).getD false
    | _ => false
  let teamBit : Bool := match i with | .spawn .. => headerBit s g 7 | _ => true
  let combination : Bool := match i with
    | .mma _ f => [(0, 0, 0), (1, 1, 0), (2, 2, 0), (2, 3, 0), (3, 2, 0), (3, 3, 0), (4, 4, 1), (4, 5, 1), (5, 4, 1), (5, 5, 1),
        (6, 6, 0), (6, 7, 0), (7, 6, 0), (7, 7, 0), (8, 8, 0), (8, 9, 0), (9, 8, 0), (9, 9, 0)].contains
        (f.ta.toNat, f.tb.toNat, f.tc.toNat)
    | _ => true
  if i.wf = false ∨ unifLane = true then some .illfld
  else if (g.prv = false ∧ privileged = true) ∨ teamBit = false then some .priv
  else if combination = false then some .illcmb
  else if w.getLsbD 55 = true ∧ visibleDepth g ≠ 0 then some .divuni
  else none

end Sys2Proof.Claims

open Sys2Proof Sys2Proof.Machine Sys2Proof.Claims

/-! ### Values in the age file -/

/-- R100 to R103, R109: PASS, LDI, LDIH, REST, LANE and SEL push what their rows say. That SEL reads the operand that it
does not pick, and raises VOIDR for it, is the model's reading (log 26). -/
def Sys2Proof.Claims.MovesPush : Prop := PushesRow moveRow

/-- R133 to R137: integer arithmetic pushes the exact result, wrapped or clamped, and nothing else changes. -/
def Obligations.IntegerArithmeticPushesExactResults : Prop := PushesRow arithRow

/-- R138 to R141: logic, shifts and bit fields. That SHL.b128 under SAT clamps as an unsigned type is the model's reading
(log 60). -/
def Sys2Proof.Claims.LogicPushes : Prop := PushesRow logicRow

/-- R100 to R103, R109, R138 to R141: moves and logic push what their rows say, and nothing else changes. Of SEL's
operand that is not picked (log 26) and SHL.b128 under SAT (log 60) it says the model's choices. -/
def Obligations.MovesAndLogicPushTheirRows : Prop := MovesPush ∧ LogicPushes

/-- R142 to R146: dot products, requantisation and pointer arithmetic. -/
def Obligations.DotProductsAndPointersPushTheirRows : Prop := PushesRow dotRow

/-- R147 to R150, R154 to R156: FADD, FSUB, FMUL, FMA, FMIN, FMAX, FRCP, FRSQ, FSQRT, FDIV, FEX2, FLG2, FSIN, FCOS, FTNH,
FSCL, FRND and FDOT2 complete, and push the exact operation rounded once; where R150 lets a function return either
neighbour of the exact value, which of the two is free. That an FDOT2 with a NaN operand beside zero times infinity gives
the NaN of R24 and raises no IV for the product is the model's reading (log 91). -/
def Obligations.FloatingPointPushesRoundedResults : Prop := PushesRow floatRow

/-- R157 to R159, R162, R167: conversions and the instructions within an entry. -/
def Obligations.ConversionsAndElementsPushTheirRows : Prop := PushesRow convertRow

/-- R165, R166: REDG and SCAN complete: reductions form the tree, and prefixes go in lane order. What becomes of a value
that meets no other is the model's reading (log 81). -/
def Obligations.ReductionsFollowTheTree : Prop := PushesRow reduceRow

/-- R105, R106, R152, R153: PSET, PLOP, FCMP and FCLS write their predicate and nothing else. -/
def Obligations.ComparisonsSetTheirPredicate : Prop := SetsRow predRow

/-- R99, R102, R104, R107, R108, R164: NOP, SAVE, UNIF, PMOV, PGAT and LXCH. -/
def Obligations.EntryMovesLeaveTheirRows : Prop := LeavesRow entryRow

/-- R160, R161, R31: CVTB sees one block a group, pushes its codes, metadata or values, and moves DPH. That DPH moves
where no thread takes part (log 97), and that a minus zero which decodes as plus zero raises no NX (log 90), are the
model's choices. -/
def Obligations.BlockConversionSeesOneBlock : Prop := LeavesRow blockRow

/-- R48: an instruction of these tables that raises a flag whose trap is enabled takes FPEXC with the five
flags in TADDR, and completes nothing. -/
def Sys2Proof.Claims.EnabledFlagTraps : Prop :=
  ∀ i r s g, (arithRow i = some r ∨ dotRow i = some r ∨ floatRow i = some r ∨ convertRow i = some r ∨
      reduceRow i = some r) → Acts s g i r.ctl → Readable g (execLanes g r.ctl) r.args →
    trapsFp g (r.raised g) = true →
    exec i s = .next (takeTrap s g.gid .fpexc false g.pc (BitVec.ofNat 64 (r.raised g % 32)))

/-- R83: an instruction that reads a pending entry that is not poisoned does not issue: the group waits, and
nothing else changes. -/
def Sys2Proof.Claims.PendingSourceWaits : Prop :=
  ∀ i r s g p ps, (moveRow i = some r ∨ arithRow i = some r ∨ logicRow i = some r ∨ floatRow i = some r ∨
      convertRow i = some r) → Acts s g i r.ctl → argPends g (execLanes g r.ctl) r.args = p :: ps →
    (∀ q ∈ p :: ps, poisonOf s q = none) →
    ∃ t h, exec i s = .next t ∧ GroupsBecome s t h ∧ SameBeside s t ∧
      h = { g with st := .waiting, wreason := pendReason s p, awaits := awaited s p,
                   wdcnt := if g.st = .waiting ∧ g.wreason = pendReason s p then g.wdcnt else 0 }

/-- R48, R83: what keeps a value instruction from completing: an enabled flag traps and completes nothing; a pending
source makes the group wait. That SEL waits for the operand that it does not pick too is the model's reading (log 26). -/
def Obligations.EnabledFlagTrapsAndPendingSourceWaits : Prop := EnabledFlagTraps ∧ PendingSourceWaits

/-! ### Control -/

/-- R111, R113, R116: a BRX whose target is no code address traps with the target in TADDR; a BRD beyond eight open
entries traps with DSTKOVF, and one inside an entry whose active threads' push counts differ with JOINLAY; a JOIN with no
entry open, away from the join address, or with a push count it was not told about, traps with JOINLAY. -/
def Sys2Proof.Claims.BranchesTrap : Prop :=
  (∀ c f s g k, Acts s g (.brx c f) c → asWhole c g = true → Readable g [0] [.src f.sa] →
    let t : Word := (argVal g 0 (.src f.sa)).setWidth 64
    badTarget t = some k → TrapsWith s (.brx c f) g k t) ∧
  (∀ c f s g, Acts s g (.brd c f) c →
    (g.dstk.length = 8 → TrapsAt s (.brd c f) g .dstkovf) ∧
    (g.dstk.length ≠ 8 → g.dstk ≠ [] → agree g = false → TrapsAt s (.brd c f) g .joinlay)) ∧
  (∀ c f s g, Acts s g (.join c f) c →
    (innermost g = none → TrapsAt s (.join c f) g .joinlay) ∧
    (∀ e, innermost g = some e →
      (g.pc ≠ e.jaddr ∨ ∃ l ∈ actives g, (threadAt g l).pcnt ≠ f.aux.toNat ∧ (threadAt g l).pcnt ≠ bitsOf f.offs 27 24) →
      TrapsAt s (.join c f) g .joinlay))

/-- R110 to R113, R116: branches and divergence, and where they trap. A thread whose file holds fewer entries than a JOIN
drops is left with none, and a selected void position becomes a zero that is not void: both are the model's choice
(log 93). -/
def Obligations.BranchesAndDivergenceLeaveTheirRows : Prop := LeavesRow branchRow ∧ BranchesTrap

/-- R114: when the PC reaches the innermost join address, the fall-through arm gives way to the waiting arm, or
the two masks join; elsewhere nothing changes; and at the join address an instruction that is no JOIN traps with
JOINLAY before it executes (its TADDR, which the manual does not state, is free). Where the waiting arm starts at the
join address itself, it is over at once. Whether an open region stays open where no arm follows is left open here (the
model's choice is log 113's). -/
def Obligations.ArmEndsAtTheJoinAddress : Prop :=
  (∀ (g : Group) (pc : Word) (e : Div) (l : List Div), innermost g = some e → g.dstk = l ++ [e] →
    let h := { g with pc, st := .ready, wreason := .none, wdcnt := 0, peerOk := none,
                      step := if g.step = .armed then .due g.pc else g.step }
    (pc ≠ e.jaddr → completed g pc = h) ∧
    (pc = e.jaddr → e.phase = true →
      ∃ o, (o = true → g.ropen = true) ∧ completed g pc = { h with amask := g.amask ||| e.mask, ropen := o }) ∧
    (pc = e.jaddr → e.phase = false → e.mask = 0 →
      ∃ o, (o = true → g.ropen = true) ∧ completed g pc = { h with dstk := l ++ [{ e with phase := true }], ropen := o }) ∧
    (pc = e.jaddr → e.phase = false → e.mask ≠ 0 → e.trel % 2 ^ 61 ≠ 0 →
      completed g pc = { h with amask := e.mask, pc := e.jaddr + BitVec.ofInt 64 (e.trel * 8), ropen := false,
                                dstk := l ++ [{ e with mask := g.amask, phase := true }] }) ∧
    (pc = e.jaddr → e.phase = false → e.mask ≠ 0 → e.trel % 2 ^ 61 = 0 →
      completed g pc = { h with amask := e.mask ||| g.amask, ropen := false,
                                dstk := l ++ [{ e with mask := g.amask, phase := true }] })) ∧
  (∀ i w s g e, encode i = some w → getGroup s s.cur = some g → firstCheck s g i w = none → innermost g = some e →
    g.pc = e.jaddr → (∀ c f, i ≠ .join c f) → TrapsAt s i g .joinlay)

/-- R117, R118: CALL and CALLI write the call record and enter the callee with a fresh file; no other byte and
no inactive thread's place in the record changes. -/
def Sys2Proof.Claims.CallEnters : Prop :=
  ∀ i c k s g, callForm g i = some (c, k) → Acts s g i c → TargetReady g i → Memory.wf s = true → InRange g →
    g.cdepth ≠ 1023 → g.cstk.toNat + (k.keep * 512 + 0x160) ≤ g.cslim.toNat → bitsOf g.cstk 3 0 = 0 →
    let parts := slotParts (actives g) k.keep ++ [(k.keep * 512, 0x160)]
    stackFails s g g.cstk parts = none → stackWait s g g.cstk parts = none →
    (∀ l ∈ actives g, Settled (threadAt g l).ages (max k.nargs k.keep)) → filePends g.gages = [] →
    ∃ t, exec i s = .next t ∧ GroupsBecome s t (completed (called k g) k.target) ∧ SameBeside s t ∧
      (∀ l ∈ actives g, ∀ j < k.keep,
        readQuad t (slotAt g g.cstk (j * 512 + l * 16)) = ageVal (threadAt g l).ages j) ∧
      FixedPart t (slotAt g g.cstk (k.keep * 512)) g k.keep ∧
      OnlyBytes s t (parts.map fun x => (slotAt g g.cstk x.1, x.2))

/-- R119: RET rebuilds the files from the call record and goes to its return address; memory is not written. -/
def Sys2Proof.Claims.ReturnRebuilds : Prop :=
  ∀ c f s g, Acts s g (.ret c f) c → InRange g → g.cdepth ≠ 0 → bitsOf (g.cstk - 0x160) 3 0 = 0 →
    stackFails s g (g.cstk - 0x160) [(0, 0x160)] = none → stackWait s g (g.cstk - 0x160) [(0, 0x160)] = none →
    let x := slotAt g (g.cstk - 0x160) 0
    readNat s (x.plus 0x148) 4 / 2 ^ 5 % 16 = g.dstk.length →
    let keep := readNat s (x.plus 0x148) 4 % 32
    let b := g.cstk - 0x160 - BitVec.ofNat 64 (keep * 512)
    let parts := slotParts (actives g) (min (f.aux.toNat + keep) 20 - f.aux.toNat)
    stackFails s g b parts = none → stackWait s g b parts = none →
    (∀ l ∈ actives g, Settled (threadAt g l).ages f.aux.toNat) → Settled g.gages f.kind.toNat →
    CompletesWith s (.ret c f) (returned s x b f.aux.toNat f.kind.toNat g) (readWord s (x.plus 0x140))

/-- R111, R117, R119: where a call or a return traps: CSTKOVF beyond the stack or the depth of calls, ALIGN, what the
accesses of the record fail, a CALLI's target with the target in TADDR, a RET at another depth of divergence. That a
CALLI checks its target before the record is the model's choice (log 114). -/
def Sys2Proof.Claims.CallsTrap : Prop :=
  (∀ i c k s g, callForm g i = some (c, k) → Acts s g i c → TargetReady g i →
    let full : Prop := g.cdepth = 1023 ∨ g.cslim.toNat < g.cstk.toNat + (k.keep * 512 + 0x160)
    let parts := slotParts (actives g) k.keep ++ [(k.keep * 512, 0x160)]
    (full → TrapsAt s i g .cstkovf) ∧
    (¬ full → bitsOf g.cstk 3 0 ≠ 0 → TrapsAt s i g .align) ∧
    (∀ e, ¬ full → bitsOf g.cstk 3 0 = 0 → stackFails s g g.cstk parts = some e → TrapsAt s i g e)) ∧
  (∀ c f s g k, Acts s g (.calli c f) c → Readable g [0] [.src f.sa] →
    let t : Word := (argVal g 0 (.src f.sa)).setWidth 64
    badTarget t = some k → TrapsWith s (.calli c f) g k t) ∧
  (∀ c f s g, Acts s g (.ret c f) c →
    let x := g.cstk - 0x160
    let w := readNat s ((slotAt g x 0).plus 0x148) 4
    (g.cdepth = 0 → TrapsAt s (.ret c f) g .cstkovf) ∧
    (g.cdepth ≠ 0 → bitsOf x 3 0 ≠ 0 → TrapsAt s (.ret c f) g .align) ∧
    (∀ e, g.cdepth ≠ 0 → bitsOf x 3 0 = 0 → stackFails s g x [(0, 0x160)] = some e → TrapsAt s (.ret c f) g e) ∧
    (g.cdepth ≠ 0 → bitsOf x 3 0 = 0 → stackFails s g x [(0, 0x160)] = none → stackWait s g x [(0, 0x160)] = none →
      w / 2 ^ 5 % 16 ≠ g.dstk.length → TrapsAt s (.ret c f) g .joinlay))

/-- R111, R117 to R119: calls and returns through the call record, and where they trap. -/
def Obligations.CallsAndReturnsUseTheRecord : Prop := CallEnters ∧ ReturnRebuilds ∧ CallsTrap

/-- R120: FSPILL stores the first frame slots of the participating threads on the call stack and raises CSTK. -/
def Sys2Proof.Claims.SpillStores : Prop :=
  ∀ c f s g, Acts s g (.fspill c f) c → Memory.wf s = true → InRange g → bitsOf g.cstk 3 0 = 0 →
    g.cstk.toNat + f.mod.toNat * 512 ≤ g.cslim.toNat →
    let places := slotParts (parts c g) f.mod.toNat
    stackFails s g g.cstk places = none → stackWait s g g.cstk places = none →
    ∃ t, exec (.fspill c f) s = .next t ∧ SameBeside s t ∧
      GroupsBecome s t (completed { g with cstk := g.cstk + BitVec.ofNat 64 (f.mod.toNat * 512), ropen := false }
        (g.pc + 8)) ∧
      (∀ l ∈ parts c g, ∀ j < f.mod.toNat,
        readQuad t (slotAt g g.cstk (j * 512 + l * 16)) = ((threadAt g l).frames[j]?).getD 0) ∧
      OnlyBytes s t (places.map fun x => (slotAt g g.cstk x.1, x.2))

/-- R120: FFILL lowers CSTK and loads the frame slots back; memory is not written. -/
def Sys2Proof.Claims.FillLoads : Prop :=
  ∀ c f s g, Acts s g (.ffill c f) c → InRange g → bitsOf g.cstk 3 0 = 0 →
    let b := g.cstk - BitVec.ofNat 64 (f.mod.toNat * 512)
    let places := slotParts (parts c g) f.mod.toNat
    stackFails s g b places = none → stackWait s g b places = none →
    CompletesWith s (.ffill c f)
      { threadsWhere (takesPart c g) (fun l t => { t with frames :=
          ((upTo f.mod.toNat).map fun j => readQuad s (slotAt g b (j * 512 + l * 16))) ++ t.frames.drop f.mod.toNat }) g
        with cstk := b, ropen := false }
      (g.pc + 8)

/-- R120: where FSPILL and FFILL trap; that CSTKOVF comes before ALIGN is the model's reading (log 93). -/
def Sys2Proof.Claims.FramesTrap : Prop :=
  (∀ c f s g, Acts s g (.fspill c f) c →
    let full : Prop := g.cslim.toNat < g.cstk.toNat + f.mod.toNat * 512
    (full → TrapsAt s (.fspill c f) g .cstkovf) ∧
    (¬ full → bitsOf g.cstk 3 0 ≠ 0 → TrapsAt s (.fspill c f) g .align) ∧
    (∀ e, ¬ full → bitsOf g.cstk 3 0 = 0 → stackFails s g g.cstk (slotParts (parts c g) f.mod.toNat) = some e →
      TrapsAt s (.fspill c f) g e)) ∧
  (∀ c f s g, Acts s g (.ffill c f) c →
    let b := g.cstk - BitVec.ofNat 64 (f.mod.toNat * 512)
    (bitsOf g.cstk 3 0 ≠ 0 → TrapsAt s (.ffill c f) g .align) ∧
    (∀ e, bitsOf g.cstk 3 0 = 0 → stackFails s g b (slotParts (parts c g) f.mod.toNat) = some e →
      TrapsAt s (.ffill c f) g e))

/-- R120: frames go to the call stack and come back, and where that traps. -/
def Obligations.FramesSpillAndFill : Prop := SpillStores ∧ FillLoads ∧ FramesTrap

/-- R121: REGION whose latched entries hold values latches and opens the region; where the active threads' push counts
differ inside a divergence, it opens none. -/
def Sys2Proof.Claims.RegionOpens : Prop :=
  ∀ c f s g, Acts s g (.region c f) c →
    (∀ l ∈ actives g, Settled (threadAt g l).ages (bitsOf f.imm16 2 0)) → Settled g.gages (bitsOf f.imm16 4 3) →
    ((g.dstk = [] ∨ agree g = true) →
      CompletesWith s (.region c f) (regioned (bitsOf f.imm16 2 0) (bitsOf f.imm16 4 3) g) (g.pc + 8)) ∧
    (g.dstk ≠ [] → agree g = false → CompletesWith s (.region c f) { g with ropen := false } (g.pc + 8))

/-- R125, R97: a WAIT whose four limits hold, and which has nothing to deliver, completes and changes nothing else; so
does one whose guard holds in no active thread; one whose limits do not hold makes the group wait. -/
def Sys2Proof.Claims.WaitGoesOnOrWaits : Prop :=
  ∀ c f s g, Acts s g (.wait c f) c →
    let within : Prop := cldOf s g.gid ≤ bitsOf f.imm16 15 12 ∧ cstOf s g.gid ≤ bitsOf f.imm16 11 8 ∧
      ccpOf s g.gid ≤ bitsOf f.imm16 7 4 ∧ ctlOf s g.gid ≤ bitsOf f.imm16 3 0
    let quiet : Prop := coverWait s g (bitsOf f.imm16 15 12) (bitsOf f.imm16 11 8) (bitsOf f.imm16 7 4) = none
    (asWhole c g = false → CompletesWith s (.wait c f) g (g.pc + 8)) ∧
    (quiet → within → CompletesWith s (.wait c f) g (g.pc + 8)) ∧
    (asWhole c g = true → quiet → ¬ within →
      ∃ t, exec (.wait c f) s = .next t ∧ SameBeside s t ∧
        GroupsBecome s t { g with
          st := .waiting, wreason := .cnt, wdcnt := if g.st = .waiting ∧ g.wreason = .cnt then g.wdcnt else 0,
          awaits := bitsOf f.imm16 15 12 + 16 * bitsOf f.imm16 11 8 + 256 * bitsOf f.imm16 7 4 + 4096 * bitsOf f.imm16 3 0 })

/-- R126, R97: a NAP of n > 0 cycles makes the group ineligible with WREASON NAP and n in WDCNT, and it completes at
the next instruction when the count has run out; NAP #0, and one whose guard holds in no active thread, complete at once. -/
def Sys2Proof.Claims.NapSleepsThenGoesOn : Prop :=
  (∀ c f s g, Acts s g (.nap c f) c → (asWhole c g = false ∨ f.imm16 = 0) →
    CompletesWith s (.nap c f) g (g.pc + 8)) ∧
  (∀ c f s g, Acts s g (.nap c f) c → asWhole c g = true → f.imm16 ≠ 0 →
    ∃ t, exec (.nap c f) s = .next t ∧ SameBeside s t ∧
      GroupsBecome s t { g with st := .waiting, wreason := .nap, wdcnt := f.imm16.toNat }) ∧
  (∀ s g, getGroup s g.gid = some g → g.st = .waiting → g.wreason = .nap → g.wdcnt = 0 →
    CompletesWith s (.napExpiry g.gid) g (g.pc + 8))

/-- R97, R121, R125, R126: REGION, WAIT and NAP complete, each with its own effect, or the group waits as R125 and R126
say. -/
def Obligations.RegionWaitAndNap : Prop := RegionOpens ∧ WaitGoesOnOrWaits ∧ NapSleepsThenGoesOn

/-- R127: an EXIT that leaves active threads completes without the threads that ended. -/
def Sys2Proof.Claims.ExitGoesOn : Prop :=
  ∀ c f s g, Acts s g (.exit c f) c → (exited c g).amask ≠ 0 → (exited c g).emask ≠ 0 →
    CompletesWith s (.exit c f) (exited c g) (g.pc + 8)

/-- R114, R115: an EXIT that empties the active mask ends the arm; entries that are empty close, and the innermost
that is not goes on: with its waiting arm, or past its join address with the threads that have come there. -/
def Sys2Proof.Claims.ExitEndsTheArm : Prop :=
  ∀ c f s g l e, Acts s g (.exit c f) c → (exited c g).amask = 0 → (exited c g).emask ≠ 0 → g.dstk.length ≤ 8 →
    openEntries (exited c g) = l ++ [e] →
    (e.phase = true →
      CompletesWith s (.exit c f) { exited c g with amask := e.mask, dstk := l ++ [e] } e.jaddr) ∧
    (e.phase = false →
      CompletesWith s (.exit c f)
        { exited c g with amask := e.mask, dstk := l ++ [{ e with mask := 0, phase := true }] }
        (e.jaddr + BitVec.ofInt 64 (e.trel * 8)))

/-- R80, R127: an EXIT that ends the last thread of a group with nothing outstanding and nothing to deliver completes
by retiring it; with something outstanding the group drains, with WREASON CNT. -/
def Sys2Proof.Claims.ExitRetiresOrDrains : Prop :=
  ∀ c f s g, Acts s g (.exit c f) c → (exited c g).emask = 0 →
    coverWait (setGroup s (exited c g)) (exited c g) 0 0 0 = none →
    (countersZero (setGroup s (exited c g)) g.gid = true →
      exec (.exit c f) s = .next (retireGroup (setGroup s (exited c g)) g.gid) ∧
      getGroup (retireGroup (setGroup s (exited c g)) g.gid) g.gid = none) ∧
    (countersZero (setGroup s (exited c g)) g.gid = false →
      ∃ t, exec (.exit c f) s = .next t ∧ SameBeside s t ∧
        GroupsBecome s t { exited c g with st := .waiting, wreason := .cnt, drain := true, awaits := 0,
                                           wdcnt := if g.st = .waiting ∧ g.wreason = .cnt then g.wdcnt else 0 })

/-- R80, R114, R115, R127: an EXIT completes, and what it leaves, in each of its cases. -/
def Obligations.ExitEndsThreads : Prop := ExitGoesOn ∧ ExitEndsTheArm ∧ ExitRetiresOrDrains

/-! ### Traps -/

/-- R97, R128, R190, R343: BKPT and TRAP enter the handler with TPC at the next instruction and TADDR the immediate; one
whose guard holds in no active thread completes and does nothing; in a member of a gang they break it first, and then
its members that wait trap. -/
def Sys2Proof.Claims.SoftwareTrapsEnter : Prop :=
  ∀ i c f cause s g, ((i = Instr.bkpt c f ∧ cause = .bkpt) ∨ (i = Instr.trap c f ∧ cause = .trap)) → Acts s g i c →
    (asWhole c g = false → CompletesWith s i g (g.pc + 8)) ∧
    (∀ b, asWhole c g = true → gangOf s g.gid = none → CanEnter s g b → InRange g → Memory.wf s = true →
      ∃ t, exec i s = .next t ∧ Enters s t g cause false (g.pc + 8) (f.imm16.setWidth 64) b) ∧
    (∀ k, asWhole c g = true → gangOf s g.gid = some k →
      exec i s = .next (trapWaiting (enterTrap (breakGang s k.key).1 g.gid cause false (g.pc + 8) (f.imm16.setWidth 64))
        k.key ((breakGang s k.key).2.filter (· ≠ g.gid))))

/-- R343, R344: the shared operation that every trap enters by writes the record, saves the PC and the cause,
raises PRV, TMK and HND and goes to TVEC. -/
def Sys2Proof.Claims.EntrySaves : Prop :=
  ∀ s g cause async tpc taddr b, getGroup s g.gid = some g → CanEnter s g b → InRange g → Memory.wf s = true →
    Enters s (enterTrap s g.gid cause async tpc taddr) g cause async tpc taddr b

/-- R342, R343: while TMK is 1 a synchronous trap is unrecoverable, and an asynchronous one is held once: nothing
but the group's held traps changes. -/
def Sys2Proof.Claims.MaskedTrapIsHeld : Prop :=
  ∀ s g cause tpc taddr, getGroup s g.gid = some g → g.tvec ≠ 0 → bitsOf g.tvec 63 55 = 0 → bitsOf g.tvec 2 0 = 0 →
    g.tmk = true →
    SameBeside s (enterTrap s g.gid cause true tpc taddr) ∧
    GroupsBecome s (enterTrap s g.gid cause true tpc taddr)
      { g with held := if g.held.any (fun h => h.1 == cause) then g.held else g.held ++ [(cause, taddr)] } ∧
    enterTrap s g.gid cause false tpc taddr = unrecoverable s g cause false tpc taddr

/-- R128, R342 to R344: BKPT and TRAP complete by taking their trap; what taking a trap saves, and when it is held. -/
def Obligations.TrapsSaveVectorOrAreHeld : Prop := SoftwareTrapsEnter ∧ EntrySaves ∧ MaskedTrapIsHeld

namespace Sys2Proof.Claims
open Sys2Proof.Machine

/-! ### Memory (chapters 7 and 8) -/

/-- The state with group `h` in the place of the group of its number. -/
def withGroup (s : State) (h : Group) : State :=
  { s with groups := s.groups.map fun k => if k.gid = h.gid then h else k }

/-- R81: an entry, perhaps pending, goes onto each executing thread's file, or onto the uniform file. -/
def pushedEntry (c : Ctl) (e : Nat → Entry) (g : Group) : Group :=
  if c.u then { g with gages := (e 0 :: g.gages).take 20 }
  else threadsWhere (takesPart c g) (fun l t => { t with ages := (e l :: t.ages).take 20, pcnt := min (t.pcnt + 1) 15 }) g

/-- The lanes' effective pointers (R203): the offset is added in the offset field of the pointer's space. -/
def pointers (g : Group) (c : Ctl) (f : ME) : List (Nat × Word) :=
  (execLanes g c).map fun l => (l, ptrAdd ((argVal g l (.src f.sa)).setWidth 64) (sxNat 20 f.offset.toNat))

/-- The page is mapped, and the core's L1 TLB holds its translation (R364). -/
def Maps (s : State) (g : Group) (va : Nat) (w : Walk) : Prop :=
  walk s g.ctx va = w ∧ (w.kind = .page ∨ w.kind = .large) ∧
  ∃ t, tlbFind s g.ctx g.cl (some g.core) va = some t ∧ t.core = some g.core ∧ (tlbWalkOf t va).kind = w.kind ∧
    dropA (tlbWalkOf t va).entry = dropA w.entry

/-- One lane's access passes R203: a scratch offset of a rank that is not being saved (R199), a page with the
permission that the access needs, or, for LDZ, a sparse page. -/
def Reaches (s : State) (g : Group) (need : Need) (size : Nat) (zero : Bool) (x : Nat × Word) (a : Acc) : Prop :=
  a.lane = x.1 ∧ a.ptr = resolvedPtr (addrCtx s g) x.2 size ∧ a.port = none ∧
  ((∃ r o, check13 s (addrCtx s g) x.2 size = .ok (.scr r o) ∧ rankSwaps s g r = false ∧ a.loc = .scr g.ctx r o ∧
      a.zero = false ∧ a.poisoned = false) ∨
   (∃ va w, check13 s (addrCtx s g) x.2 size = .ok (.glob va) ∧ Maps s g va w ∧ permOk need w.entry = true ∧
      a.loc = leafLoc w va ∧ a.zero = false ∧ a.poisoned = ptePSN w.entry) ∨
   (∃ va, check13 s (addrCtx s g) x.2 size = .ok (.glob va) ∧ zero = true ∧ (walk s g.ctx va).kind = .sparse ∧
      tlbFind s g.ctx g.cl (some g.core) va = none ∧ a.loc = .dev 0 ∧ a.zero = true ∧ a.poisoned = false))

/-- The instructions of R203 with what the checks need: permission, whether LDZ's rule for sparse pages holds,
and the operands. -/
def accessForm : Instr → Option (Ctl × ME × Need × Bool × List Arg)
  | .ld c f => some (c, f, .load, false, [.src f.sa])
  | .ldz c f => some (c, f, .load, true, [.src f.sa])
  | .st c f => some (c, f, .store, false, [.src f.sa, .src f.sb])
  | .atom c f => some (c, f, .atomic, false, [.src f.sa, .src f.sb])
  | .atomn c f => some (c, f, .atomic, false, [.src f.sa, .src f.sb])
  | .cas c f => some (c, f, .atomic, false, [.src f.sa, .src f.sb, .src f.sc])
  | _ => none

/-- The access is counted in CLD: it pushes what it reads (R207, R210, R212). -/
def pushes : Instr → Bool
  | .st .. | .atomn .. => false
  | _ => true

/-- The access is counted in CST: it writes (R209, R210, R212, R236). -/
def writes : Instr → Bool
  | .ld .. | .ldz .. => false
  | _ => true

/-- The counters have room, and a release finds no failed store to deliver (R217, R216, R238). -/
def Room (s : State) (g : Group) (i : Instr) (f : ME) : Prop :=
  (pushes i = true → cldOf s g.gid < 15) ∧ (writes i = true → cstOf s g.gid < 15) ∧
  (f.ord = 2 ∨ f.ord = 3 → coverRelease s g = none)

/-- The state in which an access checks its pointers: the import entries that PEER pointers name are translated for it
first (R365, R401). -/
def importsRead (s : State) (g : Group) (n : Nat) (ps : List (Nat × Word)) : State :=
  ps.foldl (fun s x => touchImport s (addrCtx s g) x.2 n) s

/-- Translation aside, with the bits that the walker sets in tables after the writes that have their place there, `t`
is `s`. -/
def SameButWalks (s t : State) : Prop :=
  t = { s with tlb := t.tlb, dev := t.dev, host := t.host, written := t.written, fresh := t.fresh, dcache := t.dcache,
               stores := t.stores, carries := t.carries, clusters := t.clusters }

/-- The entry of a lane among these lanes, pending on operations numbered from `base` in their order. -/
def pendAt (base : Nat) (lanes : List Nat) (l : Nat) : Entry :=
  match lanes.findIdx? (· == l) with
  | some k => .pend (base + k)
  | none => .val 0

/-- The entries of a load's or an atomic's accesses. -/
def pendFor (op : Nat) (accs : List Acc) (l : Nat) : Entry := pendAt (op + 1) (accs.map (·.lane)) l

/-- The load of one lane as it stands before its data comes. -/
def loadOf (g : Group) (op acq n : Nat) (sx : Bool) (k : Nat) (a : Acc) : LoadRec :=
  { id := op + 1 + k, op, gid := g.gid, bent := if a.port.isSome then 8 else g.cl / 24, port := a.port, acq, cld := true,
    ptr := a.ptr,
    work := if a.poisoned then .poisoned a.ptr false else if a.zero then .value 0
            else .read none (if n ≤ 8 then some [] else none) a.loc n sx }

/-- The parts of the lanes' stores: each of one lane's bytes, of 16 bytes two halves (R205, R219), with its access. -/
def storePieces (n : Nat) (data : Nat → Quad) (accs : List Acc) : List (Acc × Loc × List Byte) :=
  (accs.filter fun a => !a.poisoned).flatMap fun a =>
    let bs := bytesOf n (data a.lane).toNat
    if n ≤ 8 then [(a, a.loc, bs)] else [(a, a.loc, bs.take 8), (a, a.loc.plus 8, bs.drop 8)]

/-- The group after a store or a resultless atomic to poisoned pages: what it still has to be told (R216). -/
def owes (op : Nat) (accs : List Acc) (g : Group) : Group :=
  { g with stPoison := g.stPoison ++ (accs.filter (·.poisoned)).map fun a => (op, a.ptr) }

/-- The float operation of an atomic (R211). -/
def atomFloat (w : Nat) (code old d : Nat) : Nat :=
  let fm := if w = 32 then fmtF32 else fmtF64
  let e : FEnv := ⟨1, 0, false, false, false, false⟩
  if code = 11 then (fAdd fm e (fDecode fm false old) (fDecode fm false d)).1
  else (fMinMax fm e (code = 13) false old d).1

/-- The new value of an atomic (R210, R212); code 16 is CAS. -/
def atomOp (w code old d cmp : Nat) : Nat :=
  if code = 0 then d
  else if code = 1 then (old + d) % 2 ^ w
  else if code = 2 then old &&& d
  else if code = 3 then old ||| d
  else if code = 4 then old ^^^ d
  else if code = 5 then (if sxNat w old ≤ sxNat w d then old else d)
  else if code = 6 then (if sxNat w old ≤ sxNat w d then d else old)
  else if code = 7 then min old d
  else if code = 8 then max old d
  else if code = 9 then (if old ≥ d then 0 else old + 1)
  else if code = 10 then (if old = 0 ∨ old > d then d else old - 1)
  else if code = 11 ∨ code = 12 ∨ code = 13 then atomFloat w code old d
  else if old = cmp then d else old

/-- The code of an atomic. -/
def atomCode : Instr → Nat
  | .atom _ f | .atomn _ f => f.mod.toNat
  | _ => 16

/-- The values that the lanes of a combined request find, and last what they leave (R215). -/
def inTurn (w code old : Nat) (ls : List AtomLane) : List Nat :=
  ls.scanl (fun v l => atomOp w code v l.d l.cmp) old

/-- The kind that a fault record gives an access (R393); 5 stands for an LDZ's, which the record shows as a load. -/
def kindCode (need : Need) (zero : Bool) : Nat := if zero then 5 else if need = .load then 0 else if need = .store then 1 else 2

/-- The entry that waits for operation `id` holds `v`. -/
def filledIn (id : Nat) (v : Quad) (g : Group) : Group :=
  let fill (e : Entry) : Entry := if e = .pend id then .val v else e
  { g with threads := g.threads.map (fun t => { t with ages := t.ages.map fill }), gages := g.gages.map fill }

/-- Every store but that of number `id` is as before. -/
def OtherStores (s t : State) (id : Nat) : Prop :=
  t.stores.filter (fun r => r.id ≠ id) = s.stores.filter (fun r => r.id ≠ id)

/-- The stores, memory with what its values carry and the caches hold of it, and the count of operations aside, `t` is
`s`. -/
def SameButStores (s t : State) : Prop :=
  t = { s with stores := t.stores, nextId := t.nextId, dev := t.dev, host := t.host, scratch := t.scratch,
               written := t.written, carries := t.carries, dcache := t.dcache }

/-- Group `u` is `g` after its access `op` read `n` bytes at `l` as bent `b` sees them (R226, R229): it has read the
forwarded stores of others, and as an acquire at scope `acq` it has learned of the stores that the bytes carry. -/
def HasRead (s : State) (b : Nat) (l : Loc) (n op acq : Nat) (g u : Group) : Prop :=
  u = { g with sawFwd := u.sawFwd, heard := u.heard } ∧
  (∀ k, k ∈ u.heard ↔ k ∈ g.heard ∨ k ∈ carriesView s b l n) ∧
  ∀ x, x ∈ u.sawFwd ↔ x ∈ g.sawFwd ∨ (∃ k ∈ carriesView s b l n, k.reaches g acq = true ∧ ∃ i ∈ k.ids, x = (op, i)) ∨
    ∃ j < n, ∃ w, forwardedAt s b (l.plus j) = some w ∧ w.gid ≠ g.gid ∧ x = (op, w.id)

/-- A group that as an acquire `op` at a scope has read what carries `ks` (R229). -/
def taught (op acq : Nat) (ks : List Carry) (g : Group) : Group :=
  if ks = [] then g else
    { g with sawFwd := ((((ks.filter fun k => k.reaches g acq).flatMap (·.ids)).map fun i => (op, i)) ++ g.sawFwd).eraseDups
             heard := (ks ++ g.heard).eraseDups }

/-- The group after a FENCE numbered `op` (R226, R227, R240): as an acquire it takes up what the values that it read
carry, as a release it counts for what comes after it. -/
def fenced (f : ME) (op : Nat) (g : Group) : Group :=
  let ids := (g.heard.filter fun k => k.reaches g f.scope.toNat).flatMap (·.ids)
  let h : Group := if f.ord ≠ 2 ∧ g.heard ≠ [] then
    { g with sawFwd := ((ids.map fun i => (op, i)) ++ g.sawFwd).eraseDups, heard := (g.heard ++ g.heard).eraseDups } else g
  if f.ord ≠ 1 then
    { h with fences := (f.scope.toNat, op) :: g.fences.filter fun x => x.1 ≠ f.scope.toNat } else h

/-- The write of an atomic as a store that is outstanding (R236). -/
def IsAtomWrite (a : AtomRec) (r : StoreRec) : Prop :=
  r.id = a.id ∧ r.op = a.op ∧ r.gid = a.gid ∧ r.ctx = a.ctx ∧ r.bent = a.bent ∧ r.port = a.port ∧ r.loc = a.loc ∧
  r.rel = a.rel ∧ r.ptr = a.ptr ∧ r.atomic = true ∧ r.ack = true

/-- The bytes at `l` read as `bs`. -/
def Holds (t : State) (l : Loc) (bs : List Byte) : Prop := ∀ k < bs.length, readByte t (l.plus k) = (bs[k]?).getD 0

end Sys2Proof.Claims

/-! ### Memory -/

/-- R195 to R198, R203: what checks 1 to 3 find for a pointer of each space; SEGREL takes the check of its form
and of its limit and is then resolved. That an import entry on a stranded page, or one that is poisoned, fails with
POISON is the model's choice (log 111). -/
def Obligations.PointersPassTheirChecks : Prop :=
  ∀ s ac (p : Word) n,
    (ptrSpace p = 0 → check13 s ac p n =
      if bitsOf p 60 55 ≠ 0 then .error (.space, p)
      else if bitsOf p 54 0 % n ≠ 0 then .error (.align, p) else .ok (.glob (bitsOf p 54 0))) ∧
    (ptrSpace p = 1 → check13 s ac p n =
      if bitsOf p 47 23 ≠ 0 ∨ (bitsOf p 60 48 ≠ 0x1FFF ∧ rankCount s ac.ctx ≤ bitsOf p 60 48) then .error (.space, p)
      else if bitsOf p 22 0 % n ≠ 0 then .error (.align, p)
      else if bitsOf p 60 48 = 0x1FFF ∨ bitsOf p 60 48 = ac.rank then
        (if ac.wb ≤ bitsOf p 22 0 ∧ bitsOf p 22 0 + n ≤ ac.wb + ac.wsize then .ok (.scr ac.rank (bitsOf p 22 0))
         else .error (.bounds, p))
      else if bitsOf p 22 0 + n ≤ 6291456 then .ok (.scr (bitsOf p 60 48) (bitsOf p 22 0)) else .error (.bounds, p)) ∧
    (ptrSpace p = 2 → importLost s ac.ctx (bitsOf p 60 48) = true → check13 s ac p n = .error (.poison, p)) ∧
    (ptrSpace p = 2 → importLost s ac.ctx (bitsOf p 60 48) = false →
      ∀ e, importAt s ac.ctx (bitsOf p 60 48) = some e → didReachable s e.did = true →
      check13 s ac p n =
        if bitsOf p 47 0 % n ≠ 0 then .error (.align, p)
        else if bitsOf p 47 0 + n ≤ e.len then .ok (.peer (bitsOf p 60 48) (bitsOf p 47 0)) else .error (.bounds, p)) ∧
    (ptrSpace p = 2 → importLost s ac.ctx (bitsOf p 60 48) = false → (importAt s ac.ctx (bitsOf p 60 48) = none ∨
        ∃ e, importAt s ac.ctx (bitsOf p 60 48) = some e ∧ didReachable s e.did = false) →
      check13 s ac p n = .error (.space, p)) ∧
    (ptrSpace p = 3 → bitsOf p 58 32 ≠ 0 → check13 s ac p n = .error (.space, p)) ∧
    (ptrSpace p = 3 → bitsOf p 58 32 = 0 → ∀ lim base, ac.segls[bitsOf p 60 59]? = some lim →
      ac.segs[bitsOf p 60 59]? = some base →
      (lim.toNat < bitsOf p 31 0 + n → check13 s ac p n = .error (.bounds, p)) ∧
      (bitsOf p 31 0 + n ≤ lim.toNat → ptrSpace (ptrAdd base (bitsOf p 31 0)) ≠ 3 →
        check13 s ac p n = check13 s ac (ptrAdd base (bitsOf p 31 0)) n)) ∧
    (3 < ptrSpace p → check13 s ac p n = .error (.space, p))

/-- R203: lanes whose pointers pass reach their places and change nothing but the count of a TLB miss; the lowest lane
that fails checks 1 to 3 is the one delivered, before any page is looked at but those of import entries; the checks' only
traces are translations, A bits, the written bits of the tables and counts, and the writes that had their place on the
lines of an entry whose A bit is set are performed first (R235). -/
def Obligations.AccessChecksFindEachLane : Prop :=
  (∀ s g need size zero ps accs, List.Forall₂ (Reaches s g need size zero) ps accs →
    ∃ t, checkAccess s g need size zero ps = .ok t accs ∧ t = { s with clusters := t.clusters } ∧
      ((∀ a ∈ accs, a.zero = false) ∨ s.pcsel = 0 → t = s)) ∧
  (∀ i c f need zero args s g pre l p post k q, accessForm i = some (c, f, need, zero, args) → Acts s g i c →
    Readable g (execLanes g c) args → Room s g i f → pointers g c f = pre ++ (l, p) :: post →
    let u := importsRead s g (2 ^ f.sz.toNat) (pointers g c f)
    (∀ x ∈ pre, ∃ t, check13 u (addrCtx u g) x.2 (2 ^ f.sz.toNat) = .ok t) →
    check13 u (addrCtx u g) p (2 ^ f.sz.toNat) = .error (k, q) →
    exec i s = .next (takeTrap u g.gid k false g.pc q) ∧
    ((∀ x ∈ pointers g c f, ptrSpace x.2 < 2) → u = s)) ∧
  (∀ s g need size zero ps s' accs, Memory.wf s = true → checkAccess s g need size zero ps = .ok s' accs →
    accs.map (·.lane) = ps.map (·.1) ∧
    SameButWalks s s' ∧ (∀ r ∈ s'.stores, r ∈ s.stores) ∧
    ∀ m, (∀ r ∈ s.stores, r.st = .ordered ∨ r.st = .forwarded → overlaps r.loc r.bytes.length m 1 = false) →
      readByte s' m = readByte s m ∨ readByte s' m = readByte s m ||| 1)

/-- R203, R123: the lowest lane whose page is not mapped suspends a group that has a region open, with a record
in its context's fault ring, and traps with PFAULTNR a group that has none. The record is stated where no store that has
its place on its lines is still to be performed. -/
def Obligations.UnmappedPageSuspendsOrTraps : Prop :=
  ∀ i c f need zero args s g l p post va, accessForm i = some (c, f, need, zero, args) → Acts s g i c →
    Readable g (execLanes g c) args → Room s g i f → pointers g c f = (l, p) :: post → ptrSpace p ≠ 3 →
    let u := importsRead s g (2 ^ f.sz.toNat) (pointers g c f)
    (∀ x ∈ pointers g c f, ∃ t, check13 u (addrCtx u g) x.2 (2 ^ f.sz.toNat) = .ok t) →
    check13 u (addrCtx u g) p (2 ^ f.sz.toNat) = .ok (.glob va) → tlbFind u g.ctx g.cl (some g.core) va = none →
    (walk u g.ctx va).poisoned = false → (walk u g.ctx va).kind = .unmapped →
    (g.ropen = false → exec i s = .next (takeTrap (perfCount u g.cl 6 1) g.gid .pfaultnr false g.pc p)) ∧
    (g.ropen = true → ∀ x ring, getCtx s g.ctx = some x → physLoc x.fring = some ring → Memory.wf s = true →
      lineQuiet u (ring.plus (32 * (x.fcount % 2 ^ x.lgf))) 32 = true →
      ∃ t, exec i s = .next t ∧
        GroupsBecome s t { g with st := .waiting, wreason := .pflt, wdcnt := 0, served := false, peerOk := none,
                                  fault := some (p, kindCode need zero) } ∧
        getCtx t g.ctx = some { x with fcount := x.fcount + 1 } ∧
        (let r := ring.plus (32 * (x.fcount % 2 ^ x.lgf))
         readWord t r = handleOf s g ∧ readWord t (r.plus 8) = p ∧
         readNat t (r.plus 16) 3 = kindCode need zero % 5 + 2 ^ 8 + 2 ^ 16 * (x.fcount / 2 ^ x.lgf % 255 + 1) ∧
         readNat t (r.plus 19) 13 = 0 ∧
         OnlyBytes u t [(r, 32)]))

/-- R207, R208, R217: LD and LDZ push an entry pending on each lane's read; an instruction without participating
lanes goes on. -/
def Sys2Proof.Claims.LoadsPush : Prop :=
  ∀ i c f need zero args s g, accessForm i = some (c, f, need, zero, args) → (need = .load) → Acts s g i c →
    (execLanes g c = [] → CompletesWith s i g (g.pc + 8)) ∧
    (execLanes g c ≠ [] → Readable g (execLanes g c) args → Room s g i f →
      ∀ s' accs, checkAccess s g need (2 ^ f.sz.toNat) zero (pointers g c f) = .ok s' accs →
      exec i s = .next (withGroup
        { s' with nextId := s.nextId + 1 + accs.length, clusters := (noteBanks g accs s').clusters
                  loads := s.loads ++ accs.mapIdx (loadOf g s.nextId (if f.ord = 1 then f.scope.toNat else 0) (2 ^ f.sz.toNat) f.sx) }
        (completed (pushedEntry c (pendFor s.nextId accs) (flagged (voidFlag g (execLanes g c) args) g)) (g.pc + 8))))

/-- R205, R209, R219: ST queues each lane's low bytes as stores of the group that are not yet ordered. -/
def Sys2Proof.Claims.StoresQueue : Prop :=
  ∀ c f s g, Acts s g (.st c f) c →
    (execLanes g c = [] → CompletesWith s (.st c f) g (g.pc + 8)) ∧
    (execLanes g c ≠ [] → Readable g (execLanes g c) [.src f.sa, .src f.sb] → Room s g (.st c f) f →
      ∀ s' accs, checkAccess s g .store (2 ^ f.sz.toNat) false (pointers g c f) = .ok s' accs →
      let ps := storePieces (2 ^ f.sz.toNat) (fun l => argVal g l (.src f.sb)) accs
      exec (.st c f) s = .next (withGroup
        { s' with nextId := s.nextId + 1 + ps.length, clusters := (noteBanks g accs s').clusters
                  stores := s'.stores ++ ps.mapIdx fun k p =>
                    { id := s.nextId + 1 + k, op := s.nextId, gid := g.gid, ctx := g.ctx, bent := g.cl / 24,
                      port := p.1.port, loc := p.2.1, bytes := p.2.2, ack := f.ack, atomic := false,
                      rel := if f.ord = 2 then f.scope.toNat else 0, st := .issued, place := 0, age := 0,
                      ptr := p.1.ptr, carry := [] } }
        (completed (owes s.nextId accs (flagged (voidFlag g (execLanes g c) [.src f.sa, .src f.sb]) g)) (g.pc + 8))))

/-- R210, R212, R215: ATOM, ATOMN and CAS close the region and send one request for each address of an observer, its
lanes in ascending order; ATOM and CAS push entries that wait for the old values. -/
def Sys2Proof.Claims.AtomicsSend : Prop :=
  ∀ i c f zero args s g, accessForm i = some (c, f, .atomic, zero, args) → Acts s g i c →
    (execLanes g c = [] → CompletesWith s i { g with ropen := false } (g.pc + 8)) ∧
    (execLanes g c ≠ [] → Readable g (execLanes g c) args → Room s g i f →
      ∀ s' accs, checkAccess s g .atomic (2 ^ f.sz.toNat) false (pointers g c f) = .ok s' accs →
      (∀ a ∈ accs, a.poisoned = false) →
      let w := 2 ^ f.sz.toNat
      let lane (a : Acc) : AtomLane :=
        { pend := if pushes i then (match pendFor s.nextId accs a.lane with | .pend k => some k | _ => none) else none
          d := (argVal g a.lane (.src f.sb)).toNat % 2 ^ (8 * w), cmp := (argVal g a.lane (.src f.sc)).toNat % 2 ^ (8 * w) }
      let g' := { flagged (voidFlag g (execLanes g c) args) g with ropen := false }
      ∃ rs : List AtomRec, (rs.map fun r => (r.loc, r.port)).Nodup ∧
        (∀ a ∈ accs, ∃ r ∈ rs, r.loc = a.loc ∧ r.port = a.port) ∧
        (∀ k r, rs[k]? = some r → r.id = s.nextId + 1 + accs.length + k) ∧
        (∀ r ∈ rs, r.lanes = (accs.filter fun a => a.loc = r.loc ∧ a.port = r.port).map lane ∧ r.op = s.nextId ∧
          r.gid = g.gid ∧ r.ctx = g.ctx ∧ r.bent = (if r.port.isSome then 8 else g.cl / 24) ∧ r.age = 0 ∧
          r.width = w ∧ r.code = atomCode i ∧ r.acq = (if f.ord = 1 ∨ f.ord = 3 then f.scope.toNat else 0) ∧
          r.rel = (if f.ord = 2 ∨ f.ord = 3 then f.scope.toNat else 0) ∧ r.lanes ≠ []) ∧
        exec i s = .next (withGroup
          { s' with nextId := s.nextId + 1 + accs.length + rs.length, atoms := s.atoms ++ rs
                    clusters := (noteBanks g accs s').clusters }
          (completed (if pushes i then pushedEntry c (pendFor s.nextId accs) g' else g') (g.pc + 8))))

/-- R205, R207 to R210, R212, R215, R217, R219: loads, stores and atomics issue their requests. -/
def Obligations.MemoryInstructionsIssueTheirRequests : Prop := LoadsPush ∧ StoresQueue ∧ AtomicsSend

/-- R226, R238, R240: a FENCE goes on when the accesses that its row names meet the conditions at its scope, waits with
FENCE while they do not, does nothing where no thread's guard holds, and delivers the loss of an access that it orders:
FENCE.acq that of an atomic, a releasing FENCE that of any store. -/
def Obligations.FenceWaitsForItsRow : Prop :=
  ∀ c f s g, Acts s g (.fence c f) c →
    let lost := if f.ord = 1 then lostAtomic s g.gid else lostStore s g.gid
    (asWhole c g = false → CompletesWith s (.fence c f) g (g.pc + 8)) ∧
    (asWhole c g = true → g.stPoison = [] → lost = none →
      let met := loadsReturned s g.gid s.nextId && (if f.ord = 1 then
          s.stores.all fun r => !(r.gid == g.gid && r.atomic) || r.performed
        else (s.stores.all fun r => !(r.gid == g.gid && r.op < s.nextId) || storeReleased f.scope.toNat r) &&
          (f.scope.toNat ≤ 3 || seenPerformed s g.gid s.nextId))
      (met = true → ∃ t, exec (.fence c f) s = .next t ∧ t = { s with groups := t.groups, nextId := s.nextId + 1 } ∧
        GroupsBecome s t (completed (fenced f s.nextId g) (g.pc + 8))) ∧
      (met = false → ∃ t, exec (.fence c f) s = .next t ∧ SameBeside s t ∧
        GroupsBecome s t { g with st := .waiting, wreason := .fence
                                  wdcnt := if g.st = .waiting ∧ g.wreason = .fence then g.wdcnt else 0 })) ∧
    (∀ r, asWhole c g = true → g.stPoison = [] → lost = some r →
      exec (.fence c f) s = .next (takeTrap
        { s with stores := s.stores.filter fun x => !(x.gid == g.gid && x.op == r.op && x.st == .lost) }
        g.gid .acklost false g.pc r.ptr))

/-- R227, R230 to R232, R236: a store that may go takes the next place at its home with what happens before it, and
where one point orders all observers it is then in memory; an ordered ST.f becomes readable in its bent; and a store
that is acknowledged is in memory and outstanding no more. A write of the device's own comes after the stores that have
their place on its lines, which it performs (R234; that they are performed then is the model's choice, log 109). -/
def Obligations.StoresTakeTheirSteps : Prop :=
  (∀ s l bs, Memory.wf s = true → bs ≠ [] → (∀ d c e k o, l ≠ .peer d c e k o) →
    SameButStores s (deviceWrite s l bs) ∧ Holds (deviceWrite s l bs) l bs ∧
    (deviceWrite s l bs).stores = s.stores.filter (fun r => s.stores.all fun x => x.id != r.id || !placedOn l bs.length x) ∧
    OnlyBytes s (deviceWrite s l bs)
      ((l, bs.length) :: (s.stores.filter (placedOn l bs.length)).map fun r => (r.loc, r.bytes.length))) ∧
  ∀ s id r, getStore s id = some r → Memory.wf s = true → isPoisoned s r.loc r.bytes.length = false →
    (orderReady s r = true → wayTo s r.loc = .open' →
      ∃ t, exec (.storeOrder id) s = .next t ∧ SameButStores s t ∧ OtherStores s t id ∧ t.nextId = s.nextId + 1 ∧
        (onePoint s r = false → OnlyBytes s t [] ∧
          getStore t id = some { r with st := .ordered, place := s.nextId, carry := storeCarry s r.gid r.rel r.op }) ∧
        (onePoint s r = true → getStore t id = some { r with st := .visible, place := s.nextId } ∧
          Holds t r.loc r.bytes ∧ OnlyBytes s t [(r.loc, r.bytes.length)])) ∧
    (r.st = .ordered → r.ack = false → earlierPlaced s r (fun x => x.st == .forwarded) = true →
      ∃ t, exec (.storeForward id) s = .next t ∧ t = { s with stores := t.stores } ∧ OtherStores s t id ∧
        getStore t id = some { r with st := .forwarded } ∧
        ((∀ x ∈ s.stores, x.id ≠ id → x.st = .forwarded → x.place < r.place) → (∀ x ∈ s.stores, x.id = id → x = r) →
          ∀ k < r.bytes.length, viewByte t r.bent (r.loc.plus k) = (r.bytes[k]?).getD 0)) ∧
    ((r.st = .ordered ∧ r.ack = true) ∨ r.st = .forwarded → earlierPlaced s r (fun _ => false) = true →
      (∀ d c e k o, r.loc ≠ .peer d c e k o) →
      ∃ t, exec (.storeAcknowledge id) s = .next t ∧ SameButStores s t ∧ t.stores = s.stores.filter (fun x => x.id ≠ id) ∧
        t.nextId = s.nextId ∧ Holds t r.loc r.bytes ∧ OnlyBytes s t [(r.loc, r.bytes.length)]) ∧
    (r.st = .visible → exec (.storeAcknowledge id) s = .next { s with stores := s.stores.filter fun x => x.id ≠ id })

/-- R216, R236 to R238: a store, or an atomic, whose path is down or that has waited 65,536 cycles is LOST and its line
is poisoned where its home can be reached; WDOG cycles later its group takes ACKLOST asynchronously for its oldest lost
store; a soft error poisons its line. The extent of a soft error, the 128-byte line, and the poison that answers a lost
atomic are the model's readings (logs 38 and 100). -/
def Obligations.LossesPoisonAndReport : Prop :=
  (∀ s id r i, getStore s id = some r → r.st ≠ .lost → (getGroup s r.gid).isSome = true →
    (i = .storeLossPathDown id ∨ (i = .storeAckTimeout id ∧ 65536 ≤ r.age)) →
    ∃ t, exec i s = .next t ∧ t = { s with stores := t.stores, poison := t.poison } ∧ OtherStores s t id ∧
      getStore t id = some { r with st := .lost, age := 0 } ∧
      (∀ a, r.loc = .dev a → (getBent s (a / 2 ^ 37)).online = true →
        t.poison = if s.poison.contains (.dev (a / 128 * 128), 128) then s.poison
          else (.dev (a / 128 * 128), 128) :: s.poison)) ∧
  (∀ s id a i, getStore s id = none → s.atoms.find? (fun x => x.id == id) = some a → (getGroup s a.gid).isSome = true →
    (i = .storeLossPathDown id ∨ (i = .storeAckTimeout id ∧ 65536 ≤ a.age)) →
    ∃ t r, exec i s = .next t ∧
      t = { s with stores := s.stores ++ [r], atoms := s.atoms.filter (fun x => x.id ≠ id), poison := t.poison
                   loads := s.loads ++ (a.lanes.filterMap (·.pend)).map fun p =>
                     { id := p, op := a.op, gid := a.gid, bent := a.bent, port := a.port, acq := a.acq, cld := true
                       ptr := a.ptr, work := .poisoned a.ptr false } } ∧
      IsAtomWrite a r ∧ r.st = .lost ∧ r.age = 0 ∧
      (∀ b, a.loc = .dev b → (getBent s (b / 2 ^ 37)).online = true →
        t.poison = if s.poison.contains (.dev (b / 128 * 128), 128) then s.poison
          else (.dev (b / 128 * 128), 128) :: s.poison)) ∧
  (∀ s id r g o, getStore s id = some r → getGroup s r.gid = some g → r.st = .lost → g.wdog ≠ 0xFFFFFFFF →
    g.wdog.toNat ≤ r.age → g.st ≠ .saved → g.drain = false → lostStore s g.gid = some o →
    exec (.acklostExpire id) s = .next (takeTrap
      { s with stores := s.stores.filter fun x => !(x.gid == g.gid && x.op == o.op && x.st == .lost) }
      g.gid .acklost true g.pc o.ptr)) ∧
  (∀ s loc, (∃ a < 2 ^ 40, loc = .dev a) ∨ (∃ c r, ∃ o < 0x600000, loc = .scr c r o) →
    ∃ t, exec (.uncorrectableSoftError loc) s = .next t ∧ t = { s with poison := t.poison } ∧
      ∀ m n, isPoisoned t m n = (isPoisoned s m n || overlaps m n (loc.floor 128) 128))

/-- R213, R215, R236: a request that may be performed leaves in memory what its lanes leave one after another, and each
lane is answered with the value that it found; one without answers is a store that has its place, readable by all at
once where one point orders it. -/
def Obligations.AtomicRequestIsPerformedInLaneOrder : Prop :=
  ∀ s id a, s.atoms.find? (fun x => x.id == id) = some a → atomReady s a = true → wayTo s a.loc = .open' →
    isPoisoned s a.loc a.width = false → Memory.wf s = true → a.width = 4 ∨ a.width = 8 → (getGroup s a.gid).isSome = true →
    (∀ l ∈ a.lanes, l.d < 2 ^ (8 * a.width)) → (∀ d c e k o, a.loc ≠ .peer d c e k o) →
    let vs := inTurn (8 * a.width) a.code (readNat s a.loc a.width) a.lanes
    let known := learn s a.gid a.op a.acq (carriesAt s a.loc a.width)
    ((∃ l ∈ a.lanes, l.pend.isSome = true) → ∃ t, exec (.atomicPerform id) s = .next t ∧
      t.atoms = s.atoms.filter (fun x => x.id ≠ id) ∧
      t = { s with atoms := t.atoms, loads := t.loads, dev := t.dev, host := t.host, scratch := t.scratch
                   written := t.written, carries := t.carries, dcache := t.dcache, groups := known.groups } ∧
      readNat t a.loc a.width = vs.getLastD 0 ∧ OnlyBytes s t [(a.loc, a.width)] ∧
      t.loads = s.loads ++ ((a.lanes.zip vs).filterMap fun x => x.1.pend.map fun p =>
        { id := p, op := a.op, gid := a.gid, bent := a.bent, port := a.port, acq := a.acq, cld := true, ptr := a.ptr
          work := .value (BitVec.ofNat 128 x.2) })) ∧
    ((∀ l ∈ a.lanes, l.pend = none) → a.lanes ≠ [] → a.code ≠ 16 → ∃ t r, exec (.atomicPerform id) s = .next t ∧
      t = { s with atoms := s.atoms.filter (fun x => x.id ≠ id), stores := s.stores ++ [r], nextId := s.nextId + 1
                   dev := t.dev, host := t.host, scratch := t.scratch, written := t.written, carries := t.carries
                   dcache := t.dcache } ∧
      IsAtomWrite a r ∧ r.place = s.nextId ∧ r.bytes.length = a.width ∧ ofBytes r.bytes = vs.getLastD 0 ∧
      (onePoint s r = false → r.st = .ordered ∧ OnlyBytes s t []) ∧
      (onePoint s r = true → r.st = .visible ∧ readNat t a.loc a.width = vs.getLastD 0 ∧
        OnlyBytes s t [(a.loc, a.width)]))

/-- R80, R83, R205, R207, R216, R229: data that arrives fills the entry that waits for it, with the bytes that an observer
of the bent reads, extended as SX says, in every lane of the instruction that reads those bytes; a load that meets poison
keeps its entries pending, poisoned. In the exit drain of its group it is discarded. The lines that the L1 data cache
keeps (R202) and the misses that R412 counts are the model's choice (log 121). -/
def Obligations.ArrivingDataFillsItsEntry : Prop :=
  (∀ s id r g v, s.queries.find? (fun q => q.id == id) = none → s.loads.find? (fun x => x.id == id) = some r →
    getGroup s r.gid = some g → (∀ p ∈ g.recs, p.1 ≠ id) → g.area = none → r.work = .value v →
    ∀ part, ∃ t, exec (.loadDataArrive id part) s = .next t ∧ t = { s with loads := s.loads.filter (fun x => x.id ≠ id), groups := t.groups } ∧
      if g.drain then t.groups = s.groups else GroupsBecome s t (filledIn id v g)) ∧
  (∀ s id r g part lo hi loc n sx, s.queries.find? (fun q => q.id == id) = none →
    s.loads.find? (fun x => x.id == id) = some r → getGroup s r.gid = some g → g.area = none → g.drain = false →
    (∀ p ∈ g.recs, ∀ x ∈ s.loads, sameRead r x = true → p.1 ≠ x.id) →
    r.work = .read lo hi loc n sx → acquiresDone s r.gid r.op = true → readMayGo s r.gid r.port r.op loc n = true →
    wayTo s (loc.plus (8 * part)) = .open' → (part = 0 ∧ lo = none) ∨ (part = 1 ∧ hi = none) → n ∈ [1, 2, 4, 8, 16] →
    (n ≤ 8 → hi = some []) →
    let l := loc.plus (8 * part)
    let k := min n 8
    (isPoisoned s l k = true → ∃ t, exec (.loadDataArrive id part) s = .next t ∧ t = { s with loads := t.loads } ∧
      t.loads = s.loads.map fun x => if sameRead r x then { x with work := .poisoned x.ptr false } else x) ∧
    (isPoisoned s l k = false →
      let bs := (List.range k).map fun j => viewByte s r.bent (l.plus j)
      let lo' := if part = 0 then some bs else lo
      let hi' := if part = 1 then some bs else hi
      ∃ t u, exec (.loadDataArrive id part) s = .next t ∧
        t = { s with loads := t.loads, groups := t.groups, dcache := t.dcache, clusters := t.clusters } ∧
        HasRead s r.bent l k r.op r.acq g u ∧
        (∀ a b, lo' = some a → hi' = some b →
          t.loads = s.loads.filter (fun x => !sameRead r x) ∧
          GroupsBecome s t (((s.loads.filter (sameRead r)).map (·.id)).foldl (fun h x => filledIn x (if sx then
            BitVec.ofNat 128 (low 64 (sxNat (8 * n) (ofBytes (a ++ b)))) else BitVec.ofNat 128 (ofBytes (a ++ b))) h) u)) ∧
        (lo' = none ∨ hi' = none →
          t.loads = s.loads.map (fun x => if sameRead r x then { x with work := .read lo' hi' loc n sx } else x) ∧
          GroupsBecome s t u)))

namespace Sys2Proof.Claims
open Sys2Proof.Machine

/-! ### Pages, pools and translations (chapters 12 and 16) -/

/-- The queries of chapter 16. -/
def queryForm : Instr → Option (Ctl × ME × QueryKind × List Arg)
  | .alloc c f => some (c, f, .alloc, [.src f.sa, .src f.sb])
  | .pcommit c f => some (c, f, .pcommit, [.src f.sa])
  | .pdecommit c f => some (c, f, .pdecommit, [.src f.sa])
  | .pquery c f => some (c, f, .pquery, [.src f.sa])
  | _ => none

/-- What keeps a commit from acting (R371): a page that may not be written, or a host page. -/
def Committable (s : State) (ctx : Nat) (p : Word) : Prop :=
  let w := walk s ctx (bitsOf p 54 0)
  (w.kind = .page ∨ w.kind = .large → pteHOST w.entry = false ∧ pteW w.entry = true) ∧
  (w.kind = .sparse → pteW w.entry = true)

/-- R376: a group that is suspended on a page of the range, and whose page is now mapped, or sparse for an LDZ,
restarts when it is served. That a poisoned walk serves it too is the model's reading (log 23). -/
def retried (s : State) (ctx p n : Nat) (g : Group) : Group :=
  match g.fault with
  | some (va, k) =>
    let w := walk s ctx (bitsOf va 54 0)
    if g.ctx = ctx ∧ g.wreason = .pflt ∧ ptrSpace va = 0 ∧ p ≤ bitsOf va 54 16 ∧ bitsOf va 54 16 < p + n ∧
        (w.poisoned = true ∨ w.kind = .page ∨ w.kind = .large ∨ (k = 5 ∧ w.kind = .sparse))
    then { g with served := true } else g
  | none => g

/-- The order in which a commit tries the bents' lists: the entry's home, then by hops, the lower number first. -/
def triedBefore (home a b : Nat) : Prop := hops home a < hops home b ∨ (hops home a = hops home b ∧ a < b)

/-- The entry of a committed page (R372). -/
def committed (e : Word) (f b : Nat) : Word := (e &&& 0x78) ||| 0x8003 ||| BitVec.ofNat 64 (f + 4096 * b)

/-- The status bent of R372. -/
def heldBent (w : Walk) : Nat :=
  if w.kind = .large ∨ w.kind = .sparse ∨ (w.kind = .page ∧ pteHOST w.entry = false) then bitsOf w.entry 14 12 else 0

/-- The description that PQUERY pushes (R375). The SIZE of a sparse entry, 1, is the model's reading (log 22). -/
def description (s : State) (w : Walk) (va : Nat) : Nat :=
  if w.poisoned then 3
  else if w.kind = .unmapped ∨ w.kind = .malformed ∨ w.kind = .table then 0
  else (if w.kind = .sparse then 1 else if ptePSN w.entry then 3 else 2) + 4 * bitsOf w.entry 9 3 +
    512 * (if pteRUN w.entry then 1 else 0) + 1024 * (if pteCP w.entry then 1 else 0) + 2048 * pteHome w.entry +
    16384 * (if w.kind = .large then 3 else if w.kind = .page ∧ runOk s w va then 2 else 1)

/-- A query of one lane that its answer reaches. -/
def OneQuery (s : State) (q : QueryRec) (g : Group) (kind : QueryKind) (e : Nat) (p : Word) (sb : Quad) : Prop :=
  s.queries.find? (fun x => x.id == q.id) = some q ∧ q.kind = kind ∧ q.lanes = [(e, p, sb)] ∧
  getGroup s q.gid = some g ∧ (∀ r ∈ g.recs, r.1 ≠ e) ∧ g.area = none ∧ g.drain = false ∧ queryReady s q g = true ∧
  g.wreason ≠ .pflt

/-- The lines of a bent's shared level that `p` names are gone, and with them the instruction lines of the cores that
were filled from them, beside those that `q` names (R315). -/
def LinesGone (s t : State) (p : ILineRec → Prop) (q : ICacheRec → Prop) : Prop :=
  t = { s with icache := t.icache, ilines := t.ilines, groups := t.groups } ∧
  (∀ y, y ∈ t.ilines ↔ y ∈ s.ilines ∧ ¬ p y) ∧
  ∀ r, r ∈ t.icache ↔ r ∈ s.icache ∧ ¬ q r ∧ ¬ ∃ y ∈ s.ilines, p y ∧ y.loc = r.loc ∧ (r.cl, r.core) ∈ y.cores

/-- The answer fills the entry and the query is gone; the state is otherwise `s'`. -/
def Answers (s s' t : State) (q : QueryRec) (g : Group) (e : Nat) (v : Quad) : Prop :=
  (∀ part, exec (.loadDataArrive q.id part) s = .next t) ∧
  t = { s' with queries := s.queries.filter (fun x => x.id ≠ q.id), groups := t.groups } ∧
  GroupsBecome s' t (filledIn e v g)

end Sys2Proof.Claims

/-! ### Pages, pools and translations -/

/-- R371, R381: ALLOC, PCOMMIT, PDECOMMIT and PQUERY push entries that wait for their answer; the first three
close the region. -/
def Obligations.PageQueriesPushPendingEntries : Prop :=
  ∀ i c f kind args s g, queryForm i = some (c, f, kind, args) → Acts s g i c →
    let g0 : Group := if kind = .pquery then g else { g with ropen := false }
    (execLanes g c = [] → CompletesWith s i g0 (g.pc + 8)) ∧
    (execLanes g c ≠ [] → Readable g (execLanes g c) args → cldOf s g.gid < 15 →
      (kind = .pcommit ∨ kind = .pdecommit → coverRelease s g = none) →
      ∀ s' ps, globPtrs (addrCtx s g) (pointers g c f) = .ok ps →
      (kind = .pcommit ∨ kind = .pdecommit → ∀ x ∈ ps, Committable s g.ctx x.2) →
      (if kind = .alloc then ∃ accs, checkLanes s g .atomic 1 false
        (ps.map fun x => (x.1, x.2, Target.glob (bitsOf x.2 54 0))) = .ok s' accs else s' = s) →
      exec i s = .next (withGroup
        { s' with nextId := s.nextId + 2 + ps.length
                  queries := s.queries ++ [{ id := s.nextId + 1, op := s.nextId, gid := g.gid, kind, lanes := ps.mapIdx fun k x => (s.nextId + 2 + k, x.2, if kind = .alloc then argVal g x.1 (.src f.sb) else 0) }] }
        (completed (pushedEntry c (pendAt (s.nextId + 2) (execLanes g c)) (flagged (voidFlag g (execLanes g c) args) g0))
          (g.pc + 8))))

/-- R372, R373, R375, R376: what each status of PCOMMIT and PDECOMMIT and what PQUERY answers, and what a commit and a
decommit change: the entry, the frame's bytes, the lists and the faults that a commit serves. That a poisoned walk serves
a fault (log 23) and the SIZE of a sparse entry (log 22) are the model's readings. The entry is stated where no store that
has its place on its line is still to be performed. -/
def Obligations.PageQueriesAnswer : Prop :=
  ∀ s q g e p sb x, getCtx s g.ctx = some x → Memory.wf s = true →
    let va := bitsOf p 54 0
    let w := walk s g.ctx va
    (OneQuery s q g .pquery e p sb → ∃ t, Answers s s t q g e (BitVec.ofNat 128 (description s w va))) ∧
    (OneQuery s q g .pcommit e p sb → w.kind = .page →
      ∃ t, Answers s { s with groups := s.groups.map (retried s g.ctx (va / 65536) 1) } t q g e
        (BitVec.ofNat 128 (1 + 256 * heldBent w))) ∧
    (OneQuery s q g .pcommit e p sb → w.kind ≠ .page → w.kind ≠ .sparse →
      ∃ t, Answers s { s with groups := s.groups.map (retried s g.ctx (va / 65536) 1) } t q g e
        (BitVec.ofNat 128 (2 + 256 * heldBent w))) ∧
    (OneQuery s q g .pcommit e p sb → w.kind = .sparse → (∀ b < 8, (x.pool[b]?).getD [] = []) →
      ∃ t, Answers s { s with groups := s.groups.map (retried s g.ctx (va / 65536) 1) } t q g e
        (BitVec.ofNat 128 (3 + 256 * heldBent w))) ∧
    (OneQuery s q g .pcommit e p sb → w.kind = .sparse → ∀ b fr rest, b < 8 → (x.pool[b]?).getD [] = fr :: rest →
      (∀ a < 8, triedBefore (pteHome w.entry) a b → (x.pool[a]?).getD [] = []) →
      (∀ k < 8, ∀ j < 65536, w.at'.plus k ≠ .dev (fr + j)) → lineQuiet s w.at' 8 = true →
      ∃ s' t, Answers s s' t q g e (BitVec.ofNat 128 (256 * b)) ∧
        s' = { s with dev := s'.dev, written := s'.written, poison := s'.poison, ctxs := s'.ctxs, groups := s'.groups
                      icache := s'.icache, ilines := s'.ilines, dcache := s'.dcache } ∧
        (∀ y ∈ s'.ilines, y ∈ s.ilines ∧ ∀ j < 65536, y.loc ≠ .dev (fr + j)) ∧
        readWord s' w.at' = committed w.entry fr b ∧ (∀ j < 65536, readByte s' (.dev (fr + j)) = 0) ∧
        OnlyBytes s s' [(w.at', 8), (.dev fr, 65536)] ∧
        getCtx s' g.ctx = some { x with pool := x.pool.modify b (List.drop 1) } ∧
        s'.groups = s.groups.map (retried s' g.ctx (va / 65536) 1)) ∧
    (OneQuery s q g .pdecommit e p sb → w.kind = .sparse →
      ∃ t, Answers s s t q g e (BitVec.ofNat 128 (1 + 256 * heldBent w))) ∧
    (OneQuery s q g .pdecommit e p sb → w.kind ≠ .sparse → (w.kind ≠ .page ∨ pteCP w.entry = false) →
      ∃ t, Answers s s t q g e (BitVec.ofNat 128 (2 + 256 * heldBent w))) ∧
    (OneQuery s q g .pdecommit e p sb → w.kind = .page → pteCP w.entry = true → lineQuiet s w.at' 8 = true →
      ∃ s' t, Answers s s' t q g e
          (BitVec.ofNat 128 (if ptePSN w.entry then 3 + 256 * heldBent w else 256 * (pteFrame w.entry / 2 ^ 37))) ∧
        s' = { s with dev := s'.dev, written := s'.written, tlb := s'.tlb, icache := s'.icache, ctxs := s'.ctxs
                      dcache := s'.dcache } ∧
        readWord s' w.at' = (w.entry &&& 0x7078) ||| 6 ∧ OnlyBytes s s' [(w.at', 8)] ∧
        s'.tlb = s.tlb.filter (fun r => !(r.asid = x.asid ∧ r.vpn < va / 65536 + 1 ∧ va / 65536 < r.vpn + r.span)) ∧
        (if ptePSN w.entry then s'.ctxs = s.ctxs
         else getCtx s' g.ctx = some { x with pool := x.pool.modify (pteFrame w.entry / 2 ^ 37) (· ++ [pteFrame w.entry]) }))

/-- R216, R365, R381: an ALLOC answers BADPOOL, NOBENT and EMPTY and changes nothing, or takes the first block of the
first list with a block, once the pages of its link word and of its MAP byte are translated; one that meets poison answers
nothing. That it reads the present tables where a stale translation is cached is the model's choice (log 110). -/
def Obligations.AllocTakesTheFirstBlock : Prop :=
  ∀ s (ac : AddrCtx) bent l sb, let h := poolHdr s l
    let m := if bitsOf sb 7 0 ≠ 0 then bitsOf sb 7 0 else if h.ctrl / 2 ^ 16 % 256 ≠ 0 then h.ctrl / 2 ^ 16 % 256 else 255
    let may (b : Nat) : Prop := b < 8 ∧ m.testBit b = true ∧ (getBent s b).online = true
    let clean : Prop := isPoisoned s l 64 = false
    bent < 8 →
    (¬ clean → allocLane s ac bent l sb = (s, none)) ∧
    (clean → h.ok = false → allocLane s ac bent l sb = (s, some (BitVec.ofNat 128 (3 * 2 ^ 64)))) ∧
    (clean → h.ok = true → (∀ b, ¬ may b) → allocLane s ac bent l sb = (s, some (BitVec.ofNat 128 (2 * 2 ^ 64)))) ∧
    (clean → h.ok = true → (∃ b, may b) → (∀ b, may b → readNat s (l.plus (0x20 + 4 * b)) 4 = 0) →
      allocLane s ac bent l sb = (s, some (BitVec.ofNat 128 (2 ^ 64)))) ∧
    (clean → h.ok = true → Memory.wf s = true → ∀ b i bl ml, may b → readNat s (l.plus (0x20 + 4 * b)) 4 = i + 1 →
      (∀ a, may a → triedBefore bent a b → readNat s (l.plus (0x20 + 4 * a)) 4 = 0) →
      let off := i * 2 ^ (h.ctrl / 16 % 32)
      let u := usePool s ac h i
      SameButWalks s u ∧
      ((poolPoisoned u ac.ctx h.base off 8 || poolPoisoned u ac.ctx h.map (i / 8) 1) = true →
        allocLane s ac bent l sb = (u, none)) ∧
      (poolPoisoned u ac.ctx h.base off 8 = false → poolPoisoned u ac.ctx h.map (i / 8) 1 = false →
      (∀ s', s'.ctxs = s.ctxs → OnlyBytes u s' [(l, 64), (ml, 1)] → poolLoc s' ac.ctx h.base off = some bl) →
      (∀ s', s'.ctxs = s.ctxs → OnlyBytes u s' [(l, 64), (ml, 1)] → poolLoc s' ac.ctx h.map (i / 8) = some ml) →
      (∀ j < 64, ∀ k < 8, l.plus j ≠ bl.plus k) → (∀ j < 64, l.plus j ≠ ml) → (∀ k < 8, ml ≠ bl.plus k) →
      (∀ d c e k o, l ≠ .peer d c e k o) →
      let r := allocLane s ac bent l sb
      r.2 = some (BitVec.ofNat 128 ((ptrAdd h.base off).toNat + b * 2 ^ 72)) ∧
      readNat r.1 (l.plus (0x20 + 4 * b)) 4 = readNat u bl 4 ∧ readNat r.1 (l.plus 0x1C) 4 = (h.freec + 2 ^ 32 - 1) % 2 ^ 32 ∧
      readNat r.1 bl 8 = 0 ∧ (readByte r.1 ml).toNat = (readByte u ml).toNat ||| 2 ^ (i % 8) ∧
      OnlyBytes u r.1 [(l.plus (0x20 + 4 * b), 4), (l.plus 0x1C, 4), (ml, 1), (bl, 8)]))

/-- R365, R382: a FREE whose lanes pass their checks completes, the region closed, and puts each block at the head of
the list of its home bent, a lane at a time, once the pages that it uses are translated. -/
def Obligations.FreeReturnsBlocks : Prop :=
  (∀ c f s g s' ps accs, Acts s g (.free c f) c → execLanes g c ≠ [] → Readable g (execLanes g c) [.src f.sa, .src f.sb] →
    coverRelease s g = none → globPtrs (addrCtx s g) (pointers g c f) = .ok ps →
    checkLanes s g .atomic 1 false (ps.map fun x => (x.1, x.2, Target.glob (bitsOf x.2 54 0))) = .ok s' accs →
    releaseOk s' g.gid 4 s'.nextId = true → storesPlaced s' g.gid s'.nextId = true →
    (∀ a ∈ accs, a.poisoned = false ∧ isPoisoned s' a.loc 64 = false ∧ wayTo s' a.loc ≠ .dead) →
    let block (a : Acc) : Word := (argVal g a.lane (.src f.sb)).setWidth 64
    (∀ a ∈ accs, ∀ x ∈ freeTouches s' g.ctx a.loc (block a), objectMayGo s' g.gid x.1 x.2 = true) →
    let u := (accs.map fun a => FreeLane.mk a.lane a.loc (poolHdr s' a.loc) (block a)).foldl (useFree g) s'
    (∀ a ∈ accs, ∃ n, blockOf (poolHdr s' a.loc) (block a) = some n ∧
      poolPoisoned u g.ctx (poolHdr s' a.loc).base (n * 2 ^ ((poolHdr s' a.loc).ctrl / 16 % 32)) 8 = false ∧
      poolPoisoned u g.ctx (poolHdr s' a.loc).map (n / 8) 1 = false ∧
      (walk u g.ctx (bitsOf (block a) 54 0)).poisoned = false ∧
      ((walk u g.ctx (bitsOf (block a) 54 0)).kind = .page ∨ (walk u g.ctx (bitsOf (block a) 54 0)).kind = .large) ∧
      (poolRead u g.ctx (poolHdr s' a.loc).map (n / 8) 1).2.testBit (n % 8) = true ∧
      ∀ b ∈ accs, b.lane ≠ a.lane → b.loc = a.loc → block b ≠ block a) →
    let h := { flagged (voidFlag g (execLanes g c) [.src f.sa, .src f.sb]) g with ropen := false }
    ∃ t, exec (.free c f) s = .next t ∧ GroupsBecome s t (completed h (g.pc + 8)) ∧
      SameButWalks s' u ∧ t = { accs.foldl (fun v a => freeLane v g.ctx a.loc (block a)) u with groups := t.groups }) ∧
  (∀ c f s g, Acts s g (.free c f) c → execLanes g c = [] → CompletesWith s (.free c f) { g with ropen := false } (g.pc + 8)) ∧
  (∀ s ctx l p n bl ml, Memory.wf s = true → let h := poolHdr s l
    let b := pteHome (walk s ctx (bitsOf p 54 0)).entry
    blockOf h p = some n → poolLoc s ctx h.base (n * 2 ^ (h.ctrl / 16 % 32)) = some bl →
    (∀ s', s'.ctxs = s.ctxs → OnlyBytes s s' [(bl, 8)] → poolLoc s' ctx h.map (n / 8) = some ml) →
    (∀ j < 64, ∀ k < 8, l.plus j ≠ bl.plus k) → (∀ j < 64, l.plus j ≠ ml) → (∀ k < 8, ml ≠ bl.plus k) →
    (∀ d c e k o, l ≠ .peer d c e k o ∧ bl ≠ .peer d c e k o ∧ ml ≠ .peer d c e k o) →
    let t := freeLane s ctx l p
    readNat t (l.plus (0x20 + 4 * b)) 4 = (n + 1) % 2 ^ 32 ∧ readNat t (l.plus 0x1C) 4 = (h.freec + 1) % 2 ^ 32 ∧
    readNat t bl 8 = readNat s (l.plus (0x20 + 4 * b)) 4 ∧
    (readByte t ml).toNat = (readByte s ml).toNat &&& (255 - 2 ^ (n % 8)) ∧
    OnlyBytes s t [(l.plus (0x20 + 4 * b), 4), (l.plus 0x1C, 4), (ml, 1), (bl, 8)])

/-- R315, R364, R365, R367 to R369: TINV removes the translations and instruction lines of its range, or raises the
generation, and retries the faults of the range; HARVEST turns written bits into D and counts them; ICINV drops
instruction lines of the L1 caches and of the shared levels; a walk fills an L2 TLB and sets A. That TINV removes in one
step, after the accesses that used what it removes (log 19), and that a poisoned walk serves a fault (log 23), are the
model's readings. -/
def Obligations.InvalidationsAndHarvest : Prop :=
  (∀ c f s g x, Acts s g (.tinv c f) c → getCtx s g.ctx = some x → coverRelease s g = none → storesDone s g.gid = true →
    g.wreason ≠ .pflt →
    let n := f.imm16.toNat
    let v : Word := (argVal g 0 (.src f.sa)).setWidth 64
    let p := bitsOf v 54 16
    (n ≠ 0 → Readable g [0] [.src f.sa] → bitsOf v 63 55 = 0 → p + n ≤ 2 ^ 39 → invalidateReady s g.ctx p n = true →
      exec (.tinv c f) s = .next { s with
        tlb := s.tlb.filter (fun r => !(r.asid = x.asid ∧ r.vpn < p + n ∧ p < r.vpn + r.span))
        icache := s.icache.filter (fun r => !(r.asid = x.asid ∧ p ≤ r.va / 65536 ∧ r.va / 65536 < p + n))
        groups := s.groups.map fun h => if h.gid = g.gid then completed (flagged (voidFlag g [0] [.src f.sa]) g) (g.pc + 8)
          else retried s g.ctx p n h }) ∧
    (n = 0 → invalidateReady s g.ctx 0 0 = true → x.gen + 1 < 65536 →
      ∃ t, exec (.tinv c f) s = .next t ∧ t = { s with ctxs := t.ctxs, groups := t.groups } ∧
        getCtx t g.ctx = some { x with gen := x.gen + 1 } ∧
        t.ctxs.filter (fun y => y.id ≠ x.id) = s.ctxs.filter (fun y => y.id ≠ x.id) ∧
        t.groups = s.groups.map fun h => if h.gid = g.gid then completed g (g.pc + 8) else retried s g.ctx 0 (2 ^ 39) h)) ∧
  (∀ c f s g w, Acts s g (.harvest c f) c → coverRelease s g = none → storesDone s g.gid = true →
    Readable g [0] [.src f.sa] → Memory.wf s = true → f.imm16 = 1 →
    let v : Word := (argVal g 0 (.src f.sa)).setWidth 64
    bitsOf v 63 55 = 0 → walk s g.ctx (bitsOf v 54 16 * 65536) = w → w.kind = .page → lineQuiet s w.at' 8 = true →
    let frame : Loc := if pteHOST w.entry then .host (pteFrame w.entry) else .dev (pteFrame w.entry)
    let set : Bool := s.written.any fun l => inside l 1 frame 65536
    let h := pushed c (fun _ => if set then 1 else 0) (flagged (voidFlag g [0] [.src f.sa]) g)
    ∃ t, exec (.harvest c f) s = .next t ∧ GroupsBecome s t (completed h (g.pc + 8)) ∧
      t = { s with dev := t.dev, host := t.host, scratch := t.scratch, written := t.written, groups := t.groups
                   dcache := t.dcache } ∧
      OnlyBytes s t [(w.at', 8)] ∧ readWord t w.at' = (if set then w.entry ||| 0x200 else w.entry) ∧
      (set = false → t.written = s.written)) ∧
  (∀ c f s g r, Acts s g (.harvest c f) c → coverRelease s g = none → storesDone s g.gid = true →
    Readable g [0] [.src f.sa] →
    let v : Word := (argVal g 0 (.src f.sa)).setWidth 64
    bitsOf v 63 55 = 0 → bitsOf v 54 16 + f.imm16.toNat ≤ 2 ^ 39 →
    harvestRange s g.ctx (bitsOf v 54 16) f.imm16.toNat = r →
    exec (.harvest c f) s = .next (withGroup r.1
      (completed (pushed c (fun _ => BitVec.ofNat 128 r.2) (flagged (voidFlag g [0] [.src f.sa]) g)) (g.pc + 8)))) ∧
  (∀ c f s g x, Acts s g (.icinv c f) c → getCtx s g.ctx = some x → coverRelease s g = none → storesDone s g.gid = true →
    let n := f.imm16.toNat
    let v : Word := (argVal g 0 (.src f.sa)).setWidth 64
    let a := v.toNat / 128 * 128
    (n = 0 → ∃ t, exec (.icinv c f) s = .next t ∧ GroupsBecome s t (completed g (g.pc + 8)) ∧
      LinesGone s t (fun y => ∃ k ∈ y.cores, k.1 ∈ x.ranks) (fun r => r.asid = x.asid ∧ r.cl ∈ x.ranks)) ∧
    (n ≠ 0 → Readable g [0] [.src f.sa] → bitsOf v 63 55 = 0 → bitsOf v 54 7 + n ≤ 2 ^ 48 →
      ∃ t, exec (.icinv c f) s = .next t ∧
        GroupsBecome s t (completed (flagged (voidFlag g [0] [.src f.sa]) g) (g.pc + 8)) ∧
        LinesGone s t (fun y => ∃ k < n, virtLoc s g.ctx (a + 128 * k) = some y.loc)
          (fun r => r.asid = x.asid ∧ r.cl ∈ x.ranks ∧ a ≤ r.va ∧ r.va < a + 128 * n))) ∧
  (∀ s ctx cl page x w, getCtx s ctx = some x → walk s ctx (page * 65536) = w → w.kind = .page ∨ w.kind = .large →
    tlbFind s ctx cl none (page * 65536) = none → Memory.wf s = true → lineQuiet s w.at' 8 = true →
    ∃ t r, exec (.tlbWalk ctx cl page) s = .next t ∧
      t = { s with tlb := t.tlb, dev := t.dev, written := t.written, dcache := t.dcache } ∧
      r ∈ t.tlb ∧ tlbFind t ctx cl none (page * 65536) = some r ∧ (tlbWalkOf r (page * 65536)).kind = w.kind ∧
      (tlbWalkOf r (page * 65536)).entry = w.entry &&& ~~~(0x300 : Word) ∧ readWord t w.at' = w.entry ||| 0x100 ∧
      OnlyBytes s t [(w.at', 8)])

namespace Sys2Proof.Claims
open Sys2Proof.Machine

/-! ### Gangs and the matrix engine (chapter 6) -/

/-- Members of a gang of size code `sz` (R169). -/
def membersOf (g : Group) (sz : Nat) : Nat := (if g.ident.g16 then 2 else 1) * 2 ^ (sz - 1)

/-- GANGREG as a GANG sets it, with state `gst` (R170, R174). -/
def joinedReg (g : Group) (sz : Nat) (own : BitVec 4) (gst : Nat) : GangReg :=
  { done := g.gang.done, seq := g.gang.seq, gid := g.ident.gidx / membersOf g sz, own,
    memb := g.ident.gidx % membersOf g sz, gst, gsz := sz }

/-- The member that a group becomes. -/
def asMember (g : Group) (sz : Nat) : Member :=
  { gid := g.gid, memb := g.ident.gidx % membersOf g sz, delivered := 0, left := false }

/-- The gang as its first member forms it. -/
def formed (g : Group) (key sz : Nat) (own : BitVec 4) : Gang :=
  { key, ctx := g.ctx, teamNo := g.teamNo, gid := g.ident.gidx / membersOf g sz, cl := g.cl, eng := g.core / 2,
    size := membersOf g sz, w := if g.ident.g16 then 16 else 32, sz, own, members := [asMember g sz],
    granted := false, broken := false, joined := 0, ops := [], performed := 0, tileOps := [], away := false, saved := [] }

/-- A GANG may form or join: the kernel uses gangs, the size fits, and the group is in none (R174). -/
def MayJoin (s : State) (g : Group) (sz : Nat) : Prop :=
  headerBit s g 5 = true ∧ membersOf g sz ≤ placementSize s g ∧ g.gang.gst = 0

/-- The group's gang and its place in it, when it may use tile `z` and count one more operation (R176). -/
def AtEngine (s : State) (g : Group) (z : Nat) (k : Gang) (m : Member) : Prop :=
  g.gang.gst = 2 ∧ gangOf s g.gid = some k ∧ memberOf k g.gid = some m ∧ k.own.getLsbD z = true ∧ ctlOf s g.gid < 15

/-- Gang `key` after `f`. -/
def gangsWith (s : State) (key : Nat) (f : Gang → Gang) : List Gang :=
  s.gangs.map fun k => if k.key = key then f k else k

/-- A member's part of a joint operation (R179): a lane that takes no part gives zeros. -/
def partOf (g : Group) (c : Ctl) (f : MX) (memb : Nat) : MmaPart :=
  let lane (x : Src) (l : Nat) : Quad := if takesPart c g l then argVal g l (.src x) else 0
  let n := if g.ident.g16 then 16 else 32
  let block := 6 ≤ f.ta.toNat ∨ 6 ≤ f.tb.toNat
  { memb, rows := (upTo n).map (lane f.sa), cols := (upTo n).map (lane f.sb),
    metas := (upTo n).map fun l => if block then (lane f.sc l).setWidth 32 else 0 }

def paramOf (f : MX) : MmaParam := ⟨f.ta.toNat, f.tb.toNat, f.tc.toNat, f.z.toNat, f.acc, f.negp⟩

/-- An operation of a gang with one more part; the one that completes it is numbered in the engine's order (R178). -/
def withPart (k : Gang) (order : Nat) (p : MmaPart) (o : JointOp) : JointOp :=
  { o with parts := o.parts ++ [p], done := if o.parts.length + 1 < k.size then o.done else order }

/-- The gang with a part of operation `n` latched. -/
def latched (n order : Nat) (f : MX) (p : MmaPart) (k : Gang) : Gang :=
  { k with
    ops := if k.ops.any (fun o => o.n == n) then k.ops.map fun o => if o.n = n then withPart k order p o else o
      else k.ops ++ [withPart k order p { n, param := paramOf f, parts := [], done := 0 }]
    members := k.members.map fun m => if m.memb = p.memb then { m with delivered := n } else m }

/-- The gang with a tile operation queued after what its member has delivered (R178). -/
def queued (g : Group) (m : Member) (id z : Nat) (kind : TileKind) (k : Gang) : Gang :=
  { k with tileOps := k.tileOps ++ [{ id, gid := g.gid, memb := m.memb, after := m.delivered, z, kind }] }

/-- The row, the column and the metadata of fragment index `i` (R179). -/
def fragment (k : Gang) (o : JointOp) (i : Nat) : Quad × Quad × BitVec 32 :=
  match o.parts.find? fun p => p.memb == i / k.w with
  | some p => ((p.rows[i % k.w]?).getD 0, (p.cols[i % k.w]?).getD 0, (p.metas[i % k.w]?).getD 0)
  | none => (0, 0, 0)

/-- Bits of a matrix element code (R58). -/
def codeBits (t : Nat) : Nat := if t ≤ 1 then 16 else if t ≤ 7 then 8 else 4
def codeAt (t : Nat) (x : Quad) (j : Nat) : Nat := x.toNat / 2 ^ (codeBits t * j) % 2 ^ codeBits t

/-- A matrix element as a number: a float, or a block element under its metadata (R42, R43). -/
def numberAt (t md : Nat) (x : Quad) (j : Nat) : FVal :=
  if 6 ≤ t then blockVal (matTy t) md (codeAt t x j) else fDecode (tyFmt (matTy t)) false (codeAt t x j)

def negated : FTerm → FTerm
  | .fin n m e => .fin (!n) m e
  | .inf n => .inf (!n)
  | .bad => .bad

/-- R41 to R43, R179: an element of the result: the exact sum of the products, and of the old word with `acc`,
wrapped or rounded once. -/
def product (k : Gang) (o : JointOp) (old : BitVec 32) (i c : Nat) : BitVec 32 :=
  let n := 128 / codeBits o.param.ta
  let a := fragment k o i
  let b := fragment k o c
  if o.param.tc = 1 then
    let x (t : Nat) (q : Quad) (j : Nat) : Int := if t = 4 then sxNat 8 (codeAt t q j) else codeAt t q j
    let sum : Int := ((upTo n).map fun j => x o.param.ta a.1 j * x o.param.tb b.2.1 j).sum
    BitVec.ofInt 32 ((if o.param.negp then -sum else sum) + (if o.param.acc then (old.toNat : Int) else 0))
  else
    let terms := (upTo n).map fun j =>
      fProd (numberAt o.param.ta (bitsOf a.2.2 15 0) a.1 j) (numberAt o.param.tb (bitsOf b.2.2 31 16) b.2.1 j)
    let terms := if o.param.negp then terms.map negated else terms
    let terms := if o.param.acc then terms ++ [fTerm (fDecode fmtF32 false old.toNat)] else terms
    BitVec.ofNat 32 (fFinish fmtF32 ⟨1, 0, false, false, false, false⟩ (sumTerms 1 terms)).1

/-- The bytes between one row's start and its end, and the start of a row. -/
def rowLength (k : Gang) (ta : Nat) (raw : Bool) : Nat :=
  let e := k.w * k.size
  if raw then 4 * e else if ta ≤ 1 then 2 * e else if ta ≤ 3 then e else e / 2

/-- The words of tile `z` outside the gang's extent, and every other tile, are as before. -/
def OnlyExtent (s t : State) (k : Gang) (z : Nat) : Prop :=
  ∀ cl eng y key, (cl, eng, y) ≠ (k.cl, k.eng, z) ∨ ¬ (key / 128 < k.w * k.size ∧ key % 128 < k.w * k.size) →
    (tileAt t cl eng y).map (fun x => (tileWordAt x key, x.owner, x.lastCtx)) =
    (tileAt s cl eng y).map (fun x => (tileWordAt x key, x.owner, x.lastCtx))

end Sys2Proof.Claims

/-! ### Gangs and the matrix engine -/

/-- R174: a GANG traps with GANGMIS where the kernel uses no gang of its size (reason 5), where the group is in a gang
(reason 6), and where size or tiles differ from those of the members before it (reason 4), which breaks a gang that
still forms (R190). -/
def Sys2Proof.Claims.GangMismatches : Prop :=
  ∀ c f s g, Acts s g (.gang c f) c → ¬ (g.st = .waiting ∧ g.wreason = .gang ∧ g.gang.gst ≠ 0) →
    let sz := bitsOf f.imm16 1 0
    let usable : Prop := headerBit s g 5 = true ∧ membersOf g sz ≤ placementSize s g
    (¬ usable → TrapsWith s (.gang c f) g .gangmis 5) ∧
    (usable → g.gang.gst ≠ 0 → TrapsWith s (.gang c f) g .gangmis 6) ∧
    (∀ k, usable → g.gang.gst = 0 → gangById s g (g.ident.gidx / membersOf g sz) = some k →
      (∀ m ∈ k.members, m.gid ≠ g.gid) → (k.sz ≠ sz ∨ k.own.toNat ≠ bitsOf f.imm16 7 4) →
      (k.granted = true → TrapsWith s (.gang c f) g .gangmis 4) ∧
      (k.granted = false → exec (.gang c f) s = .next (takeTrap
        (trapWaiting (breakGang s k.key).1 k.key ((breakGang s k.key).2.filter (· ≠ g.gid))) g.gid .gangmis false g.pc 4)))

/-- R173 to R175, R177, R186: a GANG whose gang lacks members waits; one that completes a gang of its own group
takes the tiles and goes on; a grant completes the members' GANG; GANG #0 leaves, and the last to leave frees the
tiles; MMSTAT pushes its snapshot; and where GANG traps. -/
def Obligations.GangsFormAndDisband : Prop :=
  GangMismatches ∧
  (∀ c f s g, Acts s g (.gang c f) c →
    let sz := bitsOf f.imm16 1 0
    let own : BitVec 4 := BitVec.ofNat 4 (bitsOf f.imm16 7 4)
    MayJoin s g sz →
    (gangById s g (g.ident.gidx / membersOf g sz) = none → (∀ k ∈ s.gangs, k.key ≠ s.nextId) →
      let k := formed g s.nextId sz own
      (membersOf g sz ≠ 1 →
        ∃ t, exec (.gang c f) s = .next t ∧ t = { s with groups := t.groups, gangs := s.gangs ++ [k], nextId := s.nextId + 2 } ∧
          GroupsBecome s t { g with gang := joinedReg g sz own 1, st := .waiting, wreason := .gang
                                    wdcnt := if g.st = .waiting ∧ g.wreason = .gang then g.wdcnt else 0 }) ∧
      (membersOf g sz = 1 → (∀ z < 4, own.getLsbD z = true → tileFree s g.cl (g.core / 2) z = true) →
        (∀ j ∈ s.gangs, j.cl = g.cl → j.eng = g.core / 2 → awaitsTiles j = true → j.own &&& own = 0 ∨ s.nextId < j.joined) →
        ∃ t, exec (.gang c f) s = .next t ∧
          t = { s with groups := t.groups, tiles := t.tiles, nextId := s.nextId + 2
                       gangs := s.gangs ++ [{ k with joined := s.nextId + 1, granted := true }] } ∧
          (∀ z < 4, own.getLsbD z = true → (tileAt t g.cl (g.core / 2) z).map (·.owner) = some (some s.nextId)) ∧
          GroupsBecome s t (completed { g with gang := { joinedReg g sz own 2 with seq := 0, done := 0 } } (g.pc + 8)))) ∧
    (∀ k, gangById s g (g.ident.gidx / membersOf g sz) = some k → (∀ x ∈ s.gangs, x.key = k.key → x = k) →
      k.sz = sz → k.own = own → k.granted = false → k.broken = false → (∀ m ∈ k.members, m.gid ≠ g.gid) →
      k.members.length + 1 ≠ k.size →
      ∃ t, exec (.gang c f) s = .next t ∧ t = { s with groups := t.groups, nextId := s.nextId + 1
                                                       gangs := gangsWith s k.key fun x => { x with members := x.members ++ [asMember g sz], joined := 0 } } ∧
        GroupsBecome s t { g with gang := joinedReg g sz own 1, st := .waiting, wreason := .gang
                                  wdcnt := if g.st = .waiting ∧ g.wreason = .gang then g.wdcnt else 0 })) ∧
  (∀ s k, s.gangs.find? (fun x => x.key == k.key) = some k → grantable s k = true →
    ∃ t, exec (.gangTileGrant k.key) s = .next t ∧ t = { s with groups := t.groups, tiles := t.tiles, gangs := t.gangs } ∧
      t.gangs = gangsWith s k.key (fun x => { x with granted := true }) ∧
      (∀ z < 4, k.own.getLsbD z = true → ∃ ti, tileAt t k.cl k.eng z = some ti ∧ ti.owner = some k.key ∧ ti.lastCtx = some k.ctx) ∧
      (∀ m ∈ k.members, m.left = false → m.gid ≠ 0 → ∀ g, getGroup s m.gid = some g →
        let h := { g with gang := { g.gang with gst := 2, seq := 0, done := 0 } }
        getGroup t m.gid = some (if g.st = .waiting ∧ g.wreason = .gang then completed h (g.pc + 8) else h)) ∧
      t.groups.filter (fun g => !k.members.any fun m => m.gid == g.gid && !m.left) =
        s.groups.filter (fun g => !k.members.any fun m => m.gid == g.gid && !m.left)) ∧
  (∀ c f s g, Acts s g (.gangLeave c f) c →
    (g.gang.gst = 0 → CompletesWith s (.gangLeave c f) g (g.pc + 8)) ∧
    (∀ k, g.gang.gst ≠ 0 → ctlOf s g.gid = 0 → gangOf s g.gid = some k → (∀ x ∈ s.gangs, x.key = k.key → x = k) →
      k.ops = [] → k.tileOps = [] →
      ∃ t, exec (.gangLeave c f) s = .next t ∧ GroupsBecome s t (completed { g with gang := ⟨0, 0, 0, 0, 0, 0, 0⟩ } (g.pc + 8)) ∧
        t = { s with groups := t.groups, gangs := t.gangs, tiles := t.tiles } ∧
        if ∀ m ∈ k.members, m.gid = g.gid ∨ m.left = true
        then t.gangs = s.gangs.filter (fun x => x.key ≠ k.key) ∧
          t.tiles = s.tiles.map (fun x => if x.owner = some k.key then { x with owner := none } else x)
        else t.tiles = s.tiles ∧ t.gangs = gangsWith s k.key fun x =>
          { x with members := x.members.map fun m => if m.gid = g.gid then { m with left := true } else m })) ∧
  (∀ c f s g k o, Acts s g (.mmstat c f) c → gangOf s g.gid = some k → g.gang.done < 256 →
    let part := k.ops.filter fun o => o.parts.length < k.size
    o ∈ part → (∀ x ∈ part, x = o ∨ o.n < x.n) → part.length < 8 → (∀ p ∈ o.parts, p.memb < 8) →
    ∃ v : Quad, CompletesWith s (.mmstat c f) (pushed c (fun _ => v) g) (g.pc + 8) ∧
      bitsOf v 3 0 = k.own.toNat ∧ bitsOf v 7 4 = part.length ∧
      (∀ m < 8, v.getLsbD (8 + m) = o.parts.any fun p => p.memb == m) ∧
      v.getLsbD 16 = (getBent s (g.cl / 24)).narrow.contains (g.cl, g.core / 2) ∧
      v.getLsbD 17 = k.broken ∧ bitsOf v 23 18 = 0 ∧ bitsOf v 31 24 = g.gang.done ∧ bitsOf v 127 32 = 0)

/-- R176, R179, R190: an instruction of the engine traps with GANGMIS in a group that is in no formed gang (reason 1), and
where it names a tile that its gang does not own (reason 2); in a broken gang it traps with GANGBRK and the number of
operations performed; an MMA that differs from what its operation's other members latched traps with reason 3. -/
def Sys2Proof.Claims.EngineTraps : Prop :=
  (∀ i c f s g, i ∈ [Instr.mma c f, .mmz c f, .mmld c f, .mmst c f, .mmrd c f] → Acts s g i c →
    (g.gang.gst ≤ 1 → TrapsWith s i g .gangmis 1) ∧
    (∀ k, gangOf s g.gid = some k → g.gang.gst = 3 → TrapsWith s i g .gangbrk (BitVec.ofNat 64 k.performed)) ∧
    (∀ k, gangOf s g.gid = some k → g.gang.gst = 2 → (∀ m ∈ k.members, m.left = false) →
      k.own.getLsbD f.z.toNat = false → TrapsWith s i g .gangmis 2)) ∧
  (∀ c f s g k m o, Acts s g (.mma c f) c → g.gang.gst = 2 → gangOf s g.gid = some k → memberOf k g.gid = some m →
    (∀ x ∈ k.members, x.left = false) → k.own.getLsbD f.z.toNat = true →
    (∀ x ∈ k.members, m.delivered + 1 ≤ x.delivered + 4) →
    o ∈ k.ops → o.n = m.delivered + 1 → o.param ≠ paramOf f → TrapsWith s (.mma c f) g .gangmis 3)

/-- R176 to R185: in a member of a formed gang, MMA latches its part of the next joint operation, and MMZ, MMLD,
MMST and MMRD queue their tile operation; MMRD pushes entries that wait for the tile's words; and where they trap. -/
def Obligations.MembersDeliverToTheEngine : Prop :=
  EngineTraps ∧
  (∀ c f s g k m, Acts s g (.mma c f) c → AtEngine s g f.z.toNat k m → (∀ x ∈ k.members, x.left = false) →
    (∀ x ∈ k.members, m.delivered + 1 ≤ x.delivered + 4) →
    (∀ o ∈ k.ops, o.n = m.delivered + 1 → o.param = paramOf f) →
    let args : List Arg := if 6 ≤ f.ta.toNat ∨ 6 ≤ f.tb.toNat then [.src f.sa, .src f.sb, .src f.sc] else [.src f.sa, .src f.sb]
    Readable g (parts c g) args →
    exec (.mma c f) s = .next (withGroup
      { s with nextId := s.nextId + 1, gangs := gangsWith s k.key (latched (m.delivered + 1) s.nextId f (partOf g c f m.memb)) }
      (completed { flagged (voidFlag g (parts c g) args) g with gang := { g.gang with seq := (m.delivered + 1) % 256 } } (g.pc + 8)))) ∧
  (∀ c f s g k m, Acts s g (.mmz c f) c → AtEngine s g f.z.toNat k m →
    ∃ t, exec (.mmz c f) s = .next t ∧ GroupsBecome s t (completed g (g.pc + 8)) ∧
      t = { s with groups := t.groups, nextId := s.nextId + 1, gangs := gangsWith s k.key (queued g m s.nextId f.z.toNat .mmz) }) ∧
  (∀ i c f s g k m p q o mo, (i = Instr.mmld c f ∨ i = Instr.mmst c f) → Acts s g i c → AtEngine s g f.z.toNat k m →
    let block : Bool := !f.acc && 6 ≤ f.ta.toNat
    let args : List Arg := if block then [.src f.sa, .src f.sb] else [.src f.sa]
    let br := rowLength k f.ta.toNat f.acc
    let pitch := if f.imm16 = 0 then br else f.imm16.toNat
    let e := k.w * k.size
    let ac := addrCtx s g
    Readable g [0] args → resolveSeg ac ((argVal g 0 (.src f.sa)).setWidth 64) ((e - 1) * pitch + br) = .ok p →
    (if block then resolveSeg ac ((argVal g 0 (.src f.sb)).setWidth 64) (e * (e / 32) * 2) = .ok q
     else q = (argVal g 0 (.src f.sb)).setWidth 64) →
    extentCheck ac e f.ta.toNat f.acc pitch p q = .ok (o, mo) →
    let base : Loc := .scr g.ctx g.rank o
    let md : Loc := .scr g.ctx g.rank mo
    let rm := if f.rm = 0 then bitsOf g.mode 2 0 else f.rm.toNat
    let g' := flagged (voidFlag g [0] args) g
    (i = .mmld c f → exec i s = .next (withGroup
      { s with nextId := s.nextId + 1, gangs := gangsWith s k.key (queued g m s.nextId f.z.toNat (.mmld base md f.ta.toNat f.acc pitch)) }
      (completed g' (g.pc + 8)))) ∧
    (i = .mmst c f → exec i s = .next (withGroup
      { s with nextId := s.nextId + 1
               gangs := gangsWith s k.key (queued g m s.nextId f.z.toNat (.mmst base md f.ta.toNat f.acc pitch rm (bitsOf g.mode 12 8))) }
      (completed (if rm = 6 ∧ g.mode.getLsbD 13 = true
        then { g' with mode := (g'.mode &&& ~~~(0x1F00 : BitVec 32)) ||| BitVec.ofNat 32 ((bitsOf g.mode 12 8 + 1) % 32 * 256) }
        else g') (g.pc + 8))))) ∧
  (∀ c f s g k m, Acts s g (.mmrd c f) c → AtEngine s g f.z.toNat k m →
    (parts c g = [] → CompletesWith s (.mmrd c f) g (g.pc + 8)) ∧
    (parts c g ≠ [] → exec (.mmrd c f) s = .next (withGroup
      { s with nextId := s.nextId + 1 + (parts c g).length
               gangs := gangsWith s k.key (queued g m s.nextId f.z.toNat
                 (.mmrd f.imm16.toNat ((parts c g).mapIdx fun i l => (l, s.nextId + 1 + i)))) }
      (completed (pushedEntry c (pendAt (s.nextId + 1) (parts c g)) g) (g.pc + 8)))))

/-- R41 to R43, R179, R189: a complete joint operation writes every element of the extent, counts in DONE of the
members, and leaves the latch. -/
def Obligations.JointOperationIsExact : Prop :=
  ∀ s k o ti, s.gangs.find? (fun x => x.key == k.key) = some k → nextJoint s k = some o →
    tileAt s k.cl k.eng o.param.z = some ti → k.w * k.size ≤ 128 →
    ∃ t, exec (.jointOpPerform k.key) s = .next t ∧
      t = { s with bents := t.bents, clusters := t.clusters, tiles := t.tiles, gangs := t.gangs, groups := t.groups } ∧
      (∀ i < k.w * k.size, ∀ c < k.w * k.size,
        readTile t k o.param.z i c = product k o (readTile s k o.param.z i c) i c) ∧
      OnlyExtent s t k o.param.z ∧
      t.gangs = gangsWith s k.key (fun x => { x with ops := x.ops.filter (fun y => y.n ≠ o.n), performed := o.n }) ∧
      t.groups = s.groups.map fun g => if k.members.any fun m => m.gid == g.gid && !m.left
        then { g with gang := { g.gang with done := o.n % 256 } } else g

/-- R181 to R185, R187: what each tile operation does when the engine performs it: zeros; words loaded raw or
converted exactly to f32; words stored raw or rounded to the format of TA; blocks of mx4 and k4 decoded and encoded
under their metadata words; the four words that MMRD reads. What a poisoned byte loads as is free. -/
def Obligations.TileOperationsMoveTheExtent : Prop :=
  ∀ s k u ti, s.gangs.find? (fun x => x.key == k.key) = some k → k.tileOps.find? (fun x => x.id == u.id) = some u →
    tileReady s k u = true → tileAt s k.cl k.eng u.z = some ti → k.w * k.size ≤ 128 → Memory.wf s = true →
    ∃ t, exec (.tileOpPerform k.key u.id) s = .next t ∧
      t = { s with tiles := t.tiles, gangs := gangsWith s k.key (fun x => { x with tileOps := x.tileOps.filter fun y => y.id ≠ u.id })
                   loads := t.loads, fresh := t.fresh, scratch := t.scratch, dev := t.dev, host := t.host } ∧
      OnlyExtent s t k u.z ∧
      (u.kind = .mmz → OnlyBytes s t [] ∧ t.loads = s.loads ∧ ∀ i < k.w * k.size, ∀ c < k.w * k.size, readTile t k u.z i c = 0) ∧
      (∀ b m ta raw pitch, u.kind = .mmld b m ta raw pitch → OnlyBytes s t [] ∧ t.loads = s.loads ∧
        ∀ i < k.w * k.size, ∀ c < k.w * k.size,
          (raw = true → isPoisoned s (b.plus (i * pitch + 4 * c)) 4 = false →
            readTile t k u.z i c = BitVec.ofNat 32 (readNat s (b.plus (i * pitch + 4 * c)) 4)) ∧
          (raw = false → ta ≤ 3 → isPoisoned s (b.plus (i * pitch + codeBits ta / 8 * c)) (codeBits ta / 8) = false →
            readTile t k u.z i c = BitVec.ofNat 32
              (match fDecode (tyFmt (matTy ta)) false (readNat s (b.plus (i * pitch + codeBits ta / 8 * c)) (codeBits ta / 8)) with
               | .nan .. => 0x7FC00000
               | v => (fConvert fmtF32 ⟨1, 0, false, false, false, true⟩ v).1)) ∧
          (raw = false → ta = 8 ∨ ta = 9 → k.w * k.size % 32 = 0 →
            let code := b.plus (i * pitch + c / 2)
            let md := m.plus ((i * (k.w * k.size / 32) + c / 32) * 2)
            isPoisoned s code 1 = false → isPoisoned s md 2 = false →
            readTile t k u.z i c = BitVec.ofNat 32
              (match blockVal (matTy ta) (readNat s md 2) (readNat s code 1 / 16 ^ (c % 2) % 16) with
               | .nan .. => 0x7FC00000
               | v => (fConvert fmtF32 ⟨1, 0, false, false, false, true⟩ v).1))) ∧
      (∀ b m ta raw pitch rm dph, u.kind = .mmst b m ta raw pitch rm dph → t.tiles = s.tiles ∧ t.loads = s.loads ∧
        (raw = true ∨ ta ≤ 3 → rowLength k ta raw ≤ pitch → (∀ l n, isPoisoned s l n = false) → (∃ x r o, b = .scr x r o) →
          OnlyBytes s t ((upTo (k.w * k.size)).map fun i => (b.plus (i * pitch), rowLength k ta raw)) ∧
          ∀ i < k.w * k.size, ∀ c < k.w * k.size,
            if raw then readNat t (b.plus (i * pitch + 4 * c)) 4 = (readTile s k u.z i c).toNat
            else readNat t (b.plus (i * pitch + codeBits ta / 8 * c)) (codeBits ta / 8) =
              (fConvert (tyFmt (matTy ta)) ⟨rm, (c % 32 + dph) % 32, false, false, false, true⟩
                (fDecode fmtF32 false (readTile s k u.z i c).toNat)).1 % 2 ^ codeBits ta) ∧
        (raw = false → ta = 8 ∨ ta = 9 → rowLength k ta raw ≤ pitch → (∀ l n, isPoisoned s l n = false) →
          k.w * k.size % 32 = 0 → (∃ x r o, b = .scr x r o) → (∃ x r o, m = .scr x r o) →
          let e := k.w * k.size
          (∀ i < e, ∀ x < rowLength k ta raw, ∀ y < e * (e / 32) * 2, b.plus (i * pitch + x) ≠ m.plus y) →
          OnlyBytes s t (((upTo e).map fun i => (b.plus (i * pitch), rowLength k ta raw)) ++ [(m, e * (e / 32) * 2)]) ∧
          ∀ i < e, ∀ j < e / 32,
            let blk := encodeBlock (matTy ta) (fun p => ⟨rm, (p % 32 + dph) % 32, false, false, false, true⟩)
              ((upTo 32).map fun p => fDecode fmtF32 false (readTile s k u.z i (32 * j + p)).toNat)
            readNat t (m.plus ((i * (e / 32) + j) * 2)) 2 = blk.md % 2 ^ 16 ∧
            ∀ p < 32, readNat t (b.plus (i * pitch + 16 * j + p / 2)) 1 / 16 ^ (p % 2) % 16 = ((blk.codes[p]?).getD 0) % 16)) ∧
      (∀ q lanes, u.kind = .mmrd q lanes → t.tiles = s.tiles ∧ OnlyBytes s t [] ∧
        ∃ rs : List LoadRec, t.loads = s.loads ++ rs ∧ rs.map (·.id) = lanes.map (·.2) ∧
          ∀ l ∈ lanes, ∃ r ∈ rs, r.id = l.2 ∧ r.gid = u.gid ∧ r.cld = false ∧ ∃ v : Quad, r.work = .value v ∧
            ∀ j < 4, bitsOf v (32 * j + 31) (32 * j) = (readTile s k u.z (k.w * u.memb + l.1) (4 * q + j)).toNat)

namespace Sys2Proof.Claims
open Sys2Proof.Machine

/-! ### Copies (chapter 9) -/

/-- The group with its region closed (R122). -/
def shut (g : Group) : Group := { g with ropen := false }

/-- An entry that a group places in queue `q` of its rank: its number is the queue's next (R246, R258). -/
def placedEntry (s : State) (g : Group) (q : Nat) (kind : CopyKind) : CopyRec :=
  { id := s.nextId, gid := g.gid, counts := true, op := s.nextId, ctx := g.ctx, rank := g.rank, q,
    num := (cqueueOf s g.ctx g.rank q).accepted, kind, isLane := false, actx := { addrCtx s g with core := none }, rel := false,
    record := false, bar := false, ownBar := none, counted := 0, scope := 4, token := none, st := .queued, bytes := 0 }

/-- The entries of a queue, the head first, and room for one more (R246). -/
def entriesOf (s : State) (ctx rank q : Nat) : List CopyRec :=
  s.copies.filter fun c => c.ctx = ctx ∧ c.rank = rank ∧ c.q = q
def HasRoom (s : State) (g : Group) (q : Nat) : Prop := (entriesOf s g.ctx g.rank q).length < 32

/-- The queue of an entry takes it. -/
def taking (s : State) (c : CopyRec) : State :=
  { s with
    copies := s.copies ++ [c]
    cqueues := { cqueueOf s c.ctx c.rank c.q with accepted := (cqueueOf s c.ctx c.rank c.q).accepted + 1 } ::
      s.cqueues.filter fun x => !(x.ctx == c.ctx && x.rank == c.rank && x.q == c.q) }

/-- The token of R258. -/
def token (status fcode q seq bytes : Nat) : Quad :=
  BitVec.ofNat 128 (status + 2 ^ 8 * fcode + 2 ^ 16 * q + 2 ^ 20 * (seq % 2 ^ 12) + 2 ^ 32 * (bytes % 2 ^ 32))

/-- The binding bits that an event latches in a group, unless it drains (R282, R291). -/
def edged (p : Binding → Bool) (g : Group) : Group :=
  if g.drain then g
  else { g with evpend := g.evpend ||| BitVec.ofNat 16 (((upTo 16).filter fun n =>
    match g.evbind[n]? with | some b => p b | none => false).map fun n => 2 ^ n).sum }

/-- The copy event of a queue. -/
def copyEdge (q : Nat) : Group → Group := edged fun b => b.kind == 2 && b.q == q

/-- The copy at the head of its queue, whose context is on its clusters. -/
def AtHead (s : State) (id : Nat) (c : CopyRec) : Prop :=
  s.copies.find? (fun x => x.id == id) = some c ∧ (entriesOf s c.ctx c.rank c.q).head?.map (·.id) = some id ∧
  ctxActive s c.ctx = true

/-- Copy `id` after `f`. -/
def copiesWith (s : State) (id : Nat) (f : CopyRec → CopyRec) : List CopyRec :=
  s.copies.map fun c => if c.id = id then f c else c

/-- The element at row `n` and position `j` of its row, as a box copy moves it (R257). -/
def boxElement (l : Layout) (t x : Word) (ext : Nat → Nat) (start : Nat → Int) (n j : Nat) : Move :=
  let e := l.esz
  let d (k : Nat) := l.dim k
  let row : Nat → Int := fun k => if k = 1 then (n % d 1 : Nat) else if k = 2 then (n / d 1 % d 2 : Nat)
    else if k = 3 then (n / (d 1 * d 2) % d 3 : Nat) else (n / (d 1 * d 2 * d 3) % d 4 : Nat)
  let coord (k : Nat) : Int := start k + if k = 0 then (j : Int) else row k
  let u := j * e
  let off := l.row * n + (if l.skew = 0 then u else (u + 64 * (n % 2 ^ l.skew)) % l.row)
  let src := ptrAdd t (coord 0 * e + coord 1 * l.stride 1 + coord 2 * l.stride 2 + coord 3 * l.stride 3 + coord 4 * l.stride 4)
  let inside : Prop := j < d 0 ∧ ∀ k < l.rank, 0 ≤ coord k ∧ coord k < ext k
  { dst := ptrAdd x off, n := e
    src := if inside then some src else none
    fill := if inside then [] else if l.ctrl.getLsbD 7 then bytesOf e l.fillv.toNat else List.replicate e 0 }

/-- The piece of a line that supplies a byte: the last that holds it (R253). -/
def supplier (ps : List Placed) (m : Loc) : Option (Placed × Nat) :=
  (ps.reverse.findSome? fun p => ((upTo p.n).find? fun k => p.dst.plus k == m).map fun k => (p, k))

/-- What comes for the pending entry goes into the files of the group and nowhere else: no record holds the entry, and no
exit drain discards it (R80, R343, R353). -/
def Receives (g : Group) (id : Nat) : Prop := (∀ r ∈ g.recs, r.1 ≠ id) ∧ g.area = none ∧ g.drain = false

/-- The group that a copy reports to is there, and its token goes nowhere but into an entry of the group. -/
def Reportable (s : State) (c : CopyRec) (g : Group) : Prop :=
  getGroup s c.gid = some g ∧ (∀ r ∈ g.recs, ∀ k, c.token = some k → r.1 ≠ k.2) ∧ g.area = none ∧
  (c.token ≠ none → g.drain = false) ∧ ∀ k, c.token = some k → k.1 = c.gid

/-- A copy's report to its queue's ring, its token and its event, once its bytes are counted (R250, R258). -/
def reported (s : State) (c : CopyRec) (t : State) (g h : Group) : Prop :=
  h = copyEdge c.q (match c.token with
    | some (_, p) => filledIn p (token 0 0 c.q c.num c.bytes) g
    | none => g) ∧
  GroupsBecome s t h ∧ t.copies = s.copies.filter fun x => x.id ≠ c.id

end Sys2Proof.Claims

/-! ### Copies -/

/-- R246, R253: CPYL queues one piece for each participating lane, the import entries that its pointers name translated
first. That one without a participating lane queues nothing is the model's reading (log 47). -/
def Sys2Proof.Claims.LaneCopyQueued : Prop :=
  ∀ c f s g, Acts s g (.cpyl c f) c →
    (parts c g = [] → CompletesWith s (.cpyl c f) (shut g) (g.pc + 8)) ∧
    (∀ ts, parts c g ≠ [] →
      let bar := f.imm26.getLsbD 0
      let w := 4 * 2 ^ bitsOf f.sub 1 0
      let args : List Arg := if bar then [.src f.sa, .src f.sb] else [.src f.sa]
      let lane (l : Nat) : Word × Word :=
        ((argVal g l (.src f.sa)).setWidth 64, ((argVal g l (.src f.sa)) >>> 64).setWidth 64)
      let ptrs := (parts c g).flatMap fun l => [(lane l).1, (lane l).2]
      let p : Word := (argVal g 0 (.src f.sb)).setWidth 64
      let u := touchImports s g (ptrs.map fun p => (p, w))
      Readable g (parts c g) args → ccpOf s g.gid < 15 → checkTargets u (addrCtx u g) w (ptrs.map fun p => (0, p)) = .ok ts →
      (bar = true → barPtrBad u g p = none) → HasRoom s g f.cq.toNat →
      SameButWalks s u ∧ exec (.cpyl c f) s = .next (withGroup
        { taking u { placedEntry u g f.cq.toNat (.moves ((parts c g).map fun l => { dst := (lane l).2, src := some (lane l).1, fill := [], n := w })) with
            isLane := true, rel := f.sub.getLsbD 2, record := f.sub.getLsbD 3, bar, ownBar := if bar then some p else none
            counted := w * (parts c g).length, scope := copyScope u (addrCtx u g) ptrs } with nextId := s.nextId + 1 }
        (completed (flagged (voidFlag g (parts c g) args) (shut g)) (g.pc + 8))))

/-- R256 to R258: CPYT reads its layout record, queues the box's elements and pushes a pending token. -/
def Sys2Proof.Claims.TensorCopyQueued : Prop :=
  (∀ c f s g s' ws, Acts s g (.cpyt c f) c →
    let args : List Arg := [.src f.sa, .src f.sb, .src f.sc]
    let m := (argVal g 0 (.src f.sb)).toNat
    let b := (argVal g 0 (.src f.sc)).toNat
    let l := layoutOf ws
    let t : Word := BitVec.ofNat 64 m
    let x : Word := BitVec.ofNat 64 b
    let ext (k : Nat) : Nat := if k < 4 then m / 2 ^ (64 + 16 * k) % 2 ^ 16 else bitsOf l.ext4 15 0
    let start (k : Nat) : Int := sxNat 16 (if k < 4 then b / 2 ^ (64 + 16 * k) % 2 ^ 16 else bitsOf f.imm26 15 0)
    let h := flagged (voidFlag g [0] args) (shut g)
    Readable g [0] args → ccpOf s g.gid < 15 →
    readRecord (withGroup s (shut g)) (shut g) ((argVal g 0 (.src f.sa)).setWidth 64) 64 8 = .ok (s', ws) →
    let v := touchImports s' (shut g) [(t, l.esz), (x, 16)]
    layoutBad l = none → tensorBad v (addrCtx v g) l t x = none → HasRoom s g f.cq.toNat →
    let ms := boxMoves l t x ext start (f.sub.getLsbD 0)
    ∃ u saw, exec (.cpyt c f) s = .next u ∧
      u = { taking v { placedEntry v g f.cq.toNat (.moves ms) with
              id := s.nextId + 1, op := s.nextId + 1, rel := f.sub.getLsbD 1, record := f.sub.getLsbD 2, bar := f.sub.getLsbD 3
              counted := l.row * l.rows, token := some (g.gid, s.nextId)
              scope := copyScope v (addrCtx v g) ([t, x] ++ ms.flatMap fun m => m.dst :: m.src.toList) } with
            nextId := s.nextId + 2, groups := u.groups } ∧
      GroupsBecome s u (completed { h with gages := (.pend s.nextId :: h.gages).take 20, sawFwd := saw } (g.pc + 8))) ∧
  (∀ l t x ext start n j, n < l.rows → j < l.row / l.esz →
    (boxMoves l t x ext start false)[n * (l.row / l.esz) + j]? = some (boxElement l t x ext start n j)) ∧
  (∀ l t x ext start n j p, n < l.rows → j < l.row / l.esz → (boxElement l t x ext start n j).src = some p →
    { boxElement l t x ext start n j with dst := p, src := some (boxElement l t x ext start n j).dst } ∈ boxMoves l t x ext start true)

/-- R246, R253, R256 to R258: CPYL and CPYT queue their copies. That a CPYL without a participating lane queues nothing
is the model's reading (log 47). -/
def Obligations.CopiesAreQueued : Prop := LaneCopyQueued ∧ TensorCopyQueued

/-- R258, R259: CPYF places its entries; CPYR resumes or skips a FAULTED head and pushes its token, and pushes
status 3 where no head is FAULTED. The SEQ of that token is free (the manual states none). -/
def Obligations.CopyControlsActOnTheirQueues : Prop :=
  (∀ c f s g, Acts s g (.cpyfJoin c f) c → ccpOf s g.gid < 15 → s.nextId ≠ 0 → (∀ q < 16, f.imm26.getLsbD q = true → HasRoom s g q) →
    let mask : BitVec 16 := f.imm26.setWidth 16
    let qs := (upTo 16).filter fun q => mask.getLsbD q
    ∃ t, exec (.cpyfJoin c f) s = .next t ∧ GroupsBecome s t (completed (shut g) (g.pc + 8)) ∧
      t = { s with groups := t.groups, copies := t.copies, cqueues := t.cqueues, nextId := s.nextId + qs.length } ∧
      t.copies = s.copies ++ qs.mapIdx (fun k q => { placedEntry s g q (.join mask) with id := s.nextId + k, counts := k == 0 }) ∧
      ∀ ctx rank q,
        let one : Nat := if ctx = g.ctx ∧ rank = g.rank ∧ q < 16 ∧ mask.getLsbD q = true then 1 else 0
        cqueueOf t ctx rank q = { cqueueOf s ctx rank q with accepted := (cqueueOf s ctx rank q).accepted + one }) ∧
  (∀ i c f s g kind args, Acts s g i c → ccpOf s g.gid < 15 → HasRoom s g f.cq.toNat →
    let p : Word := (argVal g 0 (.src f.sa)).setWidth 64
    (i = .cpyfBar c f ∧ ((f.imm26 ≠ 0 ∧ args = [] ∧ kind = CopyKind.bindBar none) ∨
        (f.imm26 = 0 ∧ args = [.src f.sa] ∧ kind = .bindBar (some p) ∧ barPtrBad s g p = none))) ∨
      (i = .cpyfCring c f ∧ ((bitsOf f.imm26 4 0 = 0 ∧ args = [] ∧ kind = .bindRing none) ∨
        (bitsOf f.imm26 4 0 ≠ 0 ∧ args = [.src f.sa] ∧ kind = .bindRing (some (p, bitsOf f.imm26 4 0))))) →
    Readable g [0] args →
    exec i s = .next (withGroup { taking s (placedEntry s g f.cq.toNat kind) with nextId := s.nextId + 1 }
      (completed (flagged (voidFlag g [0] args) (shut g)) (g.pc + 8)))) ∧
  (∀ i c f s g, (i = Instr.cpyrResume c f ∨ i = Instr.cpyrSkip c f) → Acts s g i c → ccpOf s g.gid < 15 → g.area = none →
    let q := f.cq.toNat
    let head := (entriesOf s g.ctx g.rank q).head?
    ((∀ x, head = some x → x.st ≠ .faulted) →
      ∃ t seq, exec i s = .next t ∧ t = { s with groups := t.groups, fresh := s.fresh + 1 } ∧
        GroupsBecome s t (completed (copyEdge q { shut g with gages := (.val (token 3 0 q seq 0) :: g.gages).take 20 }) (g.pc + 8))) ∧
    (∀ x, head = some x → x.st = .faulted → i = .cpyrResume c f →
      exec i s = .next (withGroup
        { s with nextId := s.nextId + 1
                 copies := copiesWith s x.id fun y => { y with st := .running, gid := g.gid, counts := true, isLane := false, token := some (g.gid, s.nextId), bytes := 0 } }
        (completed { shut g with gages := (.pend s.nextId :: g.gages).take 20 } (g.pc + 8)))) ∧
    (∀ x, head = some x → x.st = .faulted → i = .cpyrSkip c f →
      ∃ t, exec i s = .next t ∧ t = { s with groups := t.groups, copies := s.copies.filter fun y => y.id ≠ x.id } ∧
        GroupsBecome s t (completed (copyEdge q { shut g with gages := (.val (token 2 0 q x.num 0) :: g.gages).take 20 }) (g.pc + 8))))

/-- R247, R248, R253: a copy starts at the head of its queue; a binding takes effect there; each line operation
takes the pieces of the lowest destination and source lines, reads all of them and writes them, the last piece
supplying a byte that several hold; a line that faults halts the queue, and a lane copy's group owes the trap. The order
of lines in different spaces (log 118), and of the failures of one line (log 117), are the model's choices. -/
def Obligations.CopiesMoveLineByLine : Prop :=
  (∀ s id c l, AtHead s id c → c.st = .queued → c.kind = .moves l → acquiresDone s c.gid c.op = true →
    (c.rel = true → releaseOk s c.gid c.scope c.op = true ∧ storesPlaced s c.gid c.op = true) →
    exec (.copyStart id) s = .next { s with copies := copiesWith s id fun x => { x with st := if l = [] then .moved else .running } }) ∧
  (∀ s id c, AtHead s id c → c.st = .queued →
    let keep := s.cqueues.filter fun x => !(x.ctx == c.ctx && x.rank == c.rank && x.q == c.q)
    let rest := s.copies.filter fun x => x.id ≠ id
    (∀ p, c.kind = .bindBar p → exec (.copyStart id) s = .next
      { s with copies := rest, cqueues := { cqueueOf s c.ctx c.rank c.q with qbar := p.map fun p => (p, c.actx) } :: keep }) ∧
    (∀ p, c.kind = .bindRing p → exec (.copyStart id) s = .next
      { s with copies := rest, cqueues := { cqueueOf s c.ctx c.rank c.q with qring := p.map (fun x => (x.1, x.2, c.actx)), recs := 0 } :: keep })) ∧
  (∀ s ac l now rest, nextLine s ac l = (now, rest) → l ≠ [] →
    ∃ k, now = l.filter (fun m => moveKey s ac m = k) ∧ rest = l.filter (fun m => moveKey s ac m ≠ k) ∧ now ≠ [] ∧
      ∀ m ∈ rest, k.1 < (moveKey s ac m).1 ∨ (k.1 = (moveKey s ac m).1 ∧ k.2 < (moveKey s ac m).2)) ∧
  (∀ s id c l now rest s' ps, AtHead s id c → c.st = .running → c.kind = .moves l → nextLine s c.actx l = (now, rest) →
    Memory.wf s' = true → placeMoves s c.actx none 0 now = .go s' ps → (∀ p ∈ ps, p.src = none → p.fill.length = p.n) →
    (∀ p ∈ ps, ∀ d x e k o, p.dst ≠ .peer d x e k o ∧ p.src ≠ some (.peer d x e k o)) →
    ∃ t, exec (.copyLine id) s = .next t ∧
      t = { s' with dev := t.dev, host := t.host, scratch := t.scratch, written := t.written, clusters := t.clusters
                    dcache := t.dcache
                    copies := copiesWith s' id fun x => { x with kind := .moves rest, bytes := x.bytes + (ps.map (·.n)).sum, st := if rest = [] then .moved else .running } } ∧
      ∀ m, readByte t m = match supplier ps m with
        | some (p, k) => (match p.src with
            | some a => viewByte s' (c.actx.cl / 24) (a.plus k)
            | none => (p.fill[k]?).getD 0)
        | none => readByte s' m) ∧
  (∀ s id c l now rest s' k p g, AtHead s id c → c.st = .running → c.kind = .moves l → nextLine s c.actx l = (now, rest) →
    placeMoves s c.actx none 0 now = .fault s' k p → c.isLane = true → c.counts = true → (cqueueOf s' c.ctx c.rank c.q).qring = none →
    getGroup s' c.gid = some g →
    ∃ t, exec (.copyLine id) s = .next t ∧ t = { s' with groups := t.groups, copies := copiesWith s' id fun x => { x with st := .faulted, counts := false, token := none } } ∧
      GroupsBecome s' t { g with cpFault := g.cpFault ++ [(id, k, p)] })

/-- R250, R258, R259: a copy whose writes are performed counts its bytes on its barrier, writes its record,
fills its token and raises its event; a join lets its queues go on when all of them have reached it. -/
def Obligations.CopiesReportTheirEnd : Prop :=
  (∀ s id c g, AtHead s id c → c.st = .moved → c.bar = false → c.record = false → Reportable s c g →
    ∃ t h, exec (.copyCompletion id) s = .next t ∧ t = { s with groups := t.groups, copies := t.copies } ∧ reported s c t g h) ∧
  (∀ s id c g p n ac l s1, AtHead s id c → c.st = .moved → c.bar = false → c.record = true → c.q < 16 →
    (cqueueOf s c.ctx c.rank c.q).qring = some (p, n, ac) →
    engineLoc s ac .store (ptrAdd p (16 * ((cqueueOf s c.ctx c.rank c.q).recs % 2 ^ n) : Nat)) 16 = (s1, .ok l) →
    (∀ d x e k o, l ≠ .peer d x e k o) → s1.groups = s.groups → s1.copies = s.copies → Memory.wf s1 = true →
    engineWay s l = .open' → engineWay s1 l = .open' → lineQuiet s l 16 = true → lineQuiet s1 l 16 = true → Reportable s c g →
    let recs := (cqueueOf s c.ctx c.rank c.q).recs
    ∃ t h, exec (.copyCompletion id) s = .next t ∧ reported s c t g h ∧ OnlyBytes s1 t [(l, 16)] ∧ readWord t (l.plus 8) = 0 ∧
      readNat t l 3 = 2 ^ 16 * c.q + 2 ^ 20 * (recs / 2 ^ n % 15 + 1) ∧ readNat t (l.plus 3) 1 = c.num / 16 % 256 ∧
      readNat t (l.plus 4) 4 = c.bytes % 2 ^ 32 ∧ (cqueueOf t c.ctx c.rank c.q).recs = recs + 1) ∧
  (∀ s id c p ac l g, AtHead s id c → c.st = .moved → c.bar = true → c.record = false → c.token = none →
    (match c.ownBar with | some q => some (q, c.actx) | none => (cqueueOf s c.ctx c.rank c.q).qbar) = some (p, ac) →
    engineLoc s ac .store p 32 = (s, .ok l) → lineQuiet s l 32 = true →
    let u := countBar s c.ctx l c.counted
    getGroup u c.gid = some g → g.area = none →
    ∃ t, exec (.copyCompletion id) s = .next t ∧
      t = { u with copies := u.copies.filter (fun x => x.id ≠ id), groups := t.groups } ∧
      GroupsBecome u t (copyEdge c.q g)) ∧
  (∀ s id c m, s.copies.find? (fun x => x.id == id) = some c → c.kind = .join m →
    (∀ x ∈ s.copies, x.op = c.op → x.gid = c.gid → x.kind = .join m → AtHead s x.id x) →
    exec (.copyJoinRelease id) s = .next { s with copies := s.copies.filter fun x => !(s.copies.any fun y =>
      y.op = c.op ∧ y.gid = c.gid ∧ y.kind = .join m ∧ y.id = x.id) })

namespace Sys2Proof.Claims
open Sys2Proof.Machine

/-! ### Rings (chapter 10) -/

/-- The pointer operand of an instruction on the g file. -/
def operand (g : Group) (x : Src) : Word := (argVal g 0 (.src x)).setWidth 64

/-- The group's earlier accesses to a header, and its acquires, are performed (R220, R228), and the header's rank is the
group's own or its context is not being saved (R199). -/
def MayActOn (s : State) (g : Group) (h : Loc) : Prop :=
  objectReady s g.gid h 64 = true ∧
  ∃ c r o, h = .scr c r o ∧ (r = g.rank ∨ ∀ x, getCtx s g.ctx = some x → x.st ≠ .saving)

/-- A ring instruction whose operands are there names the well-formed header at `h` (R262, R265). -/
def NamesRing (s : State) (g : Group) (f : CP) (more : List Arg) (h : Loc) : Prop :=
  Readable g [0] (.src f.sa :: more) ∧ ringAt s g (operand g f.sa) = .ok h ∧ ringMalformed s h = false ∧
  MayActOn s g h ∧ Memory.wf s = true

/-- A result entry (R263). -/
def result (s : State) (h : Loc) (p : Word) (status k start : Nat) : Quad :=
  BitVec.ofNat 128 ((ptrAdd p (64 + start % ringSize s h * 64)).toNat * 2 ^ 64 + status * 2 ^ 56 +
    k % 2 ^ 17 * 2 ^ 32 + start % 2 ^ 32)

/-- The group after a CP instruction that pushes `e` onto the g file and closes the region. -/
def pushesG (g : Group) (args : List Arg) (e : Entry) : Group :=
  let h := flagged (voidFlag g [0] args) (shut g)
  completed { h with gages := (e :: h.gages).take 20 } (g.pc + 8)

/-- Memory and the issuing group aside, the rings noted, and what else is named, `t` is `s`. -/
def RingsBeside (s t : State) : Prop :=
  t = { s with groups := t.groups, scratch := t.scratch, dev := t.dev, host := t.host, written := t.written,
               rings := t.rings, ringWaits := t.ringWaits, nextId := t.nextId, fresh := t.fresh, dcache := t.dcache }

/-- The instruction pushes an entry with a status, and nothing else changes. -/
def RingRefuses (s : State) (g : Group) (i : Instr) (args : List Arg) (status : Nat) (k : Option Nat) : Prop :=
  ∃ t v, exec i s = .next t ∧ RingsBeside s t ∧ GroupsBecome s t (pushesG g args (.val v)) ∧ OnlyBytes s t [] ∧
    t.ringWaits = s.ringWaits ∧ bitsOf v 63 56 = status ∧ bitsOf v 55 49 = 0 ∧ ∀ n, k = some n → bitsOf v 48 32 = n

/-- A live holder other than `own` has the side (R260). -/
def SideTaken (s : State) (h : Loc) (v own : Nat) : Prop := v ≠ own ∧ holderLive s h v = true

/-- A commit sets the span's bits and moves the visible tail over the leading committed granules (R261). -/
def Commits (s t : State) (h : Loc) (sp : Span) : Prop :=
  let r := (sp.start + 2 ^ 32 - ringVtail s h) % 2 ^ 32
  let m := ringCmap s h ||| (2 ^ sp.k - 1) * 2 ^ r
  ∃ n ≤ 256, (∀ i < n, m.testBit i = true) ∧ (n < 256 → m.testBit n = false) ∧
    ringCmap t h = m / 2 ^ n ∧ ringVtail t h = (ringVtail s h + n) % 2 ^ 32 ∧
    OnlyBytes s t [(h.plus 0x20, 32), (h.plus 0x0C, 4)]

/-- The span of an entry (R263). -/
def spanIn (v : Quad) : Span := { start := bitsOf v 31 0, k := bitsOf v 48 32 }

/-- Nothing is pending on a ring. -/
def Idle (s : State) (h : Loc) : Prop :=
  (∀ w ∈ s.ringWaits, w.ring ≠ h) ∧ (∀ x ∈ s.subs, x.ring ≠ h) ∧
  ∀ c ∈ s.copies, ∀ r p tm sp id, c.kind = .commit r p tm sp id → r ≠ h

/-- The wait of a group for a ring, on a cluster that its context has (R263, R270). -/
def Waits (s : State) (w : RingWait) (kind : RingWaitKind) (g : Group) : Prop :=
  s.ringWaits.find? (fun x => x.id == w.id) = some w ∧ w.kind = kind ∧ ringActive s w.ring = true ∧
  (∀ x ∈ s.ringWaits, x.ring = w.ring → x.kind = kind →
    0 ≤ sxNat 32 ((x.span.start + 2 ^ 32 - w.span.start % 2 ^ 32) % 2 ^ 32)) ∧
  getGroup s w.gid = some g ∧ Receives g w.id

/-- The wait is over and its entry holds `v`; an await is an acquire of what the ring carries (R229, R269). -/
def Resolves (s t : State) (w : RingWait) (g : Group) (v : Quad) : Prop :=
  t = { s with groups := t.groups, ringWaits := s.ringWaits.filter fun x => x.id ≠ w.id } ∧
  GroupsBecome s t (match w.kind with
    | .await => taught w.id 4 (carriesAt s w.ring 64) (filledIn w.id v g)
    | _ => filledIn w.id v g)

/-- A subscription that may act on its ring (R268). -/
def Subscribed (s : State) (x : Sub) (load : Bool) : Prop :=
  s.subs.find? (fun y => y.id == x.id && y.load == load) = some x ∧ x.load = load ∧ ringActive s x.ring = true ∧
  ringMalformed s x.ring = false ∧ ringState s x.ring ≠ 3 ∧ Memory.wf s = true ∧ (∃ c r o, x.ring = .scr c r o) ∧
  s.rings.contains x.ring = true

/-- The subscriptions with `x` as it now stands. -/
def subsWith (s : State) (x : Sub) : List Sub := s.subs.map fun y => if y.id = x.id then x else y

/-- The end of a subscription: its holder is cleared and its entry resolves with a status and the boxes done. -/
def Ends (s t : State) (x : Sub) (status done : Nat) (g : Group) : Prop :=
  getGroup s x.gid = some g ∧ t.subs = s.subs.filter (fun y => y.id ≠ x.id) ∧
  readNat t (x.ring.plus (if x.load then 0x18 else 0x1C)) 4 = 0 ∧
  ∃ v : Quad, bitsOf v 127 64 = 0 ∧ bitsOf v 63 56 = status ∧ bitsOf v 31 0 = done % 2 ^ 32 ∧
    GroupsBecome s t (filledIn x.pend v g)

end Sys2Proof.Claims

/-! ### Rings -/

/-- R260 to R263, R265, R268: what each ring instruction reserves, commits, retires, closes or queues, the entry
that it pushes, and the statuses with which it changes nothing; a commit adds to the header what its release carries
(R227). The model's choices: the entry's PTR is the operand before SEGREL resolves (log 35), an entry whose space is not 0
is judged by START and K alone (log 41), and the form of RSUB's descriptor (log 42). -/
def Obligations.RingInstructionsAct : Prop :=
  (∀ i c f s g h, (i = Instr.rclm c f ∨ i = Instr.rawt c f) → Acts s g i c → NamesRing s g f [] h →
    let claim : Prop := i = .rclm c f
    let k := if i = .rclm c f then bitsOf f.imm26 8 0 else bitsOf f.imm26 16 0
    let own := 2 ^ 30 + g.teamNo
    let hold := if i = .rclm c f then ringPhold s h else ringChold s h
    let start := if i = .rclm c f then ringClaim s h else ringAwait s h
    let args : List Arg := [.src f.sa]
    (ringState s h = 3 → RingRefuses s g i args 1 none) ∧
    (claim → ringState s h ≠ 3 → ringState s h ≠ 0 → RingRefuses s g i args 2 (some 0)) ∧
    ((claim → ringState s h = 0) → ringState s h ≠ 3 → ringSize s h < k → RingRefuses s g i args 4 none) ∧
    ((claim → ringState s h = 0) → ringState s h ≠ 3 → k ≤ ringSize s h → SideTaken s h hold own → RingRefuses s g i args 3 none) ∧
    ((claim → ringState s h = 0) → ringState s h ≠ 3 → k ≤ ringSize s h → ¬ SideTaken s h hold own → own < 2 ^ 32 →
      ∃ t, exec i s = .next t ∧ RingsBeside s t ∧ GroupsBecome s t (pushesG g args (.pend s.nextId)) ∧
        t.nextId = s.nextId + 1 ∧
        t.ringWaits = s.ringWaits ++ [{ id := s.nextId, gid := g.gid, teamNo := g.teamNo, ring := h, ptr := operand g f.sa
                                        kind := if i = .rclm c f then .claim else .await, span := { start, k } }] ∧
        (claim → ringPhold t h = own ∧ ringClaim t h = (start + k) % 2 ^ 32 ∧ OnlyBytes s t [(h.plus 0x18, 4), (h.plus 0x08, 4)]) ∧
        (¬ claim → ringChold t h = own ∧ ringAwait t h = (start + k) % 2 ^ 32 ∧ OnlyBytes s t [(h.plus 0x1C, 4), (h.plus 0x10, 4)]))) ∧
  (∀ c f s g h, Acts s g (.rcmt c f) c → NamesRing s g f [.src f.sb] h →
    let sp := spanIn (argVal g 0 (.src f.sb))
    let args : List Arg := [.src f.sa, .src f.sb]
    let done := (sp.start + 2 ^ 32 - ringVtail s h) % 2 ^ 32 + sp.k
    let ok : Prop := ringPhold s h = 2 ^ 30 + g.teamNo ∧ sp.k ≠ 0 ∧ done ≤ 256 ∧
      done ≤ (ringClaim s h + 2 ^ 32 - ringVtail s h) % 2 ^ 32 ∧
      (∀ j < sp.k, (ringCmap s h).testBit ((sp.start + 2 ^ 32 - ringVtail s h) % 2 ^ 32 + j) = false) ∧
      ∀ w ∈ s.ringWaits, w.ring = h → w.kind = .claim → done ≤ (w.span.start + 2 ^ 32 - ringVtail s h) % 2 ^ 32
    (ringState s h = 3 → RingRefuses s g (.rcmt c f) args 1 (some sp.k)) ∧
    (ringState s h ≠ 3 → ¬ ok → RingRefuses s g (.rcmt c f) args 5 (some sp.k)) ∧
    (ringState s h ≠ 3 → ok → releaseOut s g (if f.sub.getLsbD 1 then 3 else 4) = none →
      ∃ t, exec (.rcmt c f) s = .next t ∧ RingsBeside { s with carries := t.carries } t ∧ t.ringWaits = s.ringWaits ∧ Commits s t h sp ∧
        t.carries = (addCarries s h 64 (carryOf s g.gid (if f.sub.getLsbD 1 then 3 else 4) s.nextId)).carries ∧
        GroupsBecome s t (pushesG g args (.val (result s h (operand g f.sa) 0 sp.k sp.start))))) ∧
  (∀ c f s g h, Acts s g (.rret c f) c → NamesRing s g f [.src f.sb] h →
    let sp := spanIn (argVal g 0 (.src f.sb))
    let args : List Arg := [.src f.sa, .src f.sb]
    let held := (ringAwait s h + 2 ^ 32 - ringHead s h) % 2 ^ 32
    let status := bitsOf (argVal g 0 (.src f.sb)) 63 56
    let ok : Prop := sp.start = ringHead s h ∧ (status = 0 ∨ status = 2) ∧ sp.k ≤ held ∧ ringAwait s h ≠ ringHead s h ∧
      (∀ w ∈ s.ringWaits, w.ring = h → w.kind = .await → w.span.start ≠ sp.start) ∧
      ∀ x ∈ s.subs, x.ring = h → x.load = false → ∀ b, x.claim = some b → x.k ≤ (sp.start + 2 ^ 32 - b % 2 ^ 32) % 2 ^ 32
    (ringState s h = 3 → RingRefuses s g (.rret c f) args 1 (some sp.k)) ∧
    (ringState s h ≠ 3 → ¬ ok → RingRefuses s g (.rret c f) args 5 (some sp.k)) ∧
    (ringState s h ≠ 3 → ok → releaseOut s g 4 = none →
      ∃ t, exec (.rret c f) s = .next t ∧ RingsBeside s t ∧ t.ringWaits = s.ringWaits ∧
        ringHead t h = (ringHead s h + sp.k) % 2 ^ 32 ∧ OnlyBytes s t [(h.plus 0x14, 4), (h.plus 1, 1)] ∧
        ringState t h = (if ringState s h = 1 ∧ (ringHead s h + sp.k) % 2 ^ 32 = ringClaim s h then 2 else ringState s h) ∧
        GroupsBecome s t (pushesG g args (.val (result s h (operand g f.sa) 0 sp.k sp.start))))) ∧
  (∀ c f s g h, Acts s g (.rclose c f) c → NamesRing s g f [] h →
    (ringState s h = 3 → RingRefuses s g (.rclose c f) [.src f.sa] 1 none) ∧
    (ringState s h ≠ 3 →
      ∃ t v, exec (.rclose c f) s = .next t ∧ RingsBeside s t ∧ t.ringWaits = s.ringWaits ∧ OnlyBytes s t [(h.plus 1, 1)] ∧
        ringState t h = (if ringHead s h = ringClaim s h then 2 else if ringState s h = 0 then 1 else ringState s h) ∧
        bitsOf v 63 49 = 0 ∧ bitsOf v 31 0 = ringClaim s h ∧ GroupsBecome s t (pushesG g [.src f.sa] (.val v)))) ∧
  (∀ c f s g h, Acts s g (.rinit c f) c → Readable g [0] [.src f.sa] → ringAt s g (operand g f.sa) = .ok h →
    Memory.wf s = true →
    let lgn := bitsOf f.imm26 3 0
    areaBad s g h (operand g f.sa) (if lgn = 0 then 65536 else 2 ^ lgn) = none → MayActOn s g h → Idle s h →
    ∃ t, exec (.rinit c f) s = .next t ∧ RingsBeside s t ∧ t.ringWaits = s.ringWaits ∧ h ∈ t.rings ∧
      readNat t h 8 = 1 + 16 * lgn ∧ (∀ j, 8 ≤ j → j < 64 → readByte t (h.plus j) = 0) ∧ OnlyBytes s t [(h, 64)] ∧
      GroupsBecome s t (pushesG g [.src f.sa] (.val (result t h (operand g f.sa) 0 0 0)))) ∧
  (∀ c f s g h, Acts s g (.rcmtQ c f) c → NamesRing s g f [.src f.sb] h →
    let sp := spanIn (argVal g 0 (.src f.sb))
    let args : List Arg := [.src f.sa, .src f.sb]
    (ringState s h = 3 → RingRefuses s g (.rcmtQ c f) args 1 (some sp.k)) ∧
    (ringState s h ≠ 3 → releaseOut s g (if f.sub.getLsbD 1 then 3 else 4) = none → HasRoom s g f.cq.toNat →
      ∃ t, exec (.rcmtQ c f) s = .next t ∧ GroupsBecome s t (pushesG g args (.pend s.nextId)) ∧
        t = { taking s { placedEntry s g f.cq.toNat (.commit h (operand g f.sa) g.teamNo sp s.nextId) with
                id := s.nextId + 1, op := s.nextId + 1, counts := false
                carry := carryOf s g.gid (if f.sub.getLsbD 1 then 3 else 4) s.nextId } with
              nextId := s.nextId + 2, groups := t.groups, rings := t.rings })) ∧
  (∀ c f s g h s1 (d : List Word) s2 (ws : List Word) n, Acts s g (.rsub c f) c → NamesRing s g f [.src f.sb] h → s.rings.contains h = true →
    let load := !f.sub.getLsbD 0
    let args : List Arg := [.src f.sa, .src f.sb]
    let w (j : Nat) : Nat := ((d[j]?).getD 0).toNat
    let coords (x : Nat) : List Int := (upTo 4).map fun k => sxNat 16 (x / 2 ^ (16 * k) % 2 ^ 16)
    ringState s h ≠ 3 →
    readRecord (withGroup s (shut g)) (shut g) (operand g f.sb) 8 8 = .ok (s1, d) → bitsOf ((d[0]?).getD 0) 5 0 = 0 →
    readRecord s1 (shut g) ((d[0]?).getD 0) 64 8 = .ok (s2, ws) →
    subBad s2 h (makeSub s2 (shut g) load h (operand g f.sa) d (layoutOf ws)) d = false →
    holderLive s2 h (if load then ringPhold s2 h else ringChold s2 h) = false →
    freeSlot s2 (clusterOf s2 h / 24) load = some n → Memory.wf s2 = true →
    ∃ (t : State) (x : Sub) (saw : List Nat), exec (.rsub c f) s = .next t ∧ t.subs = s.subs ++ [x] ∧ t.nextId = s.nextId + 2 ∧
      t = { s2 with groups := t.groups, subs := t.subs, nextId := t.nextId, scratch := t.scratch, dev := t.dev, host := t.host, written := t.written, dcache := t.dcache } ∧
      GroupsBecome s t { pushesG g args (.pend (s.nextId + 1)) with sawFwd := saw } ∧
      readNat t (h.plus (if load then 0x18 else 0x1C)) 4 = ((if load then 2 else 3) * 2 ^ 30 + n) % 2 ^ 32 ∧
      OnlyBytes s2 t [(h.plus (if load then 0x18 else 0x1C), 4)] ∧
      x.id = s.nextId ∧ x.pend = s.nextId + 1 ∧ x.gid = g.gid ∧ x.slot = n ∧ x.bent = clusterOf s2 h / 24 ∧ x.load = load ∧
      x.ring = h ∧ x.ringPtr = operand g f.sa ∧ x.layout = layoutOf ws ∧ x.tbase = BitVec.ofNat 64 (w 1) ∧ x.ext = BitVec.ofNat 64 (w 2) ∧
      x.start = coords (w 3) ∧ x.step1 = coords (w 4) ∧ x.step2 = coords (w 5) ∧ x.per = w 6 % 2 ^ 32 ∧
      x.count = w 6 / 2 ^ 32 ∧ x.c4 = sxNat 16 (w 7 % 2 ^ 16) ∧ x.k = (layoutOf ws).bytes / 64 ∧ x.done = 0 ∧ x.claim = none)

/-- R229, R265, R268, R270: claims and awaits resolve in the order of their spans when their conditions hold, an await of a ring that
is not OPEN with END and what remains; a queued commit is performed by its queue, and the header carries from then on what
its release does (R227); a loader and a storer take a box
at a time and end with their count or with END. -/
def Obligations.RingsGrantAndEnginesFollow : Prop :=
  (∀ s w g, Waits s w .claim g →
    let finish := w.span.start + w.span.k
    (finish + 2 ^ 32 - ringHead s w.ring) % 2 ^ 32 ≤ ringSize s w.ring →
    (finish + 2 ^ 32 - ringVtail s w.ring) % 2 ^ 32 ≤ 256 →
    ∃ t, exec (.ringClaimGrant w.id) s = .next t ∧ Resolves s t w g (result s w.ring w.ptr 0 w.span.k w.span.start)) ∧
  (∀ s w g, Waits s w .await g →
    let short := sxNat 32 ((ringVtail s w.ring + 2 ^ 32 - (w.span.start + w.span.k) % 2 ^ 32) % 2 ^ 32)
    (0 ≤ short → ∃ t, exec (.ringAwaitResolve w.id) s = .next t ∧
      Resolves s t w g (result s w.ring w.ptr 0 w.span.k w.span.start)) ∧
    (short < 0 → ringState s w.ring ≠ 0 → ringVtail s w.ring = ringClaim s w.ring →
      let left := (max 0 (sxNat 32 ((ringClaim s w.ring + 2 ^ 32 - w.span.start % 2 ^ 32) % 2 ^ 32))).toNat
      ∃ t, exec (.ringAwaitResolve w.id) s = .next t ∧ Resolves s t w g (result s w.ring w.ptr 2 left w.span.start))) ∧
  (∀ s id c g h p team sp pend, AtHead s id c → c.kind = .commit h p team sp pend → pend ≠ 0 → getGroup s c.gid = some g →
    Receives g pend → ringMalformed s h = false → Memory.wf s = true → (∃ a r o, h = .scr a r o) →
    s.rings.contains h = true →
    let ok := ringState s h ≠ 3 ∧ commitOk s h (2 ^ 30 + team) sp = true
    ∃ t, exec (.ringQueuedCommit id) s = .next t ∧
      t = { s with groups := t.groups, copies := s.copies.filter (fun x => x.id ≠ id), dev := t.dev, host := t.host, scratch := t.scratch, written := t.written, carries := t.carries, dcache := t.dcache } ∧
      (ok → Commits s t h sp ∧ t.carries = (addCarries s h 64 c.carry).carries ∧ GroupsBecome s t (filledIn pend (result s h p 0 sp.k sp.start) g)) ∧
      (¬ ok → OnlyBytes s t [] ∧ t.carries = s.carries ∧
        GroupsBecome s t (filledIn pend (result s h p (if ringState s h = 3 then 1 else 5) sp.k sp.start) g))) ∧
  (∀ s x, Subscribed s x true → x.claim = none → ringState s x.ring = 0 →
    ∃ t, exec (.loaderBox x.id) s = .next t ∧ ringClaim t x.ring = (ringClaim s x.ring + x.k) % 2 ^ 32 ∧
      OnlyBytes s t [(x.ring.plus 0x08, 4)] ∧ t.groups = s.groups ∧
      t.subs = s.subs.map fun y => if y.id = x.id then { y with claim := some (ringClaim s x.ring) } else y) ∧
  (∀ s x g, Subscribed s x true → x.claim = none → ringState s x.ring ≠ 0 → getGroup s x.gid = some g →
    Receives g x.pend → ∃ t, exec (.loaderBox x.id) s = .next t ∧ Ends s t x 2 x.done g) ∧
  (∀ s x start s', Subscribed s x true → x.claim = some start → claimFits s x.ring { start, k := x.k } = true →
    subBox s x start = .done s' → Memory.wf s' = true → s'.subs = s.subs → x.done + 1 ≠ x.count →
    (start + 2 ^ 32 - ringVtail s' x.ring) % 2 ^ 32 + x.k ≤ 256 → ∃ t, exec (.loaderBox x.id) s = .next t ∧ Commits s' t x.ring { start, k := x.k } ∧ t.groups = s'.groups ∧
      t.subs = subsWith s { x with done := x.done + 1, claim := none }) ∧
  (∀ s x start s' g, Subscribed s x true → x.claim = some start → claimFits s x.ring { start, k := x.k } = true →
    subBox s x start = .done s' → Memory.wf s' = true → s'.subs = s.subs → x.done + 1 = x.count → getGroup s' x.gid = some g →
    Receives g x.pend → ringState s' x.ring = 0 →
    ∃ t, exec (.loaderBox x.id) s = .next t ∧ Ends s' t x 0 x.count g ∧ (ringState t x.ring = 1 ∨ ringState t x.ring = 2)) ∧
  (∀ s x, Subscribed s x false → x.claim = none →
    ∃ t, exec (.storerBox x.id) s = .next t ∧ ringAwait t x.ring = (ringAwait s x.ring + x.k) % 2 ^ 32 ∧
      OnlyBytes s t [(x.ring.plus 0x10, 4)] ∧ t.groups = s.groups ∧
      t.subs = s.subs.map fun y => if y.id = x.id then { y with claim := some (ringAwait s x.ring) } else y) ∧
  (∀ s x start s', Subscribed s x false → x.claim = some start → awaitDone s x.ring { start, k := x.k } = some none →
    subBox s x start = .done s' → Memory.wf s' = true → s'.subs = s.subs → x.done + 1 ≠ x.count →
    ∃ t, exec (.storerBox x.id) s = .next t ∧ ringHead t x.ring = (ringHead s' x.ring + x.k) % 2 ^ 32 ∧
      OnlyBytes s' t [(x.ring.plus 0x14, 4), (x.ring.plus 1, 1)] ∧ t.groups = s'.groups ∧
      t.subs = subsWith s { x with done := x.done + 1, claim := none }) ∧
  (∀ s x start k g, Subscribed s x false → x.claim = some start → awaitDone s x.ring { start, k := x.k } = some (some k) →
    getGroup s x.gid = some g → Receives g x.pend →
    ∃ t, exec (.storerBox x.id) s = .next t ∧ Ends s t x 2 x.done g)

namespace Sys2Proof.Claims
open Sys2Proof.Machine

/-! ### Barriers (chapter 11) -/

/-- The group after a uniform instruction that pushes `e` onto the g file with the flags `vf`. -/
def pushedOn (vf : Nat) (e : Entry) (h : Group) : Group :=
  completed { flagged vf h with gages := (e :: h.gages).take 20 } (h.pc + 8)

/-- A result entry of R274. -/
def barResult (p : Word) (status ph : Nat) : Quad :=
  BitVec.ofNat 128 (p.toNat * 2 ^ 64 + status * 2 ^ 56 + ph % 2 ^ 32)

/-- The entries of these waits hold what `v` gives; as acquires at a scope they learn what the barrier carries (R280). -/
def answered (ws : List BarWait) (v : BarWait → Quad) (scope : Nat) (ks : List Carry) (k : Group) : Group :=
  (ws.filter fun w => w.gid = k.gid).foldl (fun h w => taught w.id scope ks (filledIn w.id (v w) h)) k

/-- The entries are answered, and the bindings on barrier `b` are raised (R282). -/
def told (b : Loc) (ws : List BarWait) (v : BarWait → Quad) (scope : Nat) (ks : List Carry) (k : Group) : Group :=
  edged (fun x => x.kind == 1 && x.loc == some b) (answered ws v scope ks k)

/-- Waits on a barrier. None of their entries stands in a trap record, in a save record in memory, or in an exit drain. -/
def waitsOn (s : State) (b : Loc) : List BarWait := s.barWaits.filter fun w => w.bar = b
def NoneSaved (s : State) : Prop :=
  ∀ k ∈ s.groups, k.area = none ∧ ∀ w ∈ s.barWaits, (∀ r ∈ k.recs, r.1 ≠ w.id) ∧ (w.gid = k.gid → k.drain = false)

/-- The object lies in a scratchpad or in device memory, which has its canonical form. -/
def HasObject (s : State) (b : Loc) : Prop :=
  Memory.wf s = true ∧ ((∃ a, b = .dev a) ∨ ∃ c r o, b = .scr c r o) ∧ barMalformed s b = false ∧ NoneSaved s

/-- The groups, the waits on barriers, the links between barriers, and memory with what it carries aside, `t` is `s`. -/
def BarsBeside (s t : State) : Prop :=
  t = { s with groups := t.groups, barWaits := t.barWaits, raised := t.raised, releases := t.releases,
               upward := t.upward, carries := t.carries, dev := t.dev, host := t.host, scratch := t.scratch,
               written := t.written, dcache := t.dcache }

/-- A phase completes (R277). -/
def Completes (s t : State) (b : Loc) : Prop :=
  let ph := (barPhase s b + 1) % 2 ^ 32
  let go (w : BarWait) : Prop := 1 ≤ (ph + 2 ^ 32 - w.ph % 2 ^ 32) % 2 ^ 32 ∧ (ph + 2 ^ 32 - w.ph % 2 ^ 32) % 2 ^ 32 < 2 ^ 31
  BarsBeside s t ∧ OnlyBytes s t [(b, 1), (b.plus 8, 8)] ∧ barPhase t b = ph ∧ barArrived t b = 0 ∧
  barCtrl t b = (if ctrlUp (barCtrl s b) then barCtrl s b - 64 else barCtrl s b) ∧
  t.groups = s.groups.map (told b ((waitsOn s b).filter (fun w => go w)) (fun w => barResult w.ptr 0 ph)
    (ctrlLevel (barCtrl s b) + 2) (carriesAt s b 32)) ∧
  t.barWaits = s.barWaits.filter (fun w => ¬ (w.bar = b ∧ go w)) ∧ t.upward = s.upward ∧ t.carries = s.carries ∧
  t.releases = s.releases ++ (s.raised.filter fun r => r.parent = b ∧ r.now = true).map fun r => (r.child, b)

/-- A barrier that no other is linked with breaks (R278). -/
def Alone (s : State) (b : Loc) : Prop :=
  ctrlHasp (barCtrl s b) = false ∧ (∀ r ∈ s.raised, r.child ≠ b ∧ r.parent ≠ b) ∧ (∀ r ∈ s.releases, r.1 ≠ b ∧ r.2 ≠ b) ∧
  ∀ x ∈ s.upward, ∀ c, parentLoc s c x ≠ some b
def Breaks (s t : State) (b : Loc) (fcode : Nat) : Prop :=
  BarsBeside s t ∧ OnlyBytes s t [(b.plus 1, 2)] ∧ barState t b = 2 ∧ ctrlFcode (barCtrl t b) = fcode ∧
  t.groups = s.groups.map (told b (waitsOn s b) (fun w => barResult w.ptr 1 w.ph) 0 []) ∧
  t.barWaits = s.barWaits.filter (fun w => w.bar ≠ b) ∧ t.raised = s.raised ∧ t.releases = s.releases ∧
  t.upward = s.upward.filter (fun x => x ≠ b) ∧ t.carries = s.carries

/-- A barrier is RAISED, with PPH from its parent, and nothing else changes but which arrivals are on their way (R277). -/
def IsRaised (s t : State) (b p : Loc) (onTheWay : List Loc) : Prop :=
  BarsBeside s t ∧ t.groups = s.groups ∧ t.barWaits = s.barWaits ∧ t.raised = s.raised ∧ t.releases = s.releases ∧
  t.carries = s.carries ∧ OnlyBytes s t [(b, 2)] ∧ ctrlUp (barCtrl t b) = true ∧ barState t b = 1 ∧
  ctrlPph (barCtrl t b) = barPhase s p % 16 ∧ t.upward = onTheWay

/-- A barrier arrives at its parent, which waits for more arrivals (R277); what its phase collected is released at the
parent's scope (R280). -/
def Waiting (s : State) (b p : Loc) : Prop :=
  HasObject s p ∧ overlaps b 32 p 32 = false ∧ barState s p = 1 ∧ ctrlUp (barCtrl s p) = false ∧
  barArrived s p + 1 < ctrlTarget (barCtrl s p) ∧ collectedOk s b p = true ∧ childFits s b p = true
def ArrivesAt (s t : State) (b p : Loc) : Prop :=
  BarsBeside s t ∧ t.groups = s.groups ∧ t.barWaits = s.barWaits ∧ t.releases = s.releases ∧
  OnlyBytes s t [(b, 2), (p.plus 0x0C, 4)] ∧ ctrlUp (barCtrl t b) = true ∧ barState t b = 1 ∧
  ctrlPph (barCtrl t b) = barPhase s p % 16 ∧ barArrived t p = barArrived s p + 1 ∧
  t.raised = s.raised ++ [⟨b, p, true⟩] ∧ t.upward = s.upward.filter (fun x => x ≠ b)

/-- The table of R277, with a parent that the arrival does not complete; the arrival of a RAISED barrier waits for the
stores that its phase released (R280), and a bent's barrier counts none from elsewhere (R272, log 124). -/
def Evaluates (s t : State) (ctx : Nat) (b : Loc) : Prop :=
  let c := barCtrl s b
  (¬ (ctrlState c = 1 ∧ ctrlUp c = false ∧ barArrived s b = ctrlTarget c) ∨ 0 < barShort s b → t = s) ∧
  (ctrlState c = 1 → ctrlUp c = false → barArrived s b = ctrlTarget c →
    (barShort s b < 0 → Alone s b → Breaks s t b 0x12) ∧
    (barShort s b = 0 → ctrlHasp c = false → Completes s t b) ∧
    (∀ p, barShort s b = 0 → parentLoc s ctx b = some p → collectedOk s b p = false →
      IsRaised s t b p (b :: s.upward.filter fun x => x ≠ b)) ∧
    (∀ p, barShort s b = 0 → parentLoc s ctx b = some p → collectedOk s b p = true → HasObject s p →
      overlaps b 32 p 32 = false → barState s p = 1 → childFits s b p = false →
      IsRaised s t b p (s.upward.filter fun x => x ≠ b)) ∧
    (∀ p, barShort s b = 0 → parentLoc s ctx b = some p → Waiting s b p → ArrivesAt s t b p))

/-- `t` is `s` but that the issuing group has completed with `e` pushed. -/
def Pushes (s t : State) (gid vf : Nat) (e : Entry) : Prop :=
  ∃ h, getGroup s gid = some h ∧ t = { s with groups := t.groups } ∧ GroupsBecome s t (pushedOn vf e h)

/-- The group has learned, as an acquire at a scope, of the stores that `ks` carry (R229). -/
def learned (s : State) (gid acq : Nat) (ks : List Carry) : State :=
  { s with groups := s.groups.map fun k => if k.gid = gid then taught (s.nextId - 1) acq ks k else k }

/-- `t` is `u` but that group `gid`, as it stands in `u`, has completed with `pc` next. -/
def Finishes (u t : State) (gid : Nat) (pc : Word) : Prop :=
  ∃ h, getGroup u gid = some h ∧ t = { u with groups := t.groups } ∧ GroupsBecome u t (completed h pc)

/-- The group is a participant of the barrier (R272): of the bent at bent level, else of the context that ran BINIT, at
team level of its team, which a later team of the same number is not (R299). -/
def Participates (s : State) (g : Group) (b : Loc) : Prop :=
  let byBinit := s.bteams.find? fun x => x.1 == b
  match b with
  | .dev a => if ctrlLevel (barCtrl s b) = 1 then a / 2 ^ 37 = g.cl / 24 else ∀ x, byBinit = some x → x.2.1 = g.ctx
  | _ => ∀ x, byBinit = some x → x.2 = teamKey s g

/-- A barrier instruction's operand names the object at `b`; `s'` is the state after its checks (R276). -/
def NamesBar (s : State) (g : Group) (f : CP) (more : List Arg) (level : Option Nat) (s' : State) (b : Loc) : Prop :=
  Readable g [0] (.src f.sa :: more) ∧ barLoc (withGroup s (shut g)) (shut g) (operand g f.sa) level = .at' s' b ∧
  objectMayGo s' g.gid b 32 = true ∧ Memory.wf s' = true ∧ ((∃ a, b = .dev a) ∨ ∃ c r o, b = .scr c r o) ∧ NoneSaved s'

/-- Every wait on `b` ends with BROKEN (R276). -/
def dismissed (s : State) (b : Loc) : State :=
  { s with
    groups := s.groups.map (answered (waitsOn s b) (fun w => barResult w.ptr 1 w.ph) 0 [])
    barWaits := s.barWaits.filter (fun w => w.bar ≠ b) }

end Sys2Proof.Claims

/-! ### Barriers -/

namespace Sys2Proof.Claims
open Sys2Proof.Machine

/-- R274, R276: BINIT. -/
def InitialisesBarriers : Prop :=
  ∀ c f s g s' b, Acts s g (.binit c f) c →
    let hasP := f.sub.getLsbD 2
    let args : List Arg := if hasP then [.src f.sa, .src f.sb] else [.src f.sa]
    let level := bitsOf f.sub 1 0
    let n := bitsOf f.imm26 19 0
    let p := operand g f.sa
    NamesBar s g f args.tail (some level) s' b → ¬ (barState s' b = 1 ∧ ctrlUp (barCtrl s' b) = true) →
    let u := dismissed s' b
    let vf := voidFlag g [0] args
    let pushes (t : State) (status : Nat) : Prop :=
      ∃ h, getGroup u g.gid = some h ∧ GroupsBecome u t (pushedOn vf (.val (barResult p status 0)) h)
    let parent := if hasP then some (goodParent u (shut g) level (operand g f.sb)) else none
    let room := level = 0 ∨ slotFree u b level (bitsOf (resolvedPtr (addrCtx s' g) p 32) 5 5) = true
    (n = 0 → ∃ t, exec (.binit c f) s = .next t ∧ pushes t 0 ∧ barState t b = 0 ∧ OnlyBytes s' t [(b.plus 1, 1)] ∧
      t.combiners = s'.combiners.filter fun k => k.bar ≠ b) ∧
    (n ≠ 0 → ¬ room → ∃ t, exec (.binit c f) s = .next t ∧ pushes t 2 ∧ t = { u with groups := t.groups }) ∧
    (n ≠ 0 → room → parent = some none → ∃ t, exec (.binit c f) s = .next t ∧ pushes t 3 ∧ t = { u with groups := t.groups }) ∧
    (n ≠ 0 → room → parent ≠ some none → ∃ t, exec (.binit c f) s = .next t ∧ pushes t 0 ∧ OnlyBytes s' t [(b, 32)] ∧
      readNat t b 8 = 1 + 16 * level + (if hasP then 2 ^ 7 else 0) + 2 ^ 8 + 2 ^ 24 * n ∧
      (∀ k, 8 ≤ k → k < 24 → readByte t (b.plus k) = 0) ∧
      readWord t (b.plus 0x18) = (match parent with | some (some x) => x.2 | _ => 0) ∧
      (b, teamKey s g) ∈ t.bteams ∧
      (∀ a, b = .dev a →
        { bar := b, ctx := g.ctx, bent := if level = 1 then some (a / 2 ^ 37) else none,
          die := bitsOf (resolvedPtr (addrCtx s' g) p 32) 5 5 } ∈ t.combiners) ∧
      ∀ k, k.bar ≠ b → (k ∈ t.combiners ↔ k ∈ s'.combiners))

/-- R273, R276, R277, R280: BARV, and BARW, which waits for the phase that it arrived at and, as an acquire,
learns what that phase carried. A team barrier that is OPEN is
noted with its parent. -/
def ArrivesAtBarriers : Prop :=
  ∀ i c f s g s' b, (i = Instr.barv c f ∨ i = .barw c f) → Acts s g i c → NamesBar s g f [] none s' b →
    barMalformed s' b = false →
    let n := bitsOf f.imm26 15 0
    let vf := voidFlag g [0] [.src f.sa]
    let k := barCtrl s' b
    let entry (status ph : Nat) : Entry := .val (barResult (operand g f.sa) status ph)
    let noted := noteBar s' g.ctx b
    let member : Prop := Participates s' g b
    let refused (status : Nat) : Prop := ∃ t ph, exec i s = .next t ∧ Pushes noted t g.gid vf (entry status ph)
    (ctrlState k = 0 → refused 5) ∧
    (ctrlState k ≠ 0 → ¬ member → refused 4) ∧
    (ctrlState k = 2 → member → refused 1) ∧
    (ctrlState k = 1 → member → ctrlUp k = true ∨ ctrlTarget k < barArrived s' b + n → Alone s' b →
      ∃ u t ph, Breaks noted u b 0x12 ∧ exec i s = .next t ∧ Pushes u t g.gid vf (entry 1 ph)) ∧
    (ctrlState k = 1 → member → ctrlUp k = false → barArrived s' b + n ≤ ctrlTarget k →
      releaseOut s' (shut g) (ctrlLevel k + 2) = none →
      let s1 := writeNat (addCarries noted b 32 (carryOf s' g.gid (ctrlLevel k + 2) s'.nextId)) (b.plus 0x0C) 4
        (barArrived s' b + n)
      let ph := barPhase s' b
      ∃ u t, Evaluates s1 u g.ctx b ∧ exec i s = .next t ∧
        (i = .barv c f → Pushes u t g.gid vf (entry 0 ph)) ∧
        (i = .barw c f → barMalformed u b = false →
          (barState u b = 2 → Pushes (noteBar u g.ctx b) t g.gid vf (entry 1 ph)) ∧
          (barState u b = 1 → barPhase u b ≠ ph → barPhase u b = (ph + 1) % 2 ^ 32 →
            Pushes (learned (noteBar u g.ctx b) g.gid (ctrlLevel (barCtrl u b) + 2) (carriesAt u b 32)) t g.gid vf
              (entry 0 (barPhase u b))) ∧
          (barState u b = 1 → barPhase u b = ph →
            Pushes { noteBar u g.ctx b with nextId := u.nextId + 1, barWaits := u.barWaits ++ [{ id := u.nextId, gid := g.gid, bar := b, ptr := operand g f.sa, ph }] }
              t g.gid vf (.pend u.nextId))))

/-- R276, R280: BWAIT, an acquire of a phase that is over, and BEXP. -/
def AwaitsAndAnnounces : Prop :=
  (∀ c f s g s' b, Acts s g (.bwait c f) c → NamesBar s g f [.src f.sb] none s' b → barMalformed s' b = false →
    let tok := argVal g 0 (.src f.sb)
    let p := operand g f.sa
    let ph := bitsOf tok 31 0
    let vf := voidFlag g [0] [.src f.sa, .src f.sb]
    let mine : Prop := bitsOf tok 127 64 = p.toNat ∧ bitsOf tok 63 56 = 0
    let d := (barPhase s' b + 2 ^ 32 - ph) % 2 ^ 32
    let noted := noteBar s' g.ctx b
    let push (v : Quad) : Prop := ∃ t, exec (.bwait c f) s = .next t ∧ Pushes noted t g.gid vf (.val v)
    (¬ mine → ∃ t, exec (.bwait c f) s = .next t ∧ Pushes s' t g.gid vf (.val (barResult p (bitsOf tok 63 56) ph))) ∧
    (mine → barState s' b = 0 → push (barResult p 5 ph)) ∧
    (mine → barState s' b = 2 → push (barResult p 1 ph)) ∧
    (mine → barState s' b = 1 → 1 ≤ d → d < 2 ^ 31 → ∃ t, exec (.bwait c f) s = .next t ∧
      Pushes (learned noted g.gid (ctrlLevel (barCtrl s' b) + 2) (carriesAt s' b 32)) t g.gid vf
        (.val (barResult p 0 (barPhase s' b)))) ∧
    (mine → barState s' b = 1 → d = 0 ∨ 2 ^ 31 ≤ d → ∃ t, exec (.bwait c f) s = .next t ∧
      Pushes { noted with nextId := s'.nextId + 1, barWaits := s'.barWaits ++ [{ id := s'.nextId, gid := g.gid, bar := b, ptr := p, ph }] }
        t g.gid vf (.pend s'.nextId))) ∧
  (∀ c f s g s' b, Acts s g (.bexp c f) c →
    let r := f.sub.getLsbD 0
    let args : List Arg := if r then [.src f.sa, .src f.sb] else [.src f.sa]
    NamesBar s g f args.tail none s' b → barMalformed s' b = false →
    let x := if r then (argVal g 0 (.src f.sb)).toNat % 2 ^ 32 else f.imm26.toNat
    let h := flagged (voidFlag g [0] args) (shut g)
    let u0 := noteBar (withGroup s' h) g.ctx b
    (barState s' b ≠ 1 → ∃ t, exec (.bexp c f) s = .next t ∧ Finishes u0 t g.gid (g.pc + 8)) ∧
    (barState s' b = 1 → x % 4 ≠ 0 → Alone s' b → ∃ u t, Breaks u0 u b 0x12 ∧ exec (.bexp c f) s = .next t ∧ Finishes u t g.gid (g.pc + 8)) ∧
    (barState s' b = 1 → x % 4 = 0 →
      ∃ u t, Evaluates (writeNat u0 (b.plus 0x10) 4 ((barExpw s' b + x / 4) % 2 ^ 32)) u g.ctx b ∧
        exec (.bexp c f) s = .next t ∧ Finishes u t g.gid (g.pc + 8)))

/-- R277, R278, R280: a release completes the child's phase, with what the parent's carried; a barrier whose slot, link
or tower is lost breaks, with its parent and its children. -/
def ReleasesAndLosses : Prop :=
  (∀ s b r, s.releases.find? (fun r => r.1 == b) = some r → barSaved s b = false → HasObject s b →
    let s1 := { s with releases := s.releases.filter fun r => r.1 ≠ b }
    (barState s b = 1 → ctrlUp (barCtrl s b) = true → ctrlTarget (barCtrl s b) ≠ 0 →
      ∃ t, exec (.barrierParentRelease b) s = .next t ∧ Completes (carryOn s1 r.2 b) t b) ∧
    (¬ (barState s b = 1 ∧ ctrlUp (barCtrl s b) = true) → exec (.barrierParentRelease b) s = .next s1)) ∧
  (∀ s l, (∃ k ∈ s.combiners, k.bar = l) ∨ (∃ x ∈ s.bteams, x.1 = l) → barSaved s l = false → HasObject s l →
    barState s l = 1 →
    (Alone s l → ∃ t, exec (.barrierCombinerLost l) s = .next t ∧ Breaks s t l 0x18) ∧
    (∀ p, parentLoc s (barCtx s l) l = some p → HasObject s p → overlaps l 32 p 32 = false → barState s p = 1 →
      s.raised = [] → s.releases = [] → s.upward = [] → ctrlHasp (barCtrl s p) = false →
      ∃ t, exec (.barrierCombinerLost l) s = .next t ∧ barState t l = 2 ∧ barState t p = 2 ∧
        ctrlFcode (barCtrl t p) = 0x18 ∧ OnlyBytes s t [(l.plus 1, 2), (p.plus 1, 2)]) ∧
    (∀ b now, s.raised = [⟨b, l, now⟩] → s.releases = [] → s.upward = [] → ctrlHasp (barCtrl s l) = false → HasObject s b →
      barSaved s b = false → overlaps l 32 b 32 = false → barState s b = 1 →
      (∀ t, BarsBeside s t → OnlyBytes s t [(l.plus 1, 2)] → ∀ p, parentLoc t (barCtx s l) b = some p → p = l) →
      ∃ t, exec (.barrierCombinerLost l) s = .next t ∧ barState t l = 2 ∧ barState t b = 2 ∧
        OnlyBytes s t [(l.plus 1, 2), (b.plus 1, 2)]))

end Sys2Proof.Claims

/-- R274, R276 to R278: barriers are initialised and retired, count arrivals and announced words, complete their
phases or send them upward, break, and answer the entries that wait. A barrier that stores alone have made takes any
participant (log 101), and a child that its parent does not count stays RAISED (log 124): the model's choices. -/
def Obligations.BarriersCountCompleteAndBreak : Prop :=
  InitialisesBarriers ∧ ArrivesAtBarriers ∧ AwaitsAndAnnounces ∧ ReleasesAndLosses

namespace Sys2Proof.Claims
open Sys2Proof.Machine

/-! ### Events and mailboxes (chapter 10) -/

/-- A binding is pending (R282, R286). -/
def Pending (s : State) (g : Group) (n : Nat) : Prop :=
  ∃ b, g.evbind[n]? = some b ∧ b.kind ≠ 0 ∧
    (if b.kind = 4 ∨ b.kind = 5 then (levelNow s g b).isSome = true else g.evpend.getLsbD n = true)

/-- EVWAIT dispatches binding `n` of a list: the lowest that is listed, unmasked and pending (R288). -/
def Dispatched (s : State) (g : Group) (list : BitVec 16) (n : Nat) : Prop :=
  let may (k : Nat) : Prop := list.getLsbD k = true ∧ g.evmask.getLsbD k = false ∧ Pending s g k
  n < 16 ∧ may n ∧ ∀ k < n, ¬ may k

/-- The payload of a binding (R289). -/
def payloadOf (s : State) (g : Group) (b : Binding) : Nat :=
  let p := bitsOf b.desc 63 0 * 2 ^ 64
  let status := 2 ^ 32 * (levelNow s g b).getD 0
  match b.loc with
  | some l =>
    if b.kind = 1 then barPhase s l + (if barState s l = 2 then 2 ^ 32 else 0) + p
    else if b.kind = 4 then (ringVtail s l + 2 ^ 32 - ringAwait s l) % 2 ^ 32 + status + p
    else if b.kind = 5 then
      min ((ringHead s l + ringSize s l + 2 ^ 32 - ringClaim s l) % 2 ^ 32)
        (256 - (ringClaim s l + 2 ^ 32 - ringVtail s l) % 2 ^ 32) + status + p
    else if b.kind = 2 then 2 ^ 16 * b.q else if b.kind = 3 then g.mbox.length
    else if b.kind = 6 then (getCluster s g.cl).cyc.toNat else 0
  | none =>
    if b.kind = 2 then 2 ^ 16 * b.q else if b.kind = 3 then g.mbox.length
    else if b.kind = 6 then (getCluster s g.cl).cyc.toNat else 0

/-- What a dispatch acquires, and at which scope: a barrier's completed phase, a ring's commits (R280, R289). -/
def dispatchAcquires (s : State) (b : Binding) : Nat × List Carry :=
  match b.loc with
  | some l =>
    if b.kind = 1 ∧ barState s l ≠ 2 then (ctrlLevel (barCtrl s l) + 2, carriesAt s l 32)
    else if b.kind = 4 then (4, carriesAt s l 64) else (0, [])
  | none => (0, [])

/-- Binding `n` becomes `b`, its edge bit set where the source has already moved (R290). -/
def bound (n : Nat) (b : Binding) (moved : Bool) (g : Group) : Group :=
  { g with
    evbind := g.evbind.set n b
    evpend := if moved then g.evpend ||| BitVec.ofNat 16 (2 ^ n) else g.evpend &&& ~~~BitVec.ofNat 16 (2 ^ n) }

/-- The parameter of a descriptor lies within R284. -/
def ParamOk (kind hi : Nat) : Prop :=
  (kind = 1 → hi < 2 ^ 32) ∧ (kind = 4 → 1 ≤ hi ∧ hi ≤ 65536) ∧ (kind = 5 → 1 ≤ hi ∧ hi ≤ 256) ∧ (kind = 6 → hi = 0)

/-- A SOFT binding `n` is raised (R298). -/
def softened (n : Nat) (k : Group) : Group :=
  match k.evbind[n]? with
  | some b => if b.kind = 7 ∧ k.drain = false then { k with evpend := k.evpend ||| BitVec.ofNat 16 (2 ^ n) } else k
  | none => k

/-- Instructions that change the issuing group's event state only (R295, R297, R301). -/
def eventRow (g : Group) : Instr → Option (Ctl × Group)
  | .evmask c f =>
    let m : BitVec 16 := f.imm26.setWidth 16
    some (c, { g with evmask := if f.sub = 0 then m else if f.sub = 1 then g.evmask ||| m else g.evmask &&& ~~~m })
  | .evclr c f => some (c, { g with evpend := g.evpend &&& ~~~(f.imm26.setWidth 16 : BitVec 16) })
  | .mrecv c f =>
    match g.mbox with
    | [] => if f.sub.getLsbD 0 then none else some (c, { g with gages := (.val (BitVec.ofNat 128 (2 ^ 64)) :: g.gages).take 20 })
    | d :: r =>
      some (c, { g with mbox := r, mbhead := (g.mbhead + 1) % 8
                        gages := (.val (BitVec.ofNat 128 (d.toNat + 2 ^ 72 * r.length)) :: g.gages).take 20 })
  | _ => none

/-- The group waits at an instruction. -/
def waits (r : WReason) (g : Group) : Group :=
  { g with st := .waiting, wreason := r, wdcnt := if g.st = .waiting ∧ g.wreason = r then g.wdcnt else 0 }

end Sys2Proof.Claims

/-! ### Events and mailboxes -/

namespace Sys2Proof.Claims
open Sys2Proof.Machine

/-- R284, R290, R294: EVBIND. -/
def BindsEvents : Prop :=
  ∀ c f s g, Acts s g (.evbind c f) c →
    let kind := f.sub.toNat
    let n := bitsOf f.imm26 3 0
    let args : List Arg := if f.sa.zero then [] else [.src f.sa]
    let h := if f.sa.zero then relative g (sxNat 18 (bitsOf f.imm26 25 8)) else operand g f.sa
    let desc : Quad := if kind = 1 ∨ kind = 4 ∨ kind = 5 ∨ kind = 6 then (g.gframes[bitsOf f.imm26 6 4]?).getD 0 else 0
    let b (l : Option Loc) : Binding := { kind, q := f.cq.toNat, j := bitsOf f.imm26 6 4, haddr := h, desc, loc := l, count := 0 }
    let g' := flagged (voidFlag g [0] args) (shut g)
    (kind = 0 → CompletesWith s (.evbind c f) (bound n ⟨0, 0, 0, 0, 0, none, 0⟩ false (shut g)) (g.pc + 8)) ∧
    (kind ≠ 0 → Readable g [0] args → bitsOf h 63 55 = 0 → bitsOf h 2 0 = 0 → ParamOk kind (bitsOf desc 127 64) →
      (kind ≠ 1 → kind ≠ 4 → kind ≠ 5 →
        CompletesWith s (.evbind c f)
          (bound n (b none) ((kind == 3 && !g.mbox.isEmpty) || (kind == 6 && bitsOf desc 63 0 == 0)) g') (g.pc + 8)) ∧
      (∀ s' a rest, kind = 1 ∨ kind = 4 ∨ kind = 5 →
        checkAccess (withGroup s (shut g)) (shut g) .load (if kind = 1 then 32 else 64) false [(0, desc.setWidth 64)] = .ok s' (a :: rest) →
        a.poisoned = false →
        let d := (barPhase s' a.loc + 2 ^ 32 - bitsOf desc 95 64) % 2 ^ 32
        ∃ t, exec (.evbind c f) s = .next t ∧ t = { s' with groups := t.groups } ∧
          GroupsBecome s t (completed
            (bound n (b (some a.loc)) (kind == 1 && (barState s' a.loc == 2 || (1 ≤ d && d < 2 ^ 31))) g') (g.pc + 8))))

/-- R280, R288, R289, R295 to R298, R301: the instructions on a group's own events; a dispatch is an acquire. -/
def TakesEvents : Prop :=
  (∀ i s g c h, Acts s g i c → eventRow (shut g) i = some (c, h) → CompletesWith s i h (g.pc + 8)) ∧
  (∀ c f s g, Acts s g (.mrecv c f) c → g.mbox = [] → f.sub.getLsbD 0 = true →
    ∃ t, exec (.mrecv c f) s = .next t ∧ t = { s with groups := t.groups } ∧ GroupsBecome s t (waits .event (shut g))) ∧
  (∀ c f s g, Acts s g (.evwait c f) c →
    let list : BitVec 16 := f.imm26.setWidth 16
    (∀ n b, Dispatched s g list n → g.evbind[n]? = some b →
      CompletesWith s (.evwait c f)
        (taught (s.nextId - 1) (dispatchAcquires s b).1 (dispatchAcquires s b).2 { shut g with
          gages := (.val (BitVec.ofNat 128 (payloadOf s g b)) :: ((.val (BitVec.ofNat 128 n) :: g.gages).take 20)).take 20
          evpend := g.evpend &&& ~~~BitVec.ofNat 16 (2 ^ n) }) b.haddr) ∧
    ((∀ n, ¬ Dispatched s g list n) →
      ∃ t, exec (.evwait c f) s = .next t ∧ t = { s with groups := t.groups } ∧ GroupsBecome s t (waits .event (shut g)))) ∧
  (∀ c f s g, Acts s g (.evpoll c f) c →
    let list : BitVec 16 := f.imm26.setWidth 16
    ∃ v : Quad, CompletesWith s (.evpoll c f) { shut g with gages := (.val v :: g.gages).take 20 } (g.pc + 8) ∧
      v.toNat < 2 ^ 21 ∧ (∀ n < 16, v.getLsbD n = true ↔ list.getLsbD n = true ∧ Pending s g n) ∧
      (∀ n, Dispatched s g list n → bitsOf v 20 16 = n) ∧ ((∀ n, ¬ Dispatched s g list n) → bitsOf v 20 16 = 16)) ∧
  (∀ c f s g, Acts s g (.evraise c f) c →
    let n := bitsOf f.imm26 3 0
    (f.sa.zero = true → g.area = none → CompletesWith s (.evraise c f) (softened n (shut g)) (g.pc + 8)) ∧
    (f.sa.zero = false → Readable g [0] [.src f.sa] →
      let u := withGroup s (flagged (voidFlag g [0] [.src f.sa]) (shut g))
      (∀ k, groupOfHandle u g.ctx (operand g f.sa) = some k → k.area = none →
        (k.gid = g.gid → ∃ t, exec (.evraise c f) s = .next t ∧
          Finishes { u with groups := u.groups.map fun x => if x.gid = k.gid then softened n x else x } t g.gid (g.pc + 8)) ∧
        (k.gid ≠ g.gid → releaseOut (withGroup s (shut g)) (shut g) 4 = none → ∃ t, exec (.evraise c f) s = .next t ∧
          let learns (x : Group) : Group := taught (s.nextId - 1) 4 (carryOf s g.gid 4 s.nextId) (softened n x)
          Finishes { u with groups := u.groups.map fun x => if x.gid = k.gid then learns x else x } t g.gid (g.pc + 8))) ∧
      (groupOfHandle u g.ctx (operand g f.sa) = none → ∃ t, exec (.evraise c f) s = .next t ∧ Finishes u t g.gid (g.pc + 8))))

/-- R282, R288, R300: messages, timers, and a group that waits in EVWAIT. -/
def RoutesEvents : Prop :=
  (∀ c f s g, Acts s g (.msend c f) c →
    let ls := execLanes g c
    let args : List Arg := [.src f.sa, .src f.sb]
    Readable g ls args → g.stPoison = [] → lostStore s g.gid = none → cstOf s g.gid < 15 → ls ≠ [] →
    ∃ t, exec (.msend c f) s = .next t ∧ t = { s with groups := t.groups, nextId := s.nextId + 1 + ls.length, msgs := t.msgs } ∧
      GroupsBecome s t (completed (pushedEntry c (pendAt (s.nextId + 1) ls) (flagged (voidFlag g ls args) (shut g))) (g.pc + 8)) ∧
      t.msgs = s.msgs ++ ls.mapIdx fun k l =>
        { id := s.nextId + 1 + k, op := s.nextId, gid := g.gid, ctx := g.ctx, target := (argVal g l (.src f.sa)).setWidth 64,
          data := (argVal g l (.src f.sb)).setWidth 64, scope := f.sub.toNat }) ∧
  (∀ c f s g, Acts s g (.msend c f) c → execLanes g c = [] → CompletesWith s (.msend c f) (shut g) (g.pc + 8)) ∧
  (∀ s m, s.msgs.find? (fun x => x.id == m.id) = some m → (∀ x ∈ s.msgs, x.gid = m.gid → x.target = m.target → m.id ≤ x.id) →
    releaseSettled s m.gid m.scope m.op = true → storesPlaced s m.gid m.op = true →
    (∀ k ∈ s.groups, k.area = none ∧ (∀ r ∈ k.recs, r.1 ≠ m.id) ∧ (k.gid = m.gid → k.drain = false)) →
    let left := s.msgs.filter fun x => x.id ≠ m.id
    let reply (status : Nat) (k : Group) : Group := if k.gid = m.gid then filledIn m.id (BitVec.ofNat 128 status) k else k
    let gone : Prop := ∃ t, exec (.mailDeliver m.id) s = .next t ∧ t = { s with msgs := left, groups := s.groups.map (reply 1) }
    (groupOfHandle s m.ctx m.target = none → gone) ∧
    (∀ k, groupOfHandle s m.ctx m.target = some k →
      (k.drain = true → gone) ∧
      (k.drain = false → 8 ≤ k.mbox.length → exec (.mailDeliver m.id) s = .next s) ∧
      (k.drain = false → k.mbox.length < 8 →
        let posted (x : Group) : Group := if x.gid = k.gid then edged (fun b => b.kind == 3)
          (taught (s.nextId - 1) (if m.scope = 0 then 0 else 4) (carryOf s m.gid m.scope m.op) { x with mbox := x.mbox ++ [m.data] }) else x
        exec (.mailDeliver m.id) s = .next { s with msgs := left, groups := s.groups.map fun x => reply 0 (posted x) }))) ∧
  (∀ s g b (n : BitVec 4), getGroup s g.gid = some g → g.evbind[n.toNat]? = some b → b.kind = 6 →
    let p := bitsOf b.desc 63 0
    p ≠ 0 → p ≤ b.count → g.area = none →
    ∃ t, exec (.timerEdge g.gid n) s = .next t ∧ t = { s with groups := t.groups } ∧
      GroupsBecome s t { g with
        evbind := g.evbind.set n.toNat { b with count := b.count - p }
        evpend := if g.drain then g.evpend else g.evpend ||| BitVec.ofNat 16 (2 ^ n.toNat) }) ∧
  (∀ s g, getGroup s g.gid = some g → g.st = .waiting → g.wreason = .event →
    exec (.eventDispatch g.gid) s = .next { s with resume := [g.gid] })

end Sys2Proof.Claims

/-- R282, R284, R286, R288 to R290, R294 to R298, R300, R301: what binds, raises, dispatches and clears events,
and how messages travel. -/
def Obligations.EventsAndMailReachTheirGroups : Prop := BindsEvents ∧ TakesEvents ∧ RoutesEvents

namespace Sys2Proof.Claims
open Sys2Proof.Machine

/-! ### System registers, the way back from a trap, waiting (chapters 4, 10, 14, 15) -/

/-- GANGREG's fields (R170). -/
def gangFields (k : GangReg) : Nat :=
  k.gsz % 4 + 2 ^ 4 * (k.gst % 4) + 2 ^ 8 * (k.memb % 8) + 2 ^ 12 * k.own.toNat + 2 ^ 16 * (k.gid % 256) +
    2 ^ 32 * (k.seq % 256) + 2 ^ 40 * (k.done % 256)

/-- A register of the issuing group's team, zero in a group without one. -/
def ofTeam (s : State) (g : Group) (f : Team → Nat) : Nat := match teamOf s g with | some t => f t | none => 0

/-- SLICE (R330). -/
def sliceFields (s : State) (t : Team) : Nat :=
  let aff := match getSlice s t.ctx t.seq with | some x => x.aff.toNat | none => 0
  let late : Bool := t.overdue || decide (t.dl ≤ (getCluster s t.cl).cyc.toNat)
  aff + 2 ^ 8 * (t.ecls % 8) + (if late then 2 ^ 11 else 0) + 2 ^ 12 * (t.prio % 16) + 2 ^ 32 * (t.seq % 2 ^ 32)

/-- What SRD reads in lane `l` from the register of each number of R65 (R87, R170, R171, R327, R330, R348). -/
def systemRegister (s : State) (g : Group) (l : Nat) (num : Nat) : Option Nat :=
  let b := getBent s (g.cl / 24)
  let free (z : Nat) : Bool := tileFree s g.cl (g.core / 2) z
  match num with
  | 0x000 => some (if g.ident.spawned then l else g.ident.gidx * (if g.ident.g16 then 16 else 32) + l)
  | 0x001 => some l
  | 0x002 => some g.ident.gidx
  | 0x003 => some g.ident.team.toNat
  | 0x004 => some g.ident.nteam.toNat
  | 0x005 => some g.ident.ngrp
  | 0x006 => some g.rank
  | 0x007 => some (g.cl / 24)
  | 0x008 => some g.core
  | 0x009 => some (handleOf s g).toNat
  | 0x00A => some (getCluster s g.cl).cyc.toNat
  | 0x00B => some g.emask.toNat
  | 0x00C => some g.amask.toNat
  | 0x010 => some g.mode.toNat
  | 0x011 => some g.flags.toNat
  | 0x012 => some (gangFields g.gang)
  | 0x013 => some (((upTo 4).map fun z => if free z then 0 else 2 ^ (4 + z)).sum + if engineNarrow s g.cl (g.core / 2) then 2 ^ 8 else 0)
  | 0x014 => some (b.h % 8 + (if b.h = 0 then 2 ^ 3 else 0) + 2 ^ 8 * (b.hseq % 256))
  | 0x020 => some g.evpend.toNat
  | 0x021 => some g.evmask.toNat
  | 0x030 => some g.cstk.toNat
  | 0x031 => some g.cslim.toNat
  | 0x040 => some g.tcause.toNat
  | 0x041 => some g.tpc.toNat
  | 0x042 => some g.taddr.toNat
  | 0x043 => some g.trgn.toNat
  | 0x044 => some g.tvec.toNat
  | 0x050 => some ((g.segs[0]?).getD 0).toNat
  | 0x051 => some ((g.segs[1]?).getD 0).toNat
  | 0x052 => some ((g.segs[2]?).getD 0).toNat
  | 0x053 => some ((g.segs[3]?).getD 0).toNat
  | 0x054 => some ((g.segls[0]?).getD 0).toNat
  | 0x055 => some ((g.segls[1]?).getD 0).toNat
  | 0x056 => some ((g.segls[2]?).getD 0).toNat
  | 0x057 => some ((g.segls[3]?).getD 0).toNat
  | 0x060 => some 0
  | 0x061 => some g.wdog.toNat
  | 0x070 => some (ofTeam s g (sliceFields s))
  | 0x071 => some (ofTeam s g fun t => (BitVec.ofInt 64 t.rem).toNat)
  | 0x072 => some (ofTeam s g (·.dl))
  | _ => none

/-- The group after SWR (R5, R31, R46, R65, R348). -/
def written (v : Word) (num : Nat) (g : Group) : Group :=
  let w : BitVec 32 := v.setWidth 32
  match num with
  | 0x010 => { g with mode := if bitsOf w 2 0 = 0 ∨ bitsOf w 2 0 = 7 then (w &&& 0x001F3F38) ||| 1 else w &&& 0x001F3F3F }
  | 0x011 => { g with flags := w &&& 0x7F }
  | 0x030 => { g with cstk := v }
  | 0x031 => { g with cslim := v }
  | 0x040 => { g with tcause := w &&& 0xFFFF }
  | 0x041 => { g with tpc := v }
  | 0x042 => { g with taddr := v }
  | 0x043 => { g with trgn := v &&& 0x007FFFFFFFFFFFF9 }
  | 0x044 => { g with tvec := v }
  | 0x061 => { g with wdog := w }
  | _ => g

/-- The team after SWR of one of its registers (R329, R330). -/
def teamWritten (s : State) (v : Word) (num : Nat) (t : Team) : Team :=
  match num with
  | 0x070 => { t with prio := bitsOf v 15 12, ecls := bitsOf v 10 8 }
  | 0x071 => { t with rem := v.toInt, budgetDue := false }
  | 0x072 => { t with dl := v.toNat, overdue := decide (v.toNat ≤ (getCluster s t.cl).cyc.toNat) }
  | _ => t

/-- A position of a trap record as TRET reads it: pending where its data has not come (R343, R348). -/
def recordEntry (s : State) (g : Group) (l : Loc) : Entry :=
  match g.recs.find? (fun r => r.2 == l) with
  | some r => .pend r.1
  | none => .val (readQuad s l)

/-- The single step as a TRET that restores CSTK to `p` leaves it (R348): SSTEP arms one, the frame that an asynchronous
entry interrupted gets its own back, and a stepped TRET has been stepped. That an entry interrupts one is the model's
choice (log 95). -/
def stepAfterReturn (g : Group) (p : Word) : StepArm :=
  if g.tcause.getLsbD 11 then .armed
  else match g.step with
    | .off | .due _ => .off
    | .armed => .due g.pc
    | .paused a q => if q = p then (match a with | none => .armed | some x => .due x) else .paused a q

/-- The group after TRET, from its record at `b` (R344, R348). -/
def treturned (s : State) (b : Loc) (g : Group) : Group :=
  { threadsWhere g.emask.getLsbD (fun l t => { t with
      ages := (upTo (min ((readByte s (b.plus (0x2990 + l))).toNat % 32) 20)).map fun k => recordEntry s g (b.plus (k * 0x200 + l * 0x10))
      preds := BitVec.ofNat 16 ((upTo 16).map fun p => 2 ^ p * (readNat s (b.plus (0x2940 + 4 * p)) 4 / 2 ^ l % 2)).sum
      pcnt := readNat s (b.plus 0x2980) 16 / 16 ^ l % 16 }) g with
    gages := (upTo (min (readNat s (b.plus 0x29B4) 4 % 32) 20)).map fun k => recordEntry s g (b.plus (0x2800 + 16 * k))
    amask := BitVec.ofNat 32 (readNat s (b.plus 0x29B0) 4) &&& g.emask
    recs := g.recs.filter (fun r => !(inside r.2 1 b 0x29C0))
    cstk := g.cstk - 0x29C0, prv := g.tcause.getLsbD 8, tmk := g.tcause.getLsbD 9, hnd := false
    pc := g.tpc, st := .ready, wreason := .none, wdcnt := 0, step := stepAfterReturn g (g.cstk - 0x29C0) }

/-- A region restarts from its latches (R123). -/
def restarted (g : Group) : Group :=
  { g with
    pc := g.rpc, amask := g.ramask, st := .ready, wreason := .none, wdcnt := 0, fault := none, served := false
    gages := (g.glatch.take g.rlg).map .val
    threads := g.threads.mapIdx fun l t =>
      if g.ramask.getLsbD l then { t with preds := t.rpred, ages := (t.latch.take g.rln).map .val, pcnt := g.rcnt }
      else { t with preds := t.rpred } }

/-- A trap of `g` can be entered at `b`, and nothing of the group's breaks with it. -/
def Enterable (s : State) (g : Group) (b : Loc) : Prop :=
  CanEnter s g b ∧ InRange g ∧ Memory.wf s = true ∧ gangOf s g.gid = none ∧ s.rings = []

end Sys2Proof.Claims

/-! ### System registers -/

namespace Sys2Proof.Claims
open Sys2Proof.Machine

/-- R65, R87, R330, R348: SRD, SWR, SEGSET, SNAPT. -/
def ReadsAndWritesRegisters : Prop :=
  (∀ c f s g, Acts s g (.srd c f) c → (∀ l, (systemRegister s g l f.sreg.toNat).isSome = true) →
    CompletesWith s (.srd c f)
      (pushed c (fun l => BitVec.ofNat 128 ((systemRegister s g l f.sreg.toNat).getD 0)) g) (g.pc + 8)) ∧
  (∀ c f s g, Acts s g (.swr c f) c → Readable g [0] [.src f.sa] → (systemRegister s g 0 f.sreg.toNat).isSome = true →
    let v := operand g f.sa
    ∃ t, exec (.swr c f) s = .next t ∧ t = { s with groups := t.groups, teams := t.teams } ∧
      GroupsBecome s t (completed (flagged (voidFlag g [0] [.src f.sa]) (written v f.sreg.toNat g)) (g.pc + 8)) ∧
      t.teams = s.teams.map fun x => if x.ctx = g.ctx ∧ x.no = g.teamNo then teamWritten s v f.sreg.toNat x else x) ∧
  (∀ c f s g, Acts s g (.segset c f) c → Readable g [0] [.src f.sa, .src f.sb] →
    let n := bitsOf f.imm16 1 0
    CompletesWith s (.segset c f)
      { flagged (voidFlag g [0] [.src f.sa, .src f.sb]) g with
        segs := g.segs.set n (operand g f.sa), segls := g.segls.set n ((operand g f.sb).setWidth 32) } (g.pc + 8)) ∧
  (∀ c f s g, Acts s g (.snapt c f) c →
    let x := s.snap
    ∃ t, exec (.snapt c f) s = .next t ∧ GroupsBecome s t (completed g (g.pc + 8)) ∧
      t = { s with
        groups := t.groups
        snap := if x.valid = true ∨ x.busy = true then { x with lost := min (x.lost + 1) 65535 }
                else { x with tag := f.imm16, seq := (x.seq + 1) % 256, busy := true } })

/-- R228, R342, R344, R348: TRET, which reads its record after the group's earlier acquires and accesses, TMASK, which
delivers the held trap of the lowest code, and the single step. -/
def LeavesHandlers : Prop :=
  (∀ c f s g b, Acts s g (.tret c f) c → stackLoc s g (g.cstk - 0x29C0) 0x29C0 = .ok b →
    stackSwaps s g (g.cstk - 0x29C0) = false → objectReady s g.gid b 0x29C0 = true →
    askedToHalt s g = false → g.held = [] ∨ g.tcause.getLsbD 9 = true →
    ∃ t, exec (.tret c f) s = .next t ∧ t = { s with groups := t.groups } ∧ GroupsBecome s t (settleArms 2 (treturned s b g))) ∧
  (∀ c f s g, Acts s g (.tmaskMask c f) c → CompletesWith s (.tmaskMask c f) { g with tmk := true, hnd := true } (g.pc + 8)) ∧
  (∀ c f s g, Acts s g (.tmaskUnmask c f) c →
    (g.held = [] → askedToHalt s g = false → CompletesWith s (.tmaskUnmask c f) { g with tmk := false } (g.pc + 8)) ∧
    (∀ h b, h ∈ g.held → (∀ x ∈ g.held, x ≠ h → h.1.code < x.1.code) →
      let k := { completed { g with tmk := false } (g.pc + 8) with held := g.held.filter fun x => x.1 ≠ h.1 }
      Enterable s k b → ∃ t, exec (.tmaskUnmask c f) s = .next t ∧ Enters s t k h.1 true k.pc h.2 b)) ∧
  (∀ s g a b, getGroup s g.gid = some g → g.step = .due a → g.st = .ready → Enterable s g b →
    ∃ t, exec (.step g.gid) s = .next t ∧ Enters s t g .step false g.pc a b)

/-- R79, R80, R123, R126, R329, R357, R358, R376: what ends a wait. -/
def EndsWaits : Prop :=
  (∀ s g, getGroup s g.gid = some g → g.st = .waiting →
    (g.wreason ≠ .pflt → g.wreason ≠ .nap → g.drain = false → mayIssue s g = true →
      exec (.groupWake g.gid) s = .next { s with resume := [g.gid] }) ∧
    (g.drain = true → coverWait s g 0 0 0 = none →
      (countersZero s g.gid = true → ∃ t, exec (.exitRetire g.gid) s = .next t ∧ getGroup t g.gid = none) ∧
      (countersZero s g.gid = false → ∃ t, exec (.exitRetire g.gid) s = .next t ∧ t = { s with groups := t.groups } ∧
        GroupsBecome s t { waits .cnt g with drain := true, awaits := 0 })) ∧
    (g.wreason = .pflt → g.served = true →
      ∃ t, exec (.regionRestart g.gid) s = .next t ∧ t = { s with groups := t.groups } ∧ GroupsBecome s t (restarted g)) ∧
    (g.wreason = .nap → g.wdcnt = 0 → ∃ t, exec (.napExpiry g.gid) s = .next t ∧ Finishes s t g.gid (g.pc + 8)) ∧
    (∀ b, g.wreason.counts = true → g.wdog ≠ 0xFFFFFFFF → 0 < g.wdcnt → g.wdog.toNat ≤ g.wdcnt →
      Enterable s g b → ∃ t, exec (.wdog g.gid) s = .next t ∧
        Enters (perfCount s g.cl 0x0A 1) t g .wdog true g.pc (BitVec.ofNat 64 g.wreason.code) b)) ∧
  (∀ s x g b, getTeam s x.ctx x.no = some x → x.budgetDue = true →
    (s.groups.filter fun k => k.ctx = x.ctx ∧ k.teamNo = x.no) = [g] → getGroup s g.gid = some g → g.st ≠ .saved →
    Enterable s g b →
    ∃ t, exec (.budget x.ctx x.no) s = .next t ∧
      Enters { s with teams := s.teams.map fun y => if y.ctx = x.ctx ∧ y.no = x.no then { y with budgetDue := false } else y }
        t g .budget true g.pc (BitVec.ofNat 64 (x.index % 2 ^ 32)) b)

end Sys2Proof.Claims

/-- R65, R87, R348: each register of R65 reads as its chapter says and takes what SWR writes; segments; the snapshot
trigger; the way back from a handler, with the traps that were held; the single step, whose pause is the model's choice
(log 95). -/
def Obligations.SystemRegistersAndReturn : Prop := ReadsAndWritesRegisters ∧ LeavesHandlers

/-- R79, R80, R123, R126, R329, R358: a blocked group issues again, an emptied group retires, a served region restarts,
a nap ends, the watchdog and the budget trap. -/
def Obligations.WaitsEnd : Prop := EndsWaits

namespace Sys2Proof.Claims
open Sys2Proof.Machine

/-! ### Teams, spawning, deadlines (chapter 13) -/

/-- The fields of a team's header (R308). -/
def stackBytes (hdr : Word) : Nat := bitsOf hdr 47 32 * 256
def windowSize (hdr : Word) : Nat := bitsOf hdr 23 16 * 32768
def groupsOf (hdr : Word) : Nat := if bitsOf hdr 15 8 = 0 then 128 else bitsOf hdr 15 8

/-- A pointer to byte `o` of the own scratchpad (R197). -/
def ownPointer (o : Nat) : Word := BitVec.ofNat 64 (1 * 2 ^ 61 + 0x1FFF * 2 ^ 48 + o)

/-- A group as its launch leaves it: READY at `entry` with its first `n` threads, these entries, and the call stack
between `lo` and `hi`; all else as R78 says. -/
def Launched (g : Group) (c : Context) (t : Team) (entry : Word) (n : Nat) (ages : Nat → List Quad) (gs : List Quad)
    (lo hi : Nat) : Prop :=
  g.ctx = c.id ∧ g.teamNo = t.no ∧ g.cl = t.cl ∧ g.rank = t.rank ∧ g.st = .ready ∧ g.wreason = .none ∧ g.pc = entry ∧
  g.emask = BitVec.ofNat 32 (2 ^ n - 1) ∧ g.amask = g.emask ∧ g.threads.length = 32 ∧
  (∀ l < 32, (threadAt g l).ages = (if l < n then (ages l).map .val else []) ∧ (threadAt g l).preds = 0 ∧ (threadAt g l).pcnt = 0) ∧
  g.gages = gs.map .val ∧ g.dstk = [] ∧ g.ropen = false ∧ g.mode = 1 ∧ g.flags = 0 ∧ g.cdepth = 0 ∧ g.evmask = 0 ∧ g.evpend = 0 ∧
  g.mbox = [] ∧ g.gang.gst = 0 ∧ g.prv = false ∧ g.tmk = false ∧ g.hnd = false ∧ g.tvec = c.tvec ∧ g.wdog = c.wdog ∧
  g.cstk = ownPointer lo ∧ g.cslim = ownPointer hi

/-- The deadline that a slice has on a cluster's list, and whether it has passed (R324, R325). -/
def listed (s : State) (cl : Nat) (x : Slice) : Option Cand := s.cands.find? fun k => k.cl == cl && k.ctx == x.ctx && k.seq == x.seq

/-- The team of a slice as it is placed with these numbers (R299, R310, R329). -/
def placed (x : Slice) (cl rank : Nat) (p : Placement) (index size dl : Nat) (late spawned : Bool) : Team :=
  { ctx := x.ctx, no := p.teamNo, gen := p.gen, seq := x.seq, index, cl, rank, wb := p.wb, wsize := size, hdr := x.hdr
    rem := x.tbudget, dl, overdue := late, prio := x.prio, ecls := x.ecls, spawned, yielded := false, yielding := false
    budgetDue := false }

/-- The key of a lane's spawn: its slice and its entry address (R331). -/
def spawnKey (s : State) (g : Group) (f : CP) (l : Nat) : Nat × Word :=
  (ofTeam s g (·.seq), (argVal g l (.src f.sa)).setWidth 64)

/-- The arguments of a SPAWN (R331). -/
def spawnOperands (f : CP) : List Arg := (upTo (f.sub.toNat / 2)).map fun i => .src (.a (BitVec.ofNat 4 (bitsOf f.imm26 3 0 + i)))

/-- A group but for the fence that its restore counts as (R225). -/
def unfenced (g : Group) : Group := { g with fences := [] }

/-- A group whose restore has only to place it (R79). -/
def PlainReturn (s : State) (g : Group) : Prop :=
  g.wreason ≠ .pflt ∧ g.held = [] ∧ g.heard = [] ∧ g.area = none ∧ (∀ r ∈ s.stores, r.gid = g.gid → r.st ≠ .lost) ∧
  ∀ v, .val v ∈ g.gages → bitsOf v 63 56 ≠ 0xFF

/-- The generation that a team number was last given, and a placement that follows it (R299). -/
def lastGen (s : State) (ctx no : Nat) : Option Nat := (s.teamGens.find? fun x => x.1 == ctx && x.2.1 == no).map (·.2.2)
def FollowsGen (s : State) (ctx : Nat) (p : Placement) : Prop :=
  p.gen < 2 ^ 16 ∧ ∀ n, lastGen s ctx p.teamNo = some n → p.gen = (n + 1) % 2 ^ 16

/-- A bin whose fill stage becomes its launch stage. -/
def staged (key : Nat × Word) (order : Nat) (b : Bin) : Bin :=
  { b with lkey := key, launch := b.fill, filled := if b.due = 0 then order else b.due, fill := [], timer := 0, due := 0 }

end Sys2Proof.Claims

/-! ### Teams, spawning, deadlines, power -/

namespace Sys2Proof.Claims
open Sys2Proof.Machine

/-- R331, R332: SPAWN appends each participating thread to the bin of its key, and waits where none can be had; a
stage that fills moves. -/
def Spawns : Prop :=
  ∀ c f s g, Acts s g (.spawn c f) c →
    let ls := parts c g
    let args := .src f.sa :: spawnOperands f
    let key := spawnKey s g f
    let n := if g.ident.g16 then 16 else 32
    let row (l : Nat) : List Quad := (spawnOperands f).map (argVal g l)
    Readable g ls args → (∀ l ∈ ls, bitsOf (key l).2 63 55 = 0 ∧ bitsOf (key l).2 2 0 = 0) →
    (ls = [] → CompletesWith s (.spawn c f) (shut g) (g.pc + 8)) ∧
    (ls ≠ [] → makeBins (withGroup s (shut g)) g.ctx g.rank (ls.map key).eraseDups (ls.map key).eraseDups = none →
      ∃ t, exec (.spawn c f) s = .next t ∧ t = { s with groups := t.groups } ∧ GroupsBecome s t (waits .spawnf (shut g))) ∧
    (∀ s', ls ≠ [] → makeBins (withGroup s (shut g)) g.ctx g.rank (ls.map key).eraseDups (ls.map key).eraseDups = some s' →
      releaseOut (withGroup s (shut g)) (shut g) 4 = none → (s'.bins.map (·.id)).Nodup →
      let mine (b : Bin) (l : Nat) : Bool := (keyBin s' g.ctx g.rank (key l)).map (·.id) == some b.id
      (∀ b ∈ s'.bins, b.fill.length + (ls.filter (mine b)).length < n) →
      ∃ t, exec (.spawn c f) s = .next t ∧
        t = { s' with groups := t.groups, bins := t.bins, nextId := s'.nextId + ls.length } ∧
        GroupsBecome s t (completed (flagged (voidFlag g ls args) (shut g)) (g.pc + 8)) ∧
        t.bins.map (fun b => { b with used := 0 }) =
          s'.bins.map fun b => { b with fill := b.fill ++ (ls.filter (mine b)).map row, used := 0 }) ∧
    (∀ l b, ls = [l] → keyBin (withGroup s (shut g)) g.ctx g.rank (key l) = some b → b.fill.length + 1 = n → b.launch = [] →
      releaseOut (withGroup s (shut g)) (shut g) 4 = none →
      ∃ t, exec (.spawn c f) s = .next t ∧ t.bins = s.bins.map fun x => if x.id = b.id then
        staged (key l) (s.nextId + 1) { b with fill := b.fill ++ [row l], used := s.nextId + 1 } else x)

/-- R332, R333: the timer moves a stage; a launch stage becomes a group of a team of its own. -/
def LaunchesBins : Prop :=
  (∀ s b, s.bins.find? (fun x => x.id == b.id) = some b → b.fill ≠ [] → binSpt s b ≤ b.timer →
    ∃ t, exec (.spawnBinTimer b.id) s = .next t ∧ t = { s with bins := t.bins, nextId := s.nextId + 1 } ∧
      t.bins = s.bins.map fun x => if x.id = b.id then
        (if x.launch = [] then
          (match x.key with | some k => if x.fill = [] then x else staged k (s.nextId + 1) x | none => x)
         else { x with due := if x.due = 0 then s.nextId + 1 else x.due }) else x) ∧
  (∀ s b c x p, s.bins.find? (fun y => y.id == b.id) = some b → getCtx s b.ctx = some c → getSlice s b.ctx b.lkey.1 = some x →
    b.launch ≠ [] → b.launch.length ≤ 32 → ctxRuns s b.ctx = true → launchRoom s x b.rank = true → olderStage s b = false →
    (∀ k, p.cores[0]? = some k → k < 16 ∧ coreLoad s b.ctx b.rank k < 8) → p.cores ≠ [] →
    windowFree s b.ctx b.rank p.wb (stackBytes x.hdr) = true → p.wb % 256 = 0 → numberFree s b.ctx p.teamNo = true →
    FollowsGen s b.ctx p →
    let cl := (c.ranks[b.rank]?).getD 0
    ∃ t g tm dl late, exec (.spawnBinLaunch b.id p) s = .next t ∧
      t = { s with nextId := s.nextId + 1, teams := s.teams ++ [tm], groups := s.groups ++ [g], bins := t.bins, teamGens := t.teamGens } ∧
      lastGen t b.ctx p.teamNo = some p.gen ∧ (∀ ctx no, (ctx, no) ≠ (b.ctx, p.teamNo) → lastGen t ctx no = lastGen s ctx no) ∧
      tm = placed x cl b.rank p (2 ^ 32 - 1) (stackBytes x.hdr) dl late true ∧
      (∀ k, listed s cl x = some k → dl = k.dl) ∧
      Launched g c tm b.lkey.2 b.launch.length (fun l => (b.launch[l]?).getD [])
        [BitVec.ofNat 128 x.args.toNat, 0xFFFFFFFF, 0] p.wb (p.wb + stackBytes x.hdr) ∧
      g.gid = s.nextId ∧ some g.core = p.cores[0]? ∧
      g.ident = { gidx := 0, team := 0xFFFFFFFF, nteam := BitVec.ofNat 32 x.teams, ngrp := 1, spawned := true, g16 := x.hdr.getLsbD 4 } ∧
      (b.due = 0 → t.bins = s.bins.map fun y => if y.id = b.id then { y with launch := [] } else y)) 

/-- R299, R310, R324, R326, R328, R335: selection, placement, deadlines and YIELD. -/
def PlacesTeams : Prop :=
  (∀ l k, selectPick l = some k → k ∈ l ∧ k.eligible = true ∧
    ∀ x ∈ l, x.eligible = true → k.dl < x.dl ∨ (k.dl = x.dl ∧ k.seq ≤ x.seq)) ∧
  (∀ s cl c rank k x p, ownerOf s cl = some (c, rank) → c.st = .running → selectPick (candidates s c.id rank cl) = some k →
    k.team = none → getSlice s c.id k.seq = some x → placementOk s x cl rank p = true →
    ∃ t gs dl late, exec (.teamPlace cl p) s = .next t ∧
      let tm := placed x cl rank p x.nextTeam (windowSize x.hdr) dl late false
      (∀ e, listed s cl x = some e → dl = e.dl) ∧
      t = { s with
        nextId := s.nextId + p.cores.length, teams := s.teams ++ [tm], groups := s.groups ++ gs, teamGens := t.teamGens
        slices := s.slices.map fun y => if y.ctx = c.id ∧ y.seq = x.seq then
          { y with nextTeam := y.nextTeam + 1, st := if y.nextTeam + 1 = y.teams then .launched else .launching } else y } ∧
      lastGen t c.id p.teamNo = some p.gen ∧ (∀ n, lastGen s c.id p.teamNo = some n → p.gen = (n + 1) % 2 ^ 16) ∧
      gs.length = groupsOf x.hdr ∧
      ∀ i core, p.cores[i]? = some core → ∃ g, gs[i]? = some g ∧ g.gid = s.nextId + i ∧ g.core = core ∧
        let n := if x.hdr.getLsbD 4 then 16 else 32
        let lim := p.wb + windowSize x.hdr - i * stackBytes x.hdr
        g.ident = { gidx := i, team := BitVec.ofNat 32 x.nextTeam, nteam := BitVec.ofNat 32 x.teams, ngrp := groupsOf x.hdr
                    spawned := false, g16 := x.hdr.getLsbD 4 } ∧
        Launched g c tm x.entry n (fun l => [BitVec.ofNat 128 (i * n + l), BitVec.ofNat 128 x.nextTeam])
          [BitVec.ofNat 128 x.args.toNat, BitVec.ofNat 128 x.nextTeam, BitVec.ofNat 128 i] (lim - stackBytes x.hdr) lim) ∧
  (∀ s cl c rank k no tm p, ownerOf s cl = some (c, rank) → c.st = .running → selectPick (candidates s c.id rank cl) = some k →
    k.team = some no → getTeam s c.id no = some tm → yieldFits s tm p = true → (s.groups.map (·.gid)).Nodup →
    let mine (g : Group) : Prop := g.ctx = tm.ctx ∧ g.teamNo = tm.no
    (∀ g ∈ s.gangs, ¬ (g.ctx = tm.ctx ∧ g.teamNo = tm.no)) →
    (∀ g ∈ s.groups, mine g → PlainReturn s g) →
    let back := s.groups.filter fun g => g.ctx == tm.ctx && g.teamNo == tm.no
    ∃ t, exec (.teamPlace cl p) s = .next t ∧
      t = { s with
        nextId := s.nextId + back.length, groups := t.groups
        resume := s.resume ++ (back.filter fun g => g.wreason != .none).map (·.gid)
        teams := s.teams.map fun y => if y.ctx = tm.ctx ∧ y.no = tm.no then
          { y with yielded := false, dl := min (2 ^ 64 - 1) ((getCluster s y.cl).cyc.toNat + y.dl) } else y } ∧
      t.groups.map unfenced = s.groups.map fun g => unfenced (if mine g then
        { g with cl := tm.cl, core := (p.cores[g.ident.gidx]?).getD 16, st := if g.wreason = .none then .ready else .waiting } else g)) ∧
  (∀ s cl ctx seq, exec (.deadlineExpire cl ctx seq) s = .next { s with cands := s.cands.map fun k =>
    if k.cl = cl ∧ k.ctx = ctx ∧ k.seq = seq then { k with overdue := k.overdue || decide (k.dl ≤ (getCluster s k.cl).cyc.toNat) } else k }) ∧
  (∀ c f s g x, Acts s g (.yield c f) c → teamOf s g = some x →
    let full (y : Team) : Team := { y with rem := (match getSlice s y.ctx y.seq with | some z => (z.tbudget : Int) | none => y.rem), budgetDue := false }
    let u := { withGroup s (shut g) with teams := s.teams.map fun y => if y.ctx = g.ctx ∧ y.no = g.teamNo then full y else y }
    ∃ t, exec (.yield c f) s = .next t ∧ GroupsBecome s t (completed (shut g) (g.pc + 8)) ∧
      t = { s with groups := t.groups, teams := t.teams } ∧
      t.teams = s.teams.map fun y => if y.ctx = g.ctx ∧ y.no = g.teamNo then
        (if x.hdr.getLsbD 6 = true ∧ yieldWanted u x = true then { full y with yielding := true } else full y) else y)

/-- R408: at the end of a period a bent's level falls at once to the target and rises by one. -/
def SetsPowerLevels : Prop :=
  ∀ s (bent : BitVec 3) watts hot,
    let b := getBent s bent.toNat
    let percent (t : Nat) : Prop := watts * 100 < t * b.bcap
    mainPower s = true → 1024 ≤ b.period →
    ∃ t h, exec (.powerPeriod bent watts hot) s = .next t ∧
      t = { s with bents := s.bents.mapIdx fun i x => if i = bent.toNat then
        { x with h, hseq := if h = x.h then x.hseq else (x.hseq + 1) % 256, period := 0 } else x } ∧
      let target := if hot then 0 else if percent 50 then 7 else if percent 60 then 6 else if percent 70 then 5
        else if percent 80 then 4 else if percent 88 then 3 else if percent 94 then 2 else if percent 100 then 1 else 0
      (target ≤ b.h → h = target) ∧ (b.h < target → h = b.h + 1)

end Sys2Proof.Claims

/-- R299, R310, R324, R326, R328, R331 to R333, R335, R408: spawn bins fill, move and launch; the scheduler selects,
places and restores teams; deadlines pass; a team yields; a bent's power level follows its power. -/
def Obligations.TeamsAndBinsAreScheduled : Prop := Spawns ∧ LaunchesBins ∧ PlacesTeams ∧ SetsPowerLevels

namespace Sys2Proof.Claims
open Sys2Proof.Machine

/-! ### Contexts, partitions and code objects (chapters 12 to 14) -/

/-- A context that gives up its partition (R337): its next request stands behind those made before. -/
def idled (s : State) (st : CtxState) (c : Context) : Context := { c with st, ranks := [], ts := none, th := none, req := s.nextId }

/-- The scratchpads of a context are gone. -/
def ScratchGone (s t : State) (ctx : Nat) : Prop :=
  t.scratch = s.scratch.filter (fun x => x.ctx ≠ ctx) ∧ t.dev = s.dev ∧ t.host = s.host

/-- A slice with teams to place or running. -/
def liveSlices (s : State) (ctx : Nat) : List Slice := s.slices.filter fun x => x.ctx = ctx ∧ x.st ≠ .done ∧ x.st ≠ .killed

/-- The candidate entries of a slice on these clusters (R322, R324). -/
def delivered (s : State) (ctx : Nat) (cls : List Nat) (x : Slice) : List Cand :=
  (cls.filter fun cl => x.aff.getLsbD (cl / 24)).map fun cl =>
    { cl, ctx, seq := x.seq, dl := min (2 ^ 64 - 1) (if x.deadline = 0 then 2 ^ 64 - 1 else (getCluster s cl).cyc.toNat + x.deadline), overdue := false }

/-- The conditions of a grant (R168, R273, R336). -/
def MayGrant (s : State) (c : Context) (cls : List Nat) (cores : List (Nat × Nat)) : Prop :=
  getCtx s c.id = some c ∧ s.pkg = .ready ∧ grantTurn s c = true ∧ clustersFit s c cls = true ∧
  parentsFit (fetchRanks s c) c.id cls = true ∧ coresGranted s c.id cores = true ∧
  gangsFit s (gangSpots s c.id cls cores) = true

/-- Shadows that other contexts have on clusters: context, rank, cluster (R355). -/
def shadowsOn (s : State) (c : Context) (cls : List Nat) : List (Nat × Nat × Nat) :=
  (s.ctxs.filter fun x => x.id != c.id).flatMap fun x => (x.shadow.filter fun y => cls.contains y.2).map fun y => (x.id, y)

/-- Nothing but the groups' files and places has to move with a saved context. -/
def Simple (s : State) (ctx : Nat) : Prop :=
  (s.groups.map (·.gid)).Nodup ∧ (∀ k ∈ s.gangs, k.ctx ≠ ctx) ∧ (∀ x ∈ s.subs, x.ctx ≠ ctx) ∧
  (∀ b ∈ knownBars s, ∀ c k o, b = .scr c k o → c ≠ ctx) ∧ ∀ g ∈ s.groups, g.ctx = ctx → PlainReturn s g

/-- The groups that come back with a saved context: those of teams that have not yielded. -/
def comingBack (s : State) (ctx : Nat) : List Group :=
  s.groups.filter fun g => g.ctx == ctx && (match teamOf s g with | some x => !x.yielded | none => true)

/-- A load of `o` in context `c` ends with a status (R302): that of the checks at the placement tried, LOAD_NOMEM where
that leaves too little room, or, where no placement has room, that of the checks at the link addresses or LOAD_NOMEM. -/
def LoadFails (s : State) (c : Context) (o : CodeObj) (tried : LoadTry) (status : Nat) : Prop :=
  let im := imageOf s o.image o.len
  let secs := (readSecs im).getD []
  let fixed : Prop := im 16 2 = some 2
  let bias := if im 16 2 = some 2 then 0 else tried.vbase
  let sits : Prop := sitsAt s c secs bias = true
  ((fixed ∨ sits) ∧ readElf im bias = .error status) ∨
  ((fixed ∨ sits) ∧ status = 7 ∧ ∃ e, readElf im bias = .ok e ∧
    (¬ sits ∨ tried.frames < framesNeeded s c e bias tried.stub ∨ tried.names < e.exports.length)) ∨
  (¬ fixed ∧ (∀ x, sitsAt s c secs x = false) ∧ (readElf im 0 = .error status ∨ (status = 7 ∧ ∃ e, readElf im 0 = .ok e)))

/-- No group's wait on a barrier has to take its saved form, and no two groups share a number. -/
def NoForms (s : State) : Prop := s.barWaits = [] ∧ (s.groups.map (·.gid)).Nodup

/-- A group that halts (R79). -/
def savedGroup (g : Group) : Group := { g with st := .saved, peerOk := none }

end Sys2Proof.Claims

/-! ### Contexts and code objects -/

namespace Sys2Proof.Claims
open Sys2Proof.Machine

/-- R322, R324, R325, R336, R355: a partition is granted. -/
def GrantsPartitions : Prop :=
  ∀ s c cls cores, MayGrant s c cls cores →
    let granted := s.ctxs.map fun x => if x.id = c.id then { x with st := .running, ranks := cls, shadow := [] } else x
    (c.st = .idle → shadowsOn s c cls = [] → ∃ t, exec (.partitionGrant c.id cls cores) s = .next t ∧ t.ctxs = granted ∧
      t.cands = s.cands ++ (liveSlices s c.id).flatMap (delivered s c.id cls) ∧ ScratchGone s t c.id ∧ t.groups = s.groups ∧ t.teams = s.teams) ∧
    (c.st = .idle → Memory.wf s = true → (s.ctxs.map (·.id)).Nodup → ∀ x r cl, shadowsOn s c cls = [(x, r, cl)] →
      ∃ t, exec (.partitionGrant c.id cls cores) s = .next t ∧
        (∀ k ∈ t.ctxs, k.id = x → ∀ y ∈ k.shadow, y.1 ≠ r) ∧ (∀ k ∈ t.scratch, (k.ctx, k.rank) ≠ (x, r)) ∧
        (∀ o < 0x600000, readByte t (.dev (Config.saveArea x r + o)) = readByte s (.scr x r o)) ∧
        (∀ g ∈ t.groups, g.ctx = x → g.rank = r → g.st = .saved → g.area ≠ none) ∧
        ∀ k ∈ t.gangs, k.ctx = x → k.away = true → (∃ z, getTeam t k.ctx k.teamNo = some z ∧ z.rank = r) → k.area ≠ none) ∧
    (c.st = .saved → Simple s c.id → shadowsOn s c cls = [] → Memory.wf s = true →
      ∃ t, exec (.partitionGrant c.id cls cores) s = .next t ∧ t.dev = s.dev ∧
        ∀ r < c.savedRanks, (∀ y ∈ c.shadow, y.1 ≠ r) → (∀ k ∈ s.scratch, (k.ctx, k.rank) ≠ (c.id, r)) →
          ∀ o < 0x600000, readByte t (.scr c.id r o) = readByte s (.dev (Config.saveArea c.id r + o))) ∧
    (c.st = .saved → Simple s c.id → shadowsOn s c cls = [] → (∀ r < c.savedRanks, ∃ y ∈ c.shadow, y.1 = r) →
      let back := comingBack s c.id
      ∃ t, exec (.partitionGrant c.id cls cores) s = .next t ∧ t.ctxs = granted ∧
      t.nextId = s.nextId + back.length ∧
      t.resume = s.resume ++ (back.filter fun g => g.wreason != .none).map (·.gid) ∧
      t.cands = s.cands ++ (liveSlices s c.id).flatMap (delivered s c.id cls) ∧
      t.scratch = s.scratch ∧ t.dev = s.dev ∧
      t.teams = s.teams.map (fun x => let cl := (cls[x.rank]?).getD 0
        if x.ctx ≠ c.id then x else if x.yielded then { x with cl }
        else { x with cl, dl := min (2 ^ 64 - 1) ((getCluster s cl).cyc.toNat + x.dl) }) ∧
      t.groups.map unfenced = s.groups.map fun g => unfenced (
        if g.ctx = c.id ∧ (∀ x, teamOf s g = some x → x.yielded = false) then
          { g with cl := (cls[g.rank]?).getD 0, core := grantCore cores g.gid, st := if g.wreason = .none then .ready else .waiting }
        else g))

/-- R325, R337, R351, R352: a drained context is IDLE, a halted one SAVED. -/
def EndsPreemption : Prop :=
  (∀ s c, getCtx s c.id = some c → c.st = .draining → drained s c.id = true →
    ∃ t, exec (.contextDrained c.id) s = .next t ∧ getCtx t c.id = some (idled s .idle c) ∧ ScratchGone s t c.id ∧
      t.groups = s.groups ∧ t.queues = s.queues ∧ t.objs = s.objs ∧ t.slices = s.slices ∧
      t.cands = s.cands.filter (fun k => k.ctx ≠ c.id) ∧ t.copies = s.copies.filter (fun x => x.ctx ≠ c.id) ∧
      t.bins = s.bins.filter fun b => b.ctx ≠ c.id) ∧
  (∀ s c, getCtx s c.id = some c → c.st = .saving → NoForms s →
    (∀ g ∈ s.groups, g.ctx = c.id → g.st = .saved ∨ haltReady s g = true) →
    (∀ k ∈ s.gangs, k.ctx = c.id → k.ops = [] ∧ k.tileOps = []) →
    ∃ t, exec (.contextHalted c.id) s = .next t ∧
      getCtx t c.id = some { idled s .saved c with savedRanks := c.ranks.length, shadow := c.ranks.mapIdx fun r cl => (r, cl) } ∧
      t.scratch = s.scratch ∧ t.dev = s.dev ∧ t.cands = s.cands.filter (fun k => k.ctx ≠ c.id) ∧
      t.groups = s.groups.map (fun g => if haltReady s g = true then savedGroup g else g) ∧
      t.teams = s.teams.map fun x => if x.ctx = c.id ∧ x.yielded = false then
        let late := x.dl - (getCluster s x.cl).cyc.toNat
        { x with overdue := x.overdue || decide (x.dl ≤ (getCluster s x.cl).cyc.toNat), dl := late, yielding := false } else x) ∧
  (∀ s c g w, getCtx s c.id = some c → c.st = .saving → s.groups = [g] → g.ctx = c.id → haltReady s g = true → s.gangs = [] →
    s.barWaits = [w] → w.gid = g.gid → g.gages = [.pend w.id] → w.ph < 2 ^ 32 →
    ∃ t h, exec (.contextHalted c.id) s = .next t ∧ t.barWaits = [] ∧ t.groups = [h] ∧ h.st = .saved ∧
      h.gages = [.val (BitVec.ofNat 128 (w.ptr.toNat * 2 ^ 64 + 0xFF * 2 ^ 56 + 1 * 2 ^ 48 + w.ph))]) ∧
  (∀ s c, getCtx s c.id = some c → c.st = .draining → c.ts = some 0 → NoForms s →
    let hard (x : Context) : Context := { x with st := .saving, ts := none, th := some (if c.thSet = 0 then 8192 else c.thSet) }
    let u := { s with ctxs := s.ctxs.map fun x => if x.id = c.id then hard x else x }
    ∃ t, exec (.softTimeout c.id) s = .next t ∧ t.ctxs = u.ctxs ∧ t.scratch = s.scratch ∧ t.dev = s.dev ∧ t.teams = s.teams ∧
      t.groups = s.groups.map fun g => if haltReady u g = true then savedGroup g else g)

/-- R337, R354: a hard request that runs out resets the context by force, and the reset ends IDLE or ABSENT. -/
def ResetsContexts : Prop :=
  (∀ s c, getCtx s c.id = some c → c.st = .saving → c.th = some 0 →
    ∃ t c', exec (.hardTimeout c.id) s = .next t ∧ getCtx t c.id = some c' ∧ c'.st = .resetting ∧ c'.ts = none ∧ c'.th = none ∧
      (∀ x ∈ t.combiners, x.ctx ≠ c.id) ∧ (∀ x ∈ t.copies, x.ctx ≠ c.id) ∧ (∀ b ∈ t.bins, b.ctx ≠ c.id) ∧ ∀ m ∈ t.msgs, m.ctx ≠ c.id) ∧
  (∀ s c, getCtx s c.id = some c → c.st = .resetting → c.destroy = false →
    ∃ t, exec (.resetDone c.id) s = .next t ∧ getCtx t c.id = some (idled s .idle c) ∧ ScratchGone s t c.id ∧
      t.queues = s.queues ∧ t.objs = s.objs) ∧
  (∀ s c, getCtx s c.id = some c → c.st = .resetting → c.destroy = true → c.dels = [] → (∀ q ∈ s.queues, q.ctx = c.id → q.dels = []) →
    ∃ t, exec (.resetDone c.id) s = .next t ∧ t.ctxs.filter (fun x => x.id ≠ c.id) = t.ctxs ∧ ScratchGone s t c.id ∧
      t.queues = s.queues.filter (fun x => x.ctx ≠ c.id) ∧ t.objs = s.objs.filter (fun x => x.ctx ≠ c.id) ∧
      t.slices = s.slices.filter (fun x => x.ctx ≠ c.id) ∧ (∀ x ∈ t.tlb, x.asid ≠ c.asid) ∧ ∀ x ∈ t.icache, x.asid ≠ c.asid)

/-- R302, R309, R390: a load ends with a READY object or with none; a drained object goes. -/
def EndsLoads : Prop :=
  (∀ s c o plan e u, getCtx s c.id = some c → getObj s c.id o.num = some o → o.st = .loading → o.held = [] →
    let im := imageOf s o.image o.len
    let bias := if im 16 2 = some 2 then 0 else plan.vbase
    readElf im bias = .ok e → planOk s c e bias plan = true → mapPages c.root s plan.tables (loadPages c e bias plan) plan.frames = some u →
    ∃ t o', exec (.loadComplete c.id o.num plan) s = .next t ∧ getObj t c.id o.num = some o' ∧
      o'.st = .ready ∧ o'.kernels = e.kernels ∧ o'.exports = e.exports ∧ o'.text = e.text ∧ o'.notes = e.notes ∧ o'.image = o.image ∧
      (∀ x, (x.ctx, x.num) ≠ (c.id, o.num) → (x ∈ t.objs ↔ x ∈ s.objs)) ∧ t.groups = s.groups ∧ t.teams = s.teams) ∧
  (∀ s c o tried status, getCtx s o.ctx = some c → getObj s o.ctx o.num = some o → o.st = .loading → o.held = [] →
    LoadFails s c o tried status → status ≠ 0 →
    let t := completeIn s o.ctx o.q o.index 0 0x05 false o.tag (status + 2 ^ 8 * o.num) o.nocpl
    exec (.loadReject o.ctx o.num tried) s = .next { t with objs := t.objs.filter fun x => !(x.ctx == o.ctx && x.num == o.num) }) ∧
  (∀ s c o, getCtx s c.id = some c → getObj s c.id o.num = some o → o.st = .draining → o.before = [] →
    ∃ t, exec (.codeObjectDrained c.id o.num) s = .next t ∧ t.objs = s.objs.filter (fun x => !(x.ctx == c.id && x.num == o.num)) ∧
      t.groups = s.groups ∧
      (∀ p, Memory.wf s = true → o.mapped = [p] → (∀ x ∈ s.objs, x.ctx = c.id → x.linkage = []) →
        (walkFrom s c.root (p * 65536)).kind = .page → (∃ a, (walkFrom s c.root (p * 65536)).at' = .dev a) →
        readWord t (walkFrom s c.root (p * 65536)).at' = 0))

end Sys2Proof.Claims

/-- R309, R322, R324, R325, R336, R337, R351, R352, R354, R355: a partition is granted, given up, drained, saved and
reset; a code object becomes READY, is rejected, or goes. The order of the
parts of a save area (log 52), and that a rejected load's packet ends with STATUS OK and what makes it LOAD_NOMEM
(log 71), are the model's choices. -/
def Obligations.ContextsAndObjectsChangeState : Prop := GrantsPartitions ∧ EndsPreemption ∧ ResetsContexts ∧ EndsLoads

namespace Sys2Proof.Claims
open Sys2Proof.Machine

/-! ### Command queues (chapter 15) -/

/-- The packets. -/
def packetForm : Instr → Option Packet
  | .nopPacket p | .ctxnew p | .ctxdel p | .qnew p | .qdel p | .load p | .unload p | .launch p | .preempt p | .tinvq p
  | .poolAdd p | .poolTake p | .retry p | .migrate p | .offline p | .signal p | .waitmem p | .census p | .badkind p => some p
  | _ => none

/-- The queue of a packet may take it (R388). -/
def MayTake (s : State) (p : Packet) (x : Queue) : Prop :=
  getQueue s p.q = some x ∧ s.pkg = .ready ∧ x.st = .running ∧ x.head ≠ x.tail

/-- It waits for the earlier packets of its queue (R390). -/
def Follows (p : Packet) : Prop := (p.word 0).getLsbD 8 = true ∨ p.kind = 0x0E

/-- It is taken and acts on state `u` (R389 to R392). -/
def AcceptsTo (s : State) (p : Packet) (x : Queue) (u : State) : Prop :=
  MayTake s p x ∧ (Follows p → x.live = []) ∧ packetStatus p = 0 ∧ u = acceptPacket s x p

/-- The packet's queue with nothing left to take is IDLE (R392). -/
def settled (u : State) (q : Nat) : State :=
  { u with queues := u.queues.map fun x => if x.id = q ∧ x.st = .running ∧ x.head = x.tail then { x with st := .idle } else x }

/-- The packet has ended with a status and a RESULT (R391, R394). -/
def ended (u : State) (p : Packet) (x : Queue) (status result : Nat) : State :=
  settled (complete u p.q x.head status p.kind false (bitsOf (p.word 0) 63 32) result ((p.word 0).getLsbD 9)) p.q

/-- The lowest id from 1 that nothing has. -/
def Lowest (used : Nat → Bool) (limit id : Nat) : Prop :=
  1 ≤ id ∧ id < limit ∧ used id = false ∧ ∀ j, 1 ≤ j → j < id → used j = true

/-- A queue's mask under R16. -/
def maskOf (s : State) (m : BitVec 8) : BitVec 8 :=
  BitVec.ofNat 8 (((upTo 8).filter fun b => (if m = 0 then true else m.getLsbD b) && (getBent s b).online).map fun b => 2 ^ b).sum

/-- A record's 64-bit words at a location. -/
def WordsAt (t : State) (l : Loc) (ws : List Nat) : Prop := ∀ k < ws.length, readNat t (l.plus (8 * k)) 8 = ((ws[k]?).getD 0) % 2 ^ 64

/-- The ids in use. -/
def ctxUsed (s : State) (i : Nat) : Bool := (getCtx s i).isSome
def queueUsed (s : State) (i : Nat) : Bool := (getQueue s i).isSome
/-- A queue id that a new queue does not get: a packet of it may still be to end (log 66). -/
def idTaken (s : State) (i : Nat) : Bool := queueUsed s i || idAwaited s i

/-- The word of register 0x4000 (R411). -/
def snapshotWord (p : Snap) : Word :=
  BitVec.ofNat 64 (p.tag.toNat * 2 ^ 32 + p.lost * 2 ^ 16 + p.seq * 2 ^ 8 + (if p.busy then 2 else 0) + if p.valid then 1 else 0)

/-- R385, R411: a register of the window and what a read of it returns. -/
def registerHolds (s : State) (off : Nat) (v : Word) : Prop :=
  off = 0x0000 ∧ v = s.admq ∨ off = 0x0008 ∧ v = s.jbase ∨ off = 0x0010 ∧ v = BitVec.ofNat 64 s.jlg ∨
  off = 0x0018 ∧ v = BitVec.ofNat 64 s.jnext ∨ off = 0x5000 ∧ v = s.pcsel ∨ off = 0x4000 ∧ v = snapshotWord s.snap ∨
  ∃ k j r, j < 16 ∧ off = 0x10000 + 0x80 * k + 8 * j ∧ s.snap.recs.find? (fun x => x.1 == k) = some r ∧ v = (r.2[j]?).getD 0

/-- Queue `q` after `f`. -/
def queuesWith (s : State) (q : Nat) (f : Queue → Queue) : List Queue := s.queues.map fun x => if x.id = q then f x else x

end Sys2Proof.Claims

/-! ### Packets and queues -/

namespace Sys2Proof.Claims
open Sys2Proof.Machine

/-- R388, R390, R392: a packet that must wait blocks its queue; one that is not well formed, of a kind that the queue
does not accept or of no kind, ends with its status. -/
def TakesPackets : Prop :=
  (∀ i p s x, packetForm i = some p → MayTake s p x → Follows p → x.live ≠ [] →
    exec i s = .next { s with queues := queuesWith s p.q fun x => { x with st := .blocked, blocked := p.words, taken := false } }) ∧
  (∀ i p s x, packetForm i = some p → MayTake s p x → (Follows p → x.live = []) → packetStatus p ≠ 0 →
    exec i s = .next (ended (acceptPacket s x p) p x (packetStatus p) 0)) ∧
  (∀ p : Packet, (packetStatus p = 1 ↔ 0x10 < p.kind) ∧
    (packetStatus p = 2 ↔ p.kind ≤ 0x10 ∧ p.kind ∉ [0x00, 0x0E, 0x0F] ∧
      ¬ (p.kind ∈ [0x01, 0x02, 0x03, 0x04, 0x0A, 0x0D, 0x10] ↔ p.q = 0)))

/-- R391, R392, R394: what the acceptance and the end of a packet write. -/
def RecordsPackets : Prop :=
  (∀ s x p j, getQueue s x.id = some x → Memory.wf s = true → physLoc s.jbase = some j →
    let t := acceptPacket s x p
    let h := (x.head + 1) % 2 ^ 32
    t.jnext = s.jnext + 1 ∧ t.queues = queuesWith s x.id (fun y => { y with head := h, live := y.live ++ [x.head] }) ∧
    WordsAt t (j.plus (64 * (s.jnext % 2 ^ s.jlg)))
      [s.jnext, 1 + 2 ^ 16 * (x.ctx % 2 ^ 16) + 2 ^ 32 * (x.id % 2 ^ 10), x.head % 2 ^ 32 + 2 ^ 32 * bitsOf (p.word 0) 63 32] ∧
    (∀ d, physLoc x.desc = some d → overlaps (d.plus 0x20) 4 (j.plus (64 * (s.jnext % 2 ^ s.jlg))) 64 = false →
      readNat t (d.plus 0x20) 4 = h)) ∧
  (∀ s q x l index status kind (isEnd : Bool) tag result nocpl, getQueue s q = some x → Memory.wf s = true → physLoc x.cpl = some l →
    status < 256 → kind < 256 →
    let t := complete s q index status kind isEnd tag result nocpl
    let done (y : Queue) : Queue := { y with live := y.live.filter (· ≠ index) }
    t.jnext = s.jnext + 1 ∧
    (nocpl = true → t.queues = queuesWith s q done) ∧
    (nocpl = false → t.queues = queuesWith s q (fun y => { done y with ncpl := y.ncpl + 1 }) ∧
      WordsAt t (l.plus (16 * (x.ncpl % 2 ^ x.lgc)))
        [index % 2 ^ 32 + 2 ^ 32 * status + 2 ^ 40 * kind + (if isEnd then 2 ^ 48 else 0) + 2 ^ 56 * (x.ncpl / 2 ^ x.lgc % 255 + 1),
         tag % 2 ^ 32 + 2 ^ 32 * (result % 2 ^ 32)]))

/-- R386, R388, R390, R392: the packets on memory and on queues. -/
def ActsOnQueues : Prop :=
  (∀ p s x u, AcceptsTo s p x u → exec (.nopPacket p) s = .next (ended u p x 0 0)) ∧
  (∀ p s x u, AcceptsTo s p x u →
    (physLoc (p.word 1) = none → exec (.signal p) s = .next (ended u p x 3 0)) ∧
    (∀ l, physLoc (p.word 1) = some l → lineQuiet s l 8 = true →
      exec (.signal p) s = .next (ended (deviceWord u l (p.word 2)) p x 0 0))) ∧
  (∀ p s x u, AcceptsTo s p x u →
    (physLoc (p.word 1) = none → exec (.waitmem p) s = .next (ended u p x 3 0)) ∧
    (∀ l, physLoc (p.word 1) = some l →
      let v := readWord u l
      let holds : Prop := if (p.word 3).getLsbD 0 then (p.word 2).toNat ≤ v.toNat else v = p.word 2
      (holds → exec (.waitmem p) s = .next (ended u p x 0 0)) ∧
      (¬ holds → exec (.waitmem p) s = .next
        { u with queues := queuesWith u p.q fun y => { y with st := .blocked, blocked := p.words, taken := true } }))) ∧
  (∀ p s x u, AcceptsTo s p x u →
    (readDescriptor u (p.word 1) 0 = none → exec (.qnew p) s = .next (ended u p x 3 0)) ∧
    (∀ d, readDescriptor u (p.word 1) 0 = some d →
      (d.ctx = 0 → exec (.qnew p) s = .next (ended u p x 3 0)) ∧
      (d.ctx ≠ 0 → ctxUsed u d.ctx = false → exec (.qnew p) s = .next (ended u p x 5 0)) ∧
      (d.ctx ≠ 0 → ctxUsed u d.ctx = true → maskOf u d.aff = 0 → exec (.qnew p) s = .next (ended u p x 4 0)) ∧
      (∀ id, d.ctx ≠ 0 → ctxUsed u d.ctx = true → maskOf u d.aff ≠ 0 → Lowest (idTaken u) 1024 id →
        exec (.qnew p) s = .next (ended (createQueue u { d with id, aff := maskOf u d.aff }) p x 0 id)) ∧
      (d.ctx ≠ 0 → ctxUsed u d.ctx = true → maskOf u d.aff ≠ 0 → (∀ id, 1 ≤ id → id < 1024 → idTaken u id = true) →
        exec (.qnew p) s = .next (ended u p x 6 0)))) ∧
  (∀ p s x u, AcceptsTo s p x u →
    let id := bitsOf (p.word 1) 9 0
    (id = 0 → exec (.qdel p) s = .next (ended u p x 3 0)) ∧
    (id ≠ 0 → getQueue u id = none → exec (.qdel p) s = .next (ended u p x 5 0)) ∧
    (∀ y, id ≠ 0 → id ≠ p.q → getQueue u id = some y → y.st ≠ .draining → y.st ≠ .blocked →
      (launchesLeft u id = true → exec (.qdel p) s = .next (settled { u with queues := queuesWith u id fun z =>
        { z with st := .draining, tail := z.head, blocked := [], dels := z.dels ++ [(p.q, x.head, bitsOf (p.word 0) 63 32, (p.word 0).getLsbD 9)] } } p.q)) ∧
      (launchesLeft u id = false → y.dels = [] → p.kind = 0x04 →
        exec (.qdel p) s = .next (ended { u with queues := u.queues.filter fun z => z.id ≠ id } p x 0 0)))) ∧
  (∀ q s x, getQueue s q = some x → s.pkg = .ready → x.st = .blocked → unblockReady s x = true →
    let u := { s with queues := queuesWith s q fun y => { y with st := .running, blocked := [], taken := false } }
    let p : Packet := { q := x.id, words := x.blocked }
    (x.taken = true → exec (.queueUnblock q) s = .next (settled
      (complete u q ((x.head + 2 ^ 32 - 1) % 2 ^ 32) 0 p.kind false (bitsOf (p.word 0) 63 32) 0 ((p.word 0).getLsbD 9)) q)) ∧
    (∀ i, x.taken = false → packetForm i = some p →
      (match i with
       | .nopPacket _ => p.kind = 0 | .launch _ => p.kind = 7 | .signal _ => p.kind = 0x0E | .waitmem _ => p.kind = 0x0F | _ => False) →
      exec (.queueUnblock q) s = exec i u))

/-- R2, R385, R387, R388, R411, R412: the register window, which is open while a Sill port carries its accesses. -/
def ActsOnRegisters : Prop :=
  (∀ s, windowOpen s = false → (∀ v, exec (.admqWrite v) s = .next s) ∧ (∀ q t, exec (.doorbell q t) s = .next s) ∧
    (∀ off v, exec (.registerWrite off v) s = .next s) ∧ (∀ v, exec (.pcselWrite v) s = .next s) ∧ exec .snapValidClear s = .next s) ∧
  ∀ s, windowOpen s = true →
    (∀ off v, registerHolds s off v → off ≤ 2 ^ 40 →
      exec (.hostAccess off .readRegister) s = .next { s with hostReplies := s.hostReplies ++ [bytesOf 8 v.toNat] }) ∧
    (∀ v,
      (queueUsed s 0 = true → exec (.admqWrite v) s = .next (journal s 8 0 0 0 0 0 [0, v.toNat])) ∧
      (queueUsed s 0 = false → readDescriptor s v 0 = none →
        exec (.admqWrite v) s = .next (journal { s with admq := v } 8 0 0 0 0 0 [0, v.toNat])) ∧
      (∀ d, queueUsed s 0 = false → readDescriptor s v 0 = some d → maskOf s d.aff ≠ 0 →
        exec (.admqWrite v) s = .next (createQueue { s with admq := v } { d with ctx := 0, aff := maskOf s d.aff })) ∧
      (∀ d, queueUsed s 0 = false → readDescriptor s v 0 = some d → maskOf s d.aff = 0 →
        exec (.admqWrite v) s = .next (journal { s with admq := v } 8 0 0 0 0 0 [0, v.toNat]))) ∧
    (∀ q (tail : BitVec 32), (getQueue s q = none → exec (.doorbell q tail) s = .next (journal s 8 0 0 q 0 0 [q, tail.toNat])) ∧
      ∀ x, getQueue s q = some x → x.tail < 2 ^ 32 → x.head < 2 ^ 32 →
        let n := (tail.toNat + 2 ^ 32 - x.head) % 2 ^ 32
        let old := (x.tail + 2 ^ 32 - x.head) % 2 ^ 32
        (x.st = .draining ∨ tail.toNat = x.tail → exec (.doorbell q tail) s = .next s) ∧
        (x.st ≠ .draining → tail.toNat ≠ x.tail → n ≤ old ∨ 2 ^ x.lgs < n →
          exec (.doorbell q tail) s = .next (journal s 8 0 x.ctx q 0 0 [q, tail.toNat])) ∧
        (x.st ≠ .draining → old < n → n ≤ 2 ^ x.lgs → exec (.doorbell q tail) s = .next
          { s with queues := queuesWith s q fun y => { y with tail := tail.toNat, st := if y.st = .idle then .running else y.st } })) ∧
    (∀ v, exec (.pcselWrite v) s = .next { s with pcsel := v, clusters := s.clusters.map fun k => { k with perf := List.replicate 8 0 } }) ∧
    exec .snapValidClear s = .next { s with snap := { s.snap with valid := false, lost := 0 } } ∧
    (∀ off v, exec (.registerWrite off v) s =
      if off = 0 then exec (.admqWrite v) s
      else if 0x1000 ≤ off ∧ off < 0x3000 ∧ off % 8 = 0 then exec (.doorbell ((off - 0x1000) / 8) (v.setWidth 32)) s
      else if off = 0x4000 ∧ v.getLsbD 0 = true then exec .snapValidClear s
      else if off = 0x5000 then exec (.pcselWrite v) s else .next s)

end Sys2Proof.Claims

/-- R385 to R388, R390 to R392, R394, R411, R412: how packets are taken, blocked, recorded and ended; the packets that
act on memory and on queues; the registers of the window. The model's choices: which checks of a packet come first, and
which free id a new queue gets (log 66); an empty mask on ADMQ as a broken descriptor (log 104); a SIGNAL's store after
the writes that have their place on its lines (log 109). -/
def Obligations.QueuesTakeAndEndPackets : Prop := TakesPackets ∧ RecordsPackets ∧ ActsOnQueues ∧ ActsOnRegisters

namespace Sys2Proof.Claims
open Sys2Proof.Machine

/-! ### Packets on contexts, objects, pages and pools (chapter 15) -/

/-- An object as its LOAD leaves it (R302). -/
def loadingObject (c : Context) (p : Packet) (x : Queue) : CodeObj :=
  { ctx := c.id, num := c.nextObj, st := .loading, image := p.word 1, len := (p.word 2).toNat, q := p.q, index := x.head
    tag := bitsOf (p.word 0) 63 32, nocpl := (p.word 0).getLsbD 9, kernels := [], exports := [], linkage := [], mapped := []
    text := [], notes := [], held := [], before := [] }

/-- The record of a CTXNEW lies within R363 and R390. -/
def ContextRecord (u : State) (p : Packet) (l : Loc) : Prop :=
  readNat u l 8 % 65536 = 0 ∧ readNat u l 8 < 2 ^ 40 ∧ readNat u (l.plus 8) 2 < 2 ^ 12 ∧ readNat u (l.plus 10) 2 = 0 ∧
  readNat u (l.plus 12) 4 < 2 ∧ 1 ≤ bitsOf (p.word 4) 39 32 ∧ bitsOf (p.word 4) 39 32 ≤ 192 ∧
  (physLoc (p.word 5)).isSome = true ∧ 4 ≤ bitsOf (p.word 6) 3 0

/-- The root region block of a new context (R320, R390). -/
def RootRegion (u : State) (p : Packet) (l : Loc) (r : Rcb) : Prop :=
  readRcb u (readNat u l 8) (p.word 2) = some r ∧ r.ver = 1 ∧ r.rsv = false ∧ r.parent = 0

/-- A new context (R337, R363, R390). -/
def createdContext (u : State) (p : Packet) (l : Loc) (r : Rcb) (id : Nat) : Context :=
  { id, st := .idle, root := readNat u l 8, asid := readNat u (l.plus 8) 2, gen := 0, evac := readNat u (l.plus 12) 4 == 1
    rcb := p.word 2, prio := if r.ovr.testBit 4 then r.prio else 8, tvec := p.word 3, wdog := BitVec.ofNat 32 (bitsOf (p.word 4) 31 0)
    ncl := bitsOf (p.word 4) 39 32, fring := p.word 5, lgf := bitsOf (p.word 6) 3 0, fcount := 0, nextSeq := 0, nextObj := 1
    ranks := [], savedRanks := 0, ts := none, th := none, thSet := 0, hard := false, req := u.nextId, destroy := false
    shadow := [], pool := List.replicate 8 [], stub := none, dels := [] }

/-- The slice that a LAUNCH creates from a kernel and the effective values of its region (R320, R322). -/
def createdSlice (c : Context) (x : Queue) (p : Packet) (hdr entry : Word) (e : Effective) (aff : BitVec 8) : Slice :=
  { ctx := c.id, seq := c.nextSeq, st := .waiting, hdr, entry, args := p.word 2, teams := bitsOf (p.word 3) 31 0, aff
    deadline := bitsOf (p.word 4) 47 0, tbudget := if p.word 5 = 0 then e.tbudget else (p.word 5).toNat
    ecls := bitsOf (p.word 3) 50 48, rsv := bitsOf (p.word 3) 47 40
    spt := if bitsOf (p.word 7) 15 0 = 0 then 2048 else bitsOf (p.word 7) 15 0, prio := e.prio, chain := e.nodes
    nextTeam := 0, finished := 0, retiring := [], q := x.id, index := x.head, tag := bitsOf (p.word 0) 63 32, nocpl := (p.word 0).getLsbD 9 }

/-- The bents on which a launch may run: the packet's and the queue's masks, online, with clusters of the partition
while there is one (R16, R322, R330, R390). -/
def launchBents (u : State) (c : Context) (x : Queue) (p : Packet) : BitVec 8 :=
  BitVec.ofNat 8 (((upTo 8).filter fun b =>
    (x.aff = 0 || x.aff.getLsbD b) && (bitsOf (p.word 3) 39 32 = 0 || (bitsOf (p.word 3) 39 32).testBit b) &&
    (getBent u b).online && (c.ranks.isEmpty || c.ranks.any fun cl => cl / 24 == b)).map fun b => 2 ^ b).sum

end Sys2Proof.Claims

/-! ### Packets on contexts, objects, pages and pools -/

namespace Sys2Proof.Claims
open Sys2Proof.Machine

/-- R337, R349, R363, R390: contexts are created, destroyed and pre-empted; BADKIND. -/
def ActsOnContexts : Prop :=
  (∀ p s x, MayTake s p x → (Follows p → x.live = []) → 0x10 < p.kind →
    exec (.badkind p) s = .next (ended (acceptPacket s x p) p x 1 0)) ∧
  (∀ p s x u, AcceptsTo s p x u →
    (physLoc (p.word 1) = none → exec (.ctxnew p) s = .next (ended u p x 3 0)) ∧
    (∀ l, physLoc (p.word 1) = some l →
      (¬ ContextRecord u p l ∨ (∀ r, ¬ RootRegion u p l r) → exec (.ctxnew p) s = .next (ended u p x 3 0)) ∧
      (∀ r, ContextRecord u p l → RootRegion u p l r →
        let taken : Prop := ∃ c ∈ u.ctxs, c.asid = readNat u (l.plus 8) 2
        (taken → exec (.ctxnew p) s = .next (ended u p x 6 0)) ∧
        (∀ id, ¬ taken → Lowest (ctxUsed u) 65536 id → exec (.ctxnew p) s = .next
          (ended { u with ctxs := u.ctxs ++ [createdContext u p l r id], nextId := u.nextId + 1 } p x 0 id))))) ∧
  (∀ p s x u, AcceptsTo s p x u →
    let id := bitsOf (p.word 1) 15 0
    (getCtx u id = none → exec (.ctxdel p) s = .next (ended u p x 5 0)) ∧
    let v := destroyContext u id
    let held := settled { v with ctxs := v.ctxs.map fun y => if y.id = id then
      { y with dels := y.dels ++ [(p.q, x.head, bitsOf (p.word 0) 63 32, (p.word 0).getLsbD 9)] } else y } p.q
    (∀ c, getCtx u id = some c →
      (c.st = .idle ∨ c.st = .saved → exec (.ctxdel p) s = .next (ended v p x 0 0) ∧ getCtx v id = none) ∧
      (c.st = .resetting → v = u ∧ (c.destroy = true → exec (.ctxdel p) s = .next held) ∧
        (c.destroy = false → exec (.ctxdel p) s = .next (ended u p x 0 0))) ∧
      (c.st ≠ .idle → c.st ≠ .saved → c.st ≠ .resetting → exec (.ctxdel p) s = .next held ∧
        ∃ c', getCtx v id = some c' ∧ c'.st = .resetting ∧ c'.destroy = true))) ∧
  (∀ p s x u c, AcceptsTo s p x u → getCtx u x.ctx = some c →
    let ts := bitsOf (p.word 2) 31 0
    let th := bitsOf (p.word 2) 63 32
    let hard : Prop := (p.word 1).getLsbD 0 = true ∨ ts = 0
    (hard → c.st = .running ∨ c.st = .draining → exec (.preempt p) s = .next (ended (startHard u x.ctx th) p x 0 0)) ∧
    (¬ hard → c.st = .running → exec (.preempt p) s = .next (ended
      { u with ctxs := u.ctxs.map fun y => if y.id = x.ctx then { y with st := .draining, ts := some ts, thSet := th } else y } p x 0 0)) ∧
    (¬ hard → c.st = .draining → exec (.preempt p) s = .next (ended u p x 0 0)) ∧
    (c.st ≠ .running → c.st ≠ .draining → exec (.preempt p) s = .next (ended u p x 0 0)))

/-- R302, R309, R320, R322, R330, R390: LOAD, UNLOAD and LAUNCH. -/
def ActsOnObjects : Prop :=
  (∀ p s x u, AcceptsTo s p x u →
    (physLoc (p.word 1) = none → exec (.load p) s = .next (ended u p x 3 0)) ∧
    (physLoc (p.word 1) ≠ none → getCtx u x.ctx = none → exec (.load p) s = .next (ended u p x 5 0)) ∧
    (∀ c, physLoc (p.word 1) ≠ none → getCtx u x.ctx = some c → exec (.load p) s = .next (settled
      { u with
        objs := u.objs ++ [loadingObject c p x]
        ctxs := u.ctxs.map fun y => if y.id = c.id then { y with nextObj := (y.nextObj + 1) % 2 ^ 24 } else y } p.q))) ∧
  (∀ p s x u, AcceptsTo s p x u → p.kind = 6 →
    let num := bitsOf (p.word 1) 23 0
    let objs (f : CodeObj → CodeObj) : List CodeObj := u.objs.map fun o => if o.ctx = x.ctx ∧ o.num = num then f o else o
    (getObj u x.ctx num = none → exec (.unload p) s = .next (ended u p x 0x24 0)) ∧
    (∀ o, getObj u x.ctx num = some o →
      (o.st = .draining → exec (.unload p) s = .next (ended u p x 0x24 0)) ∧
      (o.st = .loading → exec (.unload p) s = .next (settled
        { u with objs := objs fun y => { y with held := y.held ++ [(p.q, x.head, p.words)] } } p.q)) ∧
      (o.st = .ready → exec (.unload p) s = .next (ended (refreshExports
        { u with objs := objs fun y => { y with st := .draining, before := (u.teams.filter fun t => t.ctx = x.ctx).map (·.no) } } x.ctx) p x 0 0)))) ∧
  (∀ p s x u c, AcceptsTo s p x u → getCtx u x.ctx = some c →
    let num := bitsOf (p.word 1) 23 0
    let tag := bitsOf (p.word 0) 63 32
    let nocpl := (p.word 0).getLsbD 9
    let fails (st : Nat) : Prop :=
      exec (.launch p) s = .next (settled (settleQueue (completeIn u x.ctx p.q x.head st 0x07 false tag 0 nocpl) p.q) p.q)
    let region := if p.word 6 ≠ 0 then p.word 6 else if x.rcb ≠ 0 then x.rcb else c.rcb
    let kernel (k : Word × Word) : Prop := ∃ o, getObj u x.ctx num = some o ∧ o.st = .ready ∧ o.kernels[bitsOf (p.word 1) 47 32]? = some k
    let rsv := bitsOf (p.word 3) 47 40
    (∀ o, getObj u x.ctx num = some o → o.st = .loading → exec (.launch p) s = .next (settled
      { u with objs := u.objs.map fun y => if y.ctx = x.ctx ∧ y.num = num then { y with held := y.held ++ [(p.q, x.head, p.words)] } else y } p.q)) ∧
    ((∀ o, getObj u x.ctx num = some o → o.st ≠ .loading) → (∀ k, ¬ kernel k) → fails 0x24) ∧
    (∀ k, kernel k →
      (readChain u c.root 16 [] region = none → fails 0x21) ∧
      (∀ l, readChain u c.root 16 [] region = some l →
        let e := effective c.ncl l
        let aff := launchBents u c x p
        let shape : Prop := bitsOf (p.word 3) 31 0 ≠ 0 ∧ rsv ≤ 128 ∧ (rsv = 0 ∨ k.1.getLsbD 7 = true) ∧ (p.word 5).toNat < 2 ^ 62
        (¬ shape → fails 0x23) ∧
        (shape → e.ecap < bitsOf (p.word 3) 50 48 → fails 0x22) ∧
        (shape → bitsOf (p.word 3) 50 48 ≤ e.ecap → aff = 0 → fails 0x20) ∧
        (shape → bitsOf (p.word 3) 50 48 ≤ e.ecap → aff ≠ 0 →
          let z := createdSlice c x p k.1 k.2 e aff
          exec (.launch p) s = .next (settled (completionRecord
            { u with
              slices := u.slices ++ [z], cands := u.cands ++ delivered u c.id c.ranks z
              ctxs := u.ctxs.map fun y => if y.id = x.ctx then { y with nextSeq := y.nextSeq + 1 } else y }
            p.q x.head 0 0x07 false tag (z.seq % 2 ^ 32) nocpl) p.q)))))

/-- R368, R370, R376 to R379, R390, R395: translations, faults, pools, moves, bents offline, the census. -/
def ActsOnPages : Prop :=
  (∀ p s x u, AcceptsTo s p x u → getQueue s p.q = some x →
    let n := bitsOf (p.word 2) 15 0
    let a := bitsOf (p.word 1) 54 16
    (n ≠ 0 → bitsOf (p.word 1) 63 55 ≠ 0 ∨ 2 ^ 39 < a + n → exec (.tinvq p) s = .next (ended u p x 3 0)) ∧
    (n = 0 ∨ (bitsOf (p.word 1) 63 55 = 0 ∧ a + n ≤ 2 ^ 39) →
      let first := if n = 0 then 0 else a
      if invalidateReady s x.ctx first n then exec (.tinvq p) s = .next (ended (invalidate u x.ctx first n) p x 0 0)
      else exec (.tinvq p) s = .next s)) ∧
  (∀ p s x u, AcceptsTo s p x u →
    (∀ g, groupOfHandle u x.ctx (p.word 1) = some g → retryServes u g = true → exec (.retry p) s = .next (ended
      { u with groups := u.groups.map fun k => if k.gid = g.gid then { k with served := true } else k } p x 0 0)) ∧
    ((∀ g, groupOfHandle u x.ctx (p.word 1) = some g → retryServes u g = false) → exec (.retry p) s = .next (ended u p x 0 0))) ∧
  (∀ p s x u i, AcceptsTo s p x u → i = Instr.poolAdd p ∨ i = .poolTake p →
    let id := bitsOf (p.word 1) 15 0
    let n := bitsOf (p.word 3) 31 0
    (getCtx u id = none → exec i s = .next (ended u p x 5 0)) ∧
    (getCtx u id ≠ none → physLoc (p.word 2) = none → exec i s = .next (ended u p x 3 0)) ∧
    (∀ c l, getCtx u id = some c → physLoc (p.word 2) = some l →
      let fs := (upTo n).map fun k => readNat u (l.plus (8 * k)) 8
      let ok : Prop := ∀ f ∈ fs, f % 65536 = 0 ∧ f < 2 ^ 40
      (i = .poolAdd p → ok → ∃ v, exec i s = .next (ended v p x 0 n) ∧ v = { u with ctxs := v.ctxs } ∧
        ∀ c', getCtx v id = some c' → ∀ b, (c'.pool[b]?) = (c.pool[b]?).map fun q => q ++ fs.filter fun f => f / 2 ^ 37 = b) ∧
      (i = .poolAdd p → ¬ ok → exec i s = .next (ended u p x 3 0)) ∧
      (i = .poolTake p → n = 0 ∨ (∀ b < 8, (c.pool[b]?).getD [] = []) → exec i s = .next (ended u p x 0 0)) ∧
      (∀ b f q, i = .poolTake p → n = 1 → b < 8 → c.pool[b]? = some (f :: q) → (∀ k < b, (c.pool[k]?).getD [] = []) →
        exec i s = .next (ended (deviceNat { u with ctxs := u.ctxs.map fun y => if y.id = id then { y with pool := y.pool.modify b (List.drop 1) } else y } l 8 f)
          p x 0 1)))) ∧
  (∀ p s x u, AcceptsTo s p x u →
    let b := bitsOf (p.word 2) 2 0
    (getCtx u x.ctx = none → exec (.migrate p) s = .next (ended u p x 5 0)) ∧
    (∀ c, getCtx u x.ctx = some c →
      let unit := if bitsOf (p.word 1) 63 55 = 0 then unitAt u c.root (bitsOf (p.word 1) 54 0) else none
      (unit = none → exec (.migrate p) s = .next (ended u p x 3 0)) ∧
      (∀ z, unit = some z →
        (z.frame / 2 ^ 37 = b → exec (.migrate p) s = .next (ended u p x 0 0)) ∧
        (z.frame / 2 ^ 37 ≠ b → (getBent u b).online = false → exec (.migrate p) s = .next (ended u p x 3 0)) ∧
        (z.frame / 2 ^ 37 ≠ b → (getBent u b).online = true → migrateTarget u x.ctx b z.n = none →
          exec (.migrate p) s = .next (ended u p x 6 0)) ∧
        (∀ v new, z.frame / 2 ^ 37 ≠ b → (getBent u b).online = true → migrateTarget u x.ctx b z.n = some (v, new) →
          exec (.migrate p) s = .next (ended (((upTo z.n).map fun k => z.frame + 65536 * k).foldl (fun t f => giveFrame t x.ctx f)
            (moveUnit v c.asid z new)) p x 0 0))))) ∧
  (∀ p s x u, AcceptsTo s p x u →
    let b := bitsOf (p.word 1) 2 0
    let r := takeOffline u b ((p.word 1).getLsbD 8)
    let waits : Prop := (getBent s b).online = true ∧ ∃ c ∈ s.ctxs, ∃ cl ∈ c.ranks, cl / 24 = b
    (waits → exec (.offline p) s = .next (preemptHolders s b)) ∧
    (∀ n, ¬ waits → r.2 = some n → exec (.offline p) s = .next (ended r.1 p x 0 n) ∧ (b < u.bents.length → (getBent r.1 b).online = false)) ∧
    (¬ waits → r.2 = none → exec (.offline p) s = .next (ended r.1 p x 7 0))) ∧
  (∀ s (bent : BitVec 3),
    let b := bent.toNat
    (getBent s b).online = true → b < s.bents.length →
    ∃ t, exec (.towerLoss bent) s = .next t ∧ (getBent t b).online = false ∧ (∀ f ∈ t.evacReserve, f / 2 ^ 37 ≠ b) ∧
      ∀ c ∈ t.ctxs, (c.pool[b]?).getD [] = []) ∧
  (∀ p s x u, AcceptsTo s p x u →
    let n := u.ctxs.length + u.queues.length + u.objs.length + (u.slices.filter fun z => z.st ≠ .done ∧ z.st ≠ .killed).length
    (physLoc (p.word 1) = none → exec (.census p) s = .next (ended u p x 3 0)) ∧
    (∀ l, physLoc (p.word 1) = some l →
      (bitsOf (p.word 2) 31 0 < 32 * n → exec (.census p) s = .next (ended u p x 3 0)) ∧
      (32 * n ≤ bitsOf (p.word 2) 31 0 → ∃ bs : List Byte, bs.length = 32 * n ∧ exec (.census p) s = .next (ended
        (deviceWrite (journal u 9 0 x.ctx x.id x.head (bitsOf (p.word 0) 63 32) [(p.word 1).toNat]) l bs) p x 0 n) ∧
        ∀ k y, u.queues[k]? = some y →
          (bs.drop (32 * (u.ctxs.length + k))).take 32 = bytesOf 1 (Config.censusType 1).toNat ++
            bytesOf 1 (Config.censusState 1 (match y.st with | .idle => 0 | .running => 1 | .blocked => 2 | .draining => 3)).toNat ++
            bytesOf 2 y.ctx ++ bytesOf 4 y.id ++ bytesOf 24 0)))

end Sys2Proof.Claims

/-- R302, R309, R320, R322, R330, R337, R349, R363, R368, R370, R376 to R379, R390, R395: what each packet does to
contexts, code objects, slices, translations, pools, pages and bents, and its status. The model's
choices: a LAUNCH with RCB 0 under the RCB of its queue (log 31), where the frames of a MIGRATE come from (log 36), when a
CTXDEL ends (log 55), a RETRY that finds no fault to serve as OK (log 68), the order in which POOL takes frames (log 69),
and the places in a census entry (log 105). -/
def Obligations.PacketsActOnTheirObjects : Prop := ActsOnContexts ∧ ActsOnObjects ∧ ActsOnPages

namespace Sys2Proof.Claims
open Sys2Proof.Machine

/-! ### The links, the host, the package (chapters 16 and 17) -/

/-- What an event does to a port that has `tries` failed attempts behind it: its next state, if it changes (R399). -/
def nextPort (st : PortState) (e : PortEvent) (tries cycles : Nat) : Option PortState :=
  match e with
  | .enable => if st = .off then some .training else none
  | .fence => if st = .training ∨ st = .up ∨ st = .retraining then some .fenced else none
  | .unfence => if st = .fenced then some .training else none
  | .disable => if st = .off then none else some .off
  | .trainOk => if st = .training ∨ st = .retraining then some .up else none
  | .trainFail =>
    if (st = .training ∨ st = .retraining) ∧ 7 ≤ tries ∨ st = .retraining ∧ 65536 ≤ cycles then some .fenced else none
  | .error => if st = .up then some .retraining else none
  | .timeout => if st = .retraining ∧ 65536 ≤ cycles then some .fenced else none

/-- Port `p` after event `e`: its row of R399; an Up that comes or goes holds the routes that use the port (R398); only
a port that carries traffic and goes FENCED or OFF touches anything else. -/
def PortMoves (s t : State) (p : Port) (e : PortEvent) : Prop :=
  ∀ x, getPort s p = some x →
    (∀ st, nextPort x.st e x.tries x.cycles = some st →
      t.ports = s.ports.map (fun y => if y.port = p then { y with st, tries := 0, cycles := 0 } else y) ∧
      t.held = (if (x.st = .up) ≠ (st = .up) then s.held ++ (didsOf s p).filter fun d => !s.held.contains d else s.held) ∧
      (st ≠ .fenced → (st = .off → x.st = .fenced) → t = { s with ports := t.ports, held := t.held })) ∧
    (nextPort x.st e x.tries x.cycles = none →
      if e = .trainFail ∧ (x.st = .training ∨ x.st = .retraining) then
        t = { s with ports := s.ports.map fun y => if y.port = p then { y with tries := y.tries + 1 } else y }
      else t = s)

/-- The instructions that are an event of a port, and those of the LINK command. -/
def portForm : Instr → Option (Port × PortEvent)
  | .trainOk p => some (p, .trainOk)
  | .trainFail p => some (p, .trainFail)
  | .retrainTimeout p => some (p, .timeout)
  | _ => none
def linkForm : Instr → Option (Port × PortEvent)
  | .linkEnable p => some (p, .enable)
  | .linkFence p => some (p, .fence)
  | .linkUnfence p => some (p, .unfence)
  | .linkDisable p => some (p, .disable)
  | _ => none

/-- The management port answers. -/
def answers (s : State) (code status : Nat) (data : List Nat) (bytes : List Byte) : State :=
  { s with replies := s.replies ++ [{ code, status, data, bytes }] }

/-- Commands that need READY, with their codes (R410). -/
def readyForm : Instr → Option Nat
  | .setdid _ => some 0x02
  | .setroute _ _ => some 0x03
  | .linkEnable _ | .linkFence _ | .linkUnfence _ | .linkDisable _ => some 0x04
  | .mgmtOffline _ _ => some 0x05
  | .snap _ => some 0x07
  | .snapread => some 0x08
  | .patch _ => some 0x0B
  | _ => none

/-- An image that the package takes (R413): SHA-384 of its key stands in the fuses, and its signature holds. How an image's
parts lie in the signed bytes is the model's choice (log 78). -/
def Authentic (fw : Firmware) (i : FwImage) : Prop :=
  i.keySlot < 4 ∧ fw.revoked.getLsbD i.keySlot = false ∧ sha384 i.key = (fw.keyHashes[i.keySlot]?).getD [] ∧
  signatureOk i = true ∧ fw.minSvn ≤ i.svn.toNat ∧ i.gen = 6

/-- A bring-up turns to a staged image (R413; the model's reading, log 107). -/
def turnedTo (fw : Firmware) : Firmware := if fw.staged then { fw with activeA := !fw.activeA, staged := false } else fw

/-- The image in the active slot, or in the other. -/
def slotOf (fw : Firmware) (active : Bool) : Option FwImage := if fw.activeA = active then fw.slotA else fw.slotB

/-- The slot that bring-up takes: the active one first (R413). -/
def Boots (fw : Firmware) (a : Bool) : Prop :=
  let good (x : Option FwImage) : Prop := ∃ i, x = some i ∧ Authentic fw i
  (good (slotOf fw true) ∧ a = fw.activeA) ∨ (¬ good (slotOf fw true) ∧ good (slotOf fw false) ∧ a = !fw.activeA)
def CannotBoot (fw : Firmware) : Prop := ∀ i, (slotOf fw true = some i ∨ slotOf fw false = some i) → ¬ Authentic fw i

/-- What the alias key of a BOOT is derived from (R415; the model's choice, log 126). -/
def aliasOf (fw : Firmware) : BootKey :=
  { controller := Config.controllerFirmware, image := match slotOf fw true with | some i => imageNumbers i | none => [] }

/-- What survives the loss of main power (R409): the management settings, the firmware and the fuses, what other
devices have seen; the package is in state `pkg`. -/
def Unpowered (s t : State) (pkg : PkgState) : Prop :=
  t = { State.reset with
    pkg, fw := { s.fw with patches := [] }, bootKey := s.bootKey, did := s.did, routes := s.routes
    bents := s.bents.map fun b => { Bent.reset with bcap := b.bcap }
    host := s.host, replies := t.replies, hostReplies := s.hostReplies, peerReplies := s.peerReplies
    agenda := s.agenda, fresh := s.fresh, nextId := s.nextId }

/-- SPDM requests with the code of the response and what the request must be to be served (R415). -/
def spdmForm : Instr → Option (Nat × Bool)
  | .getVersion _ => some (0x184, true)
  | .getCapabilities r => some (0x1E1, r.version == 0x12 || r.version == 0x13)
  | .negotiateAlgorithms r => some (0x1E3, r.version == 0x12 || r.version == 0x13)
  | .getDigests r => some (0x181, r.version == 0x12 || r.version == 0x13)
  | .getCertificate r => some (0x182, (r.version == 0x12 || r.version == 0x13) && r.slot == 0)
  | .challenge r => some (0x183, (r.version == 0x12 || r.version == 0x13) && r.slot == 0)
  | .getMeasurements r => some (0x1E0, (r.version == 0x12 || r.version == 0x13) && r.signed && 1 ≤ r.index && r.index ≤ 5)
  | .spdmUnsupportedRequest _ => some (0x1FF, false)
  | _ => none

/-- What a response reports (R415): the versions, P-384 with SHA-384, or a measurement. How a measurement tells an image is
the model's choice (log 126). -/
def spdmReports (s : State) : Instr → List Nat
  | .getVersion _ => [0x12, 0x13]
  | .negotiateAlgorithms _ => [384, 384]
  | .getMeasurements r =>
    if r.index = 1 then Config.controllerFirmware
    else if r.index = 2 then (aliasOf s.fw).image
    else if r.index = 3 then Config.baseTable ++ s.fw.patches.flatMap imageNumbers
    else if r.index = 4 then [s.fw.minSvn, s.fw.revoked.toNat]
    else if s.pkg = .ready then s.did.toNat :: s.routes.map BitVec.toNat else []
  | _ => []

end Sys2Proof.Claims

/-! ### The host, the links, the package -/

namespace Sys2Proof.Claims
open Sys2Proof.Machine

/-- R360, R397, R402, R403: the companion processor and other packages. -/
def ServesOthers : Prop :=
  (∀ s addr act,
    let n := match act with | .read n => n | .write d => d.length | .readRegister => 0
    let up : Prop := sillAt s 0 = .up ∨ sillAt s 1 = .up
    (2 ^ 40 < addr + n → exec (.hostAccess addr act) s = .fault .noMemory) ∧
    (addr + n ≤ 2 ^ 40 → ¬ up → exec (.hostAccess addr act) s = .next s) ∧
    (∀ k, act = .read k → addr + k ≤ 2 ^ 40 → up → exec (.hostAccess addr act) s = .next
      { s with hostReplies := s.hostReplies ++ [(upTo k).map fun j => readByte s (.dev (addr + j))] }) ∧
    (∀ d, act = .write d → addr + d.length ≤ 2 ^ 40 → up → Memory.wf s = true → lineQuiet s (.dev addr) d.length = true →
      isPoisoned s (.dev addr) d.length = false →
      ∃ t, exec (.hostAccess addr act) s = .next t ∧ SameBeside { s with carries := t.carries } t ∧ t.groups = s.groups ∧ Holds t (.dev addr) d ∧
        OnlyBytes s t [(.dev addr, d.length)])) ∧
  (∀ s line data, data.length ≤ 128 → sillAt s (line % 2) = .up → Memory.wf s = true →
    isPoisoned s (.host (128 * line)) data.length = false →
    ∃ t, exec (.companionHostLineWrite line data) s = .next t ∧ SameBeside { s with carries := t.carries } t ∧ t.groups = s.groups ∧
      Holds t (.host (128 * line)) data ∧ OnlyBytes s t [(.host (128 * line), data.length)]) ∧
  (∀ s g fail, getGroup s g.gid = some g → g.st = .waiting → g.wreason = .peer →
    let up (n : Nat) : Prop := n < 16 ∧ ((s.routes[g.awaits]?).getD 0).getLsbD n = true ∧ portAt s n = .up
    (g.awaits ∉ s.held → (∃ n, up n) →
      ∃ t, exec (.peerRemoteAccess (.checked g.gid fail)) s = .next t ∧ t = { s with groups := t.groups, resume := [g.gid] } ∧
        GroupsBecome s t { g with peerOk := some fail }) ∧
    (g.awaits ∈ s.held ∨ (∀ n, ¬ up n) → exec (.peerRemoteAccess (.checked g.gid fail)) s = .next s)) ∧
  (∀ s rctx eidx key off rights op u l,
    let n := (peerNeed op).2
    s.pkg = .ready → n ≠ 0 → remoteCheck s (peerNeed op).1 rctx eidx key off n rights = (u, .ok l) → isPoisoned u l n = false →
    lineQuiet u l n = true → Memory.wf u = true → (∀ d c e k o, l ≠ .peer d c e k o) →
    let replied (bs : List Byte) : List (Nat × List Byte) := u.peerReplies ++ [(0, bs)]
    (∀ k, op = .load k → exec (.peerRemoteAccess (.incoming rctx eidx key off rights op)) s = .next
      { u with peerReplies := replied ((upTo k).map fun j => readByte u (l.plus j)) }) ∧
    (∀ d, op = .store d → ∃ t, exec (.peerRemoteAccess (.incoming rctx eidx key off rights op)) s = .next t ∧
      t.peerReplies = replied [] ∧ Holds t l d ∧ OnlyBytes u t [(l, d.length)]) ∧
    (∀ k code lanes, op = .atomic k code lanes → k = 4 ∨ k = 8 → (∀ x ∈ lanes, x.1 < 2 ^ (8 * k)) →
      let vs := inTurn (8 * k) code (readNat u l k) (lanes.map fun x => { pend := some 0, d := x.1, cmp := x.2 })
      ∃ t, exec (.peerRemoteAccess (.incoming rctx eidx key off rights op)) s = .next t ∧
        t.peerReplies = replied ((vs.take lanes.length).flatMap (bytesOf k)) ∧ readNat t l k = vs.getLastD 0 ∧ OnlyBytes u t [(l, k)])) ∧
  (∀ s rctx eidx key off rights op u c,
    s.pkg = .ready → (peerNeed op).2 ≠ 0 → remoteCheck s (peerNeed op).1 rctx eidx key off (peerNeed op).2 rights = (u, .trap c) →
    exec (.peerRemoteAccess (.incoming rctx eidx key off rights op)) s = .next { u with peerReplies := u.peerReplies ++ [(c.code, [])] })

/-- R396, R398, R399, R410: ports, routes and the identity of the package. -/
def MovesPorts : Prop :=
  (∀ i p e s, portForm i = some (p, e) → ∃ t, exec i s = .next t ∧ PortMoves s t p e) ∧
  (∀ p n s, (16 < n → ∃ t, exec (.flitReplay p n) s = .next t ∧ PortMoves s t p .error) ∧ (n ≤ 16 → exec (.flitReplay p n) s = .next s)) ∧
  (∀ i p e s, linkForm i = some (p, e) → s.pkg = .ready →
    ∃ u, PortMoves s u p e ∧ exec i s = .next (answers u 0x04 0 [] [])) ∧
  (∀ s (did : BitVec 5), exec (.routeHoldRelease did) s = .next
    (if outstanding s (toDid did.toNat) then s else { s with held := s.held.filter fun d => d ≠ did.toNat })) ∧
  (∀ s (did : BitVec 8), s.pkg = .ready →
    let quiet : Prop := ∀ p ∈ s.ports, (∃ n, p.port = .ridge n) → p.st = .off ∨ p.st = .fenced
    (32 ≤ did.toNat → exec (.setdid did) s = .next (answers s 0x02 3 [] [])) ∧
    (did.toNat < 32 → ¬ quiet → exec (.setdid did) s = .next (answers s 0x02 2 [] [])) ∧
    (did.toNat < 32 → quiet → exec (.setdid did) s = .next (answers { s with did := did.setWidth 5 } 0x02 0 [] []))) ∧
  (∀ s (did : BitVec 8) (mask : BitVec 16), s.pkg = .ready →
    let up (m : BitVec 16) : List Nat := (upTo 16).filter fun n => m.getLsbD n && portAt s n == .up
    let t := { s with routes := s.routes.set did.toNat mask }
    (32 ≤ did.toNat → exec (.setroute did mask) s = .next (answers s 0x03 3 [] [])) ∧
    (did.toNat < 32 → up ((s.routes[did.toNat]?).getD 0) = up mask → exec (.setroute did mask) s = .next (answers t 0x03 0 [] [])) ∧
    (did.toNat < 32 → up ((s.routes[did.toNat]?).getD 0) ≠ up mask → exec (.setroute did mask) s = .next
      (answers { t with held := s.held ++ if s.held.contains did.toNat then [] else [did.toNat] } 0x03 0 [] [])))

/-- R324, R385, R394, R409, R413: power and bring-up. -/
def BringsUp : Prop :=
  (∀ s, s.pkg = .off → exec .standbyOn s = .next { s with pkg := .standby }) ∧
  (∀ s, s.pkg ≠ .off → exec .standbyOff s = .next { State.reset with
    fw := { s.fw with patches := [] }, host := s.host, replies := s.replies, hostReplies := s.hostReplies
    peerReplies := s.peerReplies, agenda := s.agenda, fresh := s.fresh, nextId := s.nextId }) ∧
  (∀ s, s.pkg = .standby → exec .mainOn s = .next { s with pkg := .boot, fw := turnedTo s.fw, bootKey := none }) ∧
  (∀ s, s.pkg = .ready ∨ s.pkg = .boot ∨ s.pkg = .failed →
    ∃ t, exec .mainOff s = .next t ∧ Unpowered s t .standby ∧ t.replies = s.replies) ∧
  (∀ s, s.pkg = .boot → s.authed = false →
    (∀ a, Boots s.fw a →
      let fw : Firmware := { s.fw with activeA := a }
      ∃ u t, PortMoves { s with authed := true, fw, bootKey := some (aliasOf fw) } u (.sill 0) .enable ∧ PortMoves u t (.sill 1) .enable ∧ exec .authOk s = .next t) ∧
    (CannotBoot s.fw → exec .authFail s = .next { s with pkg := .failed, failCause := 1, bootKey := some (aliasOf s.fw) })) ∧
  (∀ s, s.pkg = .boot → s.authed = true →
    (∃ u t v, PortMoves s u (.sill 0) .trainOk ∧ PortMoves u t (.sill 1) .trainOk ∧ exec .trainDone s = .next v ∧
      v.jnext = (t.ports.filter fun x => x.st == .fenced).length ∧ v.clusters.length = t.clusters.length ∧
      (∀ (k : Nat) (c : Cluster), t.clusters[k]? = some c → ∃ n ≤ c.cyc.toNat, v.clusters[k]? = some { c with cyc := BitVec.ofNat 64 n }) ∧
      ((∀ x ∈ t.ports, x.st ≠ .fenced) → v = { t with
        pkg := .ready, jnext := 0, jbase := Config.journalBase, evacReserve := Config.evacFrames, hostReserve := Config.hostFrames
        fresh := t.fresh + 1, clusters := v.clusters })) ∧
    exec .bootTrainFail s = .next { s with pkg := .failed, failCause := 2 })

/-- R318, R378, R408 to R411, R413 to R415: the management port and the responder. -/
def Manages : Prop :=
  (∀ i code s, readyForm i = some code → s.pkg ≠ .ready → s.pkg ≠ .off → exec i s = .next (answers s code 1 [] [])) ∧
  (∀ s, s.pkg ≠ .off →
    let fw := s.fw
    let svn := match slotOf fw true with | some i => i.svn.toNat | none => 0
    (∃ bs, exec .mctpControl s = .next (answers { s with fresh := s.fresh + 1 } 0x100 0 [] bs)) ∧
    exec .status s = .next (answers s 0x01 0 [s.pkg.code, s.failCause, if fw.activeA then 0 else 1, svn] []) ∧
    (∀ (bent : BitVec 8) watts,
      (8 ≤ bent.toNat ∨ watts < 200 ∨ 1500 < watts → exec (.bcap bent watts) s = .next (answers s 0x06 3 [] [])) ∧
      (bent.toNat < 8 → 200 ≤ watts → watts ≤ 1500 → exec (.bcap bent watts) s = .next
        (answers { s with bents := s.bents.mapIdx fun k b => if k = bent.toNat then { b with bcap := watts } else b } 0x06 0 [] []))) ∧
    (∀ img, (¬ Authentic fw img → exec (.fwstage img) s = .next (answers s 0x09 4 [] [])) ∧
      (Authentic fw img → exec (.fwstage img) s = .next
        (answers { s with fw := if fw.activeA then { fw with slotB := some img, staged := true }
          else { fw with slotA := some img, staged := true } } 0x09 0 [] []))) ∧
    (s.pkg = .ready ∨ s.pkg = .failed → ∃ t, Unpowered { s with fw := turnedTo fw, bootKey := none } t .boot ∧ t.replies = s.replies ∧
      exec .mgmtReset s = .next (answers t 0x0A 0 [] [])) ∧
    (s.pkg = .standby ∨ s.pkg = .boot → exec .mgmtReset s = .next (answers s 0x0A 0 [] [])) ∧
    exec .fwcommit s = .next (answers { s with fw := { fw with minSvn := max fw.minSvn svn } } 0x0C 0 [] [])) ∧
  (∀ s, s.pkg = .ready →
    (∀ (bent : BitVec 8) force,
      let b := bent.toNat
      let r := takeOffline s b force
      let held : Prop := (getBent s b).online = true ∧ ∃ c ∈ s.ctxs, ∃ cl ∈ c.ranks, cl / 24 = b
      (8 ≤ b → exec (.mgmtOffline bent force) s = .next (answers s 0x05 3 [] [])) ∧
      (b < 8 → held → exec (.mgmtOffline bent force) s = .next (preemptHolders s b)) ∧
      (∀ n, b < 8 → ¬ held → r.2 = some n → exec (.mgmtOffline bent force) s = .next (answers r.1 0x05 0 [n] [])) ∧
      (b < 8 → ¬ held → r.2 = none → exec (.mgmtOffline bent force) s = .next (answers r.1 0x05 2 [] []))) ∧
    (∀ tag : BitVec 16, let x := s.snap
      exec (.snap tag) s = .next (answers
        { s with snap := if x.valid = true ∨ x.busy = true then { x with lost := min (x.lost + 1) 65535 }
                         else { x with tag, seq := (x.seq + 1) % 256, busy := true } } 0x07 0 [] [])) ∧
    (∃ data, exec .snapread s = .next (answers { s with snap := { s.snap with valid := false, lost := 0 } } 0x08 0
        ((snapshotWord s.snap).toNat :: data) []) ∧ data.length = 192 * 16 ∧
      ∀ cl j r, cl < 192 → j < 16 → s.snap.recs.find? (fun x => x.1 == cl) = some r → data[16 * cl + j]? = some ((r.2[j]?).getD 0).toNat) ∧
    (∀ img, (¬ Authentic s.fw img → exec (.patch img) s = .next (answers s 0x0B 4 [] [])) ∧
      (Authentic s.fw img → ∃ cs, exec (.patch img) s = .next
          (answers { s with fw := { s.fw with patches := s.fw.patches ++ [img] }, clusters := cs } 0x0B 0 [] []) ∧
        cs = s.clusters.mapIdx fun k x => if k < 192 ∧ ∀ c ∈ s.ctxs, k ∉ c.ranks then { x with patch := s.fw.patches.length + 1 } else x))) ∧
  (∀ i code ok s, spdmForm i = some (code, ok) → s.pkg ≠ .off →
    (ok = true → ∃ bs, exec i s = .next (answers { s with fresh := s.fresh + 1 } code 0 (spdmReports s i) bs)) ∧
    (ok = false → exec i s = .next (answers s code 1 [] [])))

end Sys2Proof.Claims

/-- R360, R396 to R399, R402, R403: accesses of the companion processor and of other packages are performed or
refused as their checks say; a port follows the table of R399, and its routes hold new accesses while a membership
changes. That an access beyond the 1 TiB of device memory stops with noMemory is the model's choice (log 127). -/
def Obligations.LinksServeTheirAccesses : Prop := ServesOthers ∧ MovesPorts

/-- R318, R324, R400, R408 to R411, R413 to R415: power, bring-up, the management port's commands and the responder. The
codes of the package states, of the failure causes and of the SPDM and MCTP answers are the model's (logs 77, 80). So are
what TRAIN_DONE puts where the manual gives no place or value (logs 4, 5, 7), the status of a refused OFFLINE (log 76), the
bytes that are signed and that a failed FWSTAGE writes nothing (log 78), what STANDBY_OFF and MAIN_OFF lose (log 79), the
slot that is tried first after a FWSTAGE (log 107), and when the alias key is derived (log 126). -/
def Obligations.PackageIsBroughtUpAndManaged : Prop := BringsUp ∧ Manages

/-! ### The word, the step, the checks, rounding, memory, reset -/

namespace Sys2Proof.Claims
open Sys2Proof.Machine

/-- The choice at hand is that group `g` issues: it heads the agenda, or the agenda is empty and `g` is the first
group that may; `s0` is the state without that choice. -/
def TurnOf (s s0 : State) (g : Group) : Prop :=
  getGroup s g.gid = some g ∧ g.st = .ready ∧ mayIssue s0 g = true ∧ (∀ a, g.step ≠ .due a) ∧ s.resume = [] ∧
  ((∃ rest, s.agenda = .issue g.gid :: rest ∧ s0 = { s with agenda := rest }) ∨
   (s.agenda = [] ∧ s0 = s ∧ s.groups.find? (fun k => k.st == .ready && mayIssue s k) = some g))

/-- A wake or a restore found that waiting group `g` may issue its instruction again; `s0` is the state without that. -/
def AgainOf (s s0 : State) (g : Group) : Prop :=
  ∃ rest, s.resume = g.gid :: rest ∧ s0 = { s with resume := rest } ∧ getGroup s g.gid = some g ∧ g.st = .waiting ∧
    g.drain = false ∧ g.wreason ≠ .nap ∧ mayIssue s0 g = true

/-- The group's PC is an aligned GLOBAL address that is mapped executable at `l` (`u` is the state after the
translation, R203), whose bytes are good and agree with what the core's instruction cache, or the shared level of
its bent, holds of them (R69, R314), over a link that is up (R399). -/
def FetchesAt (s0 u : State) (g : Group) (l : Loc) : Prop :=
  ptrSpace g.pc = 0 ∧ ptrFormed g.pc = true ∧ bitsOf g.pc 2 0 = 0 ∧
  check45 s0 (addrCtx s0 g) .fetch (bitsOf g.pc 54 0) = (u, .ok l) ∧ isPoisoned u l 8 = false ∧
  fetchLink u g (bitsOf g.pc 54 0) l = .open' ∧
  (∀ r, icacheFind u g (bitsOf g.pc 54 0) = some r →
    r.words[bitsOf g.pc 6 3]? = some (wordOfBytes (readBytes u l 8))) ∧
  ∀ r, ilineFind u (bentOf g.cl) l = some r → r.words[bitsOf g.pc 6 3]? = some (wordOfBytes (readBytes u l 8))

/-- The magnitude of a code in units of the format's least subnormal. -/
def unitsOf (f : FFmt) (c : Nat) : Nat :=
  if c / 2 ^ f.fb = 0 then c else (2 ^ f.fb + c % 2 ^ f.fb) * 2 ^ (c / 2 ^ f.fb - 1)

/-- The exact magnitude a/b lies between the magnitudes of code `c` and of the next: whether rounding `rm` takes the
next (R27, R29). -/
def takesNext (rm idx : Nat) (neg : Bool) (c lo hi a b : Nat) : Prop :=
  (rm = 1 ∧ ((lo + hi) * b < 2 * a ∨ ((lo + hi) * b = 2 * a ∧ c % 2 = 1))) ∨
  (rm = 3 ∧ neg = true) ∨ (rm = 4 ∧ neg = false) ∨ (rm = 5 ∧ (lo + hi) * b ≤ 2 * a) ∨
  (rm = 6 ∧ (ditherD[idx % 32]?).getD 0 < 32 * (a - lo * b) / ((hi - lo) * b))

end Sys2Proof.Claims

/-- R49, R79, R389: a group whose turn it is runs the instruction that the eight bytes at its PC decode to, after the
fetch has counted it; one that waits and is tried again runs it without being counted; an event on the agenda is one
run of its instruction, unless it names an instruction word, which only a group issues; a packet whose turn it is is
one run of the instruction its KIND names. What the agenda and `resume` hold is the model's form (log 9). -/
def Obligations.StepRunsTheDecodedInstruction : Prop :=
  (∀ s s0 u g l i, TurnOf s s0 g → FetchesAt s0 u g l → decodeBytes (readBytes u l 8) = .ok i →
    ∃ t, t = { u with icache := t.icache, ilines := t.ilines } ∧
      step s = exec i { perfCount t g.cl 2 1 with cur := g.gid }) ∧
  (∀ s s0 u g l i, AgainOf s s0 g → FetchesAt s0 u g l → decodeBytes (readBytes u l 8) = .ok i →
    ∃ t : State, t = { u with icache := t.icache, ilines := t.ilines } ∧ step s = exec i { t with cur := g.gid }) ∧
  (∀ s i rest, s.agenda = .event i :: rest → s.resume = [] →
    (encode i = none → packetForm i = none → step s = exec i { s with agenda := rest }) ∧
    (∀ w, encode i = some w → step s = .next { s with agenda := rest }) ∧
    (∀ qu p, packetForm i = some p → nextQueue { s with agenda := rest } = some qu → headPacket { s with agenda := rest } qu = p →
      decodePacket p = i → s.pkg = .ready → step s = exec i (takeTurn { s with agenda := rest } qu.id))) ∧
  (∀ s q qu rest, s.resume = [] → s.agenda = .take q :: rest → s.pkg = .ready → nextQueue { s with agenda := rest } = some qu → qu.id = q →
    step s = exec (decodePacket (headPacket { s with agenda := rest } qu)) (takeTurn { s with agenda := rest } q))

/-- R3, R49: the words of the encoding examples, with their bytes in memory, decode to what they stand for. -/
def Obligations.ExampleWordsDecode : Prop :=
  decodeBytes [0x00, 0x00, 0x00, 0xA8, 0x80, 0x28, 0x4E, 0x60] = .ok (.fadd ⟨false, true, 3, true⟩
    { sa := .a 2, sb := .g 1, sc := .a 0, rm := 1, ty := .f32, pd := 0, imm := false, sat := false, mod := 0, imm16 := 0 }) ∧
  decodeBytes [0xFB, 0xFF, 0x20, 0x10, 0x00, 0x30, 0x00, 0x30] = .ok (.add ⟨false, false, 0, false⟩
    { sa := .a 3, sb := .a 0, sc := .a 0, rm := 0, ty := .i32, pd := 0, imm := true, sat := false, mod := 0, imm16 := 0xFFFB }) ∧
  decodeBytes [0x40, 0x00, 0x00, 0x52, 0x01, 0x10, 0x00, 0xA1] = .ok (.st ⟨false, false, 0, false⟩
    { sa := .a 1, sb := .a 0, sc := .a 0, sz := 2, ord := 2, scope := 4, ack := true, sx := false, mod := 0, offset := 0x40 }) ∧
  decodeBytes [0x01, 0x00, 0x00, 0x03, 0x10, 0x00, 0x00, 0x0B] = .ok (.join ⟨false, false, 0, false⟩
    { sa := .a 0, sb := .a 0, aux := 2, kind := 0, offs := 0x03000001 }) ∧
  decodeBytes [0x00, 0x00, 0x10, 0x99, 0xC0, 0x00, 0x00, 0x91] = .ok (.mma ⟨false, false, 0, false⟩
    { sa := .a 0, sb := .a 1, sc := .g 0, z := 0, ta := 9, tb := 9, tc := 0, acc := true, negp := false, rm := 0, imm16 := 0 }) ∧
  decodeBytes [0xFC, 0xFF, 0xFF, 0xFF, 0x00, 0x00, 0x00, 0x08] = .ok (.bra ⟨false, false, 0, false⟩
    { sa := .a 0, sb := .a 0, aux := 0, kind := 0, offs := 0xFFFFFFFC }) ∧
  decodeBytes [0x00, 0x00, 0x00, 0xA8, 0x83, 0x28, 0x4E, 0x60] = .error .illfld

/-- R49 to R64: every well-formed instruction has its word back by decoding, with every operand at every value that
its encoding admits, and every word that decodes is the word of what it decodes to. -/
def Obligations.DecodingInvertsEncoding : Prop :=
  (∀ i w, encode i = some w → i.wf = true → decodeWord w = .ok i) ∧
  (∀ i w, decodeWord w = .ok i → i.wf = true ∧ encode i = some w)

/-- R62: the checks of a word come in order, the first that fails is delivered, and nothing of the instruction takes
effect; TPC is its address and TADDR its word. -/
def Obligations.ChecksComeInOrder : Prop :=
  (∀ s s0 u g l, TurnOf s s0 g ∨ AgainOf s s0 g → FetchesAt s0 u g l →
    let w := wordOfBytes (readBytes u l 8)
    (decodeRaw w = none → ∃ t, t = { u with icache := t.icache, ilines := t.ilines } ∧
      step s = .next (takeTrap t g.gid .illop false g.pc w)) ∧
    (∀ i, decodeRaw w = some i → i.wf = false → ∃ t, t = { u with icache := t.icache, ilines := t.ilines } ∧
      step s = .next (takeTrap t g.gid .illfld false g.pc w))) ∧
  (∀ s g i w k, encode i = some w → getGroup s s.cur = some g → firstCheck s g i w = some k →
    exec i s = .next (takeTrap s g.gid k false g.pc w))

/-- R22, R25 to R29, R32: in every format, a result is the exact value where the format holds it, with no flag; between
two magnitudes it is the one that the rounding names, and NX is raised, with UF only below the least normal magnitude.
The code behind the largest finite one stands for the magnitude one last place above it: a result that comes there or
beyond is the overflow of R28, in e4m3 with NaN, in e2m1 with the largest value, in place of infinity. Under FTZO,
which acts on f16, bf16, f32 and f64, a nonzero result below the least normal magnitude is a zero with UF and NX. -/
def Obligations.RoundingTakesTheNamedNeighbour : Prop :=
  ∀ f v neg n d e, f ∈ [fmtF16, fmtBf16, fmtF32, fmtF64, fmtE5m2, fmtE4m3, fmtE2m1] →
    (v.ftzo = true → f ∈ [fmtF16, fmtBf16, fmtF32, fmtF64]) → 0 < n → 0 < d →
    let x := scaleTo n d e (f.emin - f.fb)
    let r := fRound f v neg n d e
    let sign := if neg then 2 ^ (f.eb + f.fb) else 0
    let ovf : Nat × Nat := if v.sat ∨ f = fmtE2m1 then (sign + f.maxCode, 65)
      else (sign + (if v.rm = 2 ∨ (v.rm = 3 ∧ neg = false) ∨ (v.rm = 4 ∧ neg = true) then f.maxCode else f.maxCode + 1), 5)
    let comes (c : Nat) : Prop :=
      if f.maxCode < c then r = ovf
      else if v.ftzo = true ∧ 0 < c ∧ c < 2 ^ f.fb then r = (sign, 3)
      else r.1 = sign + c ∧ (r.2 = 1 ∨ (r.2 = 3 ∧ c ≤ 2 ^ f.fb))
    (∀ c ≤ f.maxCode, unitsOf f c * x.2 = x.1 →
      r = if v.ftzo = true ∧ c < 2 ^ f.fb then (sign, 3) else (sign + c, 0)) ∧
    (∀ c ≤ f.maxCode, unitsOf f c * x.2 < x.1 → x.1 < unitsOf f (c + 1) * x.2 →
      (takesNext v.rm v.idx neg c (unitsOf f c) (unitsOf f (c + 1)) x.1 x.2 → comes (c + 1)) ∧
      (¬ takesNext v.rm v.idx neg c (unitsOf f c) (unitsOf f (c + 1)) x.1 x.2 → comes c)) ∧
    (unitsOf f (f.maxCode + 1) * x.2 ≤ x.1 → r = ovf)

/-- Every step keeps the canonical form of memory: the cells of each space in rising order, none listed at the value
that an unlisted byte reads as (log 8). -/
def Obligations.EveryStepKeepsMemoryCanonical : Prop :=
  ∀ s t, Memory.wf s = true → step s = .next t → Memory.wf t = true

/-- The canonical form of memory holds at reset. -/
def Obligations.ResetMemoryIsCanonical : Prop := Memory.wf State.reset = true

/-- R396, R408, R409: the package at reset is off, its ports are off and nothing runs in it; BCAP is 937 W. That the
package and its Sill ports start OFF is the model's choice (log 1), and that memory, of which the manual gives no
contents, reads as zero (log 8). -/
def Obligations.ResetIsOff : Prop :=
  State.reset.pkg = .off ∧ (∀ p ∈ State.reset.ports, p.st = .off) ∧
  (∀ p, (getPort State.reset p).isSome = true) ∧
  State.reset.bents.length = 8 ∧ (∀ b ∈ State.reset.bents, b.bcap = 937) ∧
  (∀ l, readByte State.reset l = 0) ∧ State.reset.poison = [] ∧ State.reset.groups = [] ∧ State.reset.teams = [] ∧
  State.reset.ctxs = [] ∧ State.reset.objs = [] ∧ State.reset.queues = [] ∧ State.reset.stores = [] ∧
  State.reset.copies = [] ∧ State.reset.subs = []

/-- No instruction of the table is refused, in any state: each answers a next state, but for an access of the companion
processor beyond the 1 TiB of device memory; that such an access stops is the model's choice (log 127). -/
def Obligations.ExecAnswersANextStateOrNoMemory : Prop :=
  ∀ i s, (∃ t, exec i s = .next t) ∨
    (exec i s = .fault .noMemory ∧ ∃ addr act, i = .hostAccess addr act ∧
      2 ^ 40 < addr + match act with | .read n => n | .write d => d.length | .readRegister => 0)
end

