-- ==== Sys2Proof/Laws/State.lean ====
section
/-! SUPPORT. What each named update does to each field of the state: one lemma a field, true by rfl, for the simplifier. -/

namespace Sys2Proof.Machine

/-! ### setGroup -/

@[simp] theorem setGroup_pkg (s : State) (g : Group) : (setGroup s g).pkg = s.pkg := rfl
@[simp] theorem setGroup_failCause (s : State) (g : Group) : (setGroup s g).failCause = s.failCause := rfl
@[simp] theorem setGroup_authed (s : State) (g : Group) : (setGroup s g).authed = s.authed := rfl
@[simp] theorem setGroup_fw (s : State) (g : Group) : (setGroup s g).fw = s.fw := rfl
@[simp] theorem setGroup_bootKey (s : State) (g : Group) : (setGroup s g).bootKey = s.bootKey := rfl
@[simp] theorem setGroup_ports (s : State) (g : Group) : (setGroup s g).ports = s.ports := rfl
@[simp] theorem setGroup_did (s : State) (g : Group) : (setGroup s g).did = s.did := rfl
@[simp] theorem setGroup_routes (s : State) (g : Group) : (setGroup s g).routes = s.routes := rfl
@[simp] theorem setGroup_held (s : State) (g : Group) : (setGroup s g).held = s.held := rfl
@[simp] theorem setGroup_snap (s : State) (g : Group) : (setGroup s g).snap = s.snap := rfl
@[simp] theorem setGroup_pcsel (s : State) (g : Group) : (setGroup s g).pcsel = s.pcsel := rfl
@[simp] theorem setGroup_admq (s : State) (g : Group) : (setGroup s g).admq = s.admq := rfl
@[simp] theorem setGroup_jbase (s : State) (g : Group) : (setGroup s g).jbase = s.jbase := rfl
@[simp] theorem setGroup_jlg (s : State) (g : Group) : (setGroup s g).jlg = s.jlg := rfl
@[simp] theorem setGroup_jnext (s : State) (g : Group) : (setGroup s g).jnext = s.jnext := rfl
@[simp] theorem setGroup_bents (s : State) (g : Group) : (setGroup s g).bents = s.bents := rfl
@[simp] theorem setGroup_clusters (s : State) (g : Group) : (setGroup s g).clusters = s.clusters := rfl
@[simp] theorem setGroup_dev (s : State) (g : Group) : (setGroup s g).dev = s.dev := rfl
@[simp] theorem setGroup_host (s : State) (g : Group) : (setGroup s g).host = s.host := rfl
@[simp] theorem setGroup_scratch (s : State) (g : Group) : (setGroup s g).scratch = s.scratch := rfl
@[simp] theorem setGroup_poison (s : State) (g : Group) : (setGroup s g).poison = s.poison := rfl
@[simp] theorem setGroup_carries (s : State) (g : Group) : (setGroup s g).carries = s.carries := rfl
@[simp] theorem setGroup_written (s : State) (g : Group) : (setGroup s g).written = s.written := rfl
@[simp] theorem setGroup_evacReserve (s : State) (g : Group) : (setGroup s g).evacReserve = s.evacReserve := rfl
@[simp] theorem setGroup_hostReserve (s : State) (g : Group) : (setGroup s g).hostReserve = s.hostReserve := rfl
@[simp] theorem setGroup_tlb (s : State) (g : Group) : (setGroup s g).tlb = s.tlb := rfl
@[simp] theorem setGroup_icache (s : State) (g : Group) : (setGroup s g).icache = s.icache := rfl
@[simp] theorem setGroup_ilines (s : State) (g : Group) : (setGroup s g).ilines = s.ilines := rfl
@[simp] theorem setGroup_dcache (s : State) (g : Group) : (setGroup s g).dcache = s.dcache := rfl
@[simp] theorem setGroup_stores (s : State) (g : Group) : (setGroup s g).stores = s.stores := rfl
@[simp] theorem setGroup_loads (s : State) (g : Group) : (setGroup s g).loads = s.loads := rfl
@[simp] theorem setGroup_atoms (s : State) (g : Group) : (setGroup s g).atoms = s.atoms := rfl
@[simp] theorem setGroup_queries (s : State) (g : Group) : (setGroup s g).queries = s.queries := rfl
@[simp] theorem setGroup_groups (s : State) (g : Group) : (setGroup s g).groups = s.groups.map fun h => if h.gid = g.gid then g else h := rfl
@[simp] theorem setGroup_teams (s : State) (g : Group) : (setGroup s g).teams = s.teams := rfl
@[simp] theorem setGroup_gangs (s : State) (g : Group) : (setGroup s g).gangs = s.gangs := rfl
@[simp] theorem setGroup_tiles (s : State) (g : Group) : (setGroup s g).tiles = s.tiles := rfl
@[simp] theorem setGroup_copies (s : State) (g : Group) : (setGroup s g).copies = s.copies := rfl
@[simp] theorem setGroup_cqueues (s : State) (g : Group) : (setGroup s g).cqueues = s.cqueues := rfl
@[simp] theorem setGroup_rings (s : State) (g : Group) : (setGroup s g).rings = s.rings := rfl
@[simp] theorem setGroup_ringWaits (s : State) (g : Group) : (setGroup s g).ringWaits = s.ringWaits := rfl
@[simp] theorem setGroup_subs (s : State) (g : Group) : (setGroup s g).subs = s.subs := rfl
@[simp] theorem setGroup_barWaits (s : State) (g : Group) : (setGroup s g).barWaits = s.barWaits := rfl
@[simp] theorem setGroup_combiners (s : State) (g : Group) : (setGroup s g).combiners = s.combiners := rfl
@[simp] theorem setGroup_raised (s : State) (g : Group) : (setGroup s g).raised = s.raised := rfl
@[simp] theorem setGroup_releases (s : State) (g : Group) : (setGroup s g).releases = s.releases := rfl
@[simp] theorem setGroup_bparents (s : State) (g : Group) : (setGroup s g).bparents = s.bparents := rfl
@[simp] theorem setGroup_bteams (s : State) (g : Group) : (setGroup s g).bteams = s.bteams := rfl
@[simp] theorem setGroup_upward (s : State) (g : Group) : (setGroup s g).upward = s.upward := rfl
@[simp] theorem setGroup_msgs (s : State) (g : Group) : (setGroup s g).msgs = s.msgs := rfl
@[simp] theorem setGroup_bins (s : State) (g : Group) : (setGroup s g).bins = s.bins := rfl
@[simp] theorem setGroup_teamGens (s : State) (g : Group) : (setGroup s g).teamGens = s.teamGens := rfl
@[simp] theorem setGroup_ctxs (s : State) (g : Group) : (setGroup s g).ctxs = s.ctxs := rfl
@[simp] theorem setGroup_objs (s : State) (g : Group) : (setGroup s g).objs = s.objs := rfl
@[simp] theorem setGroup_slices (s : State) (g : Group) : (setGroup s g).slices = s.slices := rfl
@[simp] theorem setGroup_cands (s : State) (g : Group) : (setGroup s g).cands = s.cands := rfl
@[simp] theorem setGroup_queues (s : State) (g : Group) : (setGroup s g).queues = s.queues := rfl
@[simp] theorem setGroup_replies (s : State) (g : Group) : (setGroup s g).replies = s.replies := rfl
@[simp] theorem setGroup_hostReplies (s : State) (g : Group) : (setGroup s g).hostReplies = s.hostReplies := rfl
@[simp] theorem setGroup_peerReplies (s : State) (g : Group) : (setGroup s g).peerReplies = s.peerReplies := rfl
@[simp] theorem setGroup_agenda (s : State) (g : Group) : (setGroup s g).agenda = s.agenda := rfl
@[simp] theorem setGroup_cur (s : State) (g : Group) : (setGroup s g).cur = s.cur := rfl
@[simp] theorem setGroup_resume (s : State) (g : Group) : (setGroup s g).resume = s.resume := rfl
@[simp] theorem setGroup_fresh (s : State) (g : Group) : (setGroup s g).fresh = s.fresh := rfl
@[simp] theorem setGroup_nextId (s : State) (g : Group) : (setGroup s g).nextId = s.nextId := rfl

/-! ### modGroup -/

@[simp] theorem modGroup_pkg (s : State) (i : Nat) (f : Group → Group) : (modGroup s i f).pkg = s.pkg := rfl
@[simp] theorem modGroup_failCause (s : State) (i : Nat) (f : Group → Group) : (modGroup s i f).failCause = s.failCause := rfl
@[simp] theorem modGroup_authed (s : State) (i : Nat) (f : Group → Group) : (modGroup s i f).authed = s.authed := rfl
@[simp] theorem modGroup_fw (s : State) (i : Nat) (f : Group → Group) : (modGroup s i f).fw = s.fw := rfl
@[simp] theorem modGroup_bootKey (s : State) (i : Nat) (f : Group → Group) : (modGroup s i f).bootKey = s.bootKey := rfl
@[simp] theorem modGroup_ports (s : State) (i : Nat) (f : Group → Group) : (modGroup s i f).ports = s.ports := rfl
@[simp] theorem modGroup_did (s : State) (i : Nat) (f : Group → Group) : (modGroup s i f).did = s.did := rfl
@[simp] theorem modGroup_routes (s : State) (i : Nat) (f : Group → Group) : (modGroup s i f).routes = s.routes := rfl
@[simp] theorem modGroup_held (s : State) (i : Nat) (f : Group → Group) : (modGroup s i f).held = s.held := rfl
@[simp] theorem modGroup_snap (s : State) (i : Nat) (f : Group → Group) : (modGroup s i f).snap = s.snap := rfl
@[simp] theorem modGroup_pcsel (s : State) (i : Nat) (f : Group → Group) : (modGroup s i f).pcsel = s.pcsel := rfl
@[simp] theorem modGroup_admq (s : State) (i : Nat) (f : Group → Group) : (modGroup s i f).admq = s.admq := rfl
@[simp] theorem modGroup_jbase (s : State) (i : Nat) (f : Group → Group) : (modGroup s i f).jbase = s.jbase := rfl
@[simp] theorem modGroup_jlg (s : State) (i : Nat) (f : Group → Group) : (modGroup s i f).jlg = s.jlg := rfl
@[simp] theorem modGroup_jnext (s : State) (i : Nat) (f : Group → Group) : (modGroup s i f).jnext = s.jnext := rfl
@[simp] theorem modGroup_bents (s : State) (i : Nat) (f : Group → Group) : (modGroup s i f).bents = s.bents := rfl
@[simp] theorem modGroup_clusters (s : State) (i : Nat) (f : Group → Group) : (modGroup s i f).clusters = s.clusters := rfl
@[simp] theorem modGroup_dev (s : State) (i : Nat) (f : Group → Group) : (modGroup s i f).dev = s.dev := rfl
@[simp] theorem modGroup_host (s : State) (i : Nat) (f : Group → Group) : (modGroup s i f).host = s.host := rfl
@[simp] theorem modGroup_scratch (s : State) (i : Nat) (f : Group → Group) : (modGroup s i f).scratch = s.scratch := rfl
@[simp] theorem modGroup_poison (s : State) (i : Nat) (f : Group → Group) : (modGroup s i f).poison = s.poison := rfl
@[simp] theorem modGroup_carries (s : State) (i : Nat) (f : Group → Group) : (modGroup s i f).carries = s.carries := rfl
@[simp] theorem modGroup_written (s : State) (i : Nat) (f : Group → Group) : (modGroup s i f).written = s.written := rfl
@[simp] theorem modGroup_evacReserve (s : State) (i : Nat) (f : Group → Group) : (modGroup s i f).evacReserve = s.evacReserve := rfl
@[simp] theorem modGroup_hostReserve (s : State) (i : Nat) (f : Group → Group) : (modGroup s i f).hostReserve = s.hostReserve := rfl
@[simp] theorem modGroup_tlb (s : State) (i : Nat) (f : Group → Group) : (modGroup s i f).tlb = s.tlb := rfl
@[simp] theorem modGroup_icache (s : State) (i : Nat) (f : Group → Group) : (modGroup s i f).icache = s.icache := rfl
@[simp] theorem modGroup_ilines (s : State) (i : Nat) (f : Group → Group) : (modGroup s i f).ilines = s.ilines := rfl
@[simp] theorem modGroup_dcache (s : State) (i : Nat) (f : Group → Group) : (modGroup s i f).dcache = s.dcache := rfl
@[simp] theorem modGroup_stores (s : State) (i : Nat) (f : Group → Group) : (modGroup s i f).stores = s.stores := rfl
@[simp] theorem modGroup_loads (s : State) (i : Nat) (f : Group → Group) : (modGroup s i f).loads = s.loads := rfl
@[simp] theorem modGroup_atoms (s : State) (i : Nat) (f : Group → Group) : (modGroup s i f).atoms = s.atoms := rfl
@[simp] theorem modGroup_queries (s : State) (i : Nat) (f : Group → Group) : (modGroup s i f).queries = s.queries := rfl
@[simp] theorem modGroup_groups (s : State) (i : Nat) (f : Group → Group) : (modGroup s i f).groups = s.groups.map fun h => if h.gid = i then f h else h := rfl
@[simp] theorem modGroup_teams (s : State) (i : Nat) (f : Group → Group) : (modGroup s i f).teams = s.teams := rfl
@[simp] theorem modGroup_gangs (s : State) (i : Nat) (f : Group → Group) : (modGroup s i f).gangs = s.gangs := rfl
@[simp] theorem modGroup_tiles (s : State) (i : Nat) (f : Group → Group) : (modGroup s i f).tiles = s.tiles := rfl
@[simp] theorem modGroup_copies (s : State) (i : Nat) (f : Group → Group) : (modGroup s i f).copies = s.copies := rfl
@[simp] theorem modGroup_cqueues (s : State) (i : Nat) (f : Group → Group) : (modGroup s i f).cqueues = s.cqueues := rfl
@[simp] theorem modGroup_rings (s : State) (i : Nat) (f : Group → Group) : (modGroup s i f).rings = s.rings := rfl
@[simp] theorem modGroup_ringWaits (s : State) (i : Nat) (f : Group → Group) : (modGroup s i f).ringWaits = s.ringWaits := rfl
@[simp] theorem modGroup_subs (s : State) (i : Nat) (f : Group → Group) : (modGroup s i f).subs = s.subs := rfl
@[simp] theorem modGroup_barWaits (s : State) (i : Nat) (f : Group → Group) : (modGroup s i f).barWaits = s.barWaits := rfl
@[simp] theorem modGroup_combiners (s : State) (i : Nat) (f : Group → Group) : (modGroup s i f).combiners = s.combiners := rfl
@[simp] theorem modGroup_raised (s : State) (i : Nat) (f : Group → Group) : (modGroup s i f).raised = s.raised := rfl
@[simp] theorem modGroup_releases (s : State) (i : Nat) (f : Group → Group) : (modGroup s i f).releases = s.releases := rfl
@[simp] theorem modGroup_bparents (s : State) (i : Nat) (f : Group → Group) : (modGroup s i f).bparents = s.bparents := rfl
@[simp] theorem modGroup_bteams (s : State) (i : Nat) (f : Group → Group) : (modGroup s i f).bteams = s.bteams := rfl
@[simp] theorem modGroup_upward (s : State) (i : Nat) (f : Group → Group) : (modGroup s i f).upward = s.upward := rfl
@[simp] theorem modGroup_msgs (s : State) (i : Nat) (f : Group → Group) : (modGroup s i f).msgs = s.msgs := rfl
@[simp] theorem modGroup_bins (s : State) (i : Nat) (f : Group → Group) : (modGroup s i f).bins = s.bins := rfl
@[simp] theorem modGroup_teamGens (s : State) (i : Nat) (f : Group → Group) : (modGroup s i f).teamGens = s.teamGens := rfl
@[simp] theorem modGroup_ctxs (s : State) (i : Nat) (f : Group → Group) : (modGroup s i f).ctxs = s.ctxs := rfl
@[simp] theorem modGroup_objs (s : State) (i : Nat) (f : Group → Group) : (modGroup s i f).objs = s.objs := rfl
@[simp] theorem modGroup_slices (s : State) (i : Nat) (f : Group → Group) : (modGroup s i f).slices = s.slices := rfl
@[simp] theorem modGroup_cands (s : State) (i : Nat) (f : Group → Group) : (modGroup s i f).cands = s.cands := rfl
@[simp] theorem modGroup_queues (s : State) (i : Nat) (f : Group → Group) : (modGroup s i f).queues = s.queues := rfl
@[simp] theorem modGroup_replies (s : State) (i : Nat) (f : Group → Group) : (modGroup s i f).replies = s.replies := rfl
@[simp] theorem modGroup_hostReplies (s : State) (i : Nat) (f : Group → Group) : (modGroup s i f).hostReplies = s.hostReplies := rfl
@[simp] theorem modGroup_peerReplies (s : State) (i : Nat) (f : Group → Group) : (modGroup s i f).peerReplies = s.peerReplies := rfl
@[simp] theorem modGroup_agenda (s : State) (i : Nat) (f : Group → Group) : (modGroup s i f).agenda = s.agenda := rfl
@[simp] theorem modGroup_cur (s : State) (i : Nat) (f : Group → Group) : (modGroup s i f).cur = s.cur := rfl
@[simp] theorem modGroup_resume (s : State) (i : Nat) (f : Group → Group) : (modGroup s i f).resume = s.resume := rfl
@[simp] theorem modGroup_fresh (s : State) (i : Nat) (f : Group → Group) : (modGroup s i f).fresh = s.fresh := rfl
@[simp] theorem modGroup_nextId (s : State) (i : Nat) (f : Group → Group) : (modGroup s i f).nextId = s.nextId := rfl

/-! ### modCtx -/

@[simp] theorem modCtx_pkg (s : State) (i : Nat) (f : Context → Context) : (modCtx s i f).pkg = s.pkg := rfl
@[simp] theorem modCtx_failCause (s : State) (i : Nat) (f : Context → Context) : (modCtx s i f).failCause = s.failCause := rfl
@[simp] theorem modCtx_authed (s : State) (i : Nat) (f : Context → Context) : (modCtx s i f).authed = s.authed := rfl
@[simp] theorem modCtx_fw (s : State) (i : Nat) (f : Context → Context) : (modCtx s i f).fw = s.fw := rfl
@[simp] theorem modCtx_bootKey (s : State) (i : Nat) (f : Context → Context) : (modCtx s i f).bootKey = s.bootKey := rfl
@[simp] theorem modCtx_ports (s : State) (i : Nat) (f : Context → Context) : (modCtx s i f).ports = s.ports := rfl
@[simp] theorem modCtx_did (s : State) (i : Nat) (f : Context → Context) : (modCtx s i f).did = s.did := rfl
@[simp] theorem modCtx_routes (s : State) (i : Nat) (f : Context → Context) : (modCtx s i f).routes = s.routes := rfl
@[simp] theorem modCtx_held (s : State) (i : Nat) (f : Context → Context) : (modCtx s i f).held = s.held := rfl
@[simp] theorem modCtx_snap (s : State) (i : Nat) (f : Context → Context) : (modCtx s i f).snap = s.snap := rfl
@[simp] theorem modCtx_pcsel (s : State) (i : Nat) (f : Context → Context) : (modCtx s i f).pcsel = s.pcsel := rfl
@[simp] theorem modCtx_admq (s : State) (i : Nat) (f : Context → Context) : (modCtx s i f).admq = s.admq := rfl
@[simp] theorem modCtx_jbase (s : State) (i : Nat) (f : Context → Context) : (modCtx s i f).jbase = s.jbase := rfl
@[simp] theorem modCtx_jlg (s : State) (i : Nat) (f : Context → Context) : (modCtx s i f).jlg = s.jlg := rfl
@[simp] theorem modCtx_jnext (s : State) (i : Nat) (f : Context → Context) : (modCtx s i f).jnext = s.jnext := rfl
@[simp] theorem modCtx_bents (s : State) (i : Nat) (f : Context → Context) : (modCtx s i f).bents = s.bents := rfl
@[simp] theorem modCtx_clusters (s : State) (i : Nat) (f : Context → Context) : (modCtx s i f).clusters = s.clusters := rfl
@[simp] theorem modCtx_dev (s : State) (i : Nat) (f : Context → Context) : (modCtx s i f).dev = s.dev := rfl
@[simp] theorem modCtx_host (s : State) (i : Nat) (f : Context → Context) : (modCtx s i f).host = s.host := rfl
@[simp] theorem modCtx_scratch (s : State) (i : Nat) (f : Context → Context) : (modCtx s i f).scratch = s.scratch := rfl
@[simp] theorem modCtx_poison (s : State) (i : Nat) (f : Context → Context) : (modCtx s i f).poison = s.poison := rfl
@[simp] theorem modCtx_carries (s : State) (i : Nat) (f : Context → Context) : (modCtx s i f).carries = s.carries := rfl
@[simp] theorem modCtx_written (s : State) (i : Nat) (f : Context → Context) : (modCtx s i f).written = s.written := rfl
@[simp] theorem modCtx_evacReserve (s : State) (i : Nat) (f : Context → Context) : (modCtx s i f).evacReserve = s.evacReserve := rfl
@[simp] theorem modCtx_hostReserve (s : State) (i : Nat) (f : Context → Context) : (modCtx s i f).hostReserve = s.hostReserve := rfl
@[simp] theorem modCtx_tlb (s : State) (i : Nat) (f : Context → Context) : (modCtx s i f).tlb = s.tlb := rfl
@[simp] theorem modCtx_icache (s : State) (i : Nat) (f : Context → Context) : (modCtx s i f).icache = s.icache := rfl
@[simp] theorem modCtx_ilines (s : State) (i : Nat) (f : Context → Context) : (modCtx s i f).ilines = s.ilines := rfl
@[simp] theorem modCtx_dcache (s : State) (i : Nat) (f : Context → Context) : (modCtx s i f).dcache = s.dcache := rfl
@[simp] theorem modCtx_stores (s : State) (i : Nat) (f : Context → Context) : (modCtx s i f).stores = s.stores := rfl
@[simp] theorem modCtx_loads (s : State) (i : Nat) (f : Context → Context) : (modCtx s i f).loads = s.loads := rfl
@[simp] theorem modCtx_atoms (s : State) (i : Nat) (f : Context → Context) : (modCtx s i f).atoms = s.atoms := rfl
@[simp] theorem modCtx_queries (s : State) (i : Nat) (f : Context → Context) : (modCtx s i f).queries = s.queries := rfl
@[simp] theorem modCtx_groups (s : State) (i : Nat) (f : Context → Context) : (modCtx s i f).groups = s.groups := rfl
@[simp] theorem modCtx_teams (s : State) (i : Nat) (f : Context → Context) : (modCtx s i f).teams = s.teams := rfl
@[simp] theorem modCtx_gangs (s : State) (i : Nat) (f : Context → Context) : (modCtx s i f).gangs = s.gangs := rfl
@[simp] theorem modCtx_tiles (s : State) (i : Nat) (f : Context → Context) : (modCtx s i f).tiles = s.tiles := rfl
@[simp] theorem modCtx_copies (s : State) (i : Nat) (f : Context → Context) : (modCtx s i f).copies = s.copies := rfl
@[simp] theorem modCtx_cqueues (s : State) (i : Nat) (f : Context → Context) : (modCtx s i f).cqueues = s.cqueues := rfl
@[simp] theorem modCtx_rings (s : State) (i : Nat) (f : Context → Context) : (modCtx s i f).rings = s.rings := rfl
@[simp] theorem modCtx_ringWaits (s : State) (i : Nat) (f : Context → Context) : (modCtx s i f).ringWaits = s.ringWaits := rfl
@[simp] theorem modCtx_subs (s : State) (i : Nat) (f : Context → Context) : (modCtx s i f).subs = s.subs := rfl
@[simp] theorem modCtx_barWaits (s : State) (i : Nat) (f : Context → Context) : (modCtx s i f).barWaits = s.barWaits := rfl
@[simp] theorem modCtx_combiners (s : State) (i : Nat) (f : Context → Context) : (modCtx s i f).combiners = s.combiners := rfl
@[simp] theorem modCtx_raised (s : State) (i : Nat) (f : Context → Context) : (modCtx s i f).raised = s.raised := rfl
@[simp] theorem modCtx_releases (s : State) (i : Nat) (f : Context → Context) : (modCtx s i f).releases = s.releases := rfl
@[simp] theorem modCtx_bparents (s : State) (i : Nat) (f : Context → Context) : (modCtx s i f).bparents = s.bparents := rfl
@[simp] theorem modCtx_bteams (s : State) (i : Nat) (f : Context → Context) : (modCtx s i f).bteams = s.bteams := rfl
@[simp] theorem modCtx_upward (s : State) (i : Nat) (f : Context → Context) : (modCtx s i f).upward = s.upward := rfl
@[simp] theorem modCtx_msgs (s : State) (i : Nat) (f : Context → Context) : (modCtx s i f).msgs = s.msgs := rfl
@[simp] theorem modCtx_bins (s : State) (i : Nat) (f : Context → Context) : (modCtx s i f).bins = s.bins := rfl
@[simp] theorem modCtx_teamGens (s : State) (i : Nat) (f : Context → Context) : (modCtx s i f).teamGens = s.teamGens := rfl
@[simp] theorem modCtx_ctxs (s : State) (i : Nat) (f : Context → Context) : (modCtx s i f).ctxs = s.ctxs.map fun c => if c.id = i then f c else c := rfl
@[simp] theorem modCtx_objs (s : State) (i : Nat) (f : Context → Context) : (modCtx s i f).objs = s.objs := rfl
@[simp] theorem modCtx_slices (s : State) (i : Nat) (f : Context → Context) : (modCtx s i f).slices = s.slices := rfl
@[simp] theorem modCtx_cands (s : State) (i : Nat) (f : Context → Context) : (modCtx s i f).cands = s.cands := rfl
@[simp] theorem modCtx_queues (s : State) (i : Nat) (f : Context → Context) : (modCtx s i f).queues = s.queues := rfl
@[simp] theorem modCtx_replies (s : State) (i : Nat) (f : Context → Context) : (modCtx s i f).replies = s.replies := rfl
@[simp] theorem modCtx_hostReplies (s : State) (i : Nat) (f : Context → Context) : (modCtx s i f).hostReplies = s.hostReplies := rfl
@[simp] theorem modCtx_peerReplies (s : State) (i : Nat) (f : Context → Context) : (modCtx s i f).peerReplies = s.peerReplies := rfl
@[simp] theorem modCtx_agenda (s : State) (i : Nat) (f : Context → Context) : (modCtx s i f).agenda = s.agenda := rfl
@[simp] theorem modCtx_cur (s : State) (i : Nat) (f : Context → Context) : (modCtx s i f).cur = s.cur := rfl
@[simp] theorem modCtx_resume (s : State) (i : Nat) (f : Context → Context) : (modCtx s i f).resume = s.resume := rfl
@[simp] theorem modCtx_fresh (s : State) (i : Nat) (f : Context → Context) : (modCtx s i f).fresh = s.fresh := rfl
@[simp] theorem modCtx_nextId (s : State) (i : Nat) (f : Context → Context) : (modCtx s i f).nextId = s.nextId := rfl

/-! ### modTeam -/

@[simp] theorem modTeam_pkg (s : State) (c n : Nat) (f : Team → Team) : (modTeam s c n f).pkg = s.pkg := rfl
@[simp] theorem modTeam_failCause (s : State) (c n : Nat) (f : Team → Team) : (modTeam s c n f).failCause = s.failCause := rfl
@[simp] theorem modTeam_authed (s : State) (c n : Nat) (f : Team → Team) : (modTeam s c n f).authed = s.authed := rfl
@[simp] theorem modTeam_fw (s : State) (c n : Nat) (f : Team → Team) : (modTeam s c n f).fw = s.fw := rfl
@[simp] theorem modTeam_bootKey (s : State) (c n : Nat) (f : Team → Team) : (modTeam s c n f).bootKey = s.bootKey := rfl
@[simp] theorem modTeam_ports (s : State) (c n : Nat) (f : Team → Team) : (modTeam s c n f).ports = s.ports := rfl
@[simp] theorem modTeam_did (s : State) (c n : Nat) (f : Team → Team) : (modTeam s c n f).did = s.did := rfl
@[simp] theorem modTeam_routes (s : State) (c n : Nat) (f : Team → Team) : (modTeam s c n f).routes = s.routes := rfl
@[simp] theorem modTeam_held (s : State) (c n : Nat) (f : Team → Team) : (modTeam s c n f).held = s.held := rfl
@[simp] theorem modTeam_snap (s : State) (c n : Nat) (f : Team → Team) : (modTeam s c n f).snap = s.snap := rfl
@[simp] theorem modTeam_pcsel (s : State) (c n : Nat) (f : Team → Team) : (modTeam s c n f).pcsel = s.pcsel := rfl
@[simp] theorem modTeam_admq (s : State) (c n : Nat) (f : Team → Team) : (modTeam s c n f).admq = s.admq := rfl
@[simp] theorem modTeam_jbase (s : State) (c n : Nat) (f : Team → Team) : (modTeam s c n f).jbase = s.jbase := rfl
@[simp] theorem modTeam_jlg (s : State) (c n : Nat) (f : Team → Team) : (modTeam s c n f).jlg = s.jlg := rfl
@[simp] theorem modTeam_jnext (s : State) (c n : Nat) (f : Team → Team) : (modTeam s c n f).jnext = s.jnext := rfl
@[simp] theorem modTeam_bents (s : State) (c n : Nat) (f : Team → Team) : (modTeam s c n f).bents = s.bents := rfl
@[simp] theorem modTeam_clusters (s : State) (c n : Nat) (f : Team → Team) : (modTeam s c n f).clusters = s.clusters := rfl
@[simp] theorem modTeam_dev (s : State) (c n : Nat) (f : Team → Team) : (modTeam s c n f).dev = s.dev := rfl
@[simp] theorem modTeam_host (s : State) (c n : Nat) (f : Team → Team) : (modTeam s c n f).host = s.host := rfl
@[simp] theorem modTeam_scratch (s : State) (c n : Nat) (f : Team → Team) : (modTeam s c n f).scratch = s.scratch := rfl
@[simp] theorem modTeam_poison (s : State) (c n : Nat) (f : Team → Team) : (modTeam s c n f).poison = s.poison := rfl
@[simp] theorem modTeam_carries (s : State) (c n : Nat) (f : Team → Team) : (modTeam s c n f).carries = s.carries := rfl
@[simp] theorem modTeam_written (s : State) (c n : Nat) (f : Team → Team) : (modTeam s c n f).written = s.written := rfl
@[simp] theorem modTeam_evacReserve (s : State) (c n : Nat) (f : Team → Team) : (modTeam s c n f).evacReserve = s.evacReserve := rfl
@[simp] theorem modTeam_hostReserve (s : State) (c n : Nat) (f : Team → Team) : (modTeam s c n f).hostReserve = s.hostReserve := rfl
@[simp] theorem modTeam_tlb (s : State) (c n : Nat) (f : Team → Team) : (modTeam s c n f).tlb = s.tlb := rfl
@[simp] theorem modTeam_icache (s : State) (c n : Nat) (f : Team → Team) : (modTeam s c n f).icache = s.icache := rfl
@[simp] theorem modTeam_ilines (s : State) (c n : Nat) (f : Team → Team) : (modTeam s c n f).ilines = s.ilines := rfl
@[simp] theorem modTeam_dcache (s : State) (c n : Nat) (f : Team → Team) : (modTeam s c n f).dcache = s.dcache := rfl
@[simp] theorem modTeam_stores (s : State) (c n : Nat) (f : Team → Team) : (modTeam s c n f).stores = s.stores := rfl
@[simp] theorem modTeam_loads (s : State) (c n : Nat) (f : Team → Team) : (modTeam s c n f).loads = s.loads := rfl
@[simp] theorem modTeam_atoms (s : State) (c n : Nat) (f : Team → Team) : (modTeam s c n f).atoms = s.atoms := rfl
@[simp] theorem modTeam_queries (s : State) (c n : Nat) (f : Team → Team) : (modTeam s c n f).queries = s.queries := rfl
@[simp] theorem modTeam_groups (s : State) (c n : Nat) (f : Team → Team) : (modTeam s c n f).groups = s.groups := rfl
@[simp] theorem modTeam_teams (s : State) (c n : Nat) (f : Team → Team) : (modTeam s c n f).teams = s.teams.map fun t => if t.ctx = c ∧ t.no = n then f t else t := rfl
@[simp] theorem modTeam_gangs (s : State) (c n : Nat) (f : Team → Team) : (modTeam s c n f).gangs = s.gangs := rfl
@[simp] theorem modTeam_tiles (s : State) (c n : Nat) (f : Team → Team) : (modTeam s c n f).tiles = s.tiles := rfl
@[simp] theorem modTeam_copies (s : State) (c n : Nat) (f : Team → Team) : (modTeam s c n f).copies = s.copies := rfl
@[simp] theorem modTeam_cqueues (s : State) (c n : Nat) (f : Team → Team) : (modTeam s c n f).cqueues = s.cqueues := rfl
@[simp] theorem modTeam_rings (s : State) (c n : Nat) (f : Team → Team) : (modTeam s c n f).rings = s.rings := rfl
@[simp] theorem modTeam_ringWaits (s : State) (c n : Nat) (f : Team → Team) : (modTeam s c n f).ringWaits = s.ringWaits := rfl
@[simp] theorem modTeam_subs (s : State) (c n : Nat) (f : Team → Team) : (modTeam s c n f).subs = s.subs := rfl
@[simp] theorem modTeam_barWaits (s : State) (c n : Nat) (f : Team → Team) : (modTeam s c n f).barWaits = s.barWaits := rfl
@[simp] theorem modTeam_combiners (s : State) (c n : Nat) (f : Team → Team) : (modTeam s c n f).combiners = s.combiners := rfl
@[simp] theorem modTeam_raised (s : State) (c n : Nat) (f : Team → Team) : (modTeam s c n f).raised = s.raised := rfl
@[simp] theorem modTeam_releases (s : State) (c n : Nat) (f : Team → Team) : (modTeam s c n f).releases = s.releases := rfl
@[simp] theorem modTeam_bparents (s : State) (c n : Nat) (f : Team → Team) : (modTeam s c n f).bparents = s.bparents := rfl
@[simp] theorem modTeam_bteams (s : State) (c n : Nat) (f : Team → Team) : (modTeam s c n f).bteams = s.bteams := rfl
@[simp] theorem modTeam_upward (s : State) (c n : Nat) (f : Team → Team) : (modTeam s c n f).upward = s.upward := rfl
@[simp] theorem modTeam_msgs (s : State) (c n : Nat) (f : Team → Team) : (modTeam s c n f).msgs = s.msgs := rfl
@[simp] theorem modTeam_bins (s : State) (c n : Nat) (f : Team → Team) : (modTeam s c n f).bins = s.bins := rfl
@[simp] theorem modTeam_teamGens (s : State) (c n : Nat) (f : Team → Team) : (modTeam s c n f).teamGens = s.teamGens := rfl
@[simp] theorem modTeam_ctxs (s : State) (c n : Nat) (f : Team → Team) : (modTeam s c n f).ctxs = s.ctxs := rfl
@[simp] theorem modTeam_objs (s : State) (c n : Nat) (f : Team → Team) : (modTeam s c n f).objs = s.objs := rfl
@[simp] theorem modTeam_slices (s : State) (c n : Nat) (f : Team → Team) : (modTeam s c n f).slices = s.slices := rfl
@[simp] theorem modTeam_cands (s : State) (c n : Nat) (f : Team → Team) : (modTeam s c n f).cands = s.cands := rfl
@[simp] theorem modTeam_queues (s : State) (c n : Nat) (f : Team → Team) : (modTeam s c n f).queues = s.queues := rfl
@[simp] theorem modTeam_replies (s : State) (c n : Nat) (f : Team → Team) : (modTeam s c n f).replies = s.replies := rfl
@[simp] theorem modTeam_hostReplies (s : State) (c n : Nat) (f : Team → Team) : (modTeam s c n f).hostReplies = s.hostReplies := rfl
@[simp] theorem modTeam_peerReplies (s : State) (c n : Nat) (f : Team → Team) : (modTeam s c n f).peerReplies = s.peerReplies := rfl
@[simp] theorem modTeam_agenda (s : State) (c n : Nat) (f : Team → Team) : (modTeam s c n f).agenda = s.agenda := rfl
@[simp] theorem modTeam_cur (s : State) (c n : Nat) (f : Team → Team) : (modTeam s c n f).cur = s.cur := rfl
@[simp] theorem modTeam_resume (s : State) (c n : Nat) (f : Team → Team) : (modTeam s c n f).resume = s.resume := rfl
@[simp] theorem modTeam_fresh (s : State) (c n : Nat) (f : Team → Team) : (modTeam s c n f).fresh = s.fresh := rfl
@[simp] theorem modTeam_nextId (s : State) (c n : Nat) (f : Team → Team) : (modTeam s c n f).nextId = s.nextId := rfl

/-! ### modSlice -/

@[simp] theorem modSlice_pkg (s : State) (c n : Nat) (f : Slice → Slice) : (modSlice s c n f).pkg = s.pkg := rfl
@[simp] theorem modSlice_failCause (s : State) (c n : Nat) (f : Slice → Slice) : (modSlice s c n f).failCause = s.failCause := rfl
@[simp] theorem modSlice_authed (s : State) (c n : Nat) (f : Slice → Slice) : (modSlice s c n f).authed = s.authed := rfl
@[simp] theorem modSlice_fw (s : State) (c n : Nat) (f : Slice → Slice) : (modSlice s c n f).fw = s.fw := rfl
@[simp] theorem modSlice_bootKey (s : State) (c n : Nat) (f : Slice → Slice) : (modSlice s c n f).bootKey = s.bootKey := rfl
@[simp] theorem modSlice_ports (s : State) (c n : Nat) (f : Slice → Slice) : (modSlice s c n f).ports = s.ports := rfl
@[simp] theorem modSlice_did (s : State) (c n : Nat) (f : Slice → Slice) : (modSlice s c n f).did = s.did := rfl
@[simp] theorem modSlice_routes (s : State) (c n : Nat) (f : Slice → Slice) : (modSlice s c n f).routes = s.routes := rfl
@[simp] theorem modSlice_held (s : State) (c n : Nat) (f : Slice → Slice) : (modSlice s c n f).held = s.held := rfl
@[simp] theorem modSlice_snap (s : State) (c n : Nat) (f : Slice → Slice) : (modSlice s c n f).snap = s.snap := rfl
@[simp] theorem modSlice_pcsel (s : State) (c n : Nat) (f : Slice → Slice) : (modSlice s c n f).pcsel = s.pcsel := rfl
@[simp] theorem modSlice_admq (s : State) (c n : Nat) (f : Slice → Slice) : (modSlice s c n f).admq = s.admq := rfl
@[simp] theorem modSlice_jbase (s : State) (c n : Nat) (f : Slice → Slice) : (modSlice s c n f).jbase = s.jbase := rfl
@[simp] theorem modSlice_jlg (s : State) (c n : Nat) (f : Slice → Slice) : (modSlice s c n f).jlg = s.jlg := rfl
@[simp] theorem modSlice_jnext (s : State) (c n : Nat) (f : Slice → Slice) : (modSlice s c n f).jnext = s.jnext := rfl
@[simp] theorem modSlice_bents (s : State) (c n : Nat) (f : Slice → Slice) : (modSlice s c n f).bents = s.bents := rfl
@[simp] theorem modSlice_clusters (s : State) (c n : Nat) (f : Slice → Slice) : (modSlice s c n f).clusters = s.clusters := rfl
@[simp] theorem modSlice_dev (s : State) (c n : Nat) (f : Slice → Slice) : (modSlice s c n f).dev = s.dev := rfl
@[simp] theorem modSlice_host (s : State) (c n : Nat) (f : Slice → Slice) : (modSlice s c n f).host = s.host := rfl
@[simp] theorem modSlice_scratch (s : State) (c n : Nat) (f : Slice → Slice) : (modSlice s c n f).scratch = s.scratch := rfl
@[simp] theorem modSlice_poison (s : State) (c n : Nat) (f : Slice → Slice) : (modSlice s c n f).poison = s.poison := rfl
@[simp] theorem modSlice_carries (s : State) (c n : Nat) (f : Slice → Slice) : (modSlice s c n f).carries = s.carries := rfl
@[simp] theorem modSlice_written (s : State) (c n : Nat) (f : Slice → Slice) : (modSlice s c n f).written = s.written := rfl
@[simp] theorem modSlice_evacReserve (s : State) (c n : Nat) (f : Slice → Slice) : (modSlice s c n f).evacReserve = s.evacReserve := rfl
@[simp] theorem modSlice_hostReserve (s : State) (c n : Nat) (f : Slice → Slice) : (modSlice s c n f).hostReserve = s.hostReserve := rfl
@[simp] theorem modSlice_tlb (s : State) (c n : Nat) (f : Slice → Slice) : (modSlice s c n f).tlb = s.tlb := rfl
@[simp] theorem modSlice_icache (s : State) (c n : Nat) (f : Slice → Slice) : (modSlice s c n f).icache = s.icache := rfl
@[simp] theorem modSlice_ilines (s : State) (c n : Nat) (f : Slice → Slice) : (modSlice s c n f).ilines = s.ilines := rfl
@[simp] theorem modSlice_dcache (s : State) (c n : Nat) (f : Slice → Slice) : (modSlice s c n f).dcache = s.dcache := rfl
@[simp] theorem modSlice_stores (s : State) (c n : Nat) (f : Slice → Slice) : (modSlice s c n f).stores = s.stores := rfl
@[simp] theorem modSlice_loads (s : State) (c n : Nat) (f : Slice → Slice) : (modSlice s c n f).loads = s.loads := rfl
@[simp] theorem modSlice_atoms (s : State) (c n : Nat) (f : Slice → Slice) : (modSlice s c n f).atoms = s.atoms := rfl
@[simp] theorem modSlice_queries (s : State) (c n : Nat) (f : Slice → Slice) : (modSlice s c n f).queries = s.queries := rfl
@[simp] theorem modSlice_groups (s : State) (c n : Nat) (f : Slice → Slice) : (modSlice s c n f).groups = s.groups := rfl
@[simp] theorem modSlice_teams (s : State) (c n : Nat) (f : Slice → Slice) : (modSlice s c n f).teams = s.teams := rfl
@[simp] theorem modSlice_gangs (s : State) (c n : Nat) (f : Slice → Slice) : (modSlice s c n f).gangs = s.gangs := rfl
@[simp] theorem modSlice_tiles (s : State) (c n : Nat) (f : Slice → Slice) : (modSlice s c n f).tiles = s.tiles := rfl
@[simp] theorem modSlice_copies (s : State) (c n : Nat) (f : Slice → Slice) : (modSlice s c n f).copies = s.copies := rfl
@[simp] theorem modSlice_cqueues (s : State) (c n : Nat) (f : Slice → Slice) : (modSlice s c n f).cqueues = s.cqueues := rfl
@[simp] theorem modSlice_rings (s : State) (c n : Nat) (f : Slice → Slice) : (modSlice s c n f).rings = s.rings := rfl
@[simp] theorem modSlice_ringWaits (s : State) (c n : Nat) (f : Slice → Slice) : (modSlice s c n f).ringWaits = s.ringWaits := rfl
@[simp] theorem modSlice_subs (s : State) (c n : Nat) (f : Slice → Slice) : (modSlice s c n f).subs = s.subs := rfl
@[simp] theorem modSlice_barWaits (s : State) (c n : Nat) (f : Slice → Slice) : (modSlice s c n f).barWaits = s.barWaits := rfl
@[simp] theorem modSlice_combiners (s : State) (c n : Nat) (f : Slice → Slice) : (modSlice s c n f).combiners = s.combiners := rfl
@[simp] theorem modSlice_raised (s : State) (c n : Nat) (f : Slice → Slice) : (modSlice s c n f).raised = s.raised := rfl
@[simp] theorem modSlice_releases (s : State) (c n : Nat) (f : Slice → Slice) : (modSlice s c n f).releases = s.releases := rfl
@[simp] theorem modSlice_bparents (s : State) (c n : Nat) (f : Slice → Slice) : (modSlice s c n f).bparents = s.bparents := rfl
@[simp] theorem modSlice_bteams (s : State) (c n : Nat) (f : Slice → Slice) : (modSlice s c n f).bteams = s.bteams := rfl
@[simp] theorem modSlice_upward (s : State) (c n : Nat) (f : Slice → Slice) : (modSlice s c n f).upward = s.upward := rfl
@[simp] theorem modSlice_msgs (s : State) (c n : Nat) (f : Slice → Slice) : (modSlice s c n f).msgs = s.msgs := rfl
@[simp] theorem modSlice_bins (s : State) (c n : Nat) (f : Slice → Slice) : (modSlice s c n f).bins = s.bins := rfl
@[simp] theorem modSlice_teamGens (s : State) (c n : Nat) (f : Slice → Slice) : (modSlice s c n f).teamGens = s.teamGens := rfl
@[simp] theorem modSlice_ctxs (s : State) (c n : Nat) (f : Slice → Slice) : (modSlice s c n f).ctxs = s.ctxs := rfl
@[simp] theorem modSlice_objs (s : State) (c n : Nat) (f : Slice → Slice) : (modSlice s c n f).objs = s.objs := rfl
@[simp] theorem modSlice_slices (s : State) (c n : Nat) (f : Slice → Slice) : (modSlice s c n f).slices = s.slices.map fun x => if x.ctx = c ∧ x.seq = n then f x else x := rfl
@[simp] theorem modSlice_cands (s : State) (c n : Nat) (f : Slice → Slice) : (modSlice s c n f).cands = s.cands := rfl
@[simp] theorem modSlice_queues (s : State) (c n : Nat) (f : Slice → Slice) : (modSlice s c n f).queues = s.queues := rfl
@[simp] theorem modSlice_replies (s : State) (c n : Nat) (f : Slice → Slice) : (modSlice s c n f).replies = s.replies := rfl
@[simp] theorem modSlice_hostReplies (s : State) (c n : Nat) (f : Slice → Slice) : (modSlice s c n f).hostReplies = s.hostReplies := rfl
@[simp] theorem modSlice_peerReplies (s : State) (c n : Nat) (f : Slice → Slice) : (modSlice s c n f).peerReplies = s.peerReplies := rfl
@[simp] theorem modSlice_agenda (s : State) (c n : Nat) (f : Slice → Slice) : (modSlice s c n f).agenda = s.agenda := rfl
@[simp] theorem modSlice_cur (s : State) (c n : Nat) (f : Slice → Slice) : (modSlice s c n f).cur = s.cur := rfl
@[simp] theorem modSlice_resume (s : State) (c n : Nat) (f : Slice → Slice) : (modSlice s c n f).resume = s.resume := rfl
@[simp] theorem modSlice_fresh (s : State) (c n : Nat) (f : Slice → Slice) : (modSlice s c n f).fresh = s.fresh := rfl
@[simp] theorem modSlice_nextId (s : State) (c n : Nat) (f : Slice → Slice) : (modSlice s c n f).nextId = s.nextId := rfl

/-! ### modQueue -/

@[simp] theorem modQueue_pkg (s : State) (i : Nat) (f : Queue → Queue) : (modQueue s i f).pkg = s.pkg := rfl
@[simp] theorem modQueue_failCause (s : State) (i : Nat) (f : Queue → Queue) : (modQueue s i f).failCause = s.failCause := rfl
@[simp] theorem modQueue_authed (s : State) (i : Nat) (f : Queue → Queue) : (modQueue s i f).authed = s.authed := rfl
@[simp] theorem modQueue_fw (s : State) (i : Nat) (f : Queue → Queue) : (modQueue s i f).fw = s.fw := rfl
@[simp] theorem modQueue_bootKey (s : State) (i : Nat) (f : Queue → Queue) : (modQueue s i f).bootKey = s.bootKey := rfl
@[simp] theorem modQueue_ports (s : State) (i : Nat) (f : Queue → Queue) : (modQueue s i f).ports = s.ports := rfl
@[simp] theorem modQueue_did (s : State) (i : Nat) (f : Queue → Queue) : (modQueue s i f).did = s.did := rfl
@[simp] theorem modQueue_routes (s : State) (i : Nat) (f : Queue → Queue) : (modQueue s i f).routes = s.routes := rfl
@[simp] theorem modQueue_held (s : State) (i : Nat) (f : Queue → Queue) : (modQueue s i f).held = s.held := rfl
@[simp] theorem modQueue_snap (s : State) (i : Nat) (f : Queue → Queue) : (modQueue s i f).snap = s.snap := rfl
@[simp] theorem modQueue_pcsel (s : State) (i : Nat) (f : Queue → Queue) : (modQueue s i f).pcsel = s.pcsel := rfl
@[simp] theorem modQueue_admq (s : State) (i : Nat) (f : Queue → Queue) : (modQueue s i f).admq = s.admq := rfl
@[simp] theorem modQueue_jbase (s : State) (i : Nat) (f : Queue → Queue) : (modQueue s i f).jbase = s.jbase := rfl
@[simp] theorem modQueue_jlg (s : State) (i : Nat) (f : Queue → Queue) : (modQueue s i f).jlg = s.jlg := rfl
@[simp] theorem modQueue_jnext (s : State) (i : Nat) (f : Queue → Queue) : (modQueue s i f).jnext = s.jnext := rfl
@[simp] theorem modQueue_bents (s : State) (i : Nat) (f : Queue → Queue) : (modQueue s i f).bents = s.bents := rfl
@[simp] theorem modQueue_clusters (s : State) (i : Nat) (f : Queue → Queue) : (modQueue s i f).clusters = s.clusters := rfl
@[simp] theorem modQueue_dev (s : State) (i : Nat) (f : Queue → Queue) : (modQueue s i f).dev = s.dev := rfl
@[simp] theorem modQueue_host (s : State) (i : Nat) (f : Queue → Queue) : (modQueue s i f).host = s.host := rfl
@[simp] theorem modQueue_scratch (s : State) (i : Nat) (f : Queue → Queue) : (modQueue s i f).scratch = s.scratch := rfl
@[simp] theorem modQueue_poison (s : State) (i : Nat) (f : Queue → Queue) : (modQueue s i f).poison = s.poison := rfl
@[simp] theorem modQueue_carries (s : State) (i : Nat) (f : Queue → Queue) : (modQueue s i f).carries = s.carries := rfl
@[simp] theorem modQueue_written (s : State) (i : Nat) (f : Queue → Queue) : (modQueue s i f).written = s.written := rfl
@[simp] theorem modQueue_evacReserve (s : State) (i : Nat) (f : Queue → Queue) : (modQueue s i f).evacReserve = s.evacReserve := rfl
@[simp] theorem modQueue_hostReserve (s : State) (i : Nat) (f : Queue → Queue) : (modQueue s i f).hostReserve = s.hostReserve := rfl
@[simp] theorem modQueue_tlb (s : State) (i : Nat) (f : Queue → Queue) : (modQueue s i f).tlb = s.tlb := rfl
@[simp] theorem modQueue_icache (s : State) (i : Nat) (f : Queue → Queue) : (modQueue s i f).icache = s.icache := rfl
@[simp] theorem modQueue_ilines (s : State) (i : Nat) (f : Queue → Queue) : (modQueue s i f).ilines = s.ilines := rfl
@[simp] theorem modQueue_dcache (s : State) (i : Nat) (f : Queue → Queue) : (modQueue s i f).dcache = s.dcache := rfl
@[simp] theorem modQueue_stores (s : State) (i : Nat) (f : Queue → Queue) : (modQueue s i f).stores = s.stores := rfl
@[simp] theorem modQueue_loads (s : State) (i : Nat) (f : Queue → Queue) : (modQueue s i f).loads = s.loads := rfl
@[simp] theorem modQueue_atoms (s : State) (i : Nat) (f : Queue → Queue) : (modQueue s i f).atoms = s.atoms := rfl
@[simp] theorem modQueue_queries (s : State) (i : Nat) (f : Queue → Queue) : (modQueue s i f).queries = s.queries := rfl
@[simp] theorem modQueue_groups (s : State) (i : Nat) (f : Queue → Queue) : (modQueue s i f).groups = s.groups := rfl
@[simp] theorem modQueue_teams (s : State) (i : Nat) (f : Queue → Queue) : (modQueue s i f).teams = s.teams := rfl
@[simp] theorem modQueue_gangs (s : State) (i : Nat) (f : Queue → Queue) : (modQueue s i f).gangs = s.gangs := rfl
@[simp] theorem modQueue_tiles (s : State) (i : Nat) (f : Queue → Queue) : (modQueue s i f).tiles = s.tiles := rfl
@[simp] theorem modQueue_copies (s : State) (i : Nat) (f : Queue → Queue) : (modQueue s i f).copies = s.copies := rfl
@[simp] theorem modQueue_cqueues (s : State) (i : Nat) (f : Queue → Queue) : (modQueue s i f).cqueues = s.cqueues := rfl
@[simp] theorem modQueue_rings (s : State) (i : Nat) (f : Queue → Queue) : (modQueue s i f).rings = s.rings := rfl
@[simp] theorem modQueue_ringWaits (s : State) (i : Nat) (f : Queue → Queue) : (modQueue s i f).ringWaits = s.ringWaits := rfl
@[simp] theorem modQueue_subs (s : State) (i : Nat) (f : Queue → Queue) : (modQueue s i f).subs = s.subs := rfl
@[simp] theorem modQueue_barWaits (s : State) (i : Nat) (f : Queue → Queue) : (modQueue s i f).barWaits = s.barWaits := rfl
@[simp] theorem modQueue_combiners (s : State) (i : Nat) (f : Queue → Queue) : (modQueue s i f).combiners = s.combiners := rfl
@[simp] theorem modQueue_raised (s : State) (i : Nat) (f : Queue → Queue) : (modQueue s i f).raised = s.raised := rfl
@[simp] theorem modQueue_releases (s : State) (i : Nat) (f : Queue → Queue) : (modQueue s i f).releases = s.releases := rfl
@[simp] theorem modQueue_bparents (s : State) (i : Nat) (f : Queue → Queue) : (modQueue s i f).bparents = s.bparents := rfl
@[simp] theorem modQueue_bteams (s : State) (i : Nat) (f : Queue → Queue) : (modQueue s i f).bteams = s.bteams := rfl
@[simp] theorem modQueue_upward (s : State) (i : Nat) (f : Queue → Queue) : (modQueue s i f).upward = s.upward := rfl
@[simp] theorem modQueue_msgs (s : State) (i : Nat) (f : Queue → Queue) : (modQueue s i f).msgs = s.msgs := rfl
@[simp] theorem modQueue_bins (s : State) (i : Nat) (f : Queue → Queue) : (modQueue s i f).bins = s.bins := rfl
@[simp] theorem modQueue_teamGens (s : State) (i : Nat) (f : Queue → Queue) : (modQueue s i f).teamGens = s.teamGens := rfl
@[simp] theorem modQueue_ctxs (s : State) (i : Nat) (f : Queue → Queue) : (modQueue s i f).ctxs = s.ctxs := rfl
@[simp] theorem modQueue_objs (s : State) (i : Nat) (f : Queue → Queue) : (modQueue s i f).objs = s.objs := rfl
@[simp] theorem modQueue_slices (s : State) (i : Nat) (f : Queue → Queue) : (modQueue s i f).slices = s.slices := rfl
@[simp] theorem modQueue_cands (s : State) (i : Nat) (f : Queue → Queue) : (modQueue s i f).cands = s.cands := rfl
@[simp] theorem modQueue_queues (s : State) (i : Nat) (f : Queue → Queue) : (modQueue s i f).queues = s.queues.map fun q => if q.id = i then f q else q := rfl
@[simp] theorem modQueue_replies (s : State) (i : Nat) (f : Queue → Queue) : (modQueue s i f).replies = s.replies := rfl
@[simp] theorem modQueue_hostReplies (s : State) (i : Nat) (f : Queue → Queue) : (modQueue s i f).hostReplies = s.hostReplies := rfl
@[simp] theorem modQueue_peerReplies (s : State) (i : Nat) (f : Queue → Queue) : (modQueue s i f).peerReplies = s.peerReplies := rfl
@[simp] theorem modQueue_agenda (s : State) (i : Nat) (f : Queue → Queue) : (modQueue s i f).agenda = s.agenda := rfl
@[simp] theorem modQueue_cur (s : State) (i : Nat) (f : Queue → Queue) : (modQueue s i f).cur = s.cur := rfl
@[simp] theorem modQueue_resume (s : State) (i : Nat) (f : Queue → Queue) : (modQueue s i f).resume = s.resume := rfl
@[simp] theorem modQueue_fresh (s : State) (i : Nat) (f : Queue → Queue) : (modQueue s i f).fresh = s.fresh := rfl
@[simp] theorem modQueue_nextId (s : State) (i : Nat) (f : Queue → Queue) : (modQueue s i f).nextId = s.nextId := rfl

/-! ### modBent -/

@[simp] theorem modBent_pkg (s : State) (b : Nat) (f : Bent → Bent) : (modBent s b f).pkg = s.pkg := rfl
@[simp] theorem modBent_failCause (s : State) (b : Nat) (f : Bent → Bent) : (modBent s b f).failCause = s.failCause := rfl
@[simp] theorem modBent_authed (s : State) (b : Nat) (f : Bent → Bent) : (modBent s b f).authed = s.authed := rfl
@[simp] theorem modBent_fw (s : State) (b : Nat) (f : Bent → Bent) : (modBent s b f).fw = s.fw := rfl
@[simp] theorem modBent_bootKey (s : State) (b : Nat) (f : Bent → Bent) : (modBent s b f).bootKey = s.bootKey := rfl
@[simp] theorem modBent_ports (s : State) (b : Nat) (f : Bent → Bent) : (modBent s b f).ports = s.ports := rfl
@[simp] theorem modBent_did (s : State) (b : Nat) (f : Bent → Bent) : (modBent s b f).did = s.did := rfl
@[simp] theorem modBent_routes (s : State) (b : Nat) (f : Bent → Bent) : (modBent s b f).routes = s.routes := rfl
@[simp] theorem modBent_held (s : State) (b : Nat) (f : Bent → Bent) : (modBent s b f).held = s.held := rfl
@[simp] theorem modBent_snap (s : State) (b : Nat) (f : Bent → Bent) : (modBent s b f).snap = s.snap := rfl
@[simp] theorem modBent_pcsel (s : State) (b : Nat) (f : Bent → Bent) : (modBent s b f).pcsel = s.pcsel := rfl
@[simp] theorem modBent_admq (s : State) (b : Nat) (f : Bent → Bent) : (modBent s b f).admq = s.admq := rfl
@[simp] theorem modBent_jbase (s : State) (b : Nat) (f : Bent → Bent) : (modBent s b f).jbase = s.jbase := rfl
@[simp] theorem modBent_jlg (s : State) (b : Nat) (f : Bent → Bent) : (modBent s b f).jlg = s.jlg := rfl
@[simp] theorem modBent_jnext (s : State) (b : Nat) (f : Bent → Bent) : (modBent s b f).jnext = s.jnext := rfl
@[simp] theorem modBent_bents (s : State) (b : Nat) (f : Bent → Bent) : (modBent s b f).bents = s.bents.modify b f := rfl
@[simp] theorem modBent_clusters (s : State) (b : Nat) (f : Bent → Bent) : (modBent s b f).clusters = s.clusters := rfl
@[simp] theorem modBent_dev (s : State) (b : Nat) (f : Bent → Bent) : (modBent s b f).dev = s.dev := rfl
@[simp] theorem modBent_host (s : State) (b : Nat) (f : Bent → Bent) : (modBent s b f).host = s.host := rfl
@[simp] theorem modBent_scratch (s : State) (b : Nat) (f : Bent → Bent) : (modBent s b f).scratch = s.scratch := rfl
@[simp] theorem modBent_poison (s : State) (b : Nat) (f : Bent → Bent) : (modBent s b f).poison = s.poison := rfl
@[simp] theorem modBent_carries (s : State) (b : Nat) (f : Bent → Bent) : (modBent s b f).carries = s.carries := rfl
@[simp] theorem modBent_written (s : State) (b : Nat) (f : Bent → Bent) : (modBent s b f).written = s.written := rfl
@[simp] theorem modBent_evacReserve (s : State) (b : Nat) (f : Bent → Bent) : (modBent s b f).evacReserve = s.evacReserve := rfl
@[simp] theorem modBent_hostReserve (s : State) (b : Nat) (f : Bent → Bent) : (modBent s b f).hostReserve = s.hostReserve := rfl
@[simp] theorem modBent_tlb (s : State) (b : Nat) (f : Bent → Bent) : (modBent s b f).tlb = s.tlb := rfl
@[simp] theorem modBent_icache (s : State) (b : Nat) (f : Bent → Bent) : (modBent s b f).icache = s.icache := rfl
@[simp] theorem modBent_ilines (s : State) (b : Nat) (f : Bent → Bent) : (modBent s b f).ilines = s.ilines := rfl
@[simp] theorem modBent_dcache (s : State) (b : Nat) (f : Bent → Bent) : (modBent s b f).dcache = s.dcache := rfl
@[simp] theorem modBent_stores (s : State) (b : Nat) (f : Bent → Bent) : (modBent s b f).stores = s.stores := rfl
@[simp] theorem modBent_loads (s : State) (b : Nat) (f : Bent → Bent) : (modBent s b f).loads = s.loads := rfl
@[simp] theorem modBent_atoms (s : State) (b : Nat) (f : Bent → Bent) : (modBent s b f).atoms = s.atoms := rfl
@[simp] theorem modBent_queries (s : State) (b : Nat) (f : Bent → Bent) : (modBent s b f).queries = s.queries := rfl
@[simp] theorem modBent_groups (s : State) (b : Nat) (f : Bent → Bent) : (modBent s b f).groups = s.groups := rfl
@[simp] theorem modBent_teams (s : State) (b : Nat) (f : Bent → Bent) : (modBent s b f).teams = s.teams := rfl
@[simp] theorem modBent_gangs (s : State) (b : Nat) (f : Bent → Bent) : (modBent s b f).gangs = s.gangs := rfl
@[simp] theorem modBent_tiles (s : State) (b : Nat) (f : Bent → Bent) : (modBent s b f).tiles = s.tiles := rfl
@[simp] theorem modBent_copies (s : State) (b : Nat) (f : Bent → Bent) : (modBent s b f).copies = s.copies := rfl
@[simp] theorem modBent_cqueues (s : State) (b : Nat) (f : Bent → Bent) : (modBent s b f).cqueues = s.cqueues := rfl
@[simp] theorem modBent_rings (s : State) (b : Nat) (f : Bent → Bent) : (modBent s b f).rings = s.rings := rfl
@[simp] theorem modBent_ringWaits (s : State) (b : Nat) (f : Bent → Bent) : (modBent s b f).ringWaits = s.ringWaits := rfl
@[simp] theorem modBent_subs (s : State) (b : Nat) (f : Bent → Bent) : (modBent s b f).subs = s.subs := rfl
@[simp] theorem modBent_barWaits (s : State) (b : Nat) (f : Bent → Bent) : (modBent s b f).barWaits = s.barWaits := rfl
@[simp] theorem modBent_combiners (s : State) (b : Nat) (f : Bent → Bent) : (modBent s b f).combiners = s.combiners := rfl
@[simp] theorem modBent_raised (s : State) (b : Nat) (f : Bent → Bent) : (modBent s b f).raised = s.raised := rfl
@[simp] theorem modBent_releases (s : State) (b : Nat) (f : Bent → Bent) : (modBent s b f).releases = s.releases := rfl
@[simp] theorem modBent_bparents (s : State) (b : Nat) (f : Bent → Bent) : (modBent s b f).bparents = s.bparents := rfl
@[simp] theorem modBent_bteams (s : State) (b : Nat) (f : Bent → Bent) : (modBent s b f).bteams = s.bteams := rfl
@[simp] theorem modBent_upward (s : State) (b : Nat) (f : Bent → Bent) : (modBent s b f).upward = s.upward := rfl
@[simp] theorem modBent_msgs (s : State) (b : Nat) (f : Bent → Bent) : (modBent s b f).msgs = s.msgs := rfl
@[simp] theorem modBent_bins (s : State) (b : Nat) (f : Bent → Bent) : (modBent s b f).bins = s.bins := rfl
@[simp] theorem modBent_teamGens (s : State) (b : Nat) (f : Bent → Bent) : (modBent s b f).teamGens = s.teamGens := rfl
@[simp] theorem modBent_ctxs (s : State) (b : Nat) (f : Bent → Bent) : (modBent s b f).ctxs = s.ctxs := rfl
@[simp] theorem modBent_objs (s : State) (b : Nat) (f : Bent → Bent) : (modBent s b f).objs = s.objs := rfl
@[simp] theorem modBent_slices (s : State) (b : Nat) (f : Bent → Bent) : (modBent s b f).slices = s.slices := rfl
@[simp] theorem modBent_cands (s : State) (b : Nat) (f : Bent → Bent) : (modBent s b f).cands = s.cands := rfl
@[simp] theorem modBent_queues (s : State) (b : Nat) (f : Bent → Bent) : (modBent s b f).queues = s.queues := rfl
@[simp] theorem modBent_replies (s : State) (b : Nat) (f : Bent → Bent) : (modBent s b f).replies = s.replies := rfl
@[simp] theorem modBent_hostReplies (s : State) (b : Nat) (f : Bent → Bent) : (modBent s b f).hostReplies = s.hostReplies := rfl
@[simp] theorem modBent_peerReplies (s : State) (b : Nat) (f : Bent → Bent) : (modBent s b f).peerReplies = s.peerReplies := rfl
@[simp] theorem modBent_agenda (s : State) (b : Nat) (f : Bent → Bent) : (modBent s b f).agenda = s.agenda := rfl
@[simp] theorem modBent_cur (s : State) (b : Nat) (f : Bent → Bent) : (modBent s b f).cur = s.cur := rfl
@[simp] theorem modBent_resume (s : State) (b : Nat) (f : Bent → Bent) : (modBent s b f).resume = s.resume := rfl
@[simp] theorem modBent_fresh (s : State) (b : Nat) (f : Bent → Bent) : (modBent s b f).fresh = s.fresh := rfl
@[simp] theorem modBent_nextId (s : State) (b : Nat) (f : Bent → Bent) : (modBent s b f).nextId = s.nextId := rfl

/-! ### modCluster -/

@[simp] theorem modCluster_pkg (s : State) (c : Nat) (f : Cluster → Cluster) : (modCluster s c f).pkg = s.pkg := rfl
@[simp] theorem modCluster_failCause (s : State) (c : Nat) (f : Cluster → Cluster) : (modCluster s c f).failCause = s.failCause := rfl
@[simp] theorem modCluster_authed (s : State) (c : Nat) (f : Cluster → Cluster) : (modCluster s c f).authed = s.authed := rfl
@[simp] theorem modCluster_fw (s : State) (c : Nat) (f : Cluster → Cluster) : (modCluster s c f).fw = s.fw := rfl
@[simp] theorem modCluster_bootKey (s : State) (c : Nat) (f : Cluster → Cluster) : (modCluster s c f).bootKey = s.bootKey := rfl
@[simp] theorem modCluster_ports (s : State) (c : Nat) (f : Cluster → Cluster) : (modCluster s c f).ports = s.ports := rfl
@[simp] theorem modCluster_did (s : State) (c : Nat) (f : Cluster → Cluster) : (modCluster s c f).did = s.did := rfl
@[simp] theorem modCluster_routes (s : State) (c : Nat) (f : Cluster → Cluster) : (modCluster s c f).routes = s.routes := rfl
@[simp] theorem modCluster_held (s : State) (c : Nat) (f : Cluster → Cluster) : (modCluster s c f).held = s.held := rfl
@[simp] theorem modCluster_snap (s : State) (c : Nat) (f : Cluster → Cluster) : (modCluster s c f).snap = s.snap := rfl
@[simp] theorem modCluster_pcsel (s : State) (c : Nat) (f : Cluster → Cluster) : (modCluster s c f).pcsel = s.pcsel := rfl
@[simp] theorem modCluster_admq (s : State) (c : Nat) (f : Cluster → Cluster) : (modCluster s c f).admq = s.admq := rfl
@[simp] theorem modCluster_jbase (s : State) (c : Nat) (f : Cluster → Cluster) : (modCluster s c f).jbase = s.jbase := rfl
@[simp] theorem modCluster_jlg (s : State) (c : Nat) (f : Cluster → Cluster) : (modCluster s c f).jlg = s.jlg := rfl
@[simp] theorem modCluster_jnext (s : State) (c : Nat) (f : Cluster → Cluster) : (modCluster s c f).jnext = s.jnext := rfl
@[simp] theorem modCluster_bents (s : State) (c : Nat) (f : Cluster → Cluster) : (modCluster s c f).bents = s.bents := rfl
@[simp] theorem modCluster_clusters (s : State) (c : Nat) (f : Cluster → Cluster) : (modCluster s c f).clusters = s.clusters.modify c f := rfl
@[simp] theorem modCluster_dev (s : State) (c : Nat) (f : Cluster → Cluster) : (modCluster s c f).dev = s.dev := rfl
@[simp] theorem modCluster_host (s : State) (c : Nat) (f : Cluster → Cluster) : (modCluster s c f).host = s.host := rfl
@[simp] theorem modCluster_scratch (s : State) (c : Nat) (f : Cluster → Cluster) : (modCluster s c f).scratch = s.scratch := rfl
@[simp] theorem modCluster_poison (s : State) (c : Nat) (f : Cluster → Cluster) : (modCluster s c f).poison = s.poison := rfl
@[simp] theorem modCluster_carries (s : State) (c : Nat) (f : Cluster → Cluster) : (modCluster s c f).carries = s.carries := rfl
@[simp] theorem modCluster_written (s : State) (c : Nat) (f : Cluster → Cluster) : (modCluster s c f).written = s.written := rfl
@[simp] theorem modCluster_evacReserve (s : State) (c : Nat) (f : Cluster → Cluster) : (modCluster s c f).evacReserve = s.evacReserve := rfl
@[simp] theorem modCluster_hostReserve (s : State) (c : Nat) (f : Cluster → Cluster) : (modCluster s c f).hostReserve = s.hostReserve := rfl
@[simp] theorem modCluster_tlb (s : State) (c : Nat) (f : Cluster → Cluster) : (modCluster s c f).tlb = s.tlb := rfl
@[simp] theorem modCluster_icache (s : State) (c : Nat) (f : Cluster → Cluster) : (modCluster s c f).icache = s.icache := rfl
@[simp] theorem modCluster_ilines (s : State) (c : Nat) (f : Cluster → Cluster) : (modCluster s c f).ilines = s.ilines := rfl
@[simp] theorem modCluster_dcache (s : State) (c : Nat) (f : Cluster → Cluster) : (modCluster s c f).dcache = s.dcache := rfl
@[simp] theorem modCluster_stores (s : State) (c : Nat) (f : Cluster → Cluster) : (modCluster s c f).stores = s.stores := rfl
@[simp] theorem modCluster_loads (s : State) (c : Nat) (f : Cluster → Cluster) : (modCluster s c f).loads = s.loads := rfl
@[simp] theorem modCluster_atoms (s : State) (c : Nat) (f : Cluster → Cluster) : (modCluster s c f).atoms = s.atoms := rfl
@[simp] theorem modCluster_queries (s : State) (c : Nat) (f : Cluster → Cluster) : (modCluster s c f).queries = s.queries := rfl
@[simp] theorem modCluster_groups (s : State) (c : Nat) (f : Cluster → Cluster) : (modCluster s c f).groups = s.groups := rfl
@[simp] theorem modCluster_teams (s : State) (c : Nat) (f : Cluster → Cluster) : (modCluster s c f).teams = s.teams := rfl
@[simp] theorem modCluster_gangs (s : State) (c : Nat) (f : Cluster → Cluster) : (modCluster s c f).gangs = s.gangs := rfl
@[simp] theorem modCluster_tiles (s : State) (c : Nat) (f : Cluster → Cluster) : (modCluster s c f).tiles = s.tiles := rfl
@[simp] theorem modCluster_copies (s : State) (c : Nat) (f : Cluster → Cluster) : (modCluster s c f).copies = s.copies := rfl
@[simp] theorem modCluster_cqueues (s : State) (c : Nat) (f : Cluster → Cluster) : (modCluster s c f).cqueues = s.cqueues := rfl
@[simp] theorem modCluster_rings (s : State) (c : Nat) (f : Cluster → Cluster) : (modCluster s c f).rings = s.rings := rfl
@[simp] theorem modCluster_ringWaits (s : State) (c : Nat) (f : Cluster → Cluster) : (modCluster s c f).ringWaits = s.ringWaits := rfl
@[simp] theorem modCluster_subs (s : State) (c : Nat) (f : Cluster → Cluster) : (modCluster s c f).subs = s.subs := rfl
@[simp] theorem modCluster_barWaits (s : State) (c : Nat) (f : Cluster → Cluster) : (modCluster s c f).barWaits = s.barWaits := rfl
@[simp] theorem modCluster_combiners (s : State) (c : Nat) (f : Cluster → Cluster) : (modCluster s c f).combiners = s.combiners := rfl
@[simp] theorem modCluster_raised (s : State) (c : Nat) (f : Cluster → Cluster) : (modCluster s c f).raised = s.raised := rfl
@[simp] theorem modCluster_releases (s : State) (c : Nat) (f : Cluster → Cluster) : (modCluster s c f).releases = s.releases := rfl
@[simp] theorem modCluster_bparents (s : State) (c : Nat) (f : Cluster → Cluster) : (modCluster s c f).bparents = s.bparents := rfl
@[simp] theorem modCluster_bteams (s : State) (c : Nat) (f : Cluster → Cluster) : (modCluster s c f).bteams = s.bteams := rfl
@[simp] theorem modCluster_upward (s : State) (c : Nat) (f : Cluster → Cluster) : (modCluster s c f).upward = s.upward := rfl
@[simp] theorem modCluster_msgs (s : State) (c : Nat) (f : Cluster → Cluster) : (modCluster s c f).msgs = s.msgs := rfl
@[simp] theorem modCluster_bins (s : State) (c : Nat) (f : Cluster → Cluster) : (modCluster s c f).bins = s.bins := rfl
@[simp] theorem modCluster_teamGens (s : State) (c : Nat) (f : Cluster → Cluster) : (modCluster s c f).teamGens = s.teamGens := rfl
@[simp] theorem modCluster_ctxs (s : State) (c : Nat) (f : Cluster → Cluster) : (modCluster s c f).ctxs = s.ctxs := rfl
@[simp] theorem modCluster_objs (s : State) (c : Nat) (f : Cluster → Cluster) : (modCluster s c f).objs = s.objs := rfl
@[simp] theorem modCluster_slices (s : State) (c : Nat) (f : Cluster → Cluster) : (modCluster s c f).slices = s.slices := rfl
@[simp] theorem modCluster_cands (s : State) (c : Nat) (f : Cluster → Cluster) : (modCluster s c f).cands = s.cands := rfl
@[simp] theorem modCluster_queues (s : State) (c : Nat) (f : Cluster → Cluster) : (modCluster s c f).queues = s.queues := rfl
@[simp] theorem modCluster_replies (s : State) (c : Nat) (f : Cluster → Cluster) : (modCluster s c f).replies = s.replies := rfl
@[simp] theorem modCluster_hostReplies (s : State) (c : Nat) (f : Cluster → Cluster) : (modCluster s c f).hostReplies = s.hostReplies := rfl
@[simp] theorem modCluster_peerReplies (s : State) (c : Nat) (f : Cluster → Cluster) : (modCluster s c f).peerReplies = s.peerReplies := rfl
@[simp] theorem modCluster_agenda (s : State) (c : Nat) (f : Cluster → Cluster) : (modCluster s c f).agenda = s.agenda := rfl
@[simp] theorem modCluster_cur (s : State) (c : Nat) (f : Cluster → Cluster) : (modCluster s c f).cur = s.cur := rfl
@[simp] theorem modCluster_resume (s : State) (c : Nat) (f : Cluster → Cluster) : (modCluster s c f).resume = s.resume := rfl
@[simp] theorem modCluster_fresh (s : State) (c : Nat) (f : Cluster → Cluster) : (modCluster s c f).fresh = s.fresh := rfl
@[simp] theorem modCluster_nextId (s : State) (c : Nat) (f : Cluster → Cluster) : (modCluster s c f).nextId = s.nextId := rfl

/-! ### modGang -/

@[simp] theorem modGang_pkg (s : State) (k : Nat) (f : Gang → Gang) : (modGang s k f).pkg = s.pkg := rfl
@[simp] theorem modGang_failCause (s : State) (k : Nat) (f : Gang → Gang) : (modGang s k f).failCause = s.failCause := rfl
@[simp] theorem modGang_authed (s : State) (k : Nat) (f : Gang → Gang) : (modGang s k f).authed = s.authed := rfl
@[simp] theorem modGang_fw (s : State) (k : Nat) (f : Gang → Gang) : (modGang s k f).fw = s.fw := rfl
@[simp] theorem modGang_bootKey (s : State) (k : Nat) (f : Gang → Gang) : (modGang s k f).bootKey = s.bootKey := rfl
@[simp] theorem modGang_ports (s : State) (k : Nat) (f : Gang → Gang) : (modGang s k f).ports = s.ports := rfl
@[simp] theorem modGang_did (s : State) (k : Nat) (f : Gang → Gang) : (modGang s k f).did = s.did := rfl
@[simp] theorem modGang_routes (s : State) (k : Nat) (f : Gang → Gang) : (modGang s k f).routes = s.routes := rfl
@[simp] theorem modGang_held (s : State) (k : Nat) (f : Gang → Gang) : (modGang s k f).held = s.held := rfl
@[simp] theorem modGang_snap (s : State) (k : Nat) (f : Gang → Gang) : (modGang s k f).snap = s.snap := rfl
@[simp] theorem modGang_pcsel (s : State) (k : Nat) (f : Gang → Gang) : (modGang s k f).pcsel = s.pcsel := rfl
@[simp] theorem modGang_admq (s : State) (k : Nat) (f : Gang → Gang) : (modGang s k f).admq = s.admq := rfl
@[simp] theorem modGang_jbase (s : State) (k : Nat) (f : Gang → Gang) : (modGang s k f).jbase = s.jbase := rfl
@[simp] theorem modGang_jlg (s : State) (k : Nat) (f : Gang → Gang) : (modGang s k f).jlg = s.jlg := rfl
@[simp] theorem modGang_jnext (s : State) (k : Nat) (f : Gang → Gang) : (modGang s k f).jnext = s.jnext := rfl
@[simp] theorem modGang_bents (s : State) (k : Nat) (f : Gang → Gang) : (modGang s k f).bents = s.bents := rfl
@[simp] theorem modGang_clusters (s : State) (k : Nat) (f : Gang → Gang) : (modGang s k f).clusters = s.clusters := rfl
@[simp] theorem modGang_dev (s : State) (k : Nat) (f : Gang → Gang) : (modGang s k f).dev = s.dev := rfl
@[simp] theorem modGang_host (s : State) (k : Nat) (f : Gang → Gang) : (modGang s k f).host = s.host := rfl
@[simp] theorem modGang_scratch (s : State) (k : Nat) (f : Gang → Gang) : (modGang s k f).scratch = s.scratch := rfl
@[simp] theorem modGang_poison (s : State) (k : Nat) (f : Gang → Gang) : (modGang s k f).poison = s.poison := rfl
@[simp] theorem modGang_carries (s : State) (k : Nat) (f : Gang → Gang) : (modGang s k f).carries = s.carries := rfl
@[simp] theorem modGang_written (s : State) (k : Nat) (f : Gang → Gang) : (modGang s k f).written = s.written := rfl
@[simp] theorem modGang_evacReserve (s : State) (k : Nat) (f : Gang → Gang) : (modGang s k f).evacReserve = s.evacReserve := rfl
@[simp] theorem modGang_hostReserve (s : State) (k : Nat) (f : Gang → Gang) : (modGang s k f).hostReserve = s.hostReserve := rfl
@[simp] theorem modGang_tlb (s : State) (k : Nat) (f : Gang → Gang) : (modGang s k f).tlb = s.tlb := rfl
@[simp] theorem modGang_icache (s : State) (k : Nat) (f : Gang → Gang) : (modGang s k f).icache = s.icache := rfl
@[simp] theorem modGang_ilines (s : State) (k : Nat) (f : Gang → Gang) : (modGang s k f).ilines = s.ilines := rfl
@[simp] theorem modGang_dcache (s : State) (k : Nat) (f : Gang → Gang) : (modGang s k f).dcache = s.dcache := rfl
@[simp] theorem modGang_stores (s : State) (k : Nat) (f : Gang → Gang) : (modGang s k f).stores = s.stores := rfl
@[simp] theorem modGang_loads (s : State) (k : Nat) (f : Gang → Gang) : (modGang s k f).loads = s.loads := rfl
@[simp] theorem modGang_atoms (s : State) (k : Nat) (f : Gang → Gang) : (modGang s k f).atoms = s.atoms := rfl
@[simp] theorem modGang_queries (s : State) (k : Nat) (f : Gang → Gang) : (modGang s k f).queries = s.queries := rfl
@[simp] theorem modGang_groups (s : State) (k : Nat) (f : Gang → Gang) : (modGang s k f).groups = s.groups := rfl
@[simp] theorem modGang_teams (s : State) (k : Nat) (f : Gang → Gang) : (modGang s k f).teams = s.teams := rfl
@[simp] theorem modGang_gangs (s : State) (k : Nat) (f : Gang → Gang) : (modGang s k f).gangs = s.gangs.map fun x => if x.key = k then f x else x := rfl
@[simp] theorem modGang_tiles (s : State) (k : Nat) (f : Gang → Gang) : (modGang s k f).tiles = s.tiles := rfl
@[simp] theorem modGang_copies (s : State) (k : Nat) (f : Gang → Gang) : (modGang s k f).copies = s.copies := rfl
@[simp] theorem modGang_cqueues (s : State) (k : Nat) (f : Gang → Gang) : (modGang s k f).cqueues = s.cqueues := rfl
@[simp] theorem modGang_rings (s : State) (k : Nat) (f : Gang → Gang) : (modGang s k f).rings = s.rings := rfl
@[simp] theorem modGang_ringWaits (s : State) (k : Nat) (f : Gang → Gang) : (modGang s k f).ringWaits = s.ringWaits := rfl
@[simp] theorem modGang_subs (s : State) (k : Nat) (f : Gang → Gang) : (modGang s k f).subs = s.subs := rfl
@[simp] theorem modGang_barWaits (s : State) (k : Nat) (f : Gang → Gang) : (modGang s k f).barWaits = s.barWaits := rfl
@[simp] theorem modGang_combiners (s : State) (k : Nat) (f : Gang → Gang) : (modGang s k f).combiners = s.combiners := rfl
@[simp] theorem modGang_raised (s : State) (k : Nat) (f : Gang → Gang) : (modGang s k f).raised = s.raised := rfl
@[simp] theorem modGang_releases (s : State) (k : Nat) (f : Gang → Gang) : (modGang s k f).releases = s.releases := rfl
@[simp] theorem modGang_bparents (s : State) (k : Nat) (f : Gang → Gang) : (modGang s k f).bparents = s.bparents := rfl
@[simp] theorem modGang_bteams (s : State) (k : Nat) (f : Gang → Gang) : (modGang s k f).bteams = s.bteams := rfl
@[simp] theorem modGang_upward (s : State) (k : Nat) (f : Gang → Gang) : (modGang s k f).upward = s.upward := rfl
@[simp] theorem modGang_msgs (s : State) (k : Nat) (f : Gang → Gang) : (modGang s k f).msgs = s.msgs := rfl
@[simp] theorem modGang_bins (s : State) (k : Nat) (f : Gang → Gang) : (modGang s k f).bins = s.bins := rfl
@[simp] theorem modGang_teamGens (s : State) (k : Nat) (f : Gang → Gang) : (modGang s k f).teamGens = s.teamGens := rfl
@[simp] theorem modGang_ctxs (s : State) (k : Nat) (f : Gang → Gang) : (modGang s k f).ctxs = s.ctxs := rfl
@[simp] theorem modGang_objs (s : State) (k : Nat) (f : Gang → Gang) : (modGang s k f).objs = s.objs := rfl
@[simp] theorem modGang_slices (s : State) (k : Nat) (f : Gang → Gang) : (modGang s k f).slices = s.slices := rfl
@[simp] theorem modGang_cands (s : State) (k : Nat) (f : Gang → Gang) : (modGang s k f).cands = s.cands := rfl
@[simp] theorem modGang_queues (s : State) (k : Nat) (f : Gang → Gang) : (modGang s k f).queues = s.queues := rfl
@[simp] theorem modGang_replies (s : State) (k : Nat) (f : Gang → Gang) : (modGang s k f).replies = s.replies := rfl
@[simp] theorem modGang_hostReplies (s : State) (k : Nat) (f : Gang → Gang) : (modGang s k f).hostReplies = s.hostReplies := rfl
@[simp] theorem modGang_peerReplies (s : State) (k : Nat) (f : Gang → Gang) : (modGang s k f).peerReplies = s.peerReplies := rfl
@[simp] theorem modGang_agenda (s : State) (k : Nat) (f : Gang → Gang) : (modGang s k f).agenda = s.agenda := rfl
@[simp] theorem modGang_cur (s : State) (k : Nat) (f : Gang → Gang) : (modGang s k f).cur = s.cur := rfl
@[simp] theorem modGang_resume (s : State) (k : Nat) (f : Gang → Gang) : (modGang s k f).resume = s.resume := rfl
@[simp] theorem modGang_fresh (s : State) (k : Nat) (f : Gang → Gang) : (modGang s k f).fresh = s.fresh := rfl
@[simp] theorem modGang_nextId (s : State) (k : Nat) (f : Gang → Gang) : (modGang s k f).nextId = s.nextId := rfl

/-! ### Memory writes -/

@[simp] theorem writeByte_pkg (s : State) (l : Loc) (v : Byte) : (writeByte s l v).pkg = s.pkg := by cases l <;> rfl
@[simp] theorem writeByte_failCause (s : State) (l : Loc) (v : Byte) : (writeByte s l v).failCause = s.failCause := by cases l <;> rfl
@[simp] theorem writeByte_authed (s : State) (l : Loc) (v : Byte) : (writeByte s l v).authed = s.authed := by cases l <;> rfl
@[simp] theorem writeByte_fw (s : State) (l : Loc) (v : Byte) : (writeByte s l v).fw = s.fw := by cases l <;> rfl
@[simp] theorem writeByte_bootKey (s : State) (l : Loc) (v : Byte) : (writeByte s l v).bootKey = s.bootKey := by cases l <;> rfl
@[simp] theorem writeByte_ports (s : State) (l : Loc) (v : Byte) : (writeByte s l v).ports = s.ports := by cases l <;> rfl
@[simp] theorem writeByte_did (s : State) (l : Loc) (v : Byte) : (writeByte s l v).did = s.did := by cases l <;> rfl
@[simp] theorem writeByte_routes (s : State) (l : Loc) (v : Byte) : (writeByte s l v).routes = s.routes := by cases l <;> rfl
@[simp] theorem writeByte_held (s : State) (l : Loc) (v : Byte) : (writeByte s l v).held = s.held := by cases l <;> rfl
@[simp] theorem writeByte_snap (s : State) (l : Loc) (v : Byte) : (writeByte s l v).snap = s.snap := by cases l <;> rfl
@[simp] theorem writeByte_pcsel (s : State) (l : Loc) (v : Byte) : (writeByte s l v).pcsel = s.pcsel := by cases l <;> rfl
@[simp] theorem writeByte_admq (s : State) (l : Loc) (v : Byte) : (writeByte s l v).admq = s.admq := by cases l <;> rfl
@[simp] theorem writeByte_jbase (s : State) (l : Loc) (v : Byte) : (writeByte s l v).jbase = s.jbase := by cases l <;> rfl
@[simp] theorem writeByte_jlg (s : State) (l : Loc) (v : Byte) : (writeByte s l v).jlg = s.jlg := by cases l <;> rfl
@[simp] theorem writeByte_jnext (s : State) (l : Loc) (v : Byte) : (writeByte s l v).jnext = s.jnext := by cases l <;> rfl
@[simp] theorem writeByte_bents (s : State) (l : Loc) (v : Byte) : (writeByte s l v).bents = s.bents := by cases l <;> rfl
@[simp] theorem writeByte_clusters (s : State) (l : Loc) (v : Byte) : (writeByte s l v).clusters = s.clusters := by cases l <;> rfl
@[simp] theorem writeByte_poison (s : State) (l : Loc) (v : Byte) : (writeByte s l v).poison = s.poison := by cases l <;> rfl
@[simp] theorem writeByte_carries (s : State) (l : Loc) (v : Byte) : (writeByte s l v).carries = s.carries := by cases l <;> rfl
@[simp] theorem writeByte_written (s : State) (l : Loc) (v : Byte) : (writeByte s l v).written = s.written := by cases l <;> rfl
@[simp] theorem writeByte_evacReserve (s : State) (l : Loc) (v : Byte) : (writeByte s l v).evacReserve = s.evacReserve := by cases l <;> rfl
@[simp] theorem writeByte_hostReserve (s : State) (l : Loc) (v : Byte) : (writeByte s l v).hostReserve = s.hostReserve := by cases l <;> rfl
@[simp] theorem writeByte_tlb (s : State) (l : Loc) (v : Byte) : (writeByte s l v).tlb = s.tlb := by cases l <;> rfl
@[simp] theorem writeByte_icache (s : State) (l : Loc) (v : Byte) : (writeByte s l v).icache = s.icache := by cases l <;> rfl
@[simp] theorem writeByte_ilines (s : State) (l : Loc) (v : Byte) : (writeByte s l v).ilines = s.ilines := by cases l <;> rfl
@[simp] theorem writeByte_dcache (s : State) (l : Loc) (v : Byte) : (writeByte s l v).dcache = s.dcache := by cases l <;> rfl
@[simp] theorem writeByte_stores (s : State) (l : Loc) (v : Byte) : (writeByte s l v).stores = s.stores := by cases l <;> rfl
@[simp] theorem writeByte_loads (s : State) (l : Loc) (v : Byte) : (writeByte s l v).loads = s.loads := by cases l <;> rfl
@[simp] theorem writeByte_atoms (s : State) (l : Loc) (v : Byte) : (writeByte s l v).atoms = s.atoms := by cases l <;> rfl
@[simp] theorem writeByte_queries (s : State) (l : Loc) (v : Byte) : (writeByte s l v).queries = s.queries := by cases l <;> rfl
@[simp] theorem writeByte_groups (s : State) (l : Loc) (v : Byte) : (writeByte s l v).groups = s.groups := by cases l <;> rfl
@[simp] theorem writeByte_teams (s : State) (l : Loc) (v : Byte) : (writeByte s l v).teams = s.teams := by cases l <;> rfl
@[simp] theorem writeByte_gangs (s : State) (l : Loc) (v : Byte) : (writeByte s l v).gangs = s.gangs := by cases l <;> rfl
@[simp] theorem writeByte_tiles (s : State) (l : Loc) (v : Byte) : (writeByte s l v).tiles = s.tiles := by cases l <;> rfl
@[simp] theorem writeByte_copies (s : State) (l : Loc) (v : Byte) : (writeByte s l v).copies = s.copies := by cases l <;> rfl
@[simp] theorem writeByte_cqueues (s : State) (l : Loc) (v : Byte) : (writeByte s l v).cqueues = s.cqueues := by cases l <;> rfl
@[simp] theorem writeByte_rings (s : State) (l : Loc) (v : Byte) : (writeByte s l v).rings = s.rings := by cases l <;> rfl
@[simp] theorem writeByte_ringWaits (s : State) (l : Loc) (v : Byte) : (writeByte s l v).ringWaits = s.ringWaits := by cases l <;> rfl
@[simp] theorem writeByte_subs (s : State) (l : Loc) (v : Byte) : (writeByte s l v).subs = s.subs := by cases l <;> rfl
@[simp] theorem writeByte_barWaits (s : State) (l : Loc) (v : Byte) : (writeByte s l v).barWaits = s.barWaits := by cases l <;> rfl
@[simp] theorem writeByte_combiners (s : State) (l : Loc) (v : Byte) : (writeByte s l v).combiners = s.combiners := by cases l <;> rfl
@[simp] theorem writeByte_raised (s : State) (l : Loc) (v : Byte) : (writeByte s l v).raised = s.raised := by cases l <;> rfl
@[simp] theorem writeByte_releases (s : State) (l : Loc) (v : Byte) : (writeByte s l v).releases = s.releases := by cases l <;> rfl
@[simp] theorem writeByte_bparents (s : State) (l : Loc) (v : Byte) : (writeByte s l v).bparents = s.bparents := by cases l <;> rfl
@[simp] theorem writeByte_bteams (s : State) (l : Loc) (v : Byte) : (writeByte s l v).bteams = s.bteams := by cases l <;> rfl
@[simp] theorem writeByte_upward (s : State) (l : Loc) (v : Byte) : (writeByte s l v).upward = s.upward := by cases l <;> rfl
@[simp] theorem writeByte_msgs (s : State) (l : Loc) (v : Byte) : (writeByte s l v).msgs = s.msgs := by cases l <;> rfl
@[simp] theorem writeByte_bins (s : State) (l : Loc) (v : Byte) : (writeByte s l v).bins = s.bins := by cases l <;> rfl
@[simp] theorem writeByte_teamGens (s : State) (l : Loc) (v : Byte) : (writeByte s l v).teamGens = s.teamGens := by cases l <;> rfl
@[simp] theorem writeByte_ctxs (s : State) (l : Loc) (v : Byte) : (writeByte s l v).ctxs = s.ctxs := by cases l <;> rfl
@[simp] theorem writeByte_objs (s : State) (l : Loc) (v : Byte) : (writeByte s l v).objs = s.objs := by cases l <;> rfl
@[simp] theorem writeByte_slices (s : State) (l : Loc) (v : Byte) : (writeByte s l v).slices = s.slices := by cases l <;> rfl
@[simp] theorem writeByte_cands (s : State) (l : Loc) (v : Byte) : (writeByte s l v).cands = s.cands := by cases l <;> rfl
@[simp] theorem writeByte_queues (s : State) (l : Loc) (v : Byte) : (writeByte s l v).queues = s.queues := by cases l <;> rfl
@[simp] theorem writeByte_replies (s : State) (l : Loc) (v : Byte) : (writeByte s l v).replies = s.replies := by cases l <;> rfl
@[simp] theorem writeByte_hostReplies (s : State) (l : Loc) (v : Byte) : (writeByte s l v).hostReplies = s.hostReplies := by cases l <;> rfl
@[simp] theorem writeByte_peerReplies (s : State) (l : Loc) (v : Byte) : (writeByte s l v).peerReplies = s.peerReplies := by cases l <;> rfl
@[simp] theorem writeByte_agenda (s : State) (l : Loc) (v : Byte) : (writeByte s l v).agenda = s.agenda := by cases l <;> rfl
@[simp] theorem writeByte_cur (s : State) (l : Loc) (v : Byte) : (writeByte s l v).cur = s.cur := by cases l <;> rfl
@[simp] theorem writeByte_resume (s : State) (l : Loc) (v : Byte) : (writeByte s l v).resume = s.resume := by cases l <;> rfl
@[simp] theorem writeByte_fresh (s : State) (l : Loc) (v : Byte) : (writeByte s l v).fresh = s.fresh := by cases l <;> rfl
@[simp] theorem writeByte_nextId (s : State) (l : Loc) (v : Byte) : (writeByte s l v).nextId = s.nextId := by cases l <;> rfl
@[simp] theorem pokeBytes_pkg (s : State) (l : Loc) (bs : List Byte) : (pokeBytes s l bs).pkg = s.pkg := by
  induction bs generalizing s l <;> simp [pokeBytes, *]
@[simp] theorem pokeBytes_failCause (s : State) (l : Loc) (bs : List Byte) : (pokeBytes s l bs).failCause = s.failCause := by
  induction bs generalizing s l <;> simp [pokeBytes, *]
@[simp] theorem pokeBytes_authed (s : State) (l : Loc) (bs : List Byte) : (pokeBytes s l bs).authed = s.authed := by
  induction bs generalizing s l <;> simp [pokeBytes, *]
@[simp] theorem pokeBytes_fw (s : State) (l : Loc) (bs : List Byte) : (pokeBytes s l bs).fw = s.fw := by
  induction bs generalizing s l <;> simp [pokeBytes, *]
@[simp] theorem pokeBytes_bootKey (s : State) (l : Loc) (bs : List Byte) : (pokeBytes s l bs).bootKey = s.bootKey := by
  induction bs generalizing s l <;> simp [pokeBytes, *]
@[simp] theorem pokeBytes_ports (s : State) (l : Loc) (bs : List Byte) : (pokeBytes s l bs).ports = s.ports := by
  induction bs generalizing s l <;> simp [pokeBytes, *]
@[simp] theorem pokeBytes_did (s : State) (l : Loc) (bs : List Byte) : (pokeBytes s l bs).did = s.did := by
  induction bs generalizing s l <;> simp [pokeBytes, *]
@[simp] theorem pokeBytes_routes (s : State) (l : Loc) (bs : List Byte) : (pokeBytes s l bs).routes = s.routes := by
  induction bs generalizing s l <;> simp [pokeBytes, *]
@[simp] theorem pokeBytes_held (s : State) (l : Loc) (bs : List Byte) : (pokeBytes s l bs).held = s.held := by
  induction bs generalizing s l <;> simp [pokeBytes, *]
@[simp] theorem pokeBytes_snap (s : State) (l : Loc) (bs : List Byte) : (pokeBytes s l bs).snap = s.snap := by
  induction bs generalizing s l <;> simp [pokeBytes, *]
@[simp] theorem pokeBytes_pcsel (s : State) (l : Loc) (bs : List Byte) : (pokeBytes s l bs).pcsel = s.pcsel := by
  induction bs generalizing s l <;> simp [pokeBytes, *]
@[simp] theorem pokeBytes_admq (s : State) (l : Loc) (bs : List Byte) : (pokeBytes s l bs).admq = s.admq := by
  induction bs generalizing s l <;> simp [pokeBytes, *]
@[simp] theorem pokeBytes_jbase (s : State) (l : Loc) (bs : List Byte) : (pokeBytes s l bs).jbase = s.jbase := by
  induction bs generalizing s l <;> simp [pokeBytes, *]
@[simp] theorem pokeBytes_jlg (s : State) (l : Loc) (bs : List Byte) : (pokeBytes s l bs).jlg = s.jlg := by
  induction bs generalizing s l <;> simp [pokeBytes, *]
@[simp] theorem pokeBytes_jnext (s : State) (l : Loc) (bs : List Byte) : (pokeBytes s l bs).jnext = s.jnext := by
  induction bs generalizing s l <;> simp [pokeBytes, *]
@[simp] theorem pokeBytes_bents (s : State) (l : Loc) (bs : List Byte) : (pokeBytes s l bs).bents = s.bents := by
  induction bs generalizing s l <;> simp [pokeBytes, *]
@[simp] theorem pokeBytes_clusters (s : State) (l : Loc) (bs : List Byte) : (pokeBytes s l bs).clusters = s.clusters := by
  induction bs generalizing s l <;> simp [pokeBytes, *]
@[simp] theorem pokeBytes_poison (s : State) (l : Loc) (bs : List Byte) : (pokeBytes s l bs).poison = s.poison := by
  induction bs generalizing s l <;> simp [pokeBytes, *]
@[simp] theorem pokeBytes_carries (s : State) (l : Loc) (bs : List Byte) : (pokeBytes s l bs).carries = s.carries := by
  induction bs generalizing s l <;> simp [pokeBytes, *]
@[simp] theorem pokeBytes_written (s : State) (l : Loc) (bs : List Byte) : (pokeBytes s l bs).written = s.written := by
  induction bs generalizing s l <;> simp [pokeBytes, *]
@[simp] theorem pokeBytes_evacReserve (s : State) (l : Loc) (bs : List Byte) : (pokeBytes s l bs).evacReserve = s.evacReserve := by
  induction bs generalizing s l <;> simp [pokeBytes, *]
@[simp] theorem pokeBytes_hostReserve (s : State) (l : Loc) (bs : List Byte) : (pokeBytes s l bs).hostReserve = s.hostReserve := by
  induction bs generalizing s l <;> simp [pokeBytes, *]
@[simp] theorem pokeBytes_tlb (s : State) (l : Loc) (bs : List Byte) : (pokeBytes s l bs).tlb = s.tlb := by
  induction bs generalizing s l <;> simp [pokeBytes, *]
@[simp] theorem pokeBytes_icache (s : State) (l : Loc) (bs : List Byte) : (pokeBytes s l bs).icache = s.icache := by
  induction bs generalizing s l <;> simp [pokeBytes, *]
@[simp] theorem pokeBytes_ilines (s : State) (l : Loc) (bs : List Byte) : (pokeBytes s l bs).ilines = s.ilines := by
  induction bs generalizing s l <;> simp [pokeBytes, *]
@[simp] theorem pokeBytes_dcache (s : State) (l : Loc) (bs : List Byte) : (pokeBytes s l bs).dcache = s.dcache := by
  induction bs generalizing s l <;> simp [pokeBytes, *]
@[simp] theorem pokeBytes_stores (s : State) (l : Loc) (bs : List Byte) : (pokeBytes s l bs).stores = s.stores := by
  induction bs generalizing s l <;> simp [pokeBytes, *]
@[simp] theorem pokeBytes_loads (s : State) (l : Loc) (bs : List Byte) : (pokeBytes s l bs).loads = s.loads := by
  induction bs generalizing s l <;> simp [pokeBytes, *]
@[simp] theorem pokeBytes_atoms (s : State) (l : Loc) (bs : List Byte) : (pokeBytes s l bs).atoms = s.atoms := by
  induction bs generalizing s l <;> simp [pokeBytes, *]
@[simp] theorem pokeBytes_queries (s : State) (l : Loc) (bs : List Byte) : (pokeBytes s l bs).queries = s.queries := by
  induction bs generalizing s l <;> simp [pokeBytes, *]
@[simp] theorem pokeBytes_groups (s : State) (l : Loc) (bs : List Byte) : (pokeBytes s l bs).groups = s.groups := by
  induction bs generalizing s l <;> simp [pokeBytes, *]
@[simp] theorem pokeBytes_teams (s : State) (l : Loc) (bs : List Byte) : (pokeBytes s l bs).teams = s.teams := by
  induction bs generalizing s l <;> simp [pokeBytes, *]
@[simp] theorem pokeBytes_gangs (s : State) (l : Loc) (bs : List Byte) : (pokeBytes s l bs).gangs = s.gangs := by
  induction bs generalizing s l <;> simp [pokeBytes, *]
@[simp] theorem pokeBytes_tiles (s : State) (l : Loc) (bs : List Byte) : (pokeBytes s l bs).tiles = s.tiles := by
  induction bs generalizing s l <;> simp [pokeBytes, *]
@[simp] theorem pokeBytes_copies (s : State) (l : Loc) (bs : List Byte) : (pokeBytes s l bs).copies = s.copies := by
  induction bs generalizing s l <;> simp [pokeBytes, *]
@[simp] theorem pokeBytes_cqueues (s : State) (l : Loc) (bs : List Byte) : (pokeBytes s l bs).cqueues = s.cqueues := by
  induction bs generalizing s l <;> simp [pokeBytes, *]
@[simp] theorem pokeBytes_rings (s : State) (l : Loc) (bs : List Byte) : (pokeBytes s l bs).rings = s.rings := by
  induction bs generalizing s l <;> simp [pokeBytes, *]
@[simp] theorem pokeBytes_ringWaits (s : State) (l : Loc) (bs : List Byte) : (pokeBytes s l bs).ringWaits = s.ringWaits := by
  induction bs generalizing s l <;> simp [pokeBytes, *]
@[simp] theorem pokeBytes_subs (s : State) (l : Loc) (bs : List Byte) : (pokeBytes s l bs).subs = s.subs := by
  induction bs generalizing s l <;> simp [pokeBytes, *]
@[simp] theorem pokeBytes_barWaits (s : State) (l : Loc) (bs : List Byte) : (pokeBytes s l bs).barWaits = s.barWaits := by
  induction bs generalizing s l <;> simp [pokeBytes, *]
@[simp] theorem pokeBytes_combiners (s : State) (l : Loc) (bs : List Byte) : (pokeBytes s l bs).combiners = s.combiners := by
  induction bs generalizing s l <;> simp [pokeBytes, *]
@[simp] theorem pokeBytes_raised (s : State) (l : Loc) (bs : List Byte) : (pokeBytes s l bs).raised = s.raised := by
  induction bs generalizing s l <;> simp [pokeBytes, *]
@[simp] theorem pokeBytes_releases (s : State) (l : Loc) (bs : List Byte) : (pokeBytes s l bs).releases = s.releases := by
  induction bs generalizing s l <;> simp [pokeBytes, *]
@[simp] theorem pokeBytes_bparents (s : State) (l : Loc) (bs : List Byte) : (pokeBytes s l bs).bparents = s.bparents := by
  induction bs generalizing s l <;> simp [pokeBytes, *]
@[simp] theorem pokeBytes_bteams (s : State) (l : Loc) (bs : List Byte) : (pokeBytes s l bs).bteams = s.bteams := by
  induction bs generalizing s l <;> simp [pokeBytes, *]
@[simp] theorem pokeBytes_upward (s : State) (l : Loc) (bs : List Byte) : (pokeBytes s l bs).upward = s.upward := by
  induction bs generalizing s l <;> simp [pokeBytes, *]
@[simp] theorem pokeBytes_msgs (s : State) (l : Loc) (bs : List Byte) : (pokeBytes s l bs).msgs = s.msgs := by
  induction bs generalizing s l <;> simp [pokeBytes, *]
@[simp] theorem pokeBytes_bins (s : State) (l : Loc) (bs : List Byte) : (pokeBytes s l bs).bins = s.bins := by
  induction bs generalizing s l <;> simp [pokeBytes, *]
@[simp] theorem pokeBytes_teamGens (s : State) (l : Loc) (bs : List Byte) : (pokeBytes s l bs).teamGens = s.teamGens := by
  induction bs generalizing s l <;> simp [pokeBytes, *]
@[simp] theorem pokeBytes_ctxs (s : State) (l : Loc) (bs : List Byte) : (pokeBytes s l bs).ctxs = s.ctxs := by
  induction bs generalizing s l <;> simp [pokeBytes, *]
@[simp] theorem pokeBytes_objs (s : State) (l : Loc) (bs : List Byte) : (pokeBytes s l bs).objs = s.objs := by
  induction bs generalizing s l <;> simp [pokeBytes, *]
@[simp] theorem pokeBytes_slices (s : State) (l : Loc) (bs : List Byte) : (pokeBytes s l bs).slices = s.slices := by
  induction bs generalizing s l <;> simp [pokeBytes, *]
@[simp] theorem pokeBytes_cands (s : State) (l : Loc) (bs : List Byte) : (pokeBytes s l bs).cands = s.cands := by
  induction bs generalizing s l <;> simp [pokeBytes, *]
@[simp] theorem pokeBytes_queues (s : State) (l : Loc) (bs : List Byte) : (pokeBytes s l bs).queues = s.queues := by
  induction bs generalizing s l <;> simp [pokeBytes, *]
@[simp] theorem pokeBytes_replies (s : State) (l : Loc) (bs : List Byte) : (pokeBytes s l bs).replies = s.replies := by
  induction bs generalizing s l <;> simp [pokeBytes, *]
@[simp] theorem pokeBytes_hostReplies (s : State) (l : Loc) (bs : List Byte) : (pokeBytes s l bs).hostReplies = s.hostReplies := by
  induction bs generalizing s l <;> simp [pokeBytes, *]
@[simp] theorem pokeBytes_peerReplies (s : State) (l : Loc) (bs : List Byte) : (pokeBytes s l bs).peerReplies = s.peerReplies := by
  induction bs generalizing s l <;> simp [pokeBytes, *]
@[simp] theorem pokeBytes_agenda (s : State) (l : Loc) (bs : List Byte) : (pokeBytes s l bs).agenda = s.agenda := by
  induction bs generalizing s l <;> simp [pokeBytes, *]
@[simp] theorem pokeBytes_cur (s : State) (l : Loc) (bs : List Byte) : (pokeBytes s l bs).cur = s.cur := by
  induction bs generalizing s l <;> simp [pokeBytes, *]
@[simp] theorem pokeBytes_resume (s : State) (l : Loc) (bs : List Byte) : (pokeBytes s l bs).resume = s.resume := by
  induction bs generalizing s l <;> simp [pokeBytes, *]
@[simp] theorem pokeBytes_fresh (s : State) (l : Loc) (bs : List Byte) : (pokeBytes s l bs).fresh = s.fresh := by
  induction bs generalizing s l <;> simp [pokeBytes, *]
@[simp] theorem pokeBytes_nextId (s : State) (l : Loc) (bs : List Byte) : (pokeBytes s l bs).nextId = s.nextId := by
  induction bs generalizing s l <;> simp [pokeBytes, *]
@[simp] theorem markWritten_pkg (s : State) (l : Loc) : (markWritten s l).pkg = s.pkg := by
  cases l <;> simp only [markWritten] <;> split <;> rfl
@[simp] theorem markWritten_failCause (s : State) (l : Loc) : (markWritten s l).failCause = s.failCause := by
  cases l <;> simp only [markWritten] <;> split <;> rfl
@[simp] theorem markWritten_authed (s : State) (l : Loc) : (markWritten s l).authed = s.authed := by
  cases l <;> simp only [markWritten] <;> split <;> rfl
@[simp] theorem markWritten_fw (s : State) (l : Loc) : (markWritten s l).fw = s.fw := by
  cases l <;> simp only [markWritten] <;> split <;> rfl
@[simp] theorem markWritten_bootKey (s : State) (l : Loc) : (markWritten s l).bootKey = s.bootKey := by
  cases l <;> simp only [markWritten] <;> split <;> rfl
@[simp] theorem markWritten_ports (s : State) (l : Loc) : (markWritten s l).ports = s.ports := by
  cases l <;> simp only [markWritten] <;> split <;> rfl
@[simp] theorem markWritten_did (s : State) (l : Loc) : (markWritten s l).did = s.did := by
  cases l <;> simp only [markWritten] <;> split <;> rfl
@[simp] theorem markWritten_routes (s : State) (l : Loc) : (markWritten s l).routes = s.routes := by
  cases l <;> simp only [markWritten] <;> split <;> rfl
@[simp] theorem markWritten_held (s : State) (l : Loc) : (markWritten s l).held = s.held := by
  cases l <;> simp only [markWritten] <;> split <;> rfl
@[simp] theorem markWritten_snap (s : State) (l : Loc) : (markWritten s l).snap = s.snap := by
  cases l <;> simp only [markWritten] <;> split <;> rfl
@[simp] theorem markWritten_pcsel (s : State) (l : Loc) : (markWritten s l).pcsel = s.pcsel := by
  cases l <;> simp only [markWritten] <;> split <;> rfl
@[simp] theorem markWritten_admq (s : State) (l : Loc) : (markWritten s l).admq = s.admq := by
  cases l <;> simp only [markWritten] <;> split <;> rfl
@[simp] theorem markWritten_jbase (s : State) (l : Loc) : (markWritten s l).jbase = s.jbase := by
  cases l <;> simp only [markWritten] <;> split <;> rfl
@[simp] theorem markWritten_jlg (s : State) (l : Loc) : (markWritten s l).jlg = s.jlg := by
  cases l <;> simp only [markWritten] <;> split <;> rfl
@[simp] theorem markWritten_jnext (s : State) (l : Loc) : (markWritten s l).jnext = s.jnext := by
  cases l <;> simp only [markWritten] <;> split <;> rfl
@[simp] theorem markWritten_bents (s : State) (l : Loc) : (markWritten s l).bents = s.bents := by
  cases l <;> simp only [markWritten] <;> split <;> rfl
@[simp] theorem markWritten_clusters (s : State) (l : Loc) : (markWritten s l).clusters = s.clusters := by
  cases l <;> simp only [markWritten] <;> split <;> rfl
@[simp] theorem markWritten_dev (s : State) (l : Loc) : (markWritten s l).dev = s.dev := by
  cases l <;> simp only [markWritten] <;> split <;> rfl
@[simp] theorem markWritten_host (s : State) (l : Loc) : (markWritten s l).host = s.host := by
  cases l <;> simp only [markWritten] <;> split <;> rfl
@[simp] theorem markWritten_scratch (s : State) (l : Loc) : (markWritten s l).scratch = s.scratch := by
  cases l <;> simp only [markWritten] <;> split <;> rfl
@[simp] theorem markWritten_poison (s : State) (l : Loc) : (markWritten s l).poison = s.poison := by
  cases l <;> simp only [markWritten] <;> split <;> rfl
@[simp] theorem markWritten_carries (s : State) (l : Loc) : (markWritten s l).carries = s.carries := by
  cases l <;> simp only [markWritten] <;> split <;> rfl
@[simp] theorem markWritten_evacReserve (s : State) (l : Loc) : (markWritten s l).evacReserve = s.evacReserve := by
  cases l <;> simp only [markWritten] <;> split <;> rfl
@[simp] theorem markWritten_hostReserve (s : State) (l : Loc) : (markWritten s l).hostReserve = s.hostReserve := by
  cases l <;> simp only [markWritten] <;> split <;> rfl
@[simp] theorem markWritten_tlb (s : State) (l : Loc) : (markWritten s l).tlb = s.tlb := by
  cases l <;> simp only [markWritten] <;> split <;> rfl
@[simp] theorem markWritten_icache (s : State) (l : Loc) : (markWritten s l).icache = s.icache := by
  cases l <;> simp only [markWritten] <;> split <;> rfl
@[simp] theorem markWritten_ilines (s : State) (l : Loc) : (markWritten s l).ilines = s.ilines := by
  cases l <;> simp only [markWritten] <;> split <;> rfl
@[simp] theorem markWritten_dcache (s : State) (l : Loc) : (markWritten s l).dcache = s.dcache := by
  cases l <;> simp only [markWritten] <;> split <;> rfl
@[simp] theorem markWritten_stores (s : State) (l : Loc) : (markWritten s l).stores = s.stores := by
  cases l <;> simp only [markWritten] <;> split <;> rfl
@[simp] theorem markWritten_loads (s : State) (l : Loc) : (markWritten s l).loads = s.loads := by
  cases l <;> simp only [markWritten] <;> split <;> rfl
@[simp] theorem markWritten_atoms (s : State) (l : Loc) : (markWritten s l).atoms = s.atoms := by
  cases l <;> simp only [markWritten] <;> split <;> rfl
@[simp] theorem markWritten_queries (s : State) (l : Loc) : (markWritten s l).queries = s.queries := by
  cases l <;> simp only [markWritten] <;> split <;> rfl
@[simp] theorem markWritten_groups (s : State) (l : Loc) : (markWritten s l).groups = s.groups := by
  cases l <;> simp only [markWritten] <;> split <;> rfl
@[simp] theorem markWritten_teams (s : State) (l : Loc) : (markWritten s l).teams = s.teams := by
  cases l <;> simp only [markWritten] <;> split <;> rfl
@[simp] theorem markWritten_gangs (s : State) (l : Loc) : (markWritten s l).gangs = s.gangs := by
  cases l <;> simp only [markWritten] <;> split <;> rfl
@[simp] theorem markWritten_tiles (s : State) (l : Loc) : (markWritten s l).tiles = s.tiles := by
  cases l <;> simp only [markWritten] <;> split <;> rfl
@[simp] theorem markWritten_copies (s : State) (l : Loc) : (markWritten s l).copies = s.copies := by
  cases l <;> simp only [markWritten] <;> split <;> rfl
@[simp] theorem markWritten_cqueues (s : State) (l : Loc) : (markWritten s l).cqueues = s.cqueues := by
  cases l <;> simp only [markWritten] <;> split <;> rfl
@[simp] theorem markWritten_rings (s : State) (l : Loc) : (markWritten s l).rings = s.rings := by
  cases l <;> simp only [markWritten] <;> split <;> rfl
@[simp] theorem markWritten_ringWaits (s : State) (l : Loc) : (markWritten s l).ringWaits = s.ringWaits := by
  cases l <;> simp only [markWritten] <;> split <;> rfl
@[simp] theorem markWritten_subs (s : State) (l : Loc) : (markWritten s l).subs = s.subs := by
  cases l <;> simp only [markWritten] <;> split <;> rfl
@[simp] theorem markWritten_barWaits (s : State) (l : Loc) : (markWritten s l).barWaits = s.barWaits := by
  cases l <;> simp only [markWritten] <;> split <;> rfl
@[simp] theorem markWritten_combiners (s : State) (l : Loc) : (markWritten s l).combiners = s.combiners := by
  cases l <;> simp only [markWritten] <;> split <;> rfl
@[simp] theorem markWritten_raised (s : State) (l : Loc) : (markWritten s l).raised = s.raised := by
  cases l <;> simp only [markWritten] <;> split <;> rfl
@[simp] theorem markWritten_releases (s : State) (l : Loc) : (markWritten s l).releases = s.releases := by
  cases l <;> simp only [markWritten] <;> split <;> rfl
@[simp] theorem markWritten_bparents (s : State) (l : Loc) : (markWritten s l).bparents = s.bparents := by
  cases l <;> simp only [markWritten] <;> split <;> rfl
@[simp] theorem markWritten_bteams (s : State) (l : Loc) : (markWritten s l).bteams = s.bteams := by
  cases l <;> simp only [markWritten] <;> split <;> rfl
@[simp] theorem markWritten_upward (s : State) (l : Loc) : (markWritten s l).upward = s.upward := by
  cases l <;> simp only [markWritten] <;> split <;> rfl
@[simp] theorem markWritten_msgs (s : State) (l : Loc) : (markWritten s l).msgs = s.msgs := by
  cases l <;> simp only [markWritten] <;> split <;> rfl
@[simp] theorem markWritten_bins (s : State) (l : Loc) : (markWritten s l).bins = s.bins := by
  cases l <;> simp only [markWritten] <;> split <;> rfl
@[simp] theorem markWritten_teamGens (s : State) (l : Loc) : (markWritten s l).teamGens = s.teamGens := by
  cases l <;> simp only [markWritten] <;> split <;> rfl
@[simp] theorem markWritten_ctxs (s : State) (l : Loc) : (markWritten s l).ctxs = s.ctxs := by
  cases l <;> simp only [markWritten] <;> split <;> rfl
@[simp] theorem markWritten_objs (s : State) (l : Loc) : (markWritten s l).objs = s.objs := by
  cases l <;> simp only [markWritten] <;> split <;> rfl
@[simp] theorem markWritten_slices (s : State) (l : Loc) : (markWritten s l).slices = s.slices := by
  cases l <;> simp only [markWritten] <;> split <;> rfl
@[simp] theorem markWritten_cands (s : State) (l : Loc) : (markWritten s l).cands = s.cands := by
  cases l <;> simp only [markWritten] <;> split <;> rfl
@[simp] theorem markWritten_queues (s : State) (l : Loc) : (markWritten s l).queues = s.queues := by
  cases l <;> simp only [markWritten] <;> split <;> rfl
@[simp] theorem markWritten_replies (s : State) (l : Loc) : (markWritten s l).replies = s.replies := by
  cases l <;> simp only [markWritten] <;> split <;> rfl
@[simp] theorem markWritten_hostReplies (s : State) (l : Loc) : (markWritten s l).hostReplies = s.hostReplies := by
  cases l <;> simp only [markWritten] <;> split <;> rfl
@[simp] theorem markWritten_peerReplies (s : State) (l : Loc) : (markWritten s l).peerReplies = s.peerReplies := by
  cases l <;> simp only [markWritten] <;> split <;> rfl
@[simp] theorem markWritten_agenda (s : State) (l : Loc) : (markWritten s l).agenda = s.agenda := by
  cases l <;> simp only [markWritten] <;> split <;> rfl
@[simp] theorem markWritten_cur (s : State) (l : Loc) : (markWritten s l).cur = s.cur := by
  cases l <;> simp only [markWritten] <;> split <;> rfl
@[simp] theorem markWritten_resume (s : State) (l : Loc) : (markWritten s l).resume = s.resume := by
  cases l <;> simp only [markWritten] <;> split <;> rfl
@[simp] theorem markWritten_fresh (s : State) (l : Loc) : (markWritten s l).fresh = s.fresh := by
  cases l <;> simp only [markWritten] <;> split <;> rfl
@[simp] theorem markWritten_nextId (s : State) (l : Loc) : (markWritten s l).nextId = s.nextId := by
  cases l <;> simp only [markWritten] <;> split <;> rfl
@[simp] theorem dropLines_pkg (s : State) (l : Loc) (n : Nat) (own : DCacheRec → Bool) : (dropLines s l n own).pkg = s.pkg := rfl
@[simp] theorem dropLines_failCause (s : State) (l : Loc) (n : Nat) (own : DCacheRec → Bool) : (dropLines s l n own).failCause = s.failCause := rfl
@[simp] theorem dropLines_authed (s : State) (l : Loc) (n : Nat) (own : DCacheRec → Bool) : (dropLines s l n own).authed = s.authed := rfl
@[simp] theorem dropLines_fw (s : State) (l : Loc) (n : Nat) (own : DCacheRec → Bool) : (dropLines s l n own).fw = s.fw := rfl
@[simp] theorem dropLines_bootKey (s : State) (l : Loc) (n : Nat) (own : DCacheRec → Bool) : (dropLines s l n own).bootKey = s.bootKey := rfl
@[simp] theorem dropLines_ports (s : State) (l : Loc) (n : Nat) (own : DCacheRec → Bool) : (dropLines s l n own).ports = s.ports := rfl
@[simp] theorem dropLines_did (s : State) (l : Loc) (n : Nat) (own : DCacheRec → Bool) : (dropLines s l n own).did = s.did := rfl
@[simp] theorem dropLines_routes (s : State) (l : Loc) (n : Nat) (own : DCacheRec → Bool) : (dropLines s l n own).routes = s.routes := rfl
@[simp] theorem dropLines_held (s : State) (l : Loc) (n : Nat) (own : DCacheRec → Bool) : (dropLines s l n own).held = s.held := rfl
@[simp] theorem dropLines_snap (s : State) (l : Loc) (n : Nat) (own : DCacheRec → Bool) : (dropLines s l n own).snap = s.snap := rfl
@[simp] theorem dropLines_pcsel (s : State) (l : Loc) (n : Nat) (own : DCacheRec → Bool) : (dropLines s l n own).pcsel = s.pcsel := rfl
@[simp] theorem dropLines_admq (s : State) (l : Loc) (n : Nat) (own : DCacheRec → Bool) : (dropLines s l n own).admq = s.admq := rfl
@[simp] theorem dropLines_jbase (s : State) (l : Loc) (n : Nat) (own : DCacheRec → Bool) : (dropLines s l n own).jbase = s.jbase := rfl
@[simp] theorem dropLines_jlg (s : State) (l : Loc) (n : Nat) (own : DCacheRec → Bool) : (dropLines s l n own).jlg = s.jlg := rfl
@[simp] theorem dropLines_jnext (s : State) (l : Loc) (n : Nat) (own : DCacheRec → Bool) : (dropLines s l n own).jnext = s.jnext := rfl
@[simp] theorem dropLines_bents (s : State) (l : Loc) (n : Nat) (own : DCacheRec → Bool) : (dropLines s l n own).bents = s.bents := rfl
@[simp] theorem dropLines_clusters (s : State) (l : Loc) (n : Nat) (own : DCacheRec → Bool) : (dropLines s l n own).clusters = s.clusters := rfl
@[simp] theorem dropLines_dev (s : State) (l : Loc) (n : Nat) (own : DCacheRec → Bool) : (dropLines s l n own).dev = s.dev := rfl
@[simp] theorem dropLines_host (s : State) (l : Loc) (n : Nat) (own : DCacheRec → Bool) : (dropLines s l n own).host = s.host := rfl
@[simp] theorem dropLines_scratch (s : State) (l : Loc) (n : Nat) (own : DCacheRec → Bool) : (dropLines s l n own).scratch = s.scratch := rfl
@[simp] theorem dropLines_poison (s : State) (l : Loc) (n : Nat) (own : DCacheRec → Bool) : (dropLines s l n own).poison = s.poison := rfl
@[simp] theorem dropLines_carries (s : State) (l : Loc) (n : Nat) (own : DCacheRec → Bool) : (dropLines s l n own).carries = s.carries := rfl
@[simp] theorem dropLines_written (s : State) (l : Loc) (n : Nat) (own : DCacheRec → Bool) : (dropLines s l n own).written = s.written := rfl
@[simp] theorem dropLines_evacReserve (s : State) (l : Loc) (n : Nat) (own : DCacheRec → Bool) : (dropLines s l n own).evacReserve = s.evacReserve := rfl
@[simp] theorem dropLines_hostReserve (s : State) (l : Loc) (n : Nat) (own : DCacheRec → Bool) : (dropLines s l n own).hostReserve = s.hostReserve := rfl
@[simp] theorem dropLines_tlb (s : State) (l : Loc) (n : Nat) (own : DCacheRec → Bool) : (dropLines s l n own).tlb = s.tlb := rfl
@[simp] theorem dropLines_icache (s : State) (l : Loc) (n : Nat) (own : DCacheRec → Bool) : (dropLines s l n own).icache = s.icache := rfl
@[simp] theorem dropLines_ilines (s : State) (l : Loc) (n : Nat) (own : DCacheRec → Bool) : (dropLines s l n own).ilines = s.ilines := rfl
@[simp] theorem dropLines_dcache (s : State) (l : Loc) (n : Nat) (own : DCacheRec → Bool) : (dropLines s l n own).dcache = s.dcache.filter fun r => own r || !overlaps r.loc 128 l n := rfl
@[simp] theorem dropLines_stores (s : State) (l : Loc) (n : Nat) (own : DCacheRec → Bool) : (dropLines s l n own).stores = s.stores := rfl
@[simp] theorem dropLines_loads (s : State) (l : Loc) (n : Nat) (own : DCacheRec → Bool) : (dropLines s l n own).loads = s.loads := rfl
@[simp] theorem dropLines_atoms (s : State) (l : Loc) (n : Nat) (own : DCacheRec → Bool) : (dropLines s l n own).atoms = s.atoms := rfl
@[simp] theorem dropLines_queries (s : State) (l : Loc) (n : Nat) (own : DCacheRec → Bool) : (dropLines s l n own).queries = s.queries := rfl
@[simp] theorem dropLines_groups (s : State) (l : Loc) (n : Nat) (own : DCacheRec → Bool) : (dropLines s l n own).groups = s.groups := rfl
@[simp] theorem dropLines_teams (s : State) (l : Loc) (n : Nat) (own : DCacheRec → Bool) : (dropLines s l n own).teams = s.teams := rfl
@[simp] theorem dropLines_gangs (s : State) (l : Loc) (n : Nat) (own : DCacheRec → Bool) : (dropLines s l n own).gangs = s.gangs := rfl
@[simp] theorem dropLines_tiles (s : State) (l : Loc) (n : Nat) (own : DCacheRec → Bool) : (dropLines s l n own).tiles = s.tiles := rfl
@[simp] theorem dropLines_copies (s : State) (l : Loc) (n : Nat) (own : DCacheRec → Bool) : (dropLines s l n own).copies = s.copies := rfl
@[simp] theorem dropLines_cqueues (s : State) (l : Loc) (n : Nat) (own : DCacheRec → Bool) : (dropLines s l n own).cqueues = s.cqueues := rfl
@[simp] theorem dropLines_rings (s : State) (l : Loc) (n : Nat) (own : DCacheRec → Bool) : (dropLines s l n own).rings = s.rings := rfl
@[simp] theorem dropLines_ringWaits (s : State) (l : Loc) (n : Nat) (own : DCacheRec → Bool) : (dropLines s l n own).ringWaits = s.ringWaits := rfl
@[simp] theorem dropLines_subs (s : State) (l : Loc) (n : Nat) (own : DCacheRec → Bool) : (dropLines s l n own).subs = s.subs := rfl
@[simp] theorem dropLines_barWaits (s : State) (l : Loc) (n : Nat) (own : DCacheRec → Bool) : (dropLines s l n own).barWaits = s.barWaits := rfl
@[simp] theorem dropLines_combiners (s : State) (l : Loc) (n : Nat) (own : DCacheRec → Bool) : (dropLines s l n own).combiners = s.combiners := rfl
@[simp] theorem dropLines_raised (s : State) (l : Loc) (n : Nat) (own : DCacheRec → Bool) : (dropLines s l n own).raised = s.raised := rfl
@[simp] theorem dropLines_releases (s : State) (l : Loc) (n : Nat) (own : DCacheRec → Bool) : (dropLines s l n own).releases = s.releases := rfl
@[simp] theorem dropLines_bparents (s : State) (l : Loc) (n : Nat) (own : DCacheRec → Bool) : (dropLines s l n own).bparents = s.bparents := rfl
@[simp] theorem dropLines_bteams (s : State) (l : Loc) (n : Nat) (own : DCacheRec → Bool) : (dropLines s l n own).bteams = s.bteams := rfl
@[simp] theorem dropLines_upward (s : State) (l : Loc) (n : Nat) (own : DCacheRec → Bool) : (dropLines s l n own).upward = s.upward := rfl
@[simp] theorem dropLines_msgs (s : State) (l : Loc) (n : Nat) (own : DCacheRec → Bool) : (dropLines s l n own).msgs = s.msgs := rfl
@[simp] theorem dropLines_bins (s : State) (l : Loc) (n : Nat) (own : DCacheRec → Bool) : (dropLines s l n own).bins = s.bins := rfl
@[simp] theorem dropLines_teamGens (s : State) (l : Loc) (n : Nat) (own : DCacheRec → Bool) : (dropLines s l n own).teamGens = s.teamGens := rfl
@[simp] theorem dropLines_ctxs (s : State) (l : Loc) (n : Nat) (own : DCacheRec → Bool) : (dropLines s l n own).ctxs = s.ctxs := rfl
@[simp] theorem dropLines_objs (s : State) (l : Loc) (n : Nat) (own : DCacheRec → Bool) : (dropLines s l n own).objs = s.objs := rfl
@[simp] theorem dropLines_slices (s : State) (l : Loc) (n : Nat) (own : DCacheRec → Bool) : (dropLines s l n own).slices = s.slices := rfl
@[simp] theorem dropLines_cands (s : State) (l : Loc) (n : Nat) (own : DCacheRec → Bool) : (dropLines s l n own).cands = s.cands := rfl
@[simp] theorem dropLines_queues (s : State) (l : Loc) (n : Nat) (own : DCacheRec → Bool) : (dropLines s l n own).queues = s.queues := rfl
@[simp] theorem dropLines_replies (s : State) (l : Loc) (n : Nat) (own : DCacheRec → Bool) : (dropLines s l n own).replies = s.replies := rfl
@[simp] theorem dropLines_hostReplies (s : State) (l : Loc) (n : Nat) (own : DCacheRec → Bool) : (dropLines s l n own).hostReplies = s.hostReplies := rfl
@[simp] theorem dropLines_peerReplies (s : State) (l : Loc) (n : Nat) (own : DCacheRec → Bool) : (dropLines s l n own).peerReplies = s.peerReplies := rfl
@[simp] theorem dropLines_agenda (s : State) (l : Loc) (n : Nat) (own : DCacheRec → Bool) : (dropLines s l n own).agenda = s.agenda := rfl
@[simp] theorem dropLines_cur (s : State) (l : Loc) (n : Nat) (own : DCacheRec → Bool) : (dropLines s l n own).cur = s.cur := rfl
@[simp] theorem dropLines_resume (s : State) (l : Loc) (n : Nat) (own : DCacheRec → Bool) : (dropLines s l n own).resume = s.resume := rfl
@[simp] theorem dropLines_fresh (s : State) (l : Loc) (n : Nat) (own : DCacheRec → Bool) : (dropLines s l n own).fresh = s.fresh := rfl
@[simp] theorem dropLines_nextId (s : State) (l : Loc) (n : Nat) (own : DCacheRec → Bool) : (dropLines s l n own).nextId = s.nextId := rfl
@[simp] theorem writeBytes_pkg (s : State) (l : Loc) (bs : List Byte) : (writeBytes s l bs).pkg = s.pkg := by
  simp only [writeBytes]; split <;> simp
@[simp] theorem writeBytes_failCause (s : State) (l : Loc) (bs : List Byte) : (writeBytes s l bs).failCause = s.failCause := by
  simp only [writeBytes]; split <;> simp
@[simp] theorem writeBytes_authed (s : State) (l : Loc) (bs : List Byte) : (writeBytes s l bs).authed = s.authed := by
  simp only [writeBytes]; split <;> simp
@[simp] theorem writeBytes_fw (s : State) (l : Loc) (bs : List Byte) : (writeBytes s l bs).fw = s.fw := by
  simp only [writeBytes]; split <;> simp
@[simp] theorem writeBytes_bootKey (s : State) (l : Loc) (bs : List Byte) : (writeBytes s l bs).bootKey = s.bootKey := by
  simp only [writeBytes]; split <;> simp
@[simp] theorem writeBytes_ports (s : State) (l : Loc) (bs : List Byte) : (writeBytes s l bs).ports = s.ports := by
  simp only [writeBytes]; split <;> simp
@[simp] theorem writeBytes_did (s : State) (l : Loc) (bs : List Byte) : (writeBytes s l bs).did = s.did := by
  simp only [writeBytes]; split <;> simp
@[simp] theorem writeBytes_routes (s : State) (l : Loc) (bs : List Byte) : (writeBytes s l bs).routes = s.routes := by
  simp only [writeBytes]; split <;> simp
@[simp] theorem writeBytes_held (s : State) (l : Loc) (bs : List Byte) : (writeBytes s l bs).held = s.held := by
  simp only [writeBytes]; split <;> simp
@[simp] theorem writeBytes_snap (s : State) (l : Loc) (bs : List Byte) : (writeBytes s l bs).snap = s.snap := by
  simp only [writeBytes]; split <;> simp
@[simp] theorem writeBytes_pcsel (s : State) (l : Loc) (bs : List Byte) : (writeBytes s l bs).pcsel = s.pcsel := by
  simp only [writeBytes]; split <;> simp
@[simp] theorem writeBytes_admq (s : State) (l : Loc) (bs : List Byte) : (writeBytes s l bs).admq = s.admq := by
  simp only [writeBytes]; split <;> simp
@[simp] theorem writeBytes_jbase (s : State) (l : Loc) (bs : List Byte) : (writeBytes s l bs).jbase = s.jbase := by
  simp only [writeBytes]; split <;> simp
@[simp] theorem writeBytes_jlg (s : State) (l : Loc) (bs : List Byte) : (writeBytes s l bs).jlg = s.jlg := by
  simp only [writeBytes]; split <;> simp
@[simp] theorem writeBytes_jnext (s : State) (l : Loc) (bs : List Byte) : (writeBytes s l bs).jnext = s.jnext := by
  simp only [writeBytes]; split <;> simp
@[simp] theorem writeBytes_bents (s : State) (l : Loc) (bs : List Byte) : (writeBytes s l bs).bents = s.bents := by
  simp only [writeBytes]; split <;> simp
@[simp] theorem writeBytes_clusters (s : State) (l : Loc) (bs : List Byte) : (writeBytes s l bs).clusters = s.clusters := by
  simp only [writeBytes]; split <;> simp
@[simp] theorem writeBytes_poison (s : State) (l : Loc) (bs : List Byte) : (writeBytes s l bs).poison = s.poison := by
  simp only [writeBytes]; split <;> simp
@[simp] theorem writeBytes_carries (s : State) (l : Loc) (bs : List Byte) : (writeBytes s l bs).carries = s.carries := by
  simp only [writeBytes]; split <;> simp
@[simp] theorem writeBytes_evacReserve (s : State) (l : Loc) (bs : List Byte) : (writeBytes s l bs).evacReserve = s.evacReserve := by
  simp only [writeBytes]; split <;> simp
@[simp] theorem writeBytes_hostReserve (s : State) (l : Loc) (bs : List Byte) : (writeBytes s l bs).hostReserve = s.hostReserve := by
  simp only [writeBytes]; split <;> simp
@[simp] theorem writeBytes_tlb (s : State) (l : Loc) (bs : List Byte) : (writeBytes s l bs).tlb = s.tlb := by
  simp only [writeBytes]; split <;> simp
@[simp] theorem writeBytes_icache (s : State) (l : Loc) (bs : List Byte) : (writeBytes s l bs).icache = s.icache := by
  simp only [writeBytes]; split <;> simp
@[simp] theorem writeBytes_ilines (s : State) (l : Loc) (bs : List Byte) : (writeBytes s l bs).ilines = s.ilines := by
  simp only [writeBytes]; split <;> simp
@[simp] theorem writeBytes_stores (s : State) (l : Loc) (bs : List Byte) : (writeBytes s l bs).stores = s.stores := by
  simp only [writeBytes]; split <;> simp
@[simp] theorem writeBytes_loads (s : State) (l : Loc) (bs : List Byte) : (writeBytes s l bs).loads = s.loads := by
  simp only [writeBytes]; split <;> simp
@[simp] theorem writeBytes_atoms (s : State) (l : Loc) (bs : List Byte) : (writeBytes s l bs).atoms = s.atoms := by
  simp only [writeBytes]; split <;> simp
@[simp] theorem writeBytes_queries (s : State) (l : Loc) (bs : List Byte) : (writeBytes s l bs).queries = s.queries := by
  simp only [writeBytes]; split <;> simp
@[simp] theorem writeBytes_groups (s : State) (l : Loc) (bs : List Byte) : (writeBytes s l bs).groups = s.groups := by
  simp only [writeBytes]; split <;> simp
@[simp] theorem writeBytes_teams (s : State) (l : Loc) (bs : List Byte) : (writeBytes s l bs).teams = s.teams := by
  simp only [writeBytes]; split <;> simp
@[simp] theorem writeBytes_gangs (s : State) (l : Loc) (bs : List Byte) : (writeBytes s l bs).gangs = s.gangs := by
  simp only [writeBytes]; split <;> simp
@[simp] theorem writeBytes_tiles (s : State) (l : Loc) (bs : List Byte) : (writeBytes s l bs).tiles = s.tiles := by
  simp only [writeBytes]; split <;> simp
@[simp] theorem writeBytes_copies (s : State) (l : Loc) (bs : List Byte) : (writeBytes s l bs).copies = s.copies := by
  simp only [writeBytes]; split <;> simp
@[simp] theorem writeBytes_cqueues (s : State) (l : Loc) (bs : List Byte) : (writeBytes s l bs).cqueues = s.cqueues := by
  simp only [writeBytes]; split <;> simp
@[simp] theorem writeBytes_rings (s : State) (l : Loc) (bs : List Byte) : (writeBytes s l bs).rings = s.rings := by
  simp only [writeBytes]; split <;> simp
@[simp] theorem writeBytes_ringWaits (s : State) (l : Loc) (bs : List Byte) : (writeBytes s l bs).ringWaits = s.ringWaits := by
  simp only [writeBytes]; split <;> simp
@[simp] theorem writeBytes_subs (s : State) (l : Loc) (bs : List Byte) : (writeBytes s l bs).subs = s.subs := by
  simp only [writeBytes]; split <;> simp
@[simp] theorem writeBytes_barWaits (s : State) (l : Loc) (bs : List Byte) : (writeBytes s l bs).barWaits = s.barWaits := by
  simp only [writeBytes]; split <;> simp
@[simp] theorem writeBytes_combiners (s : State) (l : Loc) (bs : List Byte) : (writeBytes s l bs).combiners = s.combiners := by
  simp only [writeBytes]; split <;> simp
@[simp] theorem writeBytes_raised (s : State) (l : Loc) (bs : List Byte) : (writeBytes s l bs).raised = s.raised := by
  simp only [writeBytes]; split <;> simp
@[simp] theorem writeBytes_releases (s : State) (l : Loc) (bs : List Byte) : (writeBytes s l bs).releases = s.releases := by
  simp only [writeBytes]; split <;> simp
@[simp] theorem writeBytes_bparents (s : State) (l : Loc) (bs : List Byte) : (writeBytes s l bs).bparents = s.bparents := by
  simp only [writeBytes]; split <;> simp
@[simp] theorem writeBytes_bteams (s : State) (l : Loc) (bs : List Byte) : (writeBytes s l bs).bteams = s.bteams := by
  simp only [writeBytes]; split <;> simp
@[simp] theorem writeBytes_upward (s : State) (l : Loc) (bs : List Byte) : (writeBytes s l bs).upward = s.upward := by
  simp only [writeBytes]; split <;> simp
@[simp] theorem writeBytes_msgs (s : State) (l : Loc) (bs : List Byte) : (writeBytes s l bs).msgs = s.msgs := by
  simp only [writeBytes]; split <;> simp
@[simp] theorem writeBytes_bins (s : State) (l : Loc) (bs : List Byte) : (writeBytes s l bs).bins = s.bins := by
  simp only [writeBytes]; split <;> simp
@[simp] theorem writeBytes_teamGens (s : State) (l : Loc) (bs : List Byte) : (writeBytes s l bs).teamGens = s.teamGens := by
  simp only [writeBytes]; split <;> simp
@[simp] theorem writeBytes_ctxs (s : State) (l : Loc) (bs : List Byte) : (writeBytes s l bs).ctxs = s.ctxs := by
  simp only [writeBytes]; split <;> simp
@[simp] theorem writeBytes_objs (s : State) (l : Loc) (bs : List Byte) : (writeBytes s l bs).objs = s.objs := by
  simp only [writeBytes]; split <;> simp
@[simp] theorem writeBytes_slices (s : State) (l : Loc) (bs : List Byte) : (writeBytes s l bs).slices = s.slices := by
  simp only [writeBytes]; split <;> simp
@[simp] theorem writeBytes_cands (s : State) (l : Loc) (bs : List Byte) : (writeBytes s l bs).cands = s.cands := by
  simp only [writeBytes]; split <;> simp
@[simp] theorem writeBytes_queues (s : State) (l : Loc) (bs : List Byte) : (writeBytes s l bs).queues = s.queues := by
  simp only [writeBytes]; split <;> simp
@[simp] theorem writeBytes_replies (s : State) (l : Loc) (bs : List Byte) : (writeBytes s l bs).replies = s.replies := by
  simp only [writeBytes]; split <;> simp
@[simp] theorem writeBytes_hostReplies (s : State) (l : Loc) (bs : List Byte) : (writeBytes s l bs).hostReplies = s.hostReplies := by
  simp only [writeBytes]; split <;> simp
@[simp] theorem writeBytes_peerReplies (s : State) (l : Loc) (bs : List Byte) : (writeBytes s l bs).peerReplies = s.peerReplies := by
  simp only [writeBytes]; split <;> simp
@[simp] theorem writeBytes_agenda (s : State) (l : Loc) (bs : List Byte) : (writeBytes s l bs).agenda = s.agenda := by
  simp only [writeBytes]; split <;> simp
@[simp] theorem writeBytes_cur (s : State) (l : Loc) (bs : List Byte) : (writeBytes s l bs).cur = s.cur := by
  simp only [writeBytes]; split <;> simp
@[simp] theorem writeBytes_resume (s : State) (l : Loc) (bs : List Byte) : (writeBytes s l bs).resume = s.resume := by
  simp only [writeBytes]; split <;> simp
@[simp] theorem writeBytes_fresh (s : State) (l : Loc) (bs : List Byte) : (writeBytes s l bs).fresh = s.fresh := by
  simp only [writeBytes]; split <;> simp
@[simp] theorem writeBytes_nextId (s : State) (l : Loc) (bs : List Byte) : (writeBytes s l bs).nextId = s.nextId := by
  simp only [writeBytes]; split <;> simp

end Sys2Proof.Machine
end

