-- ==== Sys2Proof/Laws/Memory.lean ====
section
/-! SUPPORT. Laws of memory: the canonical form, read after write, frames of writes, bytes of numbers. -/

namespace Sys2Proof.Machine

/-! ### Cells -/

theorem cellsAbove_iff {k : Nat} {m : List Host.Cell} : cellsAbove k m = true ↔ ∀ c ∈ m, k < c.1 := by
  simp only [cellsAbove, List.all_eq_true, decide_eq_true_eq]

theorem cellsAbove_mono {j k : Nat} (h : j ≤ k) (m : List Host.Cell) (hm : cellsAbove k m = true) :
    cellsAbove j m = true :=
  cellsAbove_iff.mpr fun c hc => Nat.lt_of_le_of_lt h (cellsAbove_iff.mp hm c hc)

theorem cellGet_above {k : Nat} (m : List Host.Cell) (hm : cellsAbove k m = true) : cellGet m k = 0 := by
  induction m with
  | nil => rfl
  | cons c m ih =>
    have h := cellsAbove_iff.mp hm
    have := h c (by simp)
    simp only [cellGet]
    rw [if_neg (by omega)]
    exact ih (cellsAbove_iff.mpr fun d hd => h d (by simp [hd]))

theorem mem_cellSet {m : List Host.Cell} {k : Nat} {v : Byte} {c : Host.Cell} (h : c ∈ cellSet m k v) :
    c ∈ m ∨ c = (k, v) := by
  induction m with
  | nil => simp only [cellSet] at h; split at h <;> simp_all
  | cons d m ih =>
    obtain ⟨a, b⟩ := d
    simp only [cellSet] at h
    split_ifs at h <;> simp only [List.mem_cons] at h ⊢ <;> tauto

theorem cellsAbove_cellSet {j k : Nat} (m : List Host.Cell) (v : Byte) (h : j < k)
    (hm : cellsAbove j m = true) : cellsAbove j (cellSet m k v) = true :=
  cellsAbove_iff.mpr fun c hc => by
    rcases mem_cellSet hc with h' | rfl
    · exact cellsAbove_iff.mp hm c h'
    · exact h

theorem cellsWf_cons {a : Nat} {b : Byte} {m : List Host.Cell} :
    cellsWf ((a, b) :: m) = true ↔ b ≠ 0 ∧ cellsAbove a m = true ∧ cellsWf m = true := by
  simp only [cellsWf, Bool.and_eq_true, bne_iff_ne, and_assoc]

theorem cellsAbove_cons {k a : Nat} {b : Byte} {m : List Host.Cell} :
    cellsAbove k ((a, b) :: m) = true ↔ k < a ∧ cellsAbove k m = true := by
  simp only [cellsAbove, List.all_cons, Bool.and_eq_true, decide_eq_true_eq]

/-- Writing a byte keeps the canonical form. -/
theorem cellsWf_cellSet (m : List Host.Cell) (k : Nat) (v : Byte) (hm : cellsWf m = true) :
    cellsWf (cellSet m k v) = true := by
  induction m with
  | nil =>
    simp only [cellSet]; split
    · rfl
    · rename_i h; exact cellsWf_cons.mpr ⟨h, rfl, rfl⟩
  | cons c m ih =>
    obtain ⟨a, b⟩ := c
    obtain ⟨hb, ha, hw⟩ := cellsWf_cons.mp hm
    simp only [cellSet]
    split_ifs with h1 h2 h3 h4
    · exact hm
    · exact cellsWf_cons.mpr ⟨h2, cellsAbove_cons.mpr ⟨h1, cellsAbove_mono (by omega) m ha⟩, hm⟩
    · exact hw
    · exact cellsWf_cons.mpr ⟨h4, h3 ▸ ha, hw⟩
    · exact cellsWf_cons.mpr ⟨hb, cellsAbove_cellSet m v (by omega) ha, ih hw⟩

/-- Reading the byte just written. -/
theorem cellGet_cellSet_same (m : List Host.Cell) (k : Nat) (v : Byte) (hm : cellsWf m = true) :
    cellGet (cellSet m k v) k = v := by
  induction m with
  | nil => simp only [cellSet]; split <;> simp_all [cellGet]
  | cons c m ih =>
    obtain ⟨a, b⟩ := c
    obtain ⟨hb, ha, hw⟩ := cellsWf_cons.mp hm
    have ih := ih hw
    simp only [cellSet]
    split_ifs with h1 h2 h3 h4
    · rw [h2]; simp only [cellGet]; rw [if_neg (by omega)]
      exact cellGet_above m (cellsAbove_mono (by omega) m ha)
    · simp [cellGet]
    · rw [h4]; subst h3; exact cellGet_above m ha
    · simp [cellGet]
    · simp only [cellGet]; rw [if_neg (by omega)]; exact ih

/-- A write leaves every other address alone. -/
theorem cellGet_cellSet_ne (m : List Host.Cell) (k j : Nat) (v : Byte) (h : j ≠ k) :
    cellGet (cellSet m k v) j = cellGet m j := by
  induction m with
  | nil => simp only [cellSet]; split <;> simp [cellGet]; omega
  | cons c m ih =>
    obtain ⟨a, b⟩ := c
    simp only [cellSet]
    split_ifs with h1 h2 h3 h4
    · rfl
    · simp only [cellGet]; rw [if_neg (by omega)]
    · simp only [cellGet]; rw [if_neg (by omega)]
    · simp only [cellGet]; rw [if_neg (by omega), if_neg (by omega)]
    · simp only [cellGet, ih]

/-! ### Scratchpads -/

theorem scratchSet_wf (l : List Scratch) (c r o : Nat) (v : Byte) (h : (l.all fun x => cellsWf x.mem) = true) :
    ((scratchSet l c r o v).all fun x => cellsWf x.mem) = true := by
  induction l with
  | nil => simp [scratchSet, cellsWf_cellSet [] o v rfl]
  | cons x xs ih =>
    simp only [List.all_cons, Bool.and_eq_true] at h
    simp only [scratchSet]
    split
    · simp [cellsWf_cellSet _ o v h.1, h.2]
    · simp [h.1, ih h.2]

/-- The memory of a rank in a list of scratchpads. -/
def scratchFind (l : List Scratch) (c r : Nat) : List Host.Cell :=
  match l.find? fun x => x.ctx == c && x.rank == r with
  | some x => x.mem
  | none => []

theorem scratchOf_eq (s : State) (c r : Nat) : scratchOf s c r = scratchFind s.scratch c r := rfl

theorem scratchFind_wf (l : List Scratch) (c r : Nat) (h : (l.all fun x => cellsWf x.mem) = true) :
    cellsWf (scratchFind l c r) = true := by
  simp only [scratchFind]
  split
  · rename_i x hx
    exact List.all_eq_true.mp h x (List.mem_of_find?_eq_some hx)
  · rfl

theorem scratchFind_set_same (l : List Scratch) (c r o : Nat) (v : Byte) :
    scratchFind (scratchSet l c r o v) c r = cellSet (scratchFind l c r) o v := by
  induction l with
  | nil => simp [scratchSet, scratchFind]
  | cons x xs ih =>
    simp only [scratchSet]
    split
    · rename_i h; simp [scratchFind, h.1, h.2]
    · rename_i h
      have hne : (x.ctx == c && x.rank == r) = false := by simpa using h
      simp only [scratchFind, List.find?_cons, hne] at ih ⊢
      exact ih

theorem scratchFind_set_ne (l : List Scratch) (c r o c' r' : Nat) (v : Byte) (h : ¬ (c' = c ∧ r' = r)) :
    scratchFind (scratchSet l c r o v) c' r' = scratchFind l c' r' := by
  induction l with
  | nil =>
    have : (c == c' && r == r') = false := by
      simp only [Bool.and_eq_false_iff, beq_eq_false_iff_ne]; omega
    simp [scratchSet, scratchFind, this]
  | cons x xs ih =>
    simp only [scratchSet]
    split
    · rename_i hx
      have : (x.ctx == c' && x.rank == r') = false := by
        simp only [Bool.and_eq_false_iff, beq_eq_false_iff_ne]; omega
      simp [scratchFind, this]
    · simp only [scratchFind, List.find?_cons] at ih ⊢
      cases x.ctx == c' && x.rank == r' with
      | true => rfl
      | false => exact ih

/-! ### Bytes of a state -/

theorem wf_parts {s : State} (h : Memory.wf s = true) :
    cellsWf s.dev = true ∧ cellsWf s.host = true ∧ (s.scratch.all fun x => cellsWf x.mem) = true := by
  simpa [Memory.wf, and_assoc] using h

/-- The form depends on the three memories only. -/
theorem wf_congr {s t : State} (hd : t.dev = s.dev) (hh : t.host = s.host) (hs : t.scratch = s.scratch)
    (h : Memory.wf s = true) : Memory.wf t = true := by
  simpa [Memory.wf, hd, hh, hs] using h

theorem writeByte_wf (s : State) (l : Loc) (v : Byte) (h : Memory.wf s = true) :
    Memory.wf (writeByte s l v) = true := by
  obtain ⟨h1, h2, h3⟩ := wf_parts h
  cases l <;> simp only [writeByte, Memory.wf, Bool.and_eq_true]
  · exact ⟨⟨cellsWf_cellSet _ _ _ h1, h2⟩, h3⟩
  · exact ⟨⟨h1, cellsWf_cellSet _ _ _ h2⟩, h3⟩
  · exact ⟨⟨h1, h2⟩, scratchSet_wf _ _ _ _ _ h3⟩
  · exact ⟨⟨h1, h2⟩, h3⟩

theorem pokeBytes_wf (s : State) (l : Loc) (bs : List Byte) (h : Memory.wf s = true) :
    Memory.wf (pokeBytes s l bs) = true := by
  induction bs generalizing s l with
  | nil => exact h
  | cons b bs ih => exact ih _ _ (writeByte_wf s l b h)

theorem markWritten_wf (s : State) (l : Loc) (h : Memory.wf s = true) :
    Memory.wf (markWritten s l) = true := wf_congr (by simp) (by simp) (by simp) h

theorem writeBytes_wf (s : State) (l : Loc) (bs : List Byte) (h : Memory.wf s = true) :
    Memory.wf (writeBytes s l bs) = true := by
  simp only [writeBytes]; split
  · exact h
  · exact markWritten_wf _ _ (pokeBytes_wf _ _ _ h)

theorem writeNat_wf (s : State) (l : Loc) (n v : Nat) (h : Memory.wf s = true) :
    Memory.wf (writeNat s l n v) = true := writeBytes_wf _ _ _ h
theorem writeWord_wf (s : State) (l : Loc) (v : Word) (h : Memory.wf s = true) :
    Memory.wf (writeWord s l v) = true := writeNat_wf _ _ _ _ h
theorem writeQuad_wf (s : State) (l : Loc) (v : Quad) (h : Memory.wf s = true) :
    Memory.wf (writeQuad s l v) = true := writeNat_wf _ _ _ _ h

/-- Reading the byte just written; a PEER byte is not held here (R402). -/
theorem readByte_writeByte_same (s : State) (l : Loc) (v : Byte) (h : Memory.wf s = true)
    (hl : ∀ d c e k o, l ≠ .peer d c e k o) : readByte (writeByte s l v) l = v := by
  obtain ⟨h1, h2, h3⟩ := wf_parts h
  cases l with
  | dev a => exact cellGet_cellSet_same _ _ _ h1
  | host a => exact cellGet_cellSet_same _ _ _ h2
  | scr c r o =>
    simp only [readByte, writeByte, scratchOf_eq]
    rw [scratchFind_set_same]
    exact cellGet_cellSet_same _ _ _ (scratchFind_wf _ _ _ h3)
  | peer d c e k o => exact absurd rfl (hl d c e k o)

/-- A write of one byte leaves every other byte alone. -/
theorem readByte_writeByte_ne (s : State) (l m : Loc) (v : Byte) (h : m ≠ l) :
    readByte (writeByte s l v) m = readByte s m := by
  cases l <;> cases m <;> simp only [readByte, writeByte, scratchOf_eq]
  · exact cellGet_cellSet_ne _ _ _ _ (fun e => h (by rw [e]))
  · exact cellGet_cellSet_ne _ _ _ _ (fun e => h (by rw [e]))
  · rename_i c r o c' r' o'
    by_cases hc : c' = c ∧ r' = r
    · obtain ⟨rfl, rfl⟩ := hc
      rw [scratchFind_set_same]
      exact cellGet_cellSet_ne _ _ _ _ (fun e => h (by rw [e]))
    · rw [scratchFind_set_ne _ _ _ _ _ _ _ hc]

@[simp] theorem readByte_markWritten (s : State) (l m : Loc) : readByte (markWritten s l) m = readByte s m := by
  cases m <;> simp [readByte, scratchOf]

@[simp] theorem readByte_dropLines (s : State) (l m : Loc) (n : Nat) (own : DCacheRec → Bool) :
    readByte (dropLines s l n own) m = readByte s m := by cases m <;> rfl

/-! ### Locations -/

@[simp] theorem Loc.plus_zero (l : Loc) : l.plus 0 = l := by cases l <;> rfl
@[simp] theorem Loc.plus_plus (l : Loc) (m n : Nat) : (l.plus m).plus n = l.plus (m + n) := by
  cases l <;> simp [Loc.plus, Nat.add_assoc]
theorem Loc.plus_inj (l : Loc) (m n : Nat) : l.plus m = l.plus n ↔ m = n := by
  cases l <;> simp [Loc.plus]

/-- Writes of bytes leave every byte outside them alone. -/
theorem readByte_pokeBytes_outside (s : State) (l m : Loc) (bs : List Byte)
    (h : ∀ i < bs.length, m ≠ l.plus i) : readByte (pokeBytes s l bs) m = readByte s m := by
  induction bs generalizing s l with
  | nil => rfl
  | cons b bs ih =>
    simp only [pokeBytes]
    rw [ih]
    · exact readByte_writeByte_ne _ _ _ _ (by simpa using h 0 (by simp))
    · intro i hi
      have := h (i + 1) (by simpa using hi)
      rwa [Loc.plus_plus, Nat.add_comm 1 i]

theorem readByte_writeBytes_outside (s : State) (l m : Loc) (bs : List Byte)
    (h : ∀ i < bs.length, m ≠ l.plus i) : readByte (writeBytes s l bs) m = readByte s m := by
  simp only [writeBytes]; split
  · rfl
  · rw [readByte_dropLines, readByte_markWritten]; exact readByte_pokeBytes_outside _ _ _ _ h

/-- Byte `i` of the bytes just written. -/
theorem readByte_pokeBytes_inside (s : State) (l : Loc) (bs : List Byte) (hw : Memory.wf s = true)
    (hl : ∀ d c e k o, l ≠ .peer d c e k o) (i : Nat) (hi : i < bs.length) :
    readByte (pokeBytes s l bs) (l.plus i) = bs[i] := by
  induction bs generalizing s l i with
  | nil => simp at hi
  | cons b bs ih =>
    simp only [pokeBytes]
    cases i with
    | zero =>
      rw [readByte_pokeBytes_outside]
      · simpa using readByte_writeByte_same s l b hw hl
      · intro j _ e
        rw [Loc.plus_plus, Loc.plus_inj] at e; omega
    | succ i =>
      have hp : ∀ d c e k o, l.plus 1 ≠ .peer d c e k o := by
        intro d c e k o he; cases l <;> simp [Loc.plus] at he
        exact hl _ _ _ _ _ rfl
      have := ih (writeByte s l b) (l.plus 1) (writeByte_wf _ _ _ hw) hp i (by simpa using hi)
      rw [Loc.plus_plus, Nat.add_comm 1 i] at this
      simpa using this

theorem readByte_writeBytes_inside (s : State) (l : Loc) (bs : List Byte) (hw : Memory.wf s = true)
    (hl : ∀ d c e k o, l ≠ .peer d c e k o) (i : Nat) (hi : i < bs.length) :
    readByte (writeBytes s l bs) (l.plus i) = bs[i] := by
  simp only [writeBytes]
  rw [if_neg (by cases bs <;> simp_all), readByte_dropLines, readByte_markWritten]
  exact readByte_pokeBytes_inside s l bs hw hl i hi

/-- Reading all the bytes just written. -/
theorem readBytes_writeBytes (s : State) (l : Loc) (bs : List Byte) (hw : Memory.wf s = true)
    (hl : ∀ d c e k o, l ≠ .peer d c e k o) : readBytes (writeBytes s l bs) l bs.length = bs := by
  apply List.ext_getElem
  · simp [readBytes, upTo]
  · intro i h1 h2
    simp only [readBytes, upTo, List.getElem_map, List.getElem_range]
    exact readByte_writeBytes_inside s l bs hw hl i h2

/-! ### Numbers as bytes -/

@[simp] theorem bytesOf_length (n v : Nat) : (bytesOf n v).length = n := by
  induction n generalizing v with
  | zero => rfl
  | succ n ih => simp [bytesOf, ih]

theorem ofBytes_bytesOf (n v : Nat) : ofBytes (bytesOf n v) = v % 2 ^ (8 * n) := by
  induction n generalizing v with
  | zero => simp [bytesOf, ofBytes, Nat.mod_one]
  | succ n ih =>
    simp only [bytesOf, ofBytes, ih, BitVec.toNat_ofNat]
    rw [show 8 * (n + 1) = 8 + 8 * n by omega, Nat.pow_add, Nat.mod_mul]

theorem ofBytes_lt (bs : List Byte) : ofBytes bs < 2 ^ (8 * bs.length) := by
  induction bs with
  | nil => simp [ofBytes]
  | cons b bs ih =>
    simp only [ofBytes, List.length_cons]
    rw [show 8 * (bs.length + 1) = 8 + 8 * bs.length by omega, Nat.pow_add]
    have := b.isLt
    omega

/-- Reading back a number just written. -/
theorem readNat_writeNat (s : State) (l : Loc) (n v : Nat) (hw : Memory.wf s = true)
    (hl : ∀ d c e k o, l ≠ .peer d c e k o) : readNat (writeNat s l n v) l n = v % 2 ^ (8 * n) := by
  have := readBytes_writeBytes s l (bytesOf n v) hw hl
  rw [bytesOf_length] at this
  rw [readNat, writeNat, this, ofBytes_bytesOf]

theorem readWord_writeWord (s : State) (l : Loc) (v : Word) (hw : Memory.wf s = true)
    (hl : ∀ d c e k o, l ≠ .peer d c e k o) : readWord (writeWord s l v) l = v := by
  rw [readWord, writeWord, readNat_writeNat s l 8 _ hw hl]
  apply BitVec.eq_of_toNat_eq
  have := v.isLt
  rw [BitVec.toNat_ofNat]; omega

/-- A number depends on its bytes alone. -/
theorem readNat_congr {s t : State} {l : Loc} {n : Nat} (h : ∀ k < n, readByte t (l.plus k) = readByte s (l.plus k)) :
    readNat t l n = readNat s l n := by
  unfold readNat readBytes upTo
  congr 1
  apply List.map_congr_left
  intro k hk
  exact h k (by simpa using hk)

/-- The entries that a walk reads (R359). -/
def walkWords (s : State) (ctx va : Nat) : List Loc :=
  match getCtx s ctx with
  | none => []
  | some c =>
    let e1 := walkAt s c.root 1 va
    let e2 := walkAt s (pteFrame e1.2) 2 va
    [e1.1, e2.1, (walkAt s (pteFrame e2.2) 3 va).1]

/-- A walk depends on the contexts and on the entries that it reads. -/
theorem walk_congr {s t : State} {ctx va : Nat} (hc : t.ctxs = s.ctxs)
    (h : ∀ l ∈ walkWords s ctx va, readWord t l = readWord s l) : walk t ctx va = walk s ctx va := by
  unfold walkWords at h
  unfold walk
  have hg : getCtx t ctx = getCtx s ctx := by unfold getCtx; rw [hc]
  rw [hg]
  split
  · rename_i c hx
    rw [hx] at h
    simp only [List.mem_cons, List.not_mem_nil, or_false, forall_eq_or_imp, forall_eq] at h
    obtain ⟨h1, h2, h3⟩ := h
    have e1 : walkAt t c.root 1 va = walkAt s c.root 1 va := Prod.ext rfl h1
    have e2 : walkAt t (pteFrame (walkAt s c.root 1 va).2) 2 va = walkAt s (pteFrame (walkAt s c.root 1 va).2) 2 va :=
      Prod.ext rfl h2
    have e3 : walkAt t (pteFrame (walkAt s (pteFrame (walkAt s c.root 1 va).2) 2 va).2) 3 va =
        walkAt s (pteFrame (walkAt s (pteFrame (walkAt s c.root 1 va).2) 2 va).2) 3 va := Prod.ext rfl h3
    simp only [walkFrom, e1, e2, e3]
  · rfl

/-! ### The device's own reads and writes (R234) -/

theorem landStore_wf (s : State) (r : StoreRec) (h : Memory.wf s = true) : Memory.wf (landStore s r) = true := by
  unfold landStore
  refine wf_congr (s := if isPoisoned s r.loc r.bytes.length = true then s
    else setCarries (pokeBytes s r.loc r.bytes) r.loc r.bytes.length r.carry) rfl rfl rfl ?_
  split
  · exact h
  · exact wf_congr (s := pokeBytes s r.loc r.bytes) rfl rfl rfl (pokeBytes_wf _ _ _ h)

theorem landStores_wf (s : State) (rs : List StoreRec) (h : Memory.wf s = true) : Memory.wf (rs.foldl landStore s) = true := by
  induction rs generalizing s with
  | nil => exact h
  | cons r rs ih => exact ih _ (landStore_wf _ _ h)

theorem settleLines_wf (s : State) (l : Loc) (n : Nat) (h : Memory.wf s = true) : Memory.wf (settleLines s l n) = true :=
  landStores_wf _ _ h
theorem deviceWrite_wf (s : State) (l : Loc) (bs : List Byte) (h : Memory.wf s = true) :
    Memory.wf (deviceWrite s l bs) = true := writeBytes_wf _ _ _ (settleLines_wf _ _ _ h)
theorem deviceNat_wf (s : State) (l : Loc) (n v : Nat) (h : Memory.wf s = true) : Memory.wf (deviceNat s l n v) = true :=
  deviceWrite_wf _ _ _ h
theorem deviceWord_wf (s : State) (l : Loc) (v : Word) (h : Memory.wf s = true) : Memory.wf (deviceWord s l v) = true :=
  deviceNat_wf _ _ _ _ h
theorem deviceMap_wf (s : State) (l : Loc) (f : Word → Word) (h : Memory.wf s = true) : Memory.wf (deviceMap s l f) = true :=
  writeWord_wf _ _ _ (settleLines_wf _ _ _ h)

/-- Where no write has its place on the lines, there is nothing to perform first. -/
theorem settleLines_idle {s : State} {l : Loc} {n : Nat} (h : ∀ r ∈ s.stores, placedOn l n r = false) :
    settleLines s l n = s := by
  unfold settleLines
  rw [List.filter_eq_nil_iff.2 fun r hr => by simp [h r hr]]
  rfl
theorem deviceWrite_idle {s : State} {l : Loc} {bs : List Byte} (h : ∀ r ∈ s.stores, placedOn l bs.length r = false) :
    deviceWrite s l bs = writeBytes s l bs := by unfold deviceWrite; rw [settleLines_idle h]

/-! ### Lists of writes -/

/-- What a write does beside the bytes: the written bits of pages and the cached lines change, nothing else. -/
def MemoryOnly (s t : State) : Prop :=
  t = { s with dev := t.dev, host := t.host, scratch := t.scratch, written := t.written, dcache := t.dcache }

theorem MemoryOnly.refl (s : State) : MemoryOnly s s := rfl
theorem MemoryOnly.trans {s t u : State} (h : MemoryOnly s t) (k : MemoryOnly t u) : MemoryOnly s u := by
  unfold MemoryOnly at *; rw [k, h]
theorem writeByte_memoryOnly (s : State) (l : Loc) (v : Byte) : MemoryOnly s (writeByte s l v) := by
  cases l <;> rfl
theorem pokeBytes_memoryOnly (s : State) (l : Loc) (bs : List Byte) : MemoryOnly s (pokeBytes s l bs) := by
  induction bs generalizing s l with
  | nil => rfl
  | cons b bs ih => exact (writeByte_memoryOnly s l b).trans (ih _ _)
theorem markWritten_memoryOnly (s : State) (l : Loc) : MemoryOnly s (markWritten s l) := by
  cases l <;> simp only [markWritten] <;> (try split) <;> rfl
theorem dropLines_memoryOnly (s : State) (l : Loc) (n : Nat) (own : DCacheRec → Bool) : MemoryOnly s (dropLines s l n own) := rfl
theorem writeBytes_memoryOnly (s : State) (l : Loc) (bs : List Byte) : MemoryOnly s (writeBytes s l bs) := by
  unfold writeBytes; split
  · rfl
  · exact ((pokeBytes_memoryOnly _ _ _).trans (markWritten_memoryOnly _ _)).trans (dropLines_memoryOnly _ _ _ _)

/-- A list of writes. -/
def writes (s : State) (l : List (Loc × List Byte)) : State := l.foldl (fun s x => writeBytes s x.1 x.2) s
theorem writes_memoryOnly (s : State) (l) : MemoryOnly s (writes s l) := by
  induction l generalizing s with
  | nil => rfl
  | cons x xs ih => exact (writeBytes_memoryOnly _ _ _).trans (ih _)
theorem writes_outside (s : State) (l : List (Loc × List Byte)) (m : Loc) (h : ∀ x ∈ l, ∀ k < x.2.length, m ≠ x.1.plus k) :
    readByte (writes s l) m = readByte s m := by
  induction l generalizing s with
  | nil => rfl
  | cons x xs ih =>
    show readByte (writes (writeBytes s x.1 x.2) xs) m = _
    rw [ih _ (fun y hy => h y (List.mem_cons_of_mem _ hy)), readByte_writeBytes_outside _ _ _ _ (h x (List.mem_cons_self ..))]
theorem writes_wf (s : State) (l) (h : Memory.wf s = true) : Memory.wf (writes s l) = true := by
  induction l generalizing s with
  | nil => exact h
  | cons x xs ih => exact ih _ (writeBytes_wf _ _ _ h)

theorem writes_append (s : State) (a b) : writes s (a ++ b) = writes (writes s a) b := by simp [writes]
theorem foldl_writes {α : Type} (s : State) (ls : List α) (f : α → List (Loc × List Byte)) :
    ls.foldl (fun s x => writes s (f x)) s = writes s (ls.flatMap f) := by
  induction ls generalizing s with
  | nil => rfl
  | cons x xs ih => simp only [List.foldl_cons, ih, List.flatMap_cons, writes_append]

/-- Of disjoint writes each holds after all of them. -/
theorem writes_inside (s : State) (l : List (Loc × List Byte)) (hw : Memory.wf s = true) (hp : ∀ x ∈ l, ∀ d c e k o, x.1 ≠ .peer d c e k o)
    (hd : l.Pairwise fun x y => ∀ i < x.2.length, ∀ j < y.2.length, x.1.plus i ≠ y.1.plus j)
    (x) (hx : x ∈ l) (i) (hi : i < x.2.length) : readByte (writes s l) (x.1.plus i) = x.2[i] := by
  induction l generalizing s with
  | nil => simp at hx
  | cons y ys ih =>
    show readByte (writes (writeBytes s y.1 y.2) ys) _ = _
    rw [List.pairwise_cons] at hd
    rcases List.mem_cons.1 hx with rfl | hx
    · rw [writes_outside]
      · exact readByte_writeBytes_inside _ _ _ hw (hp _ (List.mem_cons_self ..)) _ _
      · intro z hz k hk; exact hd.1 z hz i hi k hk
    · exact ih _ (writeBytes_wf _ _ _ hw) (fun z hz => hp z (List.mem_cons_of_mem _ hz)) hd.2 hx

theorem readNat_writes (s : State) (l : List (Loc × List Byte)) (hw : Memory.wf s = true) (hp : ∀ x ∈ l, ∀ d c e k o, x.1 ≠ .peer d c e k o)
    (hd : l.Pairwise fun x y => ∀ i < x.2.length, ∀ j < y.2.length, x.1.plus i ≠ y.1.plus j)
    (a : Loc) (n v : Nat) (hx : (a, bytesOf n v) ∈ l) : readNat (writes s l) a n = v % 2 ^ (8 * n) := by
  rw [readNat, ← ofBytes_bytesOf]
  congr 1
  apply List.ext_getElem
  · simp [readBytes, upTo]
  · intro i h1 h2
    simp only [readBytes, upTo, List.getElem_map, List.getElem_range]
    exact writes_inside s l hw hp hd _ hx i (by simpa using h2)

end Sys2Proof.Machine
end

