-- ==== Sys2Proof/Laws/Issue.lean ====
section
/-! SUPPORT. What issuing an instruction comes to: the frame of `issue`, operand reading, the settling of
flags, and completion. -/

namespace Sys2Proof.Machine

/-! ### Groups -/

theorem getGroup_gid {s : State} {i : Nat} {g : Group} (h : getGroup s i = some g) : g.gid = i := by
  have := List.find?_some h
  simpa using this

theorem getGroup_mem {s : State} {i : Nat} {g : Group} (h : getGroup s i = some g) : g ∈ s.groups :=
  List.mem_of_find?_eq_some h

@[simp] theorem closeRegion_gid (g : Group) : (closeRegion g).gid = g.gid := rfl
@[simp] theorem setInnermost_gid (g : Group) (e : Div) : (setInnermost g e).gid = g.gid := rfl
@[simp] theorem pushG_gid (g : Group) (e : Entry) : (pushG g e).gid = g.gid := rfl
@[simp] theorem mapLanes_gid (g : Group) (p : Nat → Bool) (f : Nat → Thread → Thread) :
    (mapLanes g p f).gid = g.gid := rfl
@[simp] theorem raiseFlags_gid (g : Group) (n : Nat) : (raiseFlags g n).gid = g.gid := rfl
@[simp] theorem raiseFlags_zero (g : Group) : raiseFlags g 0 = g := by simp [raiseFlags]
@[simp] theorem pushLanes_gid (c : Ctl) (v : Nat → Entry) (g : Group) : (pushLanes c v g).gid = g.gid := by
  simp only [pushLanes]; split <;> rfl
@[simp] theorem writePreds_gid (c : Ctl) (p : Nat) (v : Nat → Bool) (g : Group) :
    (writePreds c p v g).gid = g.gid := by
  simp only [writePreds]; split <;> rfl

theorem settleArms_gid (n : Nat) (g : Group) : (settleArms n g).gid = g.gid := by
  induction n generalizing g with
  | zero => rfl
  | succ n ih =>
    simp only [settleArms]
    split
    · rfl
    · split_ifs
      · rfl
      · rfl
      · rfl
      · rw [ih]; rfl

theorem settleExit_gid (n : Nat) (g : Group) : (settleExit n g).gid = g.gid := by
  induction n generalizing g with
  | zero => rfl
  | succ n ih =>
    simp only [settleExit]
    split
    · rfl
    · split_ifs
      · rw [ih]
      · rfl
      · rw [settleArms_gid]; rfl

@[simp] theorem completed_gid (g : Group) (pc : Word) : (completed g pc).gid = g.gid := settleArms_gid _ _

theorem modGroup_setGroup (s : State) (g : Group) (f : Group → Group) (hf : ∀ g, (f g).gid = g.gid) :
    modGroup (setGroup s g) g.gid f = setGroup s (f g) := by
  simp only [modGroup, setGroup, List.map_map]
  congr 1
  apply List.map_congr_left
  intro h _
  simp only [Function.comp, hf]
  by_cases e : h.gid = g.gid <;> simp [e]

theorem setGroup_setGroup (s : State) (g h : Group) (e : h.gid = g.gid) :
    setGroup (setGroup s g) h = setGroup s h := by
  simp only [setGroup, List.map_map]
  congr 1
  apply List.map_congr_left
  intro k _
  simp only [Function.comp, e]
  by_cases e : k.gid = g.gid <;> simp [e]

theorem modGroup_eq_setGroup {s : State} {g : Group} (u : ∀ k ∈ s.groups, k.gid = g.gid → k = g) (f : Group → Group) (hf : (f g).gid = g.gid) :
    modGroup s g.gid f = setGroup s (f g) := by
  simp only [modGroup, setGroup]
  congr 1
  apply List.map_congr_left
  intro k hk
  by_cases e : k.gid = g.gid
  · simp [hf, u k hk e]
  · simp [e, hf]

/-- Completing after an update of the group. -/
theorem finish_setGroup (s : State) (g : Group) (pc : Word) :
    finish (setGroup s g) g.gid pc = setGroup s (completed g pc) := by
  rw [finish, modGroup_setGroup]
  · rfl
  · intro h; rw [settleArms_gid]

theorem find_map_set {l : List Group} {g h : Group} {i : Nat} (hg : (l.find? fun k => k.gid == i) = some g)
    (e : h.gid = i) :
    ((l.map fun k => if k.gid = h.gid then h else k).find? fun k => k.gid == i) = some h := by
  induction l with
  | nil => simp at hg
  | cons k ks ih =>
    simp only [List.map_cons, List.find?_cons] at hg ⊢
    by_cases hk : k.gid = i
    · simp [hk, e]
    · have hk' : (k.gid == i) = false := by simpa using hk
      simp only [hk'] at hg
      simp only [e, hk, if_false, hk']
      simpa only [e] using ih hg

/-- Reading a group back after `setGroup`. -/
theorem getGroup_setGroup {s : State} {g h : Group} {i : Nat} (hg : getGroup s i = some g) (e : h.gid = i) :
    getGroup (setGroup s h) i = some h := find_map_set hg e

/-! ### Operands -/

theorem hazard_nil (s : State) (g : Group) : hazard s g [] = none := rfl

theorem withArgs_nil {s : State} {g : Group} {ls : List Nat} {args : List Arg} {k : Nat → Out}
    (h : argPends g ls args = []) : withArgs s g ls args k = k (voidFlag g ls args) := by
  simp [withArgs, h, hazard_nil]

@[simp] theorem argPends_noargs (g : Group) (ls : List Nat) : argPends g ls [] = [] := by
  simp [argPends]

@[simp] theorem voidFlag_noargs (g : Group) (ls : List Nat) : voidFlag g ls [] = 0 := by
  simp [voidFlag]

theorem settle_done {s : State} {g : Group} {fl : Nat} {upd : Group → Group} (h : trapsFp g fl = false) :
    settle s g fl upd = .done (setGroup s (upd (raiseFlags g fl))) := by
  simp [settle, h]

theorem settle_trap {s : State} {g : Group} {fl : Nat} {upd : Group → Group} (h : trapsFp g fl = true) :
    settle s g fl upd = .trap s .fpexc g.pc (BitVec.ofNat 64 (fl % 32)) := by
  simp [settle, h]

@[simp] theorem trapsFp_zero (g : Group) : trapsFp g 0 = false := by simp [trapsFp]

/-! ### Issue -/

/-- The current group issues and no check keeps it from acting. -/
theorem issue_body {i : Instr} {c : Ctl} {body : State → Group → Out} {s : State} {g : Group}
    (h : getGroup s s.cur = some g) (ht : issueTrap s g i c = none) :
    issue i c body s = .next (applyOut g.gid g.pc (body s g)) := by
  simp [issue, h, ht]

/-- An instruction that computes an entry a lane, when its operands are there and no trap is enabled. -/
theorem issue_value {i : Instr} {c : Ctl} {args : List Arg} {fn : Group → Nat → List Quad → Quad × Nat}
    {s : State} {g : Group} (h : getGroup s s.cur = some g) (ht : issueTrap s g i c = none)
    (hp : argPends g (execLanes g c) args = [])
    (hf : trapsFp g (voidFlag g (execLanes g c) args |||
      orFlags (execLanes g c) fun l => (fn g l (args.map (argVal g l))).2) = false) :
    issue i c (valueBody c args fn) s =
      .next (setGroup s (completed (pushLanes c (fun l => .val (fn g l (args.map (argVal g l))).1)
        (raiseFlags g (voidFlag g (execLanes g c) args |||
          orFlags (execLanes g c) fun l => (fn g l (args.map (argVal g l))).2))) (g.pc + 8))) := by
  rw [issue_body h ht]
  simp only [valueBody]
  rw [withArgs_nil hp, settle_done hf]
  simp only [applyOut]
  rw [show g.gid = (pushLanes c (fun l => Entry.val (fn g l (args.map (argVal g l))).1) (raiseFlags g
    (voidFlag g (execLanes g c) args ||| orFlags (execLanes g c) fun l =>
      (fn g l (args.map (argVal g l))).2))).gid by simp, finish_setGroup]

/-- An instruction that computes a predicate. -/
theorem issue_pred {i : Instr} {c : Ctl} {pd : BitVec 4} {args : List Arg}
    {fn : Group → Nat → List Quad → Bool × Nat} {s : State} {g : Group}
    (h : getGroup s s.cur = some g) (ht : issueTrap s g i c = none)
    (hp : argPends g (execLanes g c) args = [])
    (hf : trapsFp g (voidFlag g (execLanes g c) args |||
      orFlags (execLanes g c) fun l => (fn g l (args.map (argVal g l))).2) = false) :
    issue i c (predBody c pd args fn) s =
      .next (setGroup s (completed (writePreds c pd.toNat (fun l => (fn g l (args.map (argVal g l))).1)
        (raiseFlags g (voidFlag g (execLanes g c) args |||
          orFlags (execLanes g c) fun l => (fn g l (args.map (argVal g l))).2))) (g.pc + 8))) := by
  rw [issue_body h ht]
  simp only [predBody]
  rw [withArgs_nil hp, settle_done hf]
  simp only [applyOut]
  rw [show g.gid = (writePreds c pd.toNat (fun l => (fn g l (args.map (argVal g l))).1) (raiseFlags g
    (voidFlag g (execLanes g c) args ||| orFlags (execLanes g c) fun l =>
      (fn g l (args.map (argVal g l))).2))).gid by simp, finish_setGroup]

/-- A body that completes with the group updated. -/
theorem applyOut_done_setGroup (s : State) (g h : Group) (pc : Word) (e : h.gid = g.gid) :
    applyOut g.gid pc (.done (setGroup s h)) = setGroup s (completed h (pc + 8)) := by
  simp only [applyOut]; rw [← e, finish_setGroup]

/-- A body that completes at a given PC with the group updated. -/
theorem applyOut_goto_setGroup (s : State) (g h : Group) (pc t : Word) (e : h.gid = g.gid) :
    applyOut g.gid pc (.goto (setGroup s h) t) = setGroup s (completed h t) := by
  simp only [applyOut]; rw [← e, finish_setGroup]

end Sys2Proof.Machine
end

