-- ==== Sys2Proof/Laws/Canonical.lean ====
section
/-! SUPPORT. The canonical form of memory through the shared operations: each keeps it, a step keeps it where
every instruction does. -/

namespace Sys2Proof.Machine

/-! ### Lists of operations, updates of one record -/

theorem foldl_wf {α : Type} (f : State → α → State) (l : List α) (s : State) (hf : ∀ s x, Memory.wf s = true → Memory.wf (f s x) = true)
    (h : Memory.wf s = true) : Memory.wf (l.foldl f s) = true := by
  induction l generalizing s with
  | nil => exact h
  | cons x xs ih => exact ih _ (hf _ _ h)

theorem modGroup_wf (s gid f) (h : Memory.wf s = true) : Memory.wf (modGroup s gid f) = true := wf_congr rfl rfl rfl h
theorem setGroup_wf (s g) (h : Memory.wf s = true) : Memory.wf (setGroup s g) = true := wf_congr rfl rfl rfl h
theorem modCluster_wf (s cl f) (h : Memory.wf s = true) : Memory.wf (modCluster s cl f) = true := wf_congr rfl rfl rfl h
theorem modQueue_wf (s q f) (h : Memory.wf s = true) : Memory.wf (modQueue s q f) = true := wf_congr rfl rfl rfl h
theorem perfCount_wf (s cl code n) (h : Memory.wf s = true) : Memory.wf (perfCount s cl code n) = true := by
  unfold perfCount; split
  · exact h
  · exact modCluster_wf _ _ _ h
theorem journal_wf (s kind status ctx q index tag payload) (h : Memory.wf s = true) : Memory.wf (journal s kind status ctx q index tag payload) = true := by
  unfold journal
  dsimp only
  refine wf_congr (s := match physLoc s.jbase with
    | some l => deviceWrite s (l.plus (64 * (s.jnext % 2 ^ s.jlg))) _
    | none => s) rfl rfl rfl ?_
  split
  · exact deviceWrite_wf _ _ _ h
  · exact h
theorem completionRecord_wf (s q index status kind isEnd tag result nocpl) (h : Memory.wf s = true) : Memory.wf (completionRecord s q index status kind isEnd tag result nocpl) = true := by
  unfold completionRecord
  dsimp only
  split
  · exact h
  · split
    · exact h
    · apply modQueue_wf
      split
      · exact deviceWrite_wf _ _ _ h
      · exact h
theorem completeIn_wf (s ctx q index status kind isEnd tag result nocpl) (h : Memory.wf s = true) :
    Memory.wf (completeIn s ctx q index status kind isEnd tag result nocpl) = true :=
  completionRecord_wf _ _ _ _ _ _ _ _ _ (modQueue_wf _ _ _ (journal_wf _ _ _ _ _ _ _ _ h))
theorem complete_wf (s q index status kind isEnd tag result nocpl) (h : Memory.wf s = true) : Memory.wf (complete s q index status kind isEnd tag result nocpl) = true := by
  unfold complete
  split
  · exact h
  · exact completeIn_wf _ _ _ _ _ _ _ _ _ _ h

theorem settleQueue_wf (s q) (h : Memory.wf s = true) : Memory.wf (settleQueue s q) = true := by
  unfold settleQueue
  split
  · exact h
  · split
    · exact h
    · exact foldl_wf _ _ _ (fun _ _ h => complete_wf _ _ _ _ _ _ _ _ _ h) (wf_congr (s := s) rfl rfl rfl h)

theorem modSlice_wf (s c q f) (h : Memory.wf s = true) : Memory.wf (modSlice s c q f) = true := wf_congr rfl rfl rfl h
theorem modGang_wf (s k f) (h : Memory.wf s = true) : Memory.wf (modGang s k f) = true := wf_congr rfl rfl rfl h
theorem block_wf (s gid r) (h : Memory.wf s = true) : Memory.wf (block s gid r) = true := modGroup_wf _ _ _ h
theorem finish_wf (s gid pc) (h : Memory.wf s = true) : Memory.wf (finish s gid pc) = true := modGroup_wf _ _ _ h
theorem recordField_wf (s gid o n v) (h : Memory.wf s = true) : Memory.wf (recordField s gid o n v) = true := by
  unfold recordField
  repeat' split
  all_goals first | exact h | exact deviceNat_wf _ _ _ _ h
theorem recordResult_wf (s g id v) (h : Memory.wf s = true) : Memory.wf (recordResult s g id v) = true := by
  unfold recordResult
  split
  · exact h
  · exact foldl_wf _ _ _ (fun _ _ h => deviceNat_wf _ _ _ _ h) h
theorem latchEdge_wf (s gid p) (h : Memory.wf s = true) : Memory.wf (latchEdge s gid p) = true := by
  unfold latchEdge
  split
  · exact h
  · exact recordField_wf _ _ _ _ _ (modGroup_wf _ _ _ h)
theorem dropGroup_wf (s gid) (h : Memory.wf s = true) : Memory.wf (dropGroup s gid) = true := wf_congr rfl rfl rfl h
theorem freshQuad_wf (s) (h : Memory.wf s = true) : Memory.wf (freshQuad s).1 = true := wf_congr rfl rfl rfl h
theorem freshWord_wf (s) (h : Memory.wf s = true) : Memory.wf (freshWord s).1 = true := wf_congr rfl rfl rfl h

theorem resolve_wf (s gid id v) (h : Memory.wf s = true) : Memory.wf (resolve s gid id v) = true := by
  unfold resolve
  split
  · exact h
  · split
    · exact h
    refine foldl_wf _ _ _ (fun s x h => ?_) (modGroup_wf _ _ _ (recordResult_wf _ _ _ _ h))
    split
    · exact writeQuad_wf _ _ _ h
    · exact h

theorem discardStore_wf (s r) (h : Memory.wf s = true) : Memory.wf (discardStore s r) = true := wf_congr (s := s) rfl rfl rfl h

theorem setCarries_wf (s l n ks) (h : Memory.wf s = true) : Memory.wf (setCarries s l n ks) = true :=
  wf_congr (s := s) rfl rfl rfl h
theorem addCarries_wf (s l n ks) (h : Memory.wf s = true) : Memory.wf (addCarries s l n ks) = true := by
  unfold addCarries; split
  · exact h
  · exact wf_congr (s := s) rfl rfl rfl h
theorem learn_wf (s gid op acq ks) (h : Memory.wf s = true) : Memory.wf (learn s gid op acq ks) = true := by
  unfold learn; split
  · exact h
  · exact modGroup_wf _ _ _ h
theorem modStore_wf (s id f) (h : Memory.wf s = true) : Memory.wf (modStore s id f) = true := wf_congr (s := s) rfl rfl rfl h
theorem newId_wf (s) (h : Memory.wf s = true) : Memory.wf (newId s).1 = true := wf_congr (s := s) rfl rfl rfl h
theorem placeStore_wf (s r) (h : Memory.wf s = true) : Memory.wf (placeStore s r) = true := markWritten_wf _ _ h
theorem showStore_wf (s r) (h : Memory.wf s = true) : Memory.wf (showStore s r) = true :=
  setCarries_wf _ _ _ _ (pokeBytes_wf _ _ _ (placeStore_wf _ _ h))

theorem orderStore_wf (s r) (h : Memory.wf s = true) : Memory.wf (orderStore s r) = true := by
  unfold orderStore
  split
  · exact discardStore_wf _ _ h
  · dsimp only
    split
    · exact modStore_wf _ _ _ (showStore_wf _ _ (newId_wf _ h))
    · exact modStore_wf _ _ _ (placeStore_wf _ _ (newId_wf _ h))

theorem performAtom_wf (s a) (h : Memory.wf s = true) : Memory.wf (performAtom s a) = true := by
  unfold performAtom
  extract_lets u r ks mine v st
  have hu : Memory.wf u = true := wf_congr (s := s) rfl rfl rfl h
  have hv : Memory.wf v = true := by
    show Memory.wf (if _ then _ else _) = true
    split
    · exact learn_wf _ _ _ _ _ hu
    · exact hu
  split
  · have hw : Memory.wf (if r.2.1 = true then addCarries (writeBytes v a.loc st.bytes) a.loc a.width mine else v) = true := by
      split
      · exact addCarries_wf _ _ _ _ (writeBytes_wf _ _ _ hv)
      · exact hv
    split
    · exact wf_congr (s := if r.2.1 = true then addCarries (writeBytes v a.loc st.bytes) a.loc a.width mine else v) rfl rfl rfl hw
    · exact hw
  · split
    · exact hv
    · dsimp only
      split
      · exact wf_congr (s := showStore _ _) rfl rfl rfl (showStore_wf _ _ (newId_wf _ hv))
      · exact wf_congr (s := placeStore _ _) rfl rfl rfl (placeStore_wf _ _ (newId_wf _ hv))

theorem poisonAtom_wf (s a) (h : Memory.wf s = true) : Memory.wf (poisonAtom s a) = true := by
  unfold poisonAtom
  dsimp only
  repeat' split
  all_goals exact wf_congr (s := s) rfl rfl rfl h

theorem performOwn_wf (s x) (h : Memory.wf s = true) : Memory.wf (performOwn s x) = true := by
  unfold performOwn
  split
  · exact orderStore_wf _ _ h
  · split
    · exact poisonAtom_wf _ _ h
    · exact performAtom_wf _ _ h
  · split
    · extract_lets bad bs work u
      refine wf_congr (s := u) rfl rfl rfl ?_
      show Memory.wf (if _ then _ else _) = true
      split
      · exact h
      · exact learn_wf _ _ _ _ _ h
    · exact h

theorem settleOwn_wf (s gid l n) (h : Memory.wf s = true) : Memory.wf (settleOwn s gid l n) = true :=
  foldl_wf _ _ _ (fun _ _ h => performOwn_wf _ _ h) h

theorem rbrk_wf (ev s gid) (h : Memory.wf s = true) : Memory.wf (rbrk ev s gid) = true := by
  unfold rbrk; split
  · exact latchEdge_wf _ _ _ h
  · exact h

theorem breakCommit_wf (ev l n s c) (h : Memory.wf s = true) : Memory.wf (breakCommit ev l n s c) = true := by
  unfold breakCommit
  split
  · split
    · exact rbrk_wf _ _ _ (resolve_wf _ _ _ _ h)
    · exact h
  · exact h

theorem resolveRing_wf (s l ev) (h : Memory.wf s = true) : Memory.wf (resolveRing s l ev) = true := by
  have h1 : Memory.wf { s with ringWaits := s.ringWaits.filter fun w => w.ring != l } = true := wf_congr (s := s) rfl rfl rfl h
  have h2 := foldl_wf (breakWait ev (ringSize s l)) (s.ringWaits.filter fun w => w.ring == l) _
    (fun s x h => rbrk_wf _ _ _ (resolve_wf _ _ _ _ h)) h1
  unfold resolveRing
  dsimp only
  generalize List.foldl (breakWait ev (ringSize s l)) _ _ = u at h2 ⊢
  have h3 := foldl_wf (breakCommit ev l (ringSize s l)) u.copies u (fun s x h => breakCommit_wf _ _ _ _ _ h) h2
  generalize List.foldl (breakCommit ev l (ringSize s l)) _ _ = v at h3 ⊢
  exact foldl_wf _ _ _ (fun s x h => rbrk_wf _ _ _ (resolve_wf _ _ _ _ (freshQuad_wf s h))) (wf_congr (s := v) rfl rfl rfl h3)

theorem breakRingAt_wf (s l c) (h : Memory.wf s = true) : Memory.wf (breakRingAt s l c) = true :=
  resolveRing_wf _ _ _ (writeNat_wf _ _ _ _ h)
theorem breakRing_wf (s l c) (h : Memory.wf s = true) : Memory.wf (breakRing s l c) = true := by
  unfold breakRing; split
  · exact h
  · exact breakRingAt_wf _ _ _ h

theorem breakTeamRings_wf (s ctx no c) (h : Memory.wf s = true) : Memory.wf (breakTeamRings s ctx no c) = true := by
  refine foldl_wf _ _ _ (fun s x h => ?_) h
  split
  · dsimp only; split
    · exact breakRing_wf _ _ _ h
    · exact h
  · exact h

theorem recordBroken_wf (s gid) (h : Memory.wf s = true) : Memory.wf (recordBroken s gid) = true := by
  unfold recordBroken
  repeat' split
  all_goals first | exact h | exact deviceMap_wf _ _ _ h

theorem breakGang_wf (s key) (h : Memory.wf s = true) : Memory.wf (breakGang s key).1 = true := by
  unfold breakGang
  split
  · exact h
  · split
    · exact h
    · exact foldl_wf _ _ _ (fun _ _ h => recordBroken_wf _ _ h) (wf_congr (s := s) rfl rfl rfl h)

theorem disbandGang_wf (s key k) (h : Memory.wf s = true) : Memory.wf (disbandGang s key k) = true := wf_congr rfl rfl rfl h

theorem leaveGang_wf (s gid) (h : Memory.wf s = true) : Memory.wf (leaveGang s gid).1 = true := by
  unfold leaveGang
  split
  · exact h
  · rename_i k hk
    have h1 : ∀ b : Bool, ∀ t, Memory.wf t = true → Memory.wf (if b = true then breakGang t k.key else (t, [])).1 = true := by
      intro b t ht; split
      · exact breakGang_wf _ _ ht
      · exact ht
    dsimp only
    have h2 := h1 (k.ops.any fun o => gangPartial k o && !(o.parts.any fun p => p.memb == (match memberOf k gid with | some m => m.memb | none => 0)))
      _ (modGang_wf s k.key (fun k => { k with members := k.members.map fun m => if m.gid = gid then { m with left := true } else m }) h)
    split
    · exact h2
    · split
      · exact disbandGang_wf _ _ _ h2
      · exact h2

theorem endSlice_wf (s c q st) (h : Memory.wf s = true) : Memory.wf (endSlice s c q st) = true := by
  unfold endSlice; split
  · exact h
  · exact settleQueue_wf _ _ (completeIn_wf _ _ _ _ _ _ _ _ _ _ h)

theorem countFinished_wf (s c q) (h : Memory.wf s = true) : Memory.wf (countFinished s c q) = true := by
  unfold countFinished; split
  · exact h
  · dsimp only; split
    · exact endSlice_wf _ _ _ _ (modSlice_wf _ _ _ _ h)
    · exact modSlice_wf _ _ _ _ h

theorem clearHolders_wf (s c n) (h : Memory.wf s = true) : Memory.wf (clearHolders s c n) = true := by
  refine foldl_wf _ _ _ (fun s x h => ?_) h
  split
  · dsimp only
    split
    · exact h
    · have : ∀ (p : Prop) [Decidable p] (t : State) (l : Loc), Memory.wf t = true → Memory.wf (if p then writeNat t l 4 0 else t) = true := by
        intro p _ t l ht; split
        · exact writeNat_wf _ _ _ _ ht
        · exact ht
      exact this _ _ _ (this _ _ _ h)
  · exact h

theorem forgetTeam_wf (s c n) (h : Memory.wf s = true) : Memory.wf (forgetTeam s c n) = true := wf_congr rfl rfl rfl h

theorem finishTeam_wf (s c n) (h : Memory.wf s = true) : Memory.wf (finishTeam s c n) = true := by
  unfold finishTeam
  split
  · exact h
  · split
    · exact h
    · refine countFinished_wf _ _ _ ?_
      have h2 : Memory.wf { forgetTeam (clearHolders s c n) c n with teams := (forgetTeam (clearHolders s c n) c n).teams.filter fun x => !(x.ctx == c && x.no == n) } = true :=
        wf_congr (s := forgetTeam (clearHolders s c n) c n) rfl rfl rfl (forgetTeam_wf _ _ _ (clearHolders_wf _ _ _ h))
      split
      · exact h2
      · exact modSlice_wf _ _ _ _ h2

theorem killTeam_wf (s c n) (h : Memory.wf s = true) : Memory.wf (killTeam s c n) = true := by
  unfold killTeam
  exact wf_congr (s := forgetTeam (clearHolders _ c n) c n) rfl rfl rfl (forgetTeam_wf _ _ _ (clearHolders_wf _ _ _
    (foldl_wf _ _ _ (fun _ _ h => dropGroup_wf _ _ h) (foldl_wf _ _ _ (fun _ _ h => disbandGang_wf _ _ _ h) (breakTeamRings_wf _ _ _ _ h)))))

theorem killSlice_wf (s c q) (h : Memory.wf s = true) : Memory.wf (killSlice s c q) = true := by
  unfold killSlice
  split
  · exact h
  · split
    · exact h
    · refine endSlice_wf _ _ _ _ (modSlice_wf _ _ _ _ ?_)
      have h2 := foldl_wf (fun s (t : Team) => killTeam s c t.no) (s.teams.filter fun t => t.ctx == c && t.seq == q) s
        (fun _ _ h => killTeam_wf _ _ _ h) h
      generalize List.foldl (fun s (t : Team) => killTeam s c t.no) _ _ = u at h2 ⊢
      exact wf_congr (s := u) rfl rfl rfl h2

theorem cancelCopies_wf (s c) (h : Memory.wf s = true) : Memory.wf (cancelCopies s c) = true := wf_congr rfl rfl rfl h

theorem faultKill_wf (s c q k) (h : Memory.wf s = true) : Memory.wf (faultKill s c q k) = true := by
  unfold faultKill
  split
  · exact h
  · dsimp only
    have h2 : ∀ (l : List Slice) (t : State), Memory.wf t = true → Memory.wf (l.foldl (fun s y => killSlice s c y.seq) t) = true :=
      fun l t ht => foldl_wf _ _ _ (fun _ _ h => killSlice_wf _ _ _ h) ht
    split
    · exact cancelCopies_wf _ _ (h2 _ _ (journal_wf _ _ _ _ _ _ _ _ h))
    · exact h2 _ _ (journal_wf _ _ _ _ _ _ _ _ h)

theorem unrecoverable_wf (s g c a p t) (h : Memory.wf s = true) : Memory.wf (unrecoverable s g c a p t) = true := by
  unfold unrecoverable
  dsimp only
  split
  · exact dropGroup_wf _ _ (journal_wf _ _ _ _ _ _ _ _ (modGroup_wf _ _ _ h))
  · exact faultKill_wf _ _ _ _ (journal_wf _ _ _ _ _ _ _ _ (modGroup_wf _ _ _ h))

theorem recordEntry_wf (s gid l e) (h : Memory.wf s = true) : Memory.wf (recordEntry s gid l e) = true := by
  unfold recordEntry
  split
  · exact writeQuad_wf _ _ _ h
  · exact writeQuad_wf _ _ _ h
  · exact modGroup_wf _ _ _ (writeQuad_wf _ _ _ (freshQuad_wf _ h))

theorem writeTrapRecord_wf (s g b) (h : Memory.wf s = true) : Memory.wf (writeTrapRecord s g b) = true := by
  unfold writeTrapRecord
  refine writeNat_wf _ _ _ _ (writeNat_wf _ _ _ _ (writeBytes_wf _ _ _ (writeNat_wf _ _ _ _ (writeBytes_wf _ _ _
    (foldl_wf _ _ _ (fun _ _ h => recordEntry_wf _ _ _ _ h) (foldl_wf _ _ _ (fun _ _ h => foldl_wf _ _ _ (fun _ _ h => recordEntry_wf _ _ _ _ h) h) h))))))

theorem enterTrap_wf (s gid c a p t) (h : Memory.wf s = true) : Memory.wf (enterTrap s gid c a p t) = true := by
  unfold enterTrap
  split
  · exact h
  · split
    · exact unrecoverable_wf _ _ _ _ _ _ h
    · split
      · split
        · exact modGroup_wf _ _ _ h
        · exact unrecoverable_wf _ _ _ _ _ _ h
      · split
        · exact unrecoverable_wf _ _ _ _ _ _ h
        · split
          · exact unrecoverable_wf _ _ _ _ _ _ h
          · exact modGroup_wf _ _ _ (writeTrapRecord_wf _ _ _ (settleOwn_wf _ _ _ _ h))

theorem trapWaiting_wf (s key l) (h : Memory.wf s = true) : Memory.wf (trapWaiting s key l) = true := by
  unfold trapWaiting
  refine foldl_wf _ _ _ (fun s i h => ?_) ?_
  · split
    · exact enterTrap_wf _ _ _ _ _ _ h
    · exact h
  · split
    · split
      · exact breakTeamRings_wf _ _ _ _ h
      · exact h
    · exact h

theorem holdTrap_wf (s gid c a) (h : Memory.wf s = true) : Memory.wf (holdTrap s gid c a) = true := modGroup_wf _ _ _ h

theorem takeTrap_wf (s gid c a p t) (h : Memory.wf s = true) : Memory.wf (takeTrap s gid c a p t) = true := by
  unfold takeTrap
  split
  · exact h
  · rename_i g hg
    split
    · exact enterTrap_wf _ _ _ _ _ _ h
    · have h2 : Memory.wf (if c = .bkpt ∨ c = .trap ∨ c = .step then s else breakTeamRings s g.ctx g.teamNo c.code) = true := by
        split
        · exact h
        · exact breakTeamRings_wf _ _ _ _ h
      dsimp only
      split
      · exact enterTrap_wf _ _ _ _ _ _ h2
      · exact trapWaiting_wf _ _ _ (enterTrap_wf _ _ _ _ _ _ (breakGang_wf _ _ h2))

theorem deliverHeld_wf (s gid) (h : Memory.wf s = true) : Memory.wf (deliverHeld s gid) = true := by
  unfold deliverHeld
  split
  · exact h
  · split
    · exact h
    · split
      · exact h
      · exact takeTrap_wf _ _ _ _ _ _ (modGroup_wf _ _ _ h)

/-! ### What a body comes to -/

/-- The state that an outcome carries. -/
def Out.state : Out → State
  | .done s | .goto s _ | .trap s _ _ _ | .wait s _ | .stay s => s

theorem applyOut_wf (gid pc) (o : Out) (h : Memory.wf o.state = true) : Memory.wf (applyOut gid pc o) = true := by
  cases o with
  | done s => exact finish_wf _ _ _ h
  | goto s p => exact finish_wf _ _ _ h
  | trap s c p t => exact takeTrap_wf _ _ _ _ _ _ h
  | wait s r => exact block_wf _ _ _ h
  | stay s => exact h

/-- An instruction keeps the canonical form if its body does. -/
theorem issue_wf {i c body} {s t : State} (h : Memory.wf s = true) (hb : ∀ g, Memory.wf (body s g).state = true)
    (ht : issue i c body s = .next t) : Memory.wf t = true := by
  unfold issue at ht
  split at ht
  · cases ht; exact h
  · split at ht
    · cases ht; exact takeTrap_wf _ _ _ _ _ _ (freshWord_wf _ h)
    · cases ht; exact takeTrap_wf _ _ _ _ _ _ h
    · cases ht; exact applyOut_wf _ _ _ (hb _)

theorem deliverPoison_wf (s gid op) (h : Memory.wf s = true) : Memory.wf (deliverPoison s gid op) = true := by
  unfold deliverPoison
  exact resolve_wf _ _ _ _ (freshQuad_wf _ (wf_congr (s := s) rfl rfl rfl h))

theorem hazard_wf {s g l o} (h : Memory.wf s = true) (ho : hazard s g l = some o) : Memory.wf o.state = true := by
  unfold hazard at ho
  split at ho
  · cases ho; exact deliverPoison_wf _ _ _ h
  · split at ho
    · cases ho
    · cases ho; exact modGroup_wf _ _ _ h

theorem withArgs_wf {s g ls args k} (h : Memory.wf s = true) (hk : ∀ f, Memory.wf (k f).state = true) :
    Memory.wf (withArgs s g ls args k).state = true := by
  unfold withArgs
  split
  · rename_i o ho; exact hazard_wf h ho
  · exact hk _

theorem settle_wf {s g fl upd} (h : Memory.wf s = true) : Memory.wf (settle s g fl upd).state = true := by
  unfold settle; split
  · exact h
  · exact setGroup_wf _ _ h

theorem valueBody_wf {c args fn s g} (h : Memory.wf s = true) : Memory.wf (valueBody c args fn s g).state = true :=
  withArgs_wf h fun _ => settle_wf h
theorem predBody_wf {c pd args fn s g} (h : Memory.wf s = true) : Memory.wf (predBody c pd args fn s g).state = true :=
  withArgs_wf h fun _ => settle_wf h

theorem coverPoison_wf {s g n o} (h : Memory.wf s = true) (ho : coverPoison s g n = some o) : Memory.wf o.state = true := by
  unfold coverPoison at ho
  split at ho
  · split at ho <;> cases ho
    exact modGroup_wf _ _ _ h
  · cases ho
theorem coverLost_wf {s g n o} (h : Memory.wf s = true) (ho : coverLost s g n = some o) : Memory.wf o.state = true := by
  unfold coverLost at ho
  split at ho
  · split at ho <;> cases ho
    exact wf_congr (s := s) rfl rfl rfl h
  · cases ho
theorem coverStores_wf {s g n o} (h : Memory.wf s = true) (ho : coverStores s g n = some o) : Memory.wf o.state = true := by
  unfold coverStores at ho
  rcases hp : coverPoison s g n with _ | x
  · rw [hp, Option.none_or] at ho; exact coverLost_wf h ho
  · rw [hp, Option.some_or] at ho; cases ho; exact coverPoison_wf h hp

theorem coverLoads_wf {s g n o} (h : Memory.wf s = true) (ho : coverLoads s g n = some o) : Memory.wf o.state = true := by
  unfold coverLoads at ho
  split at ho
  · split at ho <;> cases ho
    exact deliverPoison_wf _ _ _ h
  · cases ho

theorem coverCopies_wf {s g n o} (h : Memory.wf s = true) (ho : coverCopies s g n = some o) : Memory.wf o.state = true := by
  unfold coverCopies at ho
  split at ho
  · split at ho <;> cases ho
    exact modGroup_wf _ _ _ h
  · cases ho

theorem coverWait_wf {s g a b c o} (h : Memory.wf s = true) (ho : coverWait s g a b c = some o) : Memory.wf o.state = true := by
  unfold coverWait at ho
  rcases hl : coverLoads s g a with _ | x
  · rcases hs : coverStores s g b with _ | y
    · simp only [hl, hs, Option.none_or] at ho
      exact coverCopies_wf h ho
    · simp only [hl, hs, Option.none_or, Option.some_or, Option.some.injEq] at ho
      subst ho; exact coverStores_wf h hs
  · simp only [hl, Option.some_or, Option.some.injEq] at ho
    subst ho; exact coverLoads_wf h hl

theorem retireGroup_wf (s gid) (h : Memory.wf s = true) : Memory.wf (retireGroup s gid) = true := by
  unfold retireGroup
  split
  · exact h
  · exact finishTeam_wf _ _ _ (dropGroup_wf _ _ (breakTeamRings_wf _ _ _ _ (trapWaiting_wf _ _ _ (leaveGang_wf _ _ h))))

theorem exitDrain_wf {s g} (h : Memory.wf s = true) : Memory.wf (exitDrain s g).state = true := by
  unfold exitDrain
  split
  · rename_i o ho; exact coverWait_wf h ho
  · split
    · exact retireGroup_wf _ _ h
    · exact modGroup_wf _ _ _ h

/-! ### Translation, checks, fetch -/

theorem setA_wf (s w) (h : Memory.wf s = true) : Memory.wf (setA s w) = true := by
  unfold setA; split
  · exact h
  · exact deviceMap_wf _ _ _ h

theorem tlbFill_wf (s ctx cl core va w) (h : Memory.wf s = true) : Memory.wf (tlbFill s ctx cl core va w) = true := by
  unfold tlbFill; split
  · exact h
  · exact wf_congr (s := setA s w) rfl rfl rfl (setA_wf _ _ h)

theorem walkFill_wf (s ctx cl core va) (h : Memory.wf s = true) : Memory.wf (walkFill s ctx cl core va).1 = true := by
  unfold walkFill
  dsimp only
  split
  · exact tlbFill_wf _ _ _ _ _ _ h
  · exact h

theorem translate_wf (s ctx cl core va) (h : Memory.wf s = true) : Memory.wf (translate s ctx cl core va).1 = true := by
  unfold translate
  dsimp only
  repeat' split
  · exact wf_congr (s := s) rfl rfl rfl h
  · exact walkFill_wf _ _ _ _ _ (wf_congr (s := s) rfl rfl rfl h)
  · exact wf_congr (s := s) rfl rfl rfl h
  · exact walkFill_wf _ _ _ _ _ (perfCount_wf _ _ _ _ h)

theorem touchVirt_wf (s ctx cl core va) (h : Memory.wf s = true) : Memory.wf (touchVirt s ctx cl core va) = true := by
  unfold touchVirt
  dsimp only
  repeat' split
  · exact wf_congr (s := s) rfl rfl rfl h
  · exact walkFill_wf _ _ _ _ _ h
  · exact walkFill_wf _ _ _ _ _ (perfCount_wf _ _ _ _ h)

theorem touchImport_wf (s ac p n) (h : Memory.wf s = true) : Memory.wf (touchImport s ac p n) = true := by
  unfold touchImport
  repeat' split
  all_goals first | exact h | exact touchVirt_wf _ _ _ _ _ h

theorem touchLeaf_wf (s ctx va) (h : Memory.wf s = true) : Memory.wf (touchLeaf s ctx va) = true := by
  unfold touchLeaf
  dsimp only
  split
  · exact setA_wf _ _ h
  · exact h

theorem check45_wf (s ac need va) (h : Memory.wf s = true) : Memory.wf (check45 s ac need va).1 = true := by
  have ht := translate_wf s ac.ctx ac.cl ac.core va h
  unfold check45
  dsimp only
  split
  · exact ht
  · split
    · split
      · exact ht
      · split <;> exact ht
    · split
      · exact ht
      · split <;> exact ht
    · exact ht
    · exact ht

theorem remoteCheck_wf (s need r e k o n b) (h : Memory.wf s = true) : Memory.wf (remoteCheck s need r e k o n b).1 = true := by
  unfold remoteCheck
  have h := touchLeaf_wf s r (exportVa e) h
  dsimp only
  repeat' split
  all_goals first | exact h | exact setA_wf _ _ h

theorem faultRecord_wf (s g va k r) (h : Memory.wf s = true) : Memory.wf (faultRecord s g va k r) = true := by
  unfold faultRecord
  split
  · exact h
  · dsimp only
    refine wf_congr (s := match physLoc _ with | some l => deviceWrite s _ _ | none => s) rfl rfl rfl ?_
    split
    · exact deviceWrite_wf _ _ _ h
    · exact h

theorem pageFault_wf {s g va k r} (h : Memory.wf s = true) : Memory.wf (pageFault s g va k r).state = true := by
  unfold pageFault; split
  · exact modGroup_wf _ _ _ (faultRecord_wf _ _ _ _ _ h)
  · exact h

/-- The state of a fetch. -/
def Fetched.state : Fetched → State
  | .word s _ => s
  | .out o => o.state

theorem ilineFill_wf (s bent l) (h : Memory.wf s = true) : Memory.wf (ilineFill s bent l) = true := wf_congr (s := s) rfl rfl rfl h
theorem icacheFill_wf (s g va x) (h : Memory.wf s = true) : Memory.wf (icacheFill s g va x) = true := by
  unfold icacheFill; split
  · exact h
  · exact wf_congr (s := s) rfl rfl rfl h

theorem fetchLine_wf (s g va l) (h : Memory.wf s = true) : Memory.wf (fetchLine s g va l).1 = true := by
  have h2 : Memory.wf (if (ilineFind s (bentOf g.cl) l).isNone = true then ilineFill s (bentOf g.cl) l else s) = true := by
    split
    · exact ilineFill_wf _ _ _ h
    · exact h
  unfold fetchLine
  dsimp only
  split
  · exact h
  · split
    · exact icacheFill_wf _ _ _ _ h2
    · exact h2

theorem prefetch_wf (s gid va) (h : Memory.wf s = true) : Memory.wf (prefetch s gid va) = true := by
  unfold prefetch
  split
  · exact h
  · rename_i g _
    have hc := check45_wf s (addrCtx s g) .fetch va h
    split
    · rename_i t l he
      rw [he] at hc
      split
      · exact h
      · exact fetchLine_wf _ _ _ _ hc
    · exact h

theorem fetch_wf (s g) (h : Memory.wf s = true) : Memory.wf (fetch s g).state = true := by
  unfold fetch
  split
  · exact h
  · split
    · exact h
    · have hc := check45_wf s (addrCtx s g) .fetch (bitsOf g.pc 54 0) h
      dsimp only
      split <;> rename_i u _ he <;> rw [he] at hc <;> try exact hc
      · rename_i l
        split
        · exact hc
        · split
          · exact modGroup_wf _ _ _ hc
          · have hl := fetchLine_wf u g (bitsOf g.pc 54 0) l hc
            split
            · exact hl
            · exact wf_congr (s := (fetchLine u g (bitsOf g.pc 54 0) l).1) rfl rfl rfl hl
      · exact pageFault_wf hc
      · exact pageFault_wf hc

theorem checkRemote_wf {s g need i l p off o} (h : Memory.wf s = true) (ho : checkRemote s g need i l p off = .error o) :
    Memory.wf o.state = true := by
  unfold checkRemote at ho
  dsimp only at ho
  split at ho
  · split at ho
    · cases ho; exact pageFault_wf h
    · cases ho; exact h
    · split at ho <;> cases ho
      exact h
  · cases ho; exact modGroup_wf _ _ _ h

theorem checkLane_wf {s g need n z x} (h : Memory.wf s = true) :
    Memory.wf (checkLane s g need n z x).1 = true ∧ ∀ o, (checkLane s g need n z x).2 = .error o → Memory.wf o.state = true := by
  obtain ⟨l, p, t⟩ := x
  unfold checkLane
  dsimp only
  split
  · split
    · exact ⟨h, fun o ho => by cases ho; exact h⟩
    · exact ⟨h, fun o ho => by cases ho⟩
  · rename_i va
    have hc := check45_wf s (addrCtx s g) need va h
    split <;> rename_i u _ he <;> rw [he] at hc
    · exact ⟨hc, fun o ho => by cases ho⟩
    · exact ⟨hc, fun o ho => by cases ho⟩
    · split
      · exact ⟨hc, fun o ho => by cases ho⟩
      · exact ⟨hc, fun o ho => by cases ho; exact pageFault_wf hc⟩
    · exact ⟨hc, fun o ho => by cases ho; exact pageFault_wf hc⟩
    · exact ⟨hc, fun o ho => by cases ho; exact hc⟩
  · split
    · exact ⟨h, fun o ho => by cases ho; exact h⟩
    · rename_i slot off _ i hi
      split
      · have hc := remoteCheck_wf s need i.rctx i.eidx i.key off n (rightsOk need i.at' i.w i.rd) h
        split <;> rename_i u _ he <;> rw [he] at hc
        · exact ⟨hc, fun o ho => by cases ho⟩
        · exact ⟨hc, fun o ho => by cases ho⟩
        · exact ⟨hc, fun o ho => by cases ho; exact hc⟩
        · exact ⟨hc, fun o ho => by cases ho; exact pageFault_wf hc⟩
      · exact ⟨h, fun o ho => checkRemote_wf h ho⟩

/-- The state that checks leave. -/
def Checked.state : Checked → State
  | .ok s _ => s
  | .out o => o.state

theorem checkLanes_wf (s g need n z l) (h : Memory.wf s = true) : Memory.wf (checkLanes s g need n z l).state = true := by
  induction l generalizing s with
  | nil => exact h
  | cons x r ih =>
    obtain ⟨h1, h2⟩ := checkLane_wf (g := g) (need := need) (n := n) (z := z) (x := x) h
    unfold checkLanes
    split
    · rename_i u o he
      exact h2 o (by rw [he])
    · rename_i u a he
      rw [he] at h1
      have := ih u h1
      split <;> rename_i he2 <;> rw [he2] at this <;> exact this

theorem checkAccess_wf (s g need n z ps) (h : Memory.wf s = true) : Memory.wf (checkAccess s g need n z ps).state = true := by
  have ht := foldl_wf (fun s x => touchImport s (addrCtx s g) x.2 n) ps s (fun _ _ h => touchImport_wf _ _ _ _ h) h
  unfold checkAccess
  dsimp only
  split
  · exact ht
  · exact checkLanes_wf _ _ _ _ _ _ ht

/-! ### Packets -/

/-- The state that a packet's body leaves. -/
def Taken.state : Taken → State
  | .ends s _ _ | .later s | .blocks s => s

theorem acceptPacket_wf (s qu p) (h : Memory.wf s = true) : Memory.wf (acceptPacket s qu p) = true := by
  unfold acceptPacket
  dsimp only
  refine journal_wf _ _ _ _ _ _ _ _ (modQueue_wf _ _ _ ?_)
  split
  · exact deviceNat_wf _ _ _ _ h
  · exact h

theorem takeBody_wf {p body s} (h : Memory.wf s = true) (hb : ∀ t qu i, Memory.wf t = true → Memory.wf (body t qu i).state = true) :
    Memory.wf (takeBody p body s) = true := by
  unfold takeBody
  split
  · exact h
  · rename_i qu _
    split
    · exact h
    · split
      · exact modQueue_wf _ _ _ h
      · have ha := acceptPacket_wf s qu p h
        refine modQueue_wf _ _ _ ?_
        have hr : Memory.wf (if packetStatus p ≠ 0 then Taken.ends (acceptPacket s qu p) (packetStatus p) 0
            else body (acceptPacket s qu p) qu qu.head).state = true := by
          split
          · exact ha
          · exact hb _ _ _ ha
        split <;> rename_i he <;> rw [he] at hr
        · exact complete_wf _ _ _ _ _ _ _ _ _ hr
        · exact hr
        · exact modQueue_wf _ _ _ hr

/-! ### Steps -/

theorem saveGroup_wf (s g) (h : Memory.wf s = true) : Memory.wf (saveGroup s g) = true :=
  setGroup_wf _ _ (wf_congr (s := s) rfl rfl rfl h)
theorem haltGroups_wf (s) (h : Memory.wf s = true) : Memory.wf (haltGroups s) = true :=
  foldl_wf _ _ _ (fun _ _ h => saveGroup_wf _ _ h) h

/-- A fetch, and what the word does, keep the canonical form where every instruction does. -/
theorem fetchIssue_wf {s t g} {pre : State → State} (hx : ∀ i s t, Memory.wf s = true → exec i s = .next t → Memory.wf t = true)
    (hp : ∀ u, Memory.wf u = true → Memory.wf (pre u) = true) (h : Memory.wf s = true)
    (ht : fetchIssue s g pre = .next t) : Memory.wf t = true := by
  have hf := fetch_wf s g h
  unfold fetchIssue at ht
  split at ht <;> rename_i he <;> rw [he] at hf
  · cases ht; exact applyOut_wf _ _ _ hf
  · rename_i u w
    split at ht
    · refine hx _ _ _ ?_ ht
      exact wf_congr (s := pre u) rfl rfl rfl (hp _ hf)
    · cases ht; exact takeTrap_wf _ _ _ _ _ _ hf
    · cases ht; exact takeTrap_wf _ _ _ _ _ _ hf

/-- Where every instruction keeps the canonical form, a group that issues keeps it. -/
theorem issueGroup_wf {s t gid} (hx : ∀ i s t, Memory.wf s = true → exec i s = .next t → Memory.wf t = true)
    (h : Memory.wf s = true) (ht : issueGroup s gid = .next t) : Memory.wf t = true := by
  unfold issueGroup at ht
  split at ht
  · cases ht; exact h
  · split at ht
    · cases ht; exact h
    · split at ht
      · exact hx _ _ _ h ht
      · exact fetchIssue_wf hx (fun u hu => perfCount_wf _ _ _ _ hu) h ht

theorem reissue_wf {s t gid} (hx : ∀ i s t, Memory.wf s = true → exec i s = .next t → Memory.wf t = true)
    (h : Memory.wf s = true) (ht : reissue s gid = .next t) : Memory.wf t = true := by
  unfold reissue at ht
  split at ht
  · cases ht; exact h
  · split at ht
    · cases ht; exact h
    · split at ht
      · exact hx _ _ _ h ht
      · split at ht
        · exact hx _ _ _ h ht
        · split at ht
          · exact fetchIssue_wf hx (fun u hu => hu) h ht
          · cases ht; exact h

theorem takePacket_wf {s t q} (hx : ∀ i s t, Memory.wf s = true → exec i s = .next t → Memory.wf t = true)
    (h : Memory.wf s = true) (ht : takePacket s q = .next t) : Memory.wf t = true := by
  unfold takePacket at ht
  split at ht
  · cases ht; exact h
  · split at ht
    · cases ht; exact h
    · refine hx _ _ _ ?_ ht
      exact wf_congr (s := s) rfl rfl rfl h

theorem performPacket_wf {s t i} (hx : ∀ i s t, Memory.wf s = true → exec i s = .next t → Memory.wf t = true)
    (h : Memory.wf s = true) (ht : performPacket i s = .next t) : Memory.wf t = true := by
  unfold performPacket at ht
  split at ht
  · split at ht
    · exact takePacket_wf hx h ht
    · cases ht; exact h
  · cases ht; exact h

/-! ### Barriers -/

theorem setCtrl_wf (s b c) (h : Memory.wf s = true) : Memory.wf (setCtrl s b c) = true := writeNat_wf _ _ _ _ h
theorem latchBar_wf (s b) (h : Memory.wf s = true) : Memory.wf (latchBar s b) = true :=
  foldl_wf _ _ _ (fun _ _ h => latchEdge_wf _ _ _ h) h
theorem resolveBroken_wf (s b) (h : Memory.wf s = true) : Memory.wf (resolveBroken s b) = true :=
  foldl_wf _ _ _ (fun _ _ h => resolve_wf _ _ _ _ h) (wf_congr (s := s) rfl rfl rfl h)
theorem resolvePassed_wf (s b) (h : Memory.wf s = true) : Memory.wf (resolvePassed s b) = true :=
  foldl_wf _ _ _ (fun _ _ h => learn_wf _ _ _ _ _ (resolve_wf _ _ _ _ h)) (wf_congr (s := s) rfl rfl rfl h)
theorem breakOne_wf (s ctx b c) (h : Memory.wf s = true) : Memory.wf (breakOne s ctx b c).1 = true := by
  unfold breakOne
  dsimp only
  split
  · exact h
  · exact latchBar_wf _ _ (resolveBroken_wf _ _ (wf_congr rfl rfl rfl (setCtrl_wf s b _ h)))
theorem breakBars_wf (n ctx c l s) (h : Memory.wf s = true) : Memory.wf (breakBars n ctx c l s) = true := by
  induction n generalizing l s with
  | zero => exact h
  | succ n ih => cases l with
    | nil => exact h
    | cons b bs => exact ih _ _ (breakOne_wf _ _ _ _ h)
theorem breakBar_wf (s ctx b c) (h : Memory.wf s = true) : Memory.wf (breakBar s ctx b c) = true := breakBars_wf _ _ _ _ _ h
theorem completePhase_wf (s b) (h : Memory.wf s = true) : Memory.wf (completePhase s b) = true := by
  unfold completePhase
  dsimp only
  exact latchBar_wf _ _ (resolvePassed_wf _ _ (wf_congr rfl rfl rfl
    (writeNat_wf _ _ _ _ (writeNat_wf _ _ _ _ (setCtrl_wf s b _ h)))))
theorem carryOn_wf (s a b) (h : Memory.wf s = true) : Memory.wf (carryOn s a b) = true := addCarries_wf _ _ _ _ h

theorem ite_wf {c : Prop} [Decidable c] {s t : State} (hs : Memory.wf s = true) (ht : Memory.wf t = true) :
    Memory.wf (if c then s else t) = true := by split <;> assumption
theorem raiseBar_wf (s b p) (h : Memory.wf s = true) : Memory.wf (raiseBar s b p) = true := setCtrl_wf _ _ _ h
theorem arriveUp_wf (s ctx b p) (h : Memory.wf s = true) : Memory.wf (arriveUp s ctx b p).1 = true := by
  have hu : Memory.wf (raiseBar { s with upward := s.upward.filter (· != b) } b p) = true :=
    raiseBar_wf _ _ _ (wf_congr (s := s) rfl rfl rfl h)
  unfold arriveUp
  generalize raiseBar { s with upward := s.upward.filter (· != b) } b p = u at hu ⊢
  have hv : Memory.wf (if barMalformed u p = true then breakBar u ctx p 0x02 else u) = true :=
    ite_wf (breakBar_wf _ _ _ _ hu) hu
  dsimp only
  generalize (if barMalformed u p = true then breakBar u ctx p 0x02 else u) = v at hv ⊢
  split
  · exact breakBar_wf _ _ _ _ hv
  split
  · exact breakBar_wf _ _ _ _ hv
  split
  · exact hv
  split
  · exact breakBar_wf _ _ _ _ (breakBar_wf _ _ _ _ hv)
  · exact wf_congr (s := carryOn (writeNat v (p.plus 0x0C) 4 (barArrived v p + 1)) b p) rfl rfl rfl
      (carryOn_wf _ b p (writeNat_wf _ _ _ _ hv))

theorem evalBar_wf (n ctx b s) (h : Memory.wf s = true) : Memory.wf (evalBar n ctx b s) = true := by
  induction n generalizing b s with
  | zero => exact h
  | succ n ih =>
    unfold evalBar
    refine ite_wf h (ite_wf h (ite_wf (breakBar_wf _ _ _ _ h) (ite_wf (completePhase_wf _ _ h) ?_)))
    split
    · exact breakBar_wf _ _ _ _ h
    · exact ite_wf (wf_congr (s := raiseBar s b _) rfl rfl rfl (raiseBar_wf _ _ _ h))
        (ite_wf (ih _ _ (arriveUp_wf _ _ _ _ h)) (arriveUp_wf _ _ _ _ h))

theorem deliverUp_wf (s b) (h : Memory.wf s = true) : Memory.wf (deliverUp s b) = true := by
  unfold deliverUp
  dsimp only
  refine ite_wf h (ite_wf (wf_congr (s := s) rfl rfl rfl h) ?_)
  split
  · exact breakBar_wf _ _ _ _ h
  · exact ite_wf h (ite_wf (evalBar_wf _ _ _ _ (arriveUp_wf _ _ _ _ h)) (arriveUp_wf _ _ _ _ h))

theorem raiseWaiting_wf (s) (h : Memory.wf s = true) : Memory.wf (raiseWaiting s) = true :=
  foldl_wf _ _ _ (fun _ _ h => deliverUp_wf _ _ h) h

theorem timerEdge_wf (s gid n) (h : Memory.wf s = true) : Memory.wf (timerEdge s gid n) = true := by
  unfold timerEdge
  split
  · exact h
  · exact ite_wf (latchEdge_wf _ _ _ (modGroup_wf _ _ _ h)) h
theorem timerEdges_wf (s) (h : Memory.wf s = true) : Memory.wf (timerEdges s) = true :=
  foldl_wf _ _ _ (fun _ _ h => ite_wf (foldl_wf _ _ _ (fun _ _ h => timerEdge_wf _ _ _ h) h) h) h

/-! ### A cycle -/

theorem poisonLine_wf (s l) (h : Memory.wf s = true) : Memory.wf (poisonLine s l) = true := by
  unfold poisonLine poisonRange; split
  · exact h
  · exact wf_congr (s := s) rfl rfl rfl h
theorem loseStore_wf (s r) (h : Memory.wf s = true) : Memory.wf (loseStore s r) = true := by
  unfold loseStore
  dsimp only
  have hp : ∀ b : Bool, Memory.wf (if b = true then poisonLine s r.loc else s) = true := by
    intro b; split
    · exact poisonLine_wf _ _ h
    · exact h
  split <;> exact wf_congr rfl rfl rfl (hp _)
theorem loseAtom_wf (s a) (h : Memory.wf s = true) : Memory.wf (loseAtom s a) = true := by
  unfold loseAtom
  dsimp only
  refine loseStore_wf _ _ ?_
  split <;> exact wf_congr (s := s) rfl rfl rfl h
theorem loseId_wf (s id) (h : Memory.wf s = true) : Memory.wf (loseId s id) = true := by
  unfold loseId
  repeat' split
  all_goals first | exact h | exact loseStore_wf _ _ h | exact loseAtom_wf _ _ h
theorem loseOverdue_wf (s) (h : Memory.wf s = true) : Memory.wf (loseOverdue s) = true := by
  refine foldl_wf _ _ _ (fun s id h => ?_) h
  split
  · exact loseId_wf _ _ h
  · exact h
theorem asyncTrap_wf (s gid c a) (h : Memory.wf s = true) : Memory.wf (asyncTrap s gid c a) = true := by
  unfold asyncTrap
  repeat' split
  · exact h
  · exact holdTrap_wf _ _ _ _ h
  · exact takeTrap_wf _ _ _ _ _ _ h
theorem budgetTraps_wf (s c n) (h : Memory.wf s = true) : Memory.wf (budgetTraps s c n) = true := by
  unfold budgetTraps
  split
  · exact h
  · split
    · exact h
    · exact foldl_wf _ _ _ (fun _ _ h => asyncTrap_wf _ _ _ _ h) (wf_congr (s := s) rfl rfl rfl h)
theorem latchSnap_wf (s) (h : Memory.wf s = true) : Memory.wf (latchSnap s) = true := by
  unfold latchSnap
  split <;> exact wf_congr (s := s) rfl rfl rfl h

theorem settleYield_wf (s t) (h : Memory.wf s = true) : Memory.wf (settleYield s t) = true := by
  unfold settleYield
  dsimp only
  split
  · refine wf_congr (s := List.foldl saveGang s _) rfl rfl rfl (foldl_wf _ _ _ (fun s k h => ?_) h)
    exact wf_congr (s := s) rfl rfl rfl h
  · exact h

theorem settleCycle_wf (s) (h : Memory.wf s = true) : Memory.wf (settleCycle s) = true :=
  foldl_wf _ _ _ (fun _ _ h => settleYield_wf _ _ h) (haltGroups_wf _ (latchSnap_wf _
    (foldl_wf _ _ _ (fun _ _ h => budgetTraps_wf _ _ _ h) (raiseWaiting_wf _ (loseOverdue_wf _ (timerEdges_wf _ h))))))

theorem tick_wf (s) (h : Memory.wf s = true) : Memory.wf (tick s) = true := by
  unfold tick
  split
  · exact h
  · exact settleCycle_wf _ (wf_congr (s := s) rfl rfl rfl h)

theorem perform_wf {s t c} (hx : ∀ i s t, Memory.wf s = true → exec i s = .next t → Memory.wf t = true)
    (h : Memory.wf s = true) (ht : perform c s = .next t) : Memory.wf t = true := by
  cases c with
  | issue g => exact issueGroup_wf hx h ht
  | take q => exact takePacket_wf hx h ht
  | tick => cases ht; exact tick_wf _ h
  | prefetch g va => cases ht; exact prefetch_wf _ _ _ h
  | event i =>
    simp only [perform, performEvent] at ht
    split at ht
    · cases ht; exact h
    · split at ht
      · exact performPacket_wf hx h ht
      · exact hx _ _ _ h ht

theorem idleStep_wf {s t} (hx : ∀ i s t, Memory.wf s = true → exec i s = .next t → Memory.wf t = true)
    (h : Memory.wf s = true) (ht : idleStep s = .next t) : Memory.wf t = true := by
  unfold idleStep at ht
  split at ht
  · cases ht; exact wf_congr (s := tick s) rfl rfl rfl (tick_wf _ h)
  · exact perform_wf hx h ht

/-- A step keeps the canonical form where every instruction does. -/
theorem step_wf {s t} (hx : ∀ i s t, Memory.wf s = true → exec i s = .next t → Memory.wf t = true)
    (h : Memory.wf s = true) (ht : step s = .next t) : Memory.wf t = true := by
  unfold step at ht
  split at ht
  · refine reissue_wf hx ?_ ht
    exact wf_congr (s := s) rfl rfl rfl h
  · split at ht
    · refine perform_wf hx ?_ ht
      exact wf_congr (s := s) rfl rfl rfl h
    · exact idleStep_wf hx h ht

end Sys2Proof.Machine
end

