-- ==== Sys2Proof/Laws/Operations.lean ====
section
/-! SUPPORT. What the shared operations can do, said once: waiting for operands, issuing, the stack, taking a trap,
taking a packet. -/

namespace Sys2Proof.Machine

/-! ### Waiting and reading -/

theorem hazard_none {s : State} {g : Group} {l : List Nat} : hazard s g l = none ↔ l = [] := by
  constructor
  · intro h
    unfold hazard at h
    split at h
    · cases h
    · split at h
      · rfl
      · cases h
  · rintro rfl; rfl

/-- A pending operand that is not poisoned makes the group wait for it. -/
theorem hazard_wait {s : State} {g : Group} {p : Nat} {ps : List Nat} (h : ∀ q ∈ p :: ps, poisonOf s q = none) :
    hazard s g (p :: ps) = some (.wait (modGroup s g.gid fun g => { g with awaits := awaited s p }) (pendReason s p)) := by
  have : (p :: ps).findSome? (poisonOf s) = none := List.findSome?_eq_none_iff.2 h
  simp [hazard, this]

/-! ### Issue -/

/-- All that issuing an instruction can come to. -/
theorem issue_cases {i : Instr} {c : Ctl} {body : State → Group → Out} (s : State) :
    (getGroup s s.cur = none ∧ issue i c body s = .next s) ∨
    ∃ g, getGroup s s.cur = some g ∧
      ((issueTrap s g i c = none ∧ issue i c body s = .next (applyOut g.gid g.pc (body s g))) ∨
       (issueTrap s g i c = some .joinlay ∧
         issue i c body s = .next (takeTrap (freshWord s).1 g.gid .joinlay false g.pc (freshWord s).2)) ∨
       ∃ k, k ≠ .joinlay ∧ issueTrap s g i c = some k ∧
         issue i c body s = .next (takeTrap s g.gid k false g.pc ((encode i).getD 0))) := by
  unfold issue
  cases hg : getGroup s s.cur with
  | none => exact .inl ⟨rfl, rfl⟩
  | some g =>
    refine .inr ⟨g, rfl, ?_⟩
    rcases ht : issueTrap s g i c with _ | k
    · simp [ht]
    · by_cases hk : k = .joinlay
      · subst hk; simp [ht]
      · refine .inr (.inr ⟨k, hk, rfl, ?_⟩)
        simp only [ht]

/-! ### The stack -/

/-- A stack access lies in a scratchpad of the group's context. -/
theorem stackLoc_scr {s : State} {g : Group} {p : Word} {n : Nat} {b : Loc} (h : stackLoc s g p n = .ok b) :
    ∃ r o, b = .scr g.ctx r o := by
  unfold stackLoc at h
  split at h
  · cases h
  · split at h
    · cases h
    · dsimp only at h
      split at h
      · cases h; exact ⟨_, _, rfl⟩
      · cases h
    · cases h

theorem foldr_byId_nil {l : List Own} (h : l = []) : l.foldr byId [] = [] := by rw [h]; rfl

/-- No access of the group to these bytes is still to be performed: a load that has not been read, a store or an atomic
that has no place. -/
theorem settleOwn_idle {s : State} {gid n : Nat} {b : Loc} (h : busyBytes s gid b n = false) : settleOwn s gid b n = s := by
  unfold busyBytes at h
  simp only [Bool.or_eq_false_iff] at h
  unfold settleOwn ownPending
  dsimp only
  rw [foldr_byId_nil]
  · rfl
  · simp only [List.append_eq_nil_iff, List.map_eq_nil_iff, List.filter_eq_nil_iff]
    refine ⟨⟨fun r hr => ?_, fun r hr => ?_⟩, fun a ha => ?_⟩
    · exact List.any_eq_false.1 h.2 r hr
    · have := List.any_eq_false.1 h.1.1 r hr
      intro hc
      simp only [Bool.and_eq_true, beq_iff_eq] at hc
      apply this
      simp [hc.1.1, hc.1.2, hc.2, StoreRec.performed]
    · exact List.any_eq_false.1 h.1.2 a ha

/-! ### Taking a trap -/

/-- All that entry can come to: the record is written, the trap is held, or it is unrecoverable (R342, R343, R346). -/
theorem enterTrap_cases {s : State} {g : Group} (hg : getGroup s g.gid = some g) (c : Cause) (async : Bool) (tpc taddr : Word) :
    (∃ b, stackLoc s g g.cstk 0x29C0 = .ok b ∧ g.tmk = false ∧ enterTrap s g.gid c async tpc taddr =
      modGroup (writeTrapRecord (settleOwn s g.gid b 0x29C0) g b) g.gid fun g => trapGroup g c async tpc taddr) ∨
    (g.tmk = true ∧ async = true ∧ enterTrap s g.gid c async tpc taddr = modGroup s g.gid fun g =>
      { g with held := if g.held.any (fun h => h.1 == c) then g.held else g.held ++ [(c, taddr)] }) ∨
    enterTrap s g.gid c async tpc taddr = unrecoverable s g c async tpc taddr := by
  unfold enterTrap
  rw [hg]
  dsimp only
  split
  · exact .inr (.inr rfl)
  · split
    · rename_i hm
      split
      · rename_i ha; exact .inr (.inl ⟨hm, ha, rfl⟩)
      · exact .inr (.inr rfl)
    · rename_i hm
      split
      · exact .inr (.inr rfl)
      · rename_i b hb
        split
        · exact .inr (.inr rfl)
        · exact .inl ⟨b, hb, by simpa using hm, rfl⟩

/-- A group of no gang that takes a trap of its own making only enters it. -/
theorem takeTrap_alone {s : State} {g : Group} (hg : getGroup s g.gid = some g) (hk : gangOf s g.gid = none) {c : Cause}
    (hc : c = .bkpt ∨ c = .trap ∨ c = .step) (async : Bool) (tpc taddr : Word) :
    takeTrap s g.gid c async tpc taddr = enterTrap s g.gid c async tpc taddr := by
  unfold takeTrap
  rw [hg]
  dsimp only
  split
  · rfl
  · simp [hk]

/-! ### Packets -/

/-- A packet whose queue stands, and that may act, is accepted and comes to what its body says (R389 to R392). -/
theorem takeBody_acts {p : Packet} {body : State → Queue → Nat → Taken} {s : State} {qu : Queue} (hq : getQueue s p.q = some qu)
    (ha : acts s p = true) : takeBody p body s = settleEmpty (match body (acceptPacket s qu p) qu qu.head with
      | .ends s st res => complete s p.q qu.head st p.kind false p.tag res p.nocpl
      | .later s => s
      | .blocks s => blockQueue s p.q p true) p.q := by
  unfold acts at ha
  rw [hq] at ha
  simp only [Bool.and_eq_true, beq_iff_eq] at ha
  unfold takeBody
  rw [hq]
  dsimp only
  rw [if_neg (by simp [ha.1.1.1, ha.1.1.2]), if_neg (by
    have := ha.1.2
    revert this
    cases waitsAfter p <;> simp), if_neg (by simp [ha.2])]
  try rfl

/-! ### Writes of the companion processor -/

theorem markWrittens_memory (s : State) (ls : List Nat) (f : Nat → Loc) :
    let t := ls.foldl (fun s k => markWritten s (f k)) s
    MemoryOnly s t ∧ (∀ m, readByte t m = readByte s m) ∧ (Memory.wf s = true → Memory.wf t = true) := by
  induction ls generalizing s with
  | nil => exact ⟨rfl, fun _ => rfl, id⟩
  | cons k ks ih =>
    obtain ⟨h1, h2, h3⟩ := ih (markWritten s (f k))
    exact ⟨(markWritten_memoryOnly _ _).trans h1, fun m => (h2 m).trans (readByte_markWritten _ _ _), fun h => h3 (markWritten_wf _ _ h)⟩

/-- Marking further pages as written changes no byte, and the canonical form stays. -/
theorem markFurther_memory (s : State) (l : Loc) (n : Nat) :
    MemoryOnly s (markFurther s l n) ∧ (∀ m, readByte (markFurther s l n) m = readByte s m) ∧
    (Memory.wf s = true → Memory.wf (markFurther s l n) = true) := markWrittens_memory s _ _

end Sys2Proof.Machine
end

