-- ==== Sys2Proof/Laws/PerInstr.lean ====
section
/-! SUPPORT. Statements made constructor by constructor. -/

namespace Sys2Proof.Laws

end Sys2Proof.Laws
end

