-- ==== Sys2Proof/Laws/Values.lean ====
section
/-! SUPPORT. Entries made of elements, and how the shared bodies meet the rows of Safety.lean. -/

namespace Sys2Proof.Machine

/-! ### Entries -/

theorem packNat_lt (w : Nat) (l : List Nat) :
    l.foldr (fun x a => x % 2 ^ w + 2 ^ w * a) 0 < 2 ^ (w * l.length) := by
  induction l with
  | nil => simp
  | cons x l ih =>
    simp only [List.foldr_cons, List.length_cons]
    have h : x % 2 ^ w < 2 ^ w := Nat.mod_lt _ (Nat.two_pow_pos w)
    have h2 : l.foldr (fun x a => x % 2 ^ w + 2 ^ w * a) 0 + 1 ≤ 2 ^ (w * l.length) := ih
    calc x % 2 ^ w + 2 ^ w * l.foldr (fun x a => x % 2 ^ w + 2 ^ w * a) 0
        < 2 ^ w * (l.foldr (fun x a => x % 2 ^ w + 2 ^ w * a) 0 + 1) := by rw [Nat.mul_add]; omega
      _ ≤ 2 ^ w * 2 ^ (w * l.length) := Nat.mul_le_mul_left _ h2
      _ = 2 ^ (w * (l.length + 1)) := by rw [← Nat.pow_add]; congr 1; rw [Nat.mul_add]; omega

theorem packNat_elem (w : Nat) (l : List Nat) (j : Nat) (h : j < l.length) :
    l.foldr (fun x a => x % 2 ^ w + 2 ^ w * a) 0 / 2 ^ (w * j) % 2 ^ w = l[j] % 2 ^ w := by
  induction l generalizing j with
  | nil => simp at h
  | cons x l ih =>
    simp only [List.foldr_cons]
    cases j with
    | zero => simp
    | succ j =>
      have hx : x % 2 ^ w < 2 ^ w := Nat.mod_lt _ (Nat.two_pow_pos w)
      rw [show w * (j + 1) = w + w * j by rw [Nat.mul_add]; omega, Nat.pow_add, ← Nat.div_div_eq_div_mul,
        Nat.add_mul_div_left _ _ (Nat.two_pow_pos w), Nat.div_eq_of_lt hx, Nat.zero_add]
      simpa using ih j (by simpa using h)

/-- The elements of a packed entry. -/
theorem packElems_entry (w n : Nat) (l : List Nat) (hl : l.length = n) (hw : w * n ≤ 128) (code : Nat → Nat)
    (hc : ∀ j (h : j < l.length), l[j] % 2 ^ w = code j % 2 ^ w) : IsEntry w n code (packElems w l) := by
  subst hl
  have hlt := packNat_lt w l
  have h128 : (packElems w l).toNat = l.foldr (fun x a => x % 2 ^ w + 2 ^ w * a) 0 := by
    simp only [packElems, quadOf, BitVec.toNat_ofNat]
    exact Nat.mod_eq_of_lt (Nat.lt_of_lt_of_le hlt (Nat.pow_le_pow_right (by omega) hw))
  refine ⟨by rw [h128]; exact hlt, fun j hj => ?_⟩
  rw [h128, packNat_elem w l j hj, hc j hj]

/-- A scalar entry. -/
theorem quadOf_entry (w x : Nat) (hw : w ≤ 128) (hx : x < 2 ^ w) (code : Nat → Nat) (hc : code 0 = x) :
    IsEntry w 1 code (quadOf x) := by
  have h : (quadOf x).toNat = x := by
    simp only [quadOf, BitVec.toNat_ofNat]
    exact Nat.mod_eq_of_lt (Nat.lt_of_lt_of_le hx (Nat.pow_le_pow_right (by omega) hw))
  refine ⟨by rw [h]; simpa using hx, fun j hj => ?_⟩
  have : j = 0 := by omega
  subst this
  rw [h, hc]; simp

theorem Ty.size_le (t : Ty) : t.width * t.count ≤ 128 := by cases t <;> decide

theorem Ty.width_le (t : Ty) : t.width ≤ 128 := by cases t <;> decide

theorem elementwise_entry (t : Ty) (fn : Nat → Nat × Nat) (code : Nat → Nat)
    (hc : ∀ j < t.count, (fn j).1 % 2 ^ t.width = code j % 2 ^ t.width) : IsEntry t.width t.count code (elementwise t fn).1 := by
  refine packElems_entry _ _ _ (by simp [upTo]) (Ty.size_le t) code fun j hj => ?_
  simp only [upTo, List.map_map, List.getElem_map, List.getElem_range, Function.comp]
  exact hc j (by simpa [upTo] using hj)

theorem foldl_or_map (l : List Nat) (f : Nat → Nat × Nat) (a : Nat) :
    (l.map f).foldl (fun a r => a ||| r.2) a = l.foldl (fun a l => a ||| (f l).2) a := by
  rw [List.foldl_map]

theorem elementwise_flags (t : Ty) (fn : Nat → Nat × Nat) :
    (elementwise t fn).2 = orFlags (upTo t.count) fun j => (fn j).2 := by
  simp only [elementwise, orFlags, foldl_or_map]

theorem orFlags_congr {ls : List Nat} {f g : Nat → Nat} (h : ∀ l ∈ ls, f l = g l) :
    orFlags ls f = orFlags ls g := by
  simp only [orFlags]
  generalize (0 : Nat) = a
  induction ls generalizing a with
  | nil => rfl
  | cons l ls ih =>
    simp only [List.foldl_cons]
    rw [h l (by simp)]
    exact ih (fun k hk => h k (by simp [hk])) _

theorem orFlags_zero (ls : List Nat) : (orFlags ls fun _ => 0) = 0 := by
  induction ls with
  | nil => rfl
  | cons l ls ih => simp [orFlags]

theorem orFlags_one (f : Nat → Nat) : orFlags (upTo 1) f = f 0 := by simp [orFlags, upTo]

/-! ### Rows -/

theorem pushed_eq (c : Ctl) (v : Nat → Quad) (g : Group) : pushed c v g = pushLanes c (fun l => .val (v l)) g := by
  simp only [pushed, pushLanes, pushG, pushFile, mapLanes, pushThread]

theorem flagged_eq (fl : Nat) (g : Group) : flagged fl g = raiseFlags g fl := rfl

theorem predicated_eq (c : Ctl) (p : BitVec 4) (b : Nat → Bool) (g : Group) :
    predicated c p b g = writePreds c p.toNat b g := by
  simp only [predicated, writePreds]
  split <;> rfl

theorem groups_become_mod {l : List Group} {i : Nat} {g : Group} {f : Group → Group}
    (hg : (l.find? fun k => k.gid == i) = some g) (hf : (f g).gid = i) (hall : ∀ k, k.gid = i → (f k).gid = i) :
    ((l.map fun k => if k.gid = i then f k else k).find? fun k => k.gid == i) = some (f g) ∧
    (l.map fun k => if k.gid = i then f k else k).filter (fun k => k.gid ≠ i) = l.filter (fun k => k.gid ≠ i) := by
  induction l with
  | nil => simp at hg
  | cons k ks ih =>
    by_cases hk : k.gid = i
    · have : k = g := by simpa [List.find?_cons, hk] using hg
      subst this
      refine ⟨by simp [hk, hf], ?_⟩
      have hrest : ∀ m : List Group,
          (m.map fun k => if k.gid = i then f k else k).filter (fun k => k.gid ≠ i) = m.filter (fun k => k.gid ≠ i) := by
        intro m
        induction m with
        | nil => rfl
        | cons x xs ihx =>
          by_cases hx : x.gid = i
          · simpa [hx, hall x hx] using ihx
          · simpa [hx] using ihx
      exact hrest (k :: ks)
    · have hk' : (k.gid == i) = false := by simpa using hk
      have := ih (by simpa [List.find?_cons, hk'] using hg)
      refine ⟨by simpa [hk, hk', List.find?_cons] using this.1, ?_⟩
      have h2 := this.2
      simp only [List.map_cons, hk, if_false, List.filter_cons, h2]

/-- An update of one group leaves the others. -/
theorem groupsBecome_modGroup {s : State} {i : Nat} {g : Group} {f : Group → Group} (hg : getGroup s i = some g)
    (hf : ∀ k, (f k).gid = k.gid) : GroupsBecome s (modGroup s i f) (f g) := by
  have hi : (f g).gid = i := by rw [hf, getGroup_gid hg]
  have := groups_become_mod (f := f) hg hi (fun k hk => by rw [hf, hk])
  simpa only [GroupsBecome, hi, getGroup, modGroup] using this

theorem groupsBecome_setGroup {s : State} {g h : Group} (hg : getGroup s h.gid = some g) :
    GroupsBecome s (setGroup s h) h := by
  have := groups_become_mod (f := fun _ => h) (i := h.gid) hg rfl (fun _ _ => rfl)
  simpa only [GroupsBecome, getGroup, setGroup] using this

/-- Completing leaves the group that the manual gives (R79, R114). -/
theorem groupsBecome_finish {s : State} {i : Nat} {g : Group} (hg : getGroup s i = some g) (pc : Word) :
    GroupsBecome s (finish s i pc) (completed g pc) :=
  groupsBecome_modGroup hg (f := fun g => completed g pc) (fun k => completed_gid k pc)

theorem completesWith_of_exec {s : State} {i : Instr} {g h : Group} {pc : Word} (hg : getGroup s g.gid = some h)
    (he : exec i s = .next (setGroup s (completed g pc))) : CompletesWith s i g pc :=
  ⟨_, he, rfl, groupsBecome_setGroup (by rw [completed_gid]; exact hg)⟩

/-- An instruction that only goes on. -/
theorem completesWith_of_finish {s : State} {i : Instr} {g : Group} {pc : Word} (hg : getGroup s s.cur = some g)
    (he : exec i s = .next (finish s g.gid pc)) : CompletesWith s i g pc :=
  ⟨_, he, rfl, groupsBecome_finish (by rw [getGroup_gid hg]; exact hg) pc⟩

/-- A meaning made by `valueBody` pushes what a row says, if it computes the row's elements and flags. -/
theorem pushes_of_value {i : Instr} {r : ValueRow} {fn : Group → Nat → List Quad → Quad × Nat} {s : State}
    {g : Group} (hx : exec i s = issue i r.ctl (valueBody r.ctl r.args fn) s) (ha : Acts s g i r.ctl)
    (hr : Readable g (execLanes g r.ctl) r.args) (ht : trapsFp g (r.raised g) = false)
    (hv : ∀ l ∈ execLanes g r.ctl,
      IsEntry r.width r.count (fun j => (r.elem g l (r.vals g l) j).1) (fn g l (r.vals g l)).1)
    (hf : ∀ l ∈ execLanes g r.ctl,
      (fn g l (r.vals g l)).2 = orFlags (upTo r.count) fun j => (r.elem g l (r.vals g l) j).2) :
    ∃ v : Nat → Quad,
      (∀ l ∈ execLanes g r.ctl, IsEntry r.width r.count (fun j => (r.elem g l (r.vals g l) j).1) (v l)) ∧
      CompletesWith s i (pushed r.ctl v (flagged (r.raised g) g)) (g.pc + 8) := by
  have hraise : (voidFlag g (execLanes g r.ctl) r.args |||
      orFlags (execLanes g r.ctl) fun l => (fn g l (r.args.map (argVal g l))).2) = r.raised g := by
    simp only [ValueRow.raised]
    congr 1
    exact orFlags_congr hf
  refine ⟨fun l => (fn g l (r.vals g l)).1, hv, ?_⟩
  refine completesWith_of_exec (h := g) (by simpa [pushed_eq, flagged_eq, getGroup_gid ha.1] using ha.1) ?_
  rw [hx, issue_value ha.1 ha.2 hr (by rw [hraise]; exact ht), hraise, pushed_eq]
  rfl

/-- A meaning made by `predBody` sets what a row says. -/
theorem sets_of_pred {i : Instr} {r : PredRow} {fn : Group → Nat → List Quad → Bool × Nat} {s : State}
    {g : Group} (hx : exec i s = issue i r.ctl (predBody r.ctl r.pd r.args fn) s) (ha : Acts s g i r.ctl)
    (hr : Readable g (execLanes g r.ctl) r.args) (ht : trapsFp g (r.raised g) = false)
    (hv : ∀ l, fn g l (r.vals g l) = r.holds g l (r.vals g l)) :
    CompletesWith s i (predicated r.ctl r.pd (fun l => (r.holds g l (r.vals g l)).1) (flagged (r.raised g) g))
      (g.pc + 8) := by
  have hraise : (voidFlag g (execLanes g r.ctl) r.args |||
      orFlags (execLanes g r.ctl) fun l => (fn g l (r.args.map (argVal g l))).2) = r.raised g := by
    simp only [PredRow.raised]
    congr 1
    exact orFlags_congr fun l _ => by rw [← hv l]; rfl
  refine completesWith_of_exec (h := g) (by simpa [predicated_eq, flagged_eq, getGroup_gid ha.1] using ha.1) ?_
  rw [hx, issue_pred ha.1 ha.2 hr (by rw [hraise]; exact ht), hraise, predicated_eq]
  congr 5
  funext l
  rw [← hv l]; rfl

end Sys2Proof.Machine
end

