-- ==== Sys2Proof/Tests/Slice0.lean ====
section
/-! SUPPORT. The model's own tests: words of the manual's encoding tables, terms that check 2 of R62 refuses,
worked examples of the manual, and for each statement states and operands that meet its hypotheses. -/

namespace Sys2Proof.Tests
open Sys2Proof.Machine Sys2Proof.Claims

set_option Elab.async false

/-! ### Words written out in the manual -/

def c0 : Ctl := ⟨false, false, 0, false⟩
def cu : Ctl := ⟨true, false, 0, false⟩
def z3 : Q3 := ⟨.a 0, .a 0, .a 0, 0, .i8, 0, false, false, 0, 0⟩
def zi : QI := ⟨.a 0, .a 0, 0, false, 0⟩
def zb : BR := ⟨.a 0, .a 0, 0, 0, 0⟩
def zm : ME := ⟨.a 0, .a 0, .a 0, 0, 0, 0, false, false, 0, 0⟩
def zx : MX := ⟨.a 0, .a 0, .a 0, 0, 0, 0, 0, false, false, 0, 0⟩
def zc : CP := ⟨.a 0, .a 0, .a 0, 0, 0, 0⟩
def zs : SY := ⟨.a 0, .a 0, 0, 0, 0⟩

/-- The word decodes to the instruction, and is the instruction's word. -/
def reads (w : Word) (i : Instr) : Bool :=
  (match decodeWord w with | .ok j => j == i | .error _ => false) && encode i == some w

/-- The encoding examples of 03. -/
theorem test_words_03 :
    reads 0x604E_2880_A800_0000 (.fadd ⟨false, true, 3, true⟩ { z3 with sa := .a 2, sb := .g 1, rm := 1, ty := .f32 }) &&
    reads 0x3000_3000_1020_FFFB (.add c0 { z3 with sa := .a 3, ty := .i32, imm := true, imm16 := 0xFFFB }) &&
    reads 0xA100_1001_5200_0040 (.st c0 { zm with sa := .a 1, sz := 2, ord := 2, scope := 4, ack := true, offset := 0x40 }) &&
    reads 0x0B00_0010_0300_0001 (.join c0 { zb with aux := 2, offs := 0x03000001 }) &&
    reads 0x0800_0000_FFFF_FFFC (.bra c0 { zb with offs := 0xFFFFFFFC }) = true := by decide +kernel

/-- Worked words of 04. -/
theorem test_words_04 :
    reads 0x0A00_0018_0005_0008 (.brd c0 { zb with aux := 3, offs := 0x00050008 }) &&
    reads 0x0B00_0010_0300_0020 (.join c0 { zb with aux := 2, offs := 0x03000020 }) &&
    reads 0x0C00_0191_0000_007F (.call c0 { zb with sb := .a 3, aux := 2, kind := 1, offs := 127 }) = true := by
  decide +kernel

/-- Worked words of 05. -/
theorem test_words_05 :
    reads 0x3A00_1000_1000_0000 (.adif c0 { z3 with sa := .a 1, ty := .i32 }) &&
    reads 0x3B00_08C8_1000_0000 (.clamp c0 { z3 with sb := .g 1, sc := .g 2, ty := .i32 }) &&
    reads 0x6300_0088_E004_0000 (.fma c0 { z3 with sb := .a 1, sc := .a 2, rm := 1, ty := .f32x4, mod := 4 }) &&
    reads 0x5100_0088_C010_0000 (.rqs c0 { z3 with sb := .a 1, sc := .a 2, rm := 1, ty := .i8x16, sat := true }) &&
    reads 0x7800_0000_3C62_0010 (.lxch c0 { z3 with ty := .b128, pd := 1, imm := true, mod := 2, imm16 := 16 }) &&
    reads 0x5200_2048_0000_0100 (.leaImm c0 { zi with sa := .a 2, fn := 0b100100, imm32 := 0x100 }) = true := by
  decide +kernel

/-- Worked words of 06. -/
theorem test_words_06 :
    reads 0x9080_0000_0000_0013 (.gang cu { zs with imm16 := 0x13 }) &&
    reads 0x9100_1002_0008_0000 (.mma c0 { zx with sa := .a 1, z := 2, negp := true }) &&
    reads 0x9100_00C0_9910_0000 (.mma c0 { zx with sb := .a 1, sc := .g 0, ta := 9, tb := 9, acc := true }) &&
    reads 0x9280_0001_0000_0000 (.mmz cu { zx with z := 1 }) &&
    reads 0x9381_0001_0000_0100 (.mmld cu { zx with sa := .g 0, z := 1, imm16 := 0x100 }) &&
    reads 0x9481_1900_9006_0040 (.mmst cu { zx with sa := .g 1, sb := .g 2, ta := 9, rm := 6, imm16 := 0x40 }) &&
    reads 0x9481_0003_0010_0200 (.mmst cu { zx with sa := .g 0, z := 3, acc := true, imm16 := 0x200 }) &&
    reads 0x9500_0000_0000_0003 (.mmrd c0 { zx with imm16 := 3 }) &&
    reads 0x9680_0000_0000_0000 (.mmstat cu zs) = true := by decide +kernel

/-- Worked words of 07, 08 and 16. -/
theorem test_words_07 :
    reads 0xA000_2001_0100_0010 (.ld c0 { zm with sa := .a 2, sz := 2, sx := true, offset := 0x10 }) &&
    reads 0xA101_3000_800F_FFFE (.st c0 { zm with sa := .g 3, sz := 1, offset := 0xFFFFE }) &&
    reads 0xA300_0081_7010_0000 (.atom c0 { zm with sb := .a 1, sz := 2, ord := 3, scope := 4, mod := 1 }) &&
    reads 0xA500_2081_B000_0008 (.cas c0 { zm with sa := .a 2, sb := .a 1, sz := 3, ord := 1, scope := 4, offset := 8 }) &&
    reads 0xA600_0000_7000_0000 (.fence c0 { zm with ord := 3, scope := 4 }) = true := by decide +kernel

theorem test_words_16 :
    reads 0xA900_2000_0000_0000 (.pcommit c0 { zm with sa := .a 2 }) &&
    reads 0xAB81_1000_0001_0000 (.pquery cu { zm with sa := .g 1, offset := 0x10000 }) &&
    reads 0xA781_0900_0000_0000 (.alloc cu { zm with sa := .g 0, sb := .g 2 }) &&
    reads 0xA801_0080_0000_0000 (.free c0 { zm with sa := .g 0, sb := .a 1 }) &&
    reads 0xE681_1000_0000_0020 (.tinv cu { zs with sa := .g 1, imm16 := 32 }) &&
    reads 0xE680_0000_0000_0000 (.tinv cu zs) &&
    reads 0xE581_0000_0000_0008 (.harvest cu { zs with sa := .g 0, imm16 := 8 }) = true := by decide +kernel

/-- Worked words of 09 and 10. -/
theorem test_words_09 :
    reads 0xC000_0880_8400_0001 (.cpyl c0 { zc with sb := .g 1, cq := 2, sub := 1, imm26 := 1 }) &&
    reads 0xC181_28C0_3000_0000 (.cpyt cu { zc with sa := .g 2, sb := .g 1, sc := .g 0, sub := 0b1100 }) &&
    reads 0xC280_0000_0000_0005 (.cpyfJoin cu { zc with imm26 := 5 }) &&
    reads 0xC380_0000_C000_0000 (.cpyrResume cu { zc with cq := 3 }) = true := by decide +kernel

theorem test_words_10 :
    reads 0xC581_1000_0000_0004 (.rclm cu { zc with sa := .g 1, imm26 := 4 }) &&
    reads 0xC681_2800_CC00_0000 (.rcmtQ cu { zc with sa := .g 2, sb := .g 0, cq := 3, sub := 3 }) &&
    reads 0xC781_0000_0001_0000 (.rawt cu { zc with sa := .g 0, imm26 := 65536 }) &&
    reads 0xC981_3880_0400_0000 (.rsub cu { zc with sa := .g 3, sb := .g 1, sub := 1 }) = true := by decide +kernel

/-- Worked words of 11. -/
theorem test_words_11 :
    reads 0xCB81_2980_1000_0008 (.binit cu { zc with sa := .g 2, sb := .g 3, sub := 4, imm26 := 8 }) &&
    reads 0xCE81_0000_0000_0001 (.barw cu { zc with sa := .g 0, imm26 := 1 }) &&
    reads 0xCD81_1800_0000_0000 (.bwait cu { zc with sa := .g 1, sb := .g 0 }) &&
    reads 0xCF81_1000_0000_1000 (.bexp cu { zc with sa := .g 1, imm26 := 4096 }) &&
    reads 0xCF81_1800_0400_0000 (.bexp cu { zc with sa := .g 1, sb := .g 0, sub := 1 }) = true := by decide +kernel

/-- Worked words of 12 to 15. -/
theorem test_words_12 :
    reads 0xD080_0000_0400_0C12 (.evbind cu { zc with sub := 1, imm26 := 0xC12 }) &&
    reads 0xD080_0000_CBFF_FC05 (.evbind cu { zc with cq := 3, sub := 2, imm26 := 0x3FFFC05 }) &&
    reads 0xD280_0000_0000_0007 (.evwait cu { zc with imm26 := 7 }) &&
    reads 0xD481_2000_0000_0007 (.evraise cu { zc with sa := .g 2, imm26 := 7 }) &&
    reads 0xD600_1000_1000_0000 (.msend c0 { zc with sa := .a 1, sub := 4 }) &&
    reads 0xD780_0000_0400_0000 (.mrecv cu { zc with sub := 1 }) = true := by decide +kernel

theorem test_words_13 :
    reads 0xE781_1000_0000_0004 (.icinv cu { zs with sa := .g 1, imm16 := 4 }) &&
    reads 0xE780_0000_0000_0000 (.icinv cu zs) &&
    reads 0xD801_0000_1000_0001 (.spawn c0 { zc with sa := .g 0, sub := 4, imm26 := 1 }) &&
    reads 0xD800_3000_2000_0000 (.spawn c0 { zc with sa := .a 3, sub := 8 }) &&
    reads 0xD980_0000_0000_0000 (.yield cu zc) = true := by decide +kernel

theorem test_words_15 :
    reads 0xE000_0000_0040_0000 (.srd c0 { zs with sreg := 0x40 }) &&
    reads 0xE080_0000_000A_0000 (.srd cu { zs with sreg := 0x0A }) &&
    reads 0xE181_0000_0044_0000 (.swr cu { zs with sa := .g 0, sreg := 0x44 }) &&
    reads 0xE280_0000_0000_0000 (.tret cu zs) &&
    reads 0xE380_0000_0000_0001 (.tmaskMask cu { zs with imm16 := 1 }) &&
    reads 0xE481_1800_0000_0002 (.segset cu { zs with sa := .g 1, sb := .g 0, imm16 := 2 }) &&
    reads 0xE880_0000_0000_1234 (.snapt cu { zs with imm16 := 0x1234 }) = true := by decide +kernel

/-! ### Terms that check 2 of R62 refuses -/

/-- R27: RM 7. R50: a guard with U = 1, GP without GE. R52: an unused field. R51: an a source under U = 1. -/
theorem test_refuses_fields :
    [Instr.fadd c0 { z3 with rm := 7, ty := .f32 }, .add ⟨true, true, 0, false⟩ { z3 with sa := .g 0, sb := .g 0, ty := .i32 },
     .add ⟨false, false, 1, false⟩ { z3 with ty := .i32 }, .add c0 { z3 with ty := .i32, sc := .a 1 },
     .add cu { z3 with sa := .a 1, sb := .g 0, ty := .i32 }, .add c0 { z3 with ty := .i32, rm := 1 }].all
      fun i => !i.wf := by decide +kernel

/-- R60, R133, R139: types that an instruction lacks. R54: an immediate that the type does not have. R64: the U column. -/
theorem test_refuses_types :
    [Instr.add c0 { z3 with ty := .f32 }, .fadd c0 { z3 with ty := .i32 }, .sar c0 { z3 with ty := .n32 },
     .clamp c0 { z3 with sb := .g 1, sc := .g 2, ty := .f32 }, .and c0 { z3 with ty := .b128, imm := true },
     .add c0 { z3 with ty := .i8x16, imm := true, imm16 := 0x100 }, .mmz c0 zx, .lane cu { z3 with ty := .n32 }].all
      fun i => !i.wf := by decide +kernel

/-- R66: no SREG of the number, one that cannot be written. R172: SZ and OWN. R264: k = 0. R368: IMM16 with SA of the a file. -/
theorem test_refuses_numbers :
    [Instr.srd c0 { zs with sreg := 0x0D }, .swr cu { zs with sa := .g 0, sreg := 0x00 }, .gang cu { zs with imm16 := 0x10 },
     .gang cu { zs with imm16 := 0x01 }, .rclm cu { zc with sa := .g 1 }, .tinv cu { zs with sa := .a 1, imm16 := 1 },
     .region c0 { zs with imm16 := 5 }, .save c0 { z3 with imm16 := 12 }].all fun i => !i.wf := by decide +kernel

/-! ### A group to work on -/

/-- A group whose threads in `lanes` hold `ages`, with uniform entries `gs`. -/
def grp (lanes : BitVec 32) (ages : Nat → List Quad) (gs : List Quad := []) : Group :=
  newGroup 1 1 1 { gidx := 0, team := 0, nteam := 1, ngrp := 1, spawned := false, g16 := false } 0 0 0 0x10000
    lanes ages gs (ownScratch 0xF0000) (ownScratch 0x100000) 0xFFFFFFFF 0x10400

/-- A group of one active thread. -/
def one (ages : List Quad) (gs : List Quad := []) : Group := grp 1 (fun _ => ages) gs

/-- The READY package of `fetchSetting` with this group, which issues. -/
def on (g : Group) : State := { fetchSetting State.reset with groups := [g], cur := 1 }

/-- The group after an instruction. -/
def after (i : Instr) (g : Group) : Option Group :=
  match exec i (on g) with | .next t => getGroup t 1 | _ => none

/-- The newest entry of a lane after an instruction, and FLAGS. -/
def top (i : Instr) (g : Group) (l : Nat := 0) : Option (Option Entry × Nat) :=
  (after i g).map fun h => ((threadAt h l).ages.head?, h.flags.toNat)

/-- A pushed value and FLAGS. -/
def out (v : Quad) (fl : Nat := 0) : Option (Option Entry × Nat) := some (some (.val v), fl)

/-- The cause that the instruction takes. -/
def cause (i : Instr) (g : Group) : Option Nat := (after i g).map fun h => bitsOf h.tcause 7 0

/-! ### Worked examples and cases of the rules -/

/-- R135: ADIF.i8 of -128 and 127 wraps to 0xFF, or clamps to 0x7F with SATF. -/
theorem test_adif :
    top (.adif c0 { z3 with sb := .a 1 }) (one [0x80, 0x7F]) = out 0xFF ∧
    top (.adif c0 { z3 with sb := .a 1, sat := true }) (one [0x80, 0x7F]) = out 0x7F 64 := by decide +kernel

/-- R143: the worked RQS. -/
theorem test_rqs :
    top (.rqs c0 { z3 with sb := .a 1, sc := .a 2, rm := 1, ty := .i8x16, sat := true })
      (one [0x00000014_0000000C_FFFFFC18_000003E8, 0x000A_0021_4000_0000, 0]) = out 0x0C0C8D7F 65 := by decide +kernel

/-- R144 to R146: the worked pointer. -/
theorem test_pointers :
    top (.ptag c0 { z3 with ty := .n64, imm := true, imm16 := 0x1FFF, mod := 1 }) (one [0x12340]) = out 0x3FFF000000012340 ∧
    top (.leaImm c0 { zi with fn := 48, imm32 := 0x5F }) (one [0x3FFF000000012340]) = out 0x3FFF000000602340 ∧
    top (.pfld c0 { z3 with ty := .n64, mod := 3 }) (one [0x3FFF000000602340]) = out 0 ∧
    top (.pfld c0 { z3 with ty := .n64, mod := 1 }) (one [0x3FFF000000602340]) = out 0x1FFF := by decide +kernel

/-- R21: ADD wraps, SUB clamps. -/
theorem test_add_sub :
    top (.add c0 { z3 with sb := .a 1, ty := .n8 }) (one [0xFF, 2]) = out 1 ∧
    top (.sub c0 { z3 with sb := .a 1, ty := .n8, sat := true }) (one [1, 2]) = out 0 64 := by decide +kernel

/-- R134: the high half of a signed product; a product of double width. -/
theorem test_mulh_madw :
    top (.mulh c0 { z3 with sb := .a 1, ty := .i16 }) (one [0xFFFF, 2]) = out 0xFFFF ∧
    top (.madw c0 { z3 with sb := .a 1, sc := .a 2, ty := .n8 }) (one [0xFF, 0xFF, 0x100]) = out 0xFF01 := by decide +kernel

/-- R136: division by zero, and the one quotient that does not fit. -/
theorem test_div_rem :
    top (.div c0 { z3 with sb := .a 1, ty := .i32 }) (one [7, 0]) = out 0xFFFFFFFF 8 ∧
    top (.div c0 { z3 with sb := .a 1, ty := .i8, sat := true }) (one [0x80, 0xFF]) = out 0x7F 64 ∧
    top (.rem c0 { z3 with sb := .a 1, ty := .i8 }) (one [0xF9, 2]) = out 0xFF := by decide +kernel

/-- R137: a carry out in bit 64, and a borrow. -/
theorem test_addx :
    top (.addx c0 { z3 with sb := .a 1, ty := .n64, mod := 1 }) (one [0xFFFFFFFFFFFFFFFF, 2]) = out 0x10000000000000001 ∧
    top (.addx c0 { z3 with sb := .a 1, ty := .n32, mod := 3 }) (one [1, 2]) = out 0x1FFFFFFFF := by decide +kernel

/-- R135: CLAMP with its bounds crossed, ABS and NEG at the ends. -/
theorem test_clamp_abs_neg :
    top (.clamp c0 { z3 with sb := .a 1, sc := .a 2, ty := .i32 }) (one [5, 9, 3]) = out 9 ∧
    top (.clamp c0 { z3 with sb := .a 1, sc := .a 2, ty := .i32 }) (one [10, 9, 3]) = out 3 ∧
    top (.abs c0 { z3 with sat := true }) (one [0x80]) = out 0x7F 64 ∧
    top (.neg c0 { z3 with ty := .n8, sat := true }) (one [3]) = out 0 64 := by decide +kernel

/-- R139: counts of the width and more. -/
theorem test_shifts :
    top (.shl c0 { z3 with sb := .a 1, ty := .n32 }) (one [1, 32]) = out 0 ∧
    top (.sar c0 { z3 with sb := .a 1 }) (one [0x80, 200]) = out 0xFF ∧
    top (.rol c0 { z3 with sb := .a 1, ty := .n8 }) (one [0x81, 9]) = out 3 ∧
    top (.shr c0 { z3 with sb := .a 1, ty := .n8 }) (one [0x81, 7]) = out 1 := by decide +kernel

/-- R140: a field of length 4 at position 2, sign-extended, and put back. -/
theorem test_bit_fields :
    top (.bfe c0 { z3 with sb := .a 1, ty := .i8 }) (one [0xA3, 0x402]) = out 0xF8 ∧
    top (.bfi c0 { z3 with sb := .a 1, sc := .a 2, ty := .n8 }) (one [0xFF, 0x5, 0x402]) = out 0xD7 := by decide +kernel

/-- R141: table 0x96 is exclusive or; selectors that reverse the bytes. R138: CLZ of zero. -/
theorem test_tables :
    top (.btab c0 { z3 with sb := .a 1, sc := .a 2, ty := .n8, imm16 := 0x96 }) (one [0x0F, 0x33, 0x55]) = out 0x69 ∧
    top (.bpik c0 { z3 with sb := .a 1, sc := .a 2, ty := .b128 })
      (one [0x0F0E0D0C0B0A09080706050403020100, 0, 0x000102030405060708090A0B0C0D0E0F]) =
        out 0x000102030405060708090A0B0C0D0E0F ∧
    top (.clz c0 { z3 with ty := .n16 }) (one [0]) = out 16 := by decide +kernel

/-- R142: signed bytes by unsigned bytes. -/
theorem test_dot4 :
    top (.dot4 c0 { z3 with sb := .a 1, sc := .a 2, ty := .i8x16, mod := 1 }) (one [0xFF, 0xFF, 1]) = out 0xFFFFFF02 := by
  decide +kernel

/-- R27: 1 + 2^-24 is a tie in f32; R28: an overflow toward zero. -/
theorem test_fadd :
    top (.fadd c0 { z3 with sb := .a 1, rm := 1, ty := .f32 }) (one [0x3F800000, 0x33800000]) = out 0x3F800000 1 ∧
    top (.fadd c0 { z3 with sb := .a 1, rm := 4, ty := .f32 }) (one [0x3F800000, 0x33800000]) = out 0x3F800001 1 ∧
    top (.fadd c0 { z3 with sb := .a 1, rm := 2, ty := .f32 }) (one [0x7F7FFFFF, 0x7F7FFFFF]) = out 0x7F7FFFFF 5 := by
  decide +kernel

/-- R148: a fused product is rounded once, and 0 x infinity is invalid. -/
theorem test_fma :
    top (.fma c0 { z3 with sb := .a 1, sc := .a 2, rm := 1, ty := .f32 }) (one [0x3F800001, 0x3F800001, 0xBF800002]) =
      out 0x28800000 ∧
    top (.fma c0 { z3 with sb := .a 1, sc := .a 2, rm := 1, ty := .f32 }) (one [0, 0x7F800000, 0]) = out 0x7FC00000 16 := by
  decide +kernel

/-- R29: the worked dither, thread 5 in phases 0 and 1. -/
theorem test_dither :
    let g := grp 32 fun _ => [0x3F809800]
    top (.cvt c0 { z3 with rm := 6, ty := .bf16, imm16 := 10 }) g 5 = out 0x3F80 1 ∧
    top (.cvt c0 { z3 with rm := 6, ty := .bf16, imm16 := 10 }) { g with mode := 0x101 } 5 = out 0x3F81 1 := by
  decide +kernel

/-- R40: the worked k4 block. -/
theorem test_k4_block :
    let xs := [FVal.fin false 14 0, .fin true 3 0, .fin false 1 0, .fin false 3 (-2)] ++ List.replicate 28 (.fin false 0 0)
    let b := encodeBlock .k4 (fun _ => ⟨1, 0, false, false, false, false⟩) xs
    b.codes.take 5 = [8, 15, 4, 3, 0] ∧ b.md = 0x6DF8 ∧ b.fl = 0 := by decide +kernel

/-- R165, R166: the worked reduction and prefix. -/
theorem test_redg_scan :
    let g := grp 15 fun l => [if l = 0 then 0x4B800000 else 0x3F800000]
    top (.redg c0 { z3 with rm := 1, ty := .f32 }) g 3 = out 0x4B800001 1 ∧
    top (.scan c0 { z3 with rm := 1, ty := .f32 }) g 3 = out 0x4B800000 1 := by decide +kernel

/-- R167: elements of an entry. -/
theorem test_elements :
    top (.vext c0 { z3 with ty := .i16x8, imm := true, imm16 := 9 }) (one [0x00070006000500040003000200010000]) = out 1 ∧
    top (.vins c0 { z3 with sb := .a 1, ty := .i32x4, imm16 := 1 }) (one [0, 0xABCD]) = out 0x0000ABCD_00000000 := by
  decide +kernel

/-- R105: signed and unsigned comparison. -/
theorem test_pset :
    (after (.pset c0 { z3 with sb := .a 1, pd := 3, mod := 2 }) (one [0xFF, 1])).map (fun h => (threadAt h 0).preds) = some 8 ∧
    (after (.pset c0 { z3 with sb := .a 1, pd := 3, mod := 2, ty := .n8 }) (one [0xFF, 1])).map (fun h => (threadAt h 0).preds) = some 0 := by
  decide +kernel

/-- R82: a void source reads as zero and sets VOIDR. R48: an enabled flag traps. -/
theorem test_void_and_fpexc :
    top (.add c0 { z3 with sb := .a 9, ty := .i32 }) (one [5]) = out 5 32 ∧
    cause (.div c0 { z3 with sb := .a 1, ty := .i32 }) { one [7, 0] with mode := 0x80001 } = some 0x40 := by decide +kernel

/-- R150, R28: FEX2 of an integer whose power of two overflows is infinite; of one it holds, exact. -/
theorem test_fex2 :
    top (.fex2 c0 { z3 with ty := .f32 }) (one [0x43000000]) = out 0x7F800000 5 ∧
    top (.fex2 c0 { z3 with ty := .f32 }) (one [0x40400000]) = out 0x41000000 := by decide +kernel

/-! ### States and operands that meet the hypotheses of the statements -/

/-- A value instruction of a table that completes on `g`. -/
def completes (row : Instr → Option ValueRow) (i : Instr) (g : Group) : Bool :=
  match row i with
  | some r => getGroup (on g) (on g).cur == some g && issueTrap (on g) g i r.ctl == none &&
      argPends g (execLanes g r.ctl) r.args == [] && !trapsFp g (r.raised g)
  | none => false

theorem completes_meets {row : Instr → Option ValueRow} {i : Instr} {g : Group} (h : completes row i g = true) :
    ∃ r s, row i = some r ∧ Acts s g i r.ctl ∧ Readable g (execLanes g r.ctl) r.args ∧ trapsFp g (r.raised g) = false := by
  unfold completes at h
  split at h
  · rename_i r hr
    simp only [Bool.and_eq_true, beq_iff_eq, Bool.not_eq_true'] at h
    exact ⟨r, on g, hr, ⟨h.1.1.1, h.1.1.2⟩, h.1.2, h.2⟩
  · cases h

theorem meets_MovesAndLogic :
    completes moveRow (.pass c0 { z3 with ty := .b128 }) (one [5]) ∧ completes moveRow (.lane c0 z3) (one []) ∧
    completes logicRow (.and c0 { z3 with sb := .a 1, ty := .i32 }) (one [5, 6]) := by decide +kernel
theorem meets_IntegerArithmetic : completes arithRow (.div c0 { z3 with sb := .a 1, ty := .i32 }) (one [7, 0]) := by
  decide +kernel
theorem meets_DotProductsAndPointers :
    completes dotRow (.rqs c0 { z3 with sb := .a 1, sc := .a 2, rm := 1, ty := .i8x16 }) (one [1, 2, 3]) := by decide +kernel
theorem meets_FloatingPoint :
    completes floatRow (.fma c0 { z3 with sb := .a 1, sc := .a 2, ty := .f32 }) (one [0, 0x7F800000, 0]) := by decide +kernel
theorem meets_Conversions : completes convertRow (.cvt c0 { z3 with ty := .bf16, imm16 := 10 }) (one [0x3F809800]) := by
  decide +kernel
theorem meets_Reductions : completes reduceRow (.redg c0 { z3 with ty := .f32 }) (grp 15 fun _ => [0x3F800000]) := by
  decide +kernel

theorem meets_Comparisons : ∃ i r s g, predRow i = some r ∧ Acts s g i r.ctl ∧ Readable g (execLanes g r.ctl) r.args ∧
    trapsFp g (r.raised g) = false :=
  ⟨.pset c0 { z3 with sb := .a 1, pd := 3 }, _, on (one [1, 2]), one [1, 2], rfl, And.intro (by decide +kernel) (by decide +kernel),
    by unfold Readable; decide +kernel, by decide +kernel⟩

/-- A group instruction of a table that acts on `g`. -/
def leaves (row : Instr → Option GroupRow) (i : Instr) (g : Group) : Bool :=
  match row i with
  | some r => getGroup (on g) (on g).cur == some g && issueTrap (on g) g i r.ctl == none && r.ok g &&
      argPends g (r.lanes g) (r.args g) == [] && !trapsFp g (r.flags g)
  | none => false

theorem leaves_meets {row : Instr → Option GroupRow} {i : Instr} {g : Group} (h : leaves row i g = true) :
    ∃ r s, row i = some r ∧ Acts s g i r.ctl ∧ r.ok g = true ∧ Readable g (r.lanes g) (r.args g) ∧ trapsFp g (r.flags g) = false := by
  unfold leaves at h
  split at h
  · rename_i r hr
    simp only [Bool.and_eq_true, beq_iff_eq, Bool.not_eq_true'] at h
    exact ⟨r, on g, hr, ⟨h.1.1.1.1, h.1.1.1.2⟩, h.1.1.2, h.1.2, h.2⟩
  · cases h

theorem meets_EntryMoves :
    leaves entryRow (.save c0 { z3 with imm16 := 11 }) (one [5]) ∧ leaves entryRow (.nop c0 zs) (one []) ∧
    leaves entryRow (.lxch c0 { z3 with ty := .b128, pd := 1, imm := true, mod := 2, imm16 := 16 }) (one [5]) := by
  decide +kernel
theorem meets_BlockConversion :
    leaves blockRow (.cvtb c0 { z3 with ty := .k4, imm16 := 10 }) (grp 1 fun _ => [0x3F800000]) := by decide +kernel

/-- An open entry whose join address is 0x10100. -/
def open1 (phase : Bool) (mask : BitVec 32) : Div := { jaddr := 0x10100, trel := -4, mask, phase, outer := 0 }

theorem meets_Branches :
    leaves branchRow (.bra c0 zb) (one []) ∧ leaves branchRow (.brd c0 { zb with offs := 0x00050008 }) (one []) ∧
    leaves branchRow (.brx c0 { zb with sa := .g 0 }) (one [] [0x10200]) ∧
    leaves branchRow (.join c0 { zb with offs := 0 }) { one [] with dstk := [open1 true 2], pc := 0x10100 } := by decide +kernel

theorem meets_EnabledFlagTraps : ∃ i r s g, arithRow i = some r ∧ Acts s g i r.ctl ∧ Readable g (execLanes g r.ctl) r.args ∧
    trapsFp g (r.raised g) = true :=
  let g := { one [7, 0] with mode := 0x80001 }
  ⟨.div c0 { z3 with sb := .a 1, ty := .i32 }, _, on g, g, rfl, And.intro (by decide +kernel) (by decide +kernel),
    by unfold Readable; decide +kernel, by decide +kernel⟩

theorem meets_PendingSourceWaits : ∃ i r s g p ps, arithRow i = some r ∧ Acts s g i r.ctl ∧
    argPends g (execLanes g r.ctl) r.args = p :: ps ∧ ∀ q ∈ p :: ps, poisonOf s q = none :=
  let g := { one [7, 0] with threads := (one [7, 0]).threads.map fun t => { t with ages := [.pend 7] } }
  ⟨.neg c0 { z3 with ty := .i32 }, _, on g, g, 7, [], rfl, And.intro (by decide +kernel) (by decide +kernel), by decide +kernel,
    by decide +kernel⟩

theorem meets_ArmEnds : ∃ i w s g e, encode i = some w ∧ getGroup s s.cur = some g ∧ firstCheck s g i w = none ∧
    innermost g = some e ∧ g.pc = e.jaddr ∧ ∀ c f, i ≠ .join c f :=
  let g := { one [] with dstk := [open1 true 2], pc := 0x10100 }
  ⟨.nop c0 zs, 0, on g, g, open1 true 2, by decide +kernel, by decide +kernel, by decide +kernel, by decide +kernel, rfl, nofun⟩

/-- R114: each row of the end of an arm, with a target beyond the join and at it. -/
theorem meets_ArmEnds_rows : ∀ e ∈ [open1 true 2, open1 false 0, open1 false 2, { open1 false 2 with trel := 0 }],
    let g : Group := { one [] with dstk := [open1 true 0, e] }
    innermost g = some e ∧ g.dstk = [open1 true 0] ++ [e] := by decide +kernel

/-- R111, R113, R116: a target that is no code address; eight entries open; unequal push counts; no entry; another place. -/
theorem meets_BranchesTrap :
    (∃ c f s g, Acts s g (.brx c f) c ∧ asWhole c g = true ∧ Readable g [0] [.src f.sa] ∧
      badTarget ((argVal g 0 (.src f.sa)).setWidth 64) = some .align) ∧
    (∃ c f s g, Acts s g (.brd c f) c ∧ g.dstk.length = 8) ∧
    (∃ c f s g, Acts s g (.brd c f) c ∧ g.dstk.length ≠ 8 ∧ g.dstk ≠ [] ∧ agree g = false) ∧
    (∃ c f s g, Acts s g (.join c f) c ∧ innermost g = none) ∧
    (∃ c f s g e, Acts s g (.join c f) c ∧ innermost g = some e ∧ g.pc ≠ e.jaddr) ∧
    (∃ c f s g e, Acts s g (.join c f) c ∧ innermost g = some e ∧ g.pc = e.jaddr ∧
      ∃ l ∈ actives g, (threadAt g l).pcnt ≠ f.aux.toNat ∧ (threadAt g l).pcnt ≠ bitsOf f.offs 27 24) :=
  let full : Group := { one [] with dstk := List.replicate 8 (open1 true 2) }
  let uneven : Group :=
    { grp 3 (fun _ => []) with dstk := [open1 true 0], threads := (grp 3 fun _ => []).threads.mapIdx fun l t => { t with pcnt := l } }
  let here : Group := { one [] with dstk := [open1 true 2], pc := 0x10100 }
  ⟨⟨c0, { zb with sa := .g 0 }, on (one [] [0x10204]), one [] [0x10204], And.intro (by decide +kernel) (by decide +kernel),
      by decide +kernel, by unfold Readable; decide +kernel, by decide +kernel⟩,
    ⟨c0, { zb with offs := 0x00050008 }, on full, full, And.intro (by decide +kernel) (by decide +kernel), by decide +kernel⟩,
    ⟨c0, { zb with offs := 0x00050008 }, on uneven, uneven, And.intro (by decide +kernel) (by decide +kernel), by decide +kernel, by decide +kernel, by decide +kernel⟩,
    ⟨c0, zb, on (one []), one [], And.intro (by decide +kernel) (by decide +kernel), by decide +kernel⟩,
    ⟨c0, zb, on { here with pc := 0x10108 }, { here with pc := 0x10108 }, open1 true 2,
      And.intro (by decide +kernel) (by decide +kernel), by decide +kernel, by decide +kernel⟩,
    ⟨c0, { zb with aux := 3, offs := 0x03000000 }, on here, here, open1 true 2, And.intro (by decide +kernel) (by decide +kernel),
      by decide +kernel, by decide +kernel, 0, by decide +kernel, by decide +kernel⟩⟩

/-- The stack of the group lies in its window. -/
theorem meets_CallEnters : ∃ i c k s g, callForm g i = some (c, k) ∧ Acts s g i c ∧ TargetReady g i ∧ Memory.wf s = true ∧
    InRange g ∧ g.cdepth ≠ 1023 ∧ g.cstk.toNat + (k.keep * 512 + 0x160) ≤ g.cslim.toNat ∧ bitsOf g.cstk 3 0 = 0 ∧
    stackFails s g g.cstk (slotParts (actives g) k.keep ++ [(k.keep * 512, 0x160)]) = none ∧
    stackWait s g g.cstk (slotParts (actives g) k.keep ++ [(k.keep * 512, 0x160)]) = none ∧
    (∀ l ∈ actives g, Settled (threadAt g l).ages (max k.nargs k.keep)) ∧ filePends g.gages = [] :=
  let g := one [1, 2, 3] [4]
  ⟨.calli c0 { zb with sa := .g 0, sb := .a 1, aux := 2, kind := 1 }, c0, _, on { g with gages := [.val 0x10200] },
    { g with gages := [.val 0x10200] }, rfl, And.intro (by decide +kernel) (by decide +kernel),
    And.intro (by unfold Readable; decide +kernel) (by decide +kernel), by decide +kernel, by unfold InRange; decide +kernel, by decide, by decide +kernel, by decide +kernel,
    by decide +kernel, by decide +kernel, by unfold Settled; decide +kernel, by decide +kernel⟩

/-- The group one call deep, with a record of no kept ages in memory that is all zero. -/
def called1 : Group := { one [1, 2] [4] with cdepth := 1, cstk := ownScratch 0xF0160 }

theorem meets_ReturnRebuilds : ∃ c f s g, Acts s g (.ret c f) c ∧ InRange g ∧ g.cdepth ≠ 0 ∧ bitsOf (g.cstk - 0x160) 3 0 = 0 ∧
    stackFails s g (g.cstk - 0x160) [(0, 0x160)] = none ∧ stackWait s g (g.cstk - 0x160) [(0, 0x160)] = none ∧
    readNat s ((slotAt g (g.cstk - 0x160) 0).plus 0x148) 4 / 2 ^ 5 % 16 = g.dstk.length ∧
    readNat s ((slotAt g (g.cstk - 0x160) 0).plus 0x148) 4 % 32 = 0 ∧
    stackFails s g (g.cstk - 0x160) (slotParts (actives g) (min f.aux.toNat 20 - f.aux.toNat)) = none ∧
    stackWait s g (g.cstk - 0x160) (slotParts (actives g) (min f.aux.toNat 20 - f.aux.toNat)) = none ∧
    (∀ l ∈ actives g, Settled (threadAt g l).ages f.aux.toNat) ∧ Settled g.gages f.kind.toNat :=
  ⟨c0, { zb with aux := 1 }, on called1, called1, And.intro (by decide +kernel) (by decide +kernel),
    by unfold InRange; decide +kernel, by decide, by decide +kernel, by decide +kernel, by decide +kernel,
    by decide +kernel, by decide +kernel, by decide +kernel, by decide +kernel, by unfold Settled; decide +kernel, by unfold Settled; decide +kernel⟩

theorem meets_SpillStores : ∃ c f s g, Acts s g (.fspill c f) c ∧ Memory.wf s = true ∧ InRange g ∧ bitsOf g.cstk 3 0 = 0 ∧
    g.cstk.toNat + f.mod.toNat * 512 ≤ g.cslim.toNat ∧ stackFails s g g.cstk (slotParts (parts c g) f.mod.toNat) = none ∧
    stackWait s g g.cstk (slotParts (parts c g) f.mod.toNat) = none :=
  ⟨c0, { zm with mod := 6 }, on (one []), one [], And.intro (by decide +kernel) (by decide +kernel), by decide +kernel,
    by unfold InRange; decide +kernel, by decide +kernel, by decide +kernel, by decide +kernel, by decide +kernel⟩

theorem meets_FillLoads : ∃ c f s g, Acts s g (.ffill c f) c ∧ InRange g ∧ bitsOf g.cstk 3 0 = 0 ∧
    stackFails s g (g.cstk - BitVec.ofNat 64 (f.mod.toNat * 512)) (slotParts (parts c g) f.mod.toNat) = none ∧
    stackWait s g (g.cstk - BitVec.ofNat 64 (f.mod.toNat * 512)) (slotParts (parts c g) f.mod.toNat) = none :=
  ⟨c0, { zm with mod := 1 }, on (one []), one [], And.intro (by decide +kernel) (by decide +kernel),
    by unfold InRange; decide +kernel, by decide +kernel, by decide +kernel, by decide +kernel⟩

/-- A call whose group stands as given. -/
def calls (g : Group) : Prop := ∃ c f k s, callForm g (.call c f) = some (c, k) ∧ Acts s g (.call c f) c ∧ k.keep = 0
theorem calls_of {g : Group} (h : getGroup (on g) (on g).cur = some g ∧ issueTrap (on g) g (.call c0 zb) c0 = none) : calls g :=
  ⟨c0, zb, _, on g, rfl, ⟨h.1, h.2⟩, rfl⟩

/-- R117, R119: a full stack, a misaligned one, one that no scratchpad holds; a CALLI's target; a RET at another depth. -/
theorem meets_CallsTrap :
    (∃ g, calls g ∧ g.cdepth = 1023) ∧ (∃ g, calls g ∧ g.cdepth ≠ 1023 ∧ g.cslim.toNat < g.cstk.toNat + 0x160) ∧
    (∃ g, calls g ∧ g.cdepth ≠ 1023 ∧ ¬ g.cslim.toNat < g.cstk.toNat + 0x160 ∧ bitsOf g.cstk 3 0 ≠ 0) ∧
    (∃ g e, calls g ∧ g.cdepth ≠ 1023 ∧ ¬ g.cslim.toNat < g.cstk.toNat + 0x160 ∧ bitsOf g.cstk 3 0 = 0 ∧
      stackFails (on g) g g.cstk (slotParts (actives g) 0 ++ [(0, 0x160)]) = some e) ∧
    (∃ c f s g, Acts s g (.calli c f) c ∧ Readable g [0] [.src f.sa] ∧
      badTarget ((argVal g 0 (.src f.sa)).setWidth 64) = some .space) ∧
    (∃ c f s g, Acts s g (.ret c f) c ∧ g.cdepth = 0) ∧
    (∃ c f s g, Acts s g (.ret c f) c ∧ g.cdepth ≠ 0 ∧ bitsOf (g.cstk - 0x160) 3 0 ≠ 0) ∧
    (∃ c f s g e, Acts s g (.ret c f) c ∧ g.cdepth ≠ 0 ∧ bitsOf (g.cstk - 0x160) 3 0 = 0 ∧
      stackFails s g (g.cstk - 0x160) [(0, 0x160)] = some e) ∧
    (∃ c f s g, Acts s g (.ret c f) c ∧ g.cdepth ≠ 0 ∧ bitsOf (g.cstk - 0x160) 3 0 = 0 ∧
      stackFails s g (g.cstk - 0x160) [(0, 0x160)] = none ∧ stackWait s g (g.cstk - 0x160) [(0, 0x160)] = none ∧
      readNat s ((slotAt g (g.cstk - 0x160) 0).plus 0x148) 4 / 2 ^ 5 % 16 ≠ g.dstk.length) :=
  ⟨⟨{ one [] with cdepth := 1023 }, calls_of (by decide +kernel), rfl⟩,
    ⟨{ one [] with cstk := ownScratch 0xFFFF0 }, calls_of (by decide +kernel), by decide +kernel, by decide +kernel⟩,
    ⟨{ one [] with cstk := ownScratch 0xF0008 }, calls_of (by decide +kernel), by decide +kernel, by decide +kernel, by decide +kernel⟩,
    ⟨{ one [] with cstk := 0 }, .space, calls_of (by decide +kernel), by decide +kernel, by decide +kernel, by decide +kernel,
      by decide +kernel⟩,
    ⟨c0, { zb with sa := .g 0 }, on (one [] [2 ^ 61]), one [] [2 ^ 61], And.intro (by decide +kernel) (by decide +kernel),
      by unfold Readable; decide +kernel, by decide +kernel⟩,
    ⟨c0, zb, on (one []), one [], And.intro (by decide +kernel) (by decide +kernel), rfl⟩,
    ⟨c0, zb, on { called1 with cstk := ownScratch 0xF0168 }, { called1 with cstk := ownScratch 0xF0168 },
      And.intro (by decide +kernel) (by decide +kernel), by decide +kernel, by decide +kernel⟩,
    ⟨c0, zb, on { called1 with cstk := 0x160 }, { called1 with cstk := 0x160 }, .space,
      And.intro (by decide +kernel) (by decide +kernel), by decide +kernel, by decide +kernel, by decide +kernel⟩,
    ⟨c0, zb, on { called1 with dstk := [open1 true 2] }, { called1 with dstk := [open1 true 2] },
      And.intro (by decide +kernel) (by decide +kernel), by decide +kernel, by decide +kernel, by decide +kernel, by decide +kernel,
      by decide +kernel⟩⟩

/-- R120: the same of the frames. -/
theorem meets_FramesTrap :
    (∃ c f s g, Acts s g (.fspill c f) c ∧ g.cslim.toNat < g.cstk.toNat + f.mod.toNat * 512) ∧
    (∃ c f s g, Acts s g (.fspill c f) c ∧ ¬ g.cslim.toNat < g.cstk.toNat + f.mod.toNat * 512 ∧ bitsOf g.cstk 3 0 ≠ 0) ∧
    (∃ c f s g e, Acts s g (.fspill c f) c ∧ ¬ g.cslim.toNat < g.cstk.toNat + f.mod.toNat * 512 ∧ bitsOf g.cstk 3 0 = 0 ∧
      stackFails s g g.cstk (slotParts (parts c g) f.mod.toNat) = some e) ∧
    (∃ c f s g, Acts s g (.ffill c f) c ∧ bitsOf g.cstk 3 0 ≠ 0) ∧
    (∃ c f s g e, Acts s g (.ffill c f) c ∧ bitsOf g.cstk 3 0 = 0 ∧
      stackFails s g (g.cstk - BitVec.ofNat 64 (f.mod.toNat * 512)) (slotParts (parts c g) f.mod.toNat) = some e) :=
  let off : Group := { one [] with cstk := ownScratch 0xF0008 }
  let global : Group := { one [] with cstk := 0x200 }
  ⟨⟨c0, { zm with mod := 1 }, on { off with cstk := ownScratch 0xFFFF0 }, { off with cstk := ownScratch 0xFFFF0 },
      And.intro (by decide +kernel) (by decide +kernel), by decide +kernel⟩,
    ⟨c0, { zm with mod := 1 }, on off, off, And.intro (by decide +kernel) (by decide +kernel), by decide +kernel, by decide +kernel⟩,
    ⟨c0, { zm with mod := 1 }, on global, global, .space, And.intro (by decide +kernel) (by decide +kernel), by decide +kernel,
      by decide +kernel, by decide +kernel⟩,
    ⟨c0, { zm with mod := 1 }, on off, off, And.intro (by decide +kernel) (by decide +kernel), by decide +kernel⟩,
    ⟨c0, { zm with mod := 1 }, on global, global, .space, And.intro (by decide +kernel) (by decide +kernel), by decide +kernel,
      by decide +kernel⟩⟩

/-- Two threads, of which the guard of p0 names those without it. -/
def two : Group := grp 3 fun l => [BitVec.ofNat 128 l]
def gn : Ctl := ⟨false, true, 0, true⟩
/-- A guard that holds in no thread without predicates. -/
def gq : Ctl := ⟨false, true, 0, false⟩
/-- Two threads in an arm, which have pushed unequally. -/
def uneven : Group := { two with dstk := [{ jaddr := 0x10100, trel := -4, mask := 0, phase := true, outer := 0 }],
                                 threads := two.threads.mapIdx fun l t => { t with pcnt := l } }
/-- A load of the group's that has not returned. -/
def loading1 (g : Group) : State :=
  { on g with loads := [{ id := 7, op := 7, gid := g.gid, bent := 0, port := none, acq := 0, cld := true, ptr := 0,
                          work := .read none none (.dev 0x8000) 4 false }] }

theorem meets_RegionWaitAndNap :
    (∃ c f s g, Acts s g (.region c f) c ∧ g.dstk = [] ∧
      (∀ l ∈ actives g, Settled (threadAt g l).ages (bitsOf f.imm16 2 0)) ∧ Settled g.gages (bitsOf f.imm16 4 3)) ∧
    (∃ c f s g, Acts s g (.region c f) c ∧ g.dstk ≠ [] ∧ agree g = false ∧
      (∀ l ∈ actives g, Settled (threadAt g l).ages (bitsOf f.imm16 2 0)) ∧ Settled g.gages (bitsOf f.imm16 4 3)) ∧
    (∃ c f s g, Acts s g (.wait c f) c ∧ asWhole c g = true ∧ bitsOf f.imm16 15 12 < cldOf s g.gid ∧
      coverWait s g (bitsOf f.imm16 15 12) (bitsOf f.imm16 11 8) (bitsOf f.imm16 7 4) = none) ∧
    (∃ c f s g, Acts s g (.wait c f) c ∧ cldOf s g.gid ≤ 0 ∧ cstOf s g.gid ≤ 0 ∧ ccpOf s g.gid ≤ 0 ∧ ctlOf s g.gid ≤ 0 ∧
      f.imm16 = 0 ∧ coverWait s g 0 0 0 = none) ∧
    (∃ c f s g, Acts s g (.nap c f) c ∧ asWhole c g = true ∧ f.imm16 ≠ 0) :=
  ⟨⟨c0, { zs with imm16 := 4 }, on (one [1, 2]), one [1, 2], And.intro (by decide +kernel) (by decide +kernel), rfl,
      by unfold Settled; decide +kernel, by unfold Settled; decide +kernel⟩,
    ⟨c0, { zs with imm16 := 1 }, on uneven, uneven, And.intro (by decide +kernel) (by decide +kernel), by decide, by decide +kernel,
      by unfold Settled; decide +kernel, by unfold Settled; decide +kernel⟩,
    ⟨c0, zs, loading1 (one []), one [], And.intro (by decide +kernel) (by decide +kernel), by decide +kernel, by decide +kernel,
      by decide +kernel⟩,
    ⟨c0, zs, on (one []), one [], And.intro (by decide +kernel) (by decide +kernel), by decide +kernel⟩,
    ⟨c0, { zs with imm16 := 9 }, on (one []), one [], And.intro (by decide +kernel) (by decide +kernel), by decide +kernel, by decide⟩⟩

/-- R97, R126, R128: a guard that holds in no active thread; a nap that is over. -/
theorem meets_NotAsWhole :
    (∃ c f s g, Acts s g (.wait c f) c ∧ asWhole c g = false) ∧ (∃ c f s g, Acts s g (.nap c f) c ∧ asWhole c g = false) ∧
    (∃ c f s g, Acts s g (.bkpt c f) c ∧ asWhole c g = false) ∧
    (∃ (s : State) (g : Group), getGroup s g.gid = some g ∧ g.st = .waiting ∧ g.wreason = .nap ∧ g.wdcnt = 0) :=
  ⟨⟨gq, zs, on (one []), one [], And.intro (by decide +kernel) (by decide +kernel), by decide +kernel⟩,
    ⟨gq, zs, on (one []), one [], And.intro (by decide +kernel) (by decide +kernel), by decide +kernel⟩,
    ⟨gq, zs, on (one []), one [], And.intro (by decide +kernel) (by decide +kernel), by decide +kernel⟩,
    ⟨on { one [] with st := .waiting, wreason := .nap }, { one [] with st := .waiting, wreason := .nap }, by decide +kernel⟩⟩

def onlyFirst : Group := { two with threads := two.threads.mapIdx fun l t => { t with preds := if l = 1 then 1 else 0 } }

/-- One of two threads is active, in an arm whose other thread is the second. -/
def armed2 (phase : Bool) : Group := { two with amask := 1, dstk := [open1 phase 2, open1 true 0] }

theorem meets_ExitEnds :
    (∃ c f s g, Acts s g (.exit c f) c ∧ (exited c g).amask ≠ 0 ∧ (exited c g).emask ≠ 0) ∧
    (∀ phase, ∃ c f s g, ∃ l : List Div, ∃ e, Acts s g (.exit c f) c ∧ (exited c g).amask = 0 ∧ (exited c g).emask ≠ 0 ∧
      g.dstk.length ≤ 8 ∧ openEntries (exited c g) = l ++ [e] ∧ e.phase = phase) ∧
    (∃ c f s g, Acts s g (.exit c f) c ∧ (exited c g).emask = 0 ∧ coverWait (setGroup s (exited c g)) (exited c g) 0 0 0 = none ∧
      countersZero (setGroup s (exited c g)) g.gid = true) ∧
    (∃ c f s g, Acts s g (.exit c f) c ∧ (exited c g).emask = 0 ∧ coverWait (setGroup s (exited c g)) (exited c g) 0 0 0 = none ∧
      countersZero (setGroup s (exited c g)) g.gid = false) :=
  ⟨⟨gn, zs, on onlyFirst, onlyFirst, And.intro (by decide +kernel) (by decide +kernel), by decide +kernel, by decide +kernel⟩,
    fun phase => ⟨c0, zs, on (armed2 phase), armed2 phase, [], open1 phase 2,
      And.intro (by cases phase <;> decide +kernel) (by cases phase <;> decide +kernel), by cases phase <;> decide +kernel,
      by cases phase <;> decide +kernel, by cases phase <;> decide, by cases phase <;> decide +kernel, rfl⟩,
    ⟨c0, zs, on two, two, And.intro (by decide +kernel) (by decide +kernel), by decide +kernel, by decide +kernel, by decide +kernel⟩,
    ⟨c0, zs, loading1 two, two, And.intro (by decide +kernel) (by decide +kernel), by decide +kernel, by decide +kernel, by decide +kernel⟩⟩

theorem canEnter_one : CanEnter (on (one [])) (one []) (.scr 1 0 0xF0000) := by
  unfold CanEnter; decide +kernel

theorem meets_TrapsSave : ∃ i c f cause s g b, (i = Instr.bkpt c f ∧ cause = Cause.bkpt) ∧ Acts s g i c ∧ asWhole c g = true ∧
    CanEnter s g b ∧ InRange g ∧ Memory.wf s = true ∧ gangOf s g.gid = none :=
  ⟨_, c0, { zs with imm16 := 7 }, _, on (one []), one [], .scr 1 0 0xF0000, ⟨rfl, rfl⟩, And.intro (by decide +kernel) (by decide +kernel),
    by decide +kernel, canEnter_one, by unfold InRange; decide +kernel, by decide +kernel, by decide +kernel⟩

theorem meets_MaskedTrap : ∃ (s : State) (g : Group), getGroup s g.gid = some g ∧ g.tvec ≠ 0 ∧ bitsOf g.tvec 63 55 = 0 ∧
    bitsOf g.tvec 2 0 = 0 ∧ g.tmk = true :=
  ⟨on { one [] with tmk := true }, { one [] with tmk := true }, by decide +kernel⟩

/-! ### Memory -/

def wr (s : State) (l : List (Nat × Nat)) : State := l.foldl (fun s x => writeWord s (.dev x.1) (BitVec.ofNat 64 x.2)) s

/-- Beside page 1 at device address 0x40000: page 2 sparse, page 4 committed, and an import table with a first
entry for this package and a second for one that no port reaches. -/
def world (g : Group) : State :=
  wr (on g) [(0x1FFF8, 0x60001), (0x6FFF8, 0x70001), (0x7FFF0, 0x8010B), (0x80000, 0xF), (0x80008, 0x1000), (0x80010, 0xC00F),
    (0x80018, 0x1000), (0x30010, 0x1E), (0x30020, 0x9801B)]

def sc0 : Word := ownScratch 0x100
/-- A thread with a scratch pointer on top. -/
def sg : Group := one [sc0.setWidth 128, 9, 3]
/-- A thread with a pointer of the DEV space on top. -/
def dg (va : Nat) : Group := one [BitVec.ofNat 128 va, 9, 3]
def acc0 : Acc := { lane := 0, ptr := sc0, loc := .scr 1 0 0x100, zero := false, poisoned := false, port := none }

theorem meets_PointersPass :
    (∃ s : State, ∃ p : Word, ∃ e, ptrSpace p = 2 ∧ importLost s 1 (bitsOf p 60 48) = false ∧ importAt s 1 (bitsOf p 60 48) = some e ∧
      didReachable s e.did = true) ∧
    (∃ s : State, ∃ p : Word, ∃ e, ptrSpace p = 2 ∧ importLost s 1 (bitsOf p 60 48) = false ∧ importAt s 1 (bitsOf p 60 48) = some e ∧
      didReachable s e.did = false) ∧
    (∃ s : State, ∃ p : Word, ptrSpace p = 2 ∧ importLost s 1 (bitsOf p 60 48) = true) ∧
    (∃ ac : AddrCtx, ∃ p : Word, ∃ lim base, ptrSpace p = 3 ∧ bitsOf p 58 32 = 0 ∧ ac.segls[bitsOf p 60 59]? = some lim ∧
      ac.segs[bitsOf p 60 59]? = some base ∧ bitsOf p 31 0 + 4 = lim.toNat ∧ ptrSpace (ptrAdd base (bitsOf p 31 0)) ≠ 3) :=
  ⟨⟨world sg, 0x4000000000000000, _, by decide +kernel, by decide +kernel, rfl, by decide +kernel⟩,
   ⟨world sg, 0x4001000000000000, _, by decide +kernel, by decide +kernel, rfl, by decide +kernel⟩,
   ⟨{ world sg with poison := [(.dev 0x80000, 128)] }, 0x4000000000000000, by decide +kernel⟩,
   ⟨{ addrCtx (on sg) sg with segs := [0, 0x10000], segls := [0, 0x14] }, 0x6800000000000010, 0x14, 0x10000, by decide +kernel⟩⟩

theorem meets_Reaches : ∃ (s : State) (g : Group) (ps : List (Nat × Word)) (accs : List Acc), ps ≠ [] ∧
    List.Forall₂ (Reaches s g .load 4 false) ps accs :=
  ⟨on sg, sg, [(0, sc0)], [acc0], by simp, .cons ⟨rfl, by decide +kernel, rfl, .inl ⟨0, 0x100, by decide +kernel⟩⟩ .nil⟩

theorem meets_Reaches_page : ∃ (s : State) (g : Group) (x : Nat × Word) (a : Acc), Reaches s g .load 4 false x a ∧ a.loc = .dev 0x40010 :=
  let s := (translate (world sg) 1 0 (some 0) 0x10010).1
  ⟨s, sg, (0, 0x10010), { lane := 0, ptr := 0x10010, loc := .dev 0x40010, zero := false, poisoned := false, port := none },
    ⟨rfl, by decide +kernel, rfl, .inr (.inl ⟨0x10010, walk s 1 0x10010, by decide +kernel,
      ⟨rfl, by decide +kernel, _, rfl, by decide +kernel, by decide +kernel, by decide +kernel⟩, by decide +kernel⟩)⟩, rfl⟩

/-- R208: LDZ on a sparse page. -/
theorem meets_Reaches_sparse : ∃ (s : State) (g : Group) (x : Nat × Word) (a : Acc), Reaches s g .load 8 true x a ∧ a.zero = true :=
  ⟨world (dg 0x20008), dg 0x20008, (0, 0x20008), { lane := 0, ptr := 0x20008, loc := .dev 0, zero := true, poisoned := false, port := none },
    ⟨rfl, by decide +kernel, rfl, .inr (.inr ⟨0x20008, by decide +kernel⟩)⟩, rfl⟩

/-- An access of the one thread that issues. -/
def issues (s : State) (g : Group) (i : Instr) (c : Ctl) (args : List Arg) : Bool :=
  getGroup s s.cur == some g && issueTrap s g i c == none && argPends g (execLanes g c) args == [] &&
    execLanes g c != []

theorem issues_meets {s : State} {g : Group} {i : Instr} {c : Ctl} {args : List Arg} (h : issues s g i c args = true) :
    Acts s g i c ∧ Readable g (execLanes g c) args ∧ execLanes g c ≠ [] := by
  simp only [issues, Bool.and_eq_true, beq_iff_eq, bne_iff_ne] at h
  exact ⟨⟨h.1.1.1, h.1.1.2⟩, h.1.2, h.2⟩

/-- What a statement asks of the counters of the group. -/
def roomy (s : State) (g : Group) : Bool := cldOf s g.gid < 15 && cstOf s g.gid < 15 && (coverRelease s g).isNone

theorem roomy_meets {s : State} {g : Group} {i : Instr} {f : ME} (h : roomy s g = true) : Room s g i f := by
  simp only [roomy, Bool.and_eq_true, Option.isNone_iff_eq_none, decide_eq_true_eq] at h
  exact ⟨fun _ => h.1.1, fun _ => h.1.2, fun _ => h.2⟩

/-- The second lane's pointer fails where the first one's passes. -/
theorem meets_AccessFails :
    ∃ i c f need zero args s g l p l' p' k q, accessForm i = some (c, f, need, zero, args) ∧ Acts s g i c ∧
      Readable g (execLanes g c) args ∧ Room s g i f ∧ pointers g c f = [(l, p)] ++ (l', p') :: [] ∧
      (∃ t, check13 s (addrCtx s g) p (2 ^ f.sz.toNat) = .ok t) ∧ check13 s (addrCtx s g) p' (2 ^ f.sz.toNat) = .error (k, q) ∧
      (∀ x ∈ pointers g c f, ptrSpace x.2 < 2) :=
  let g := grp 3 fun l => [if l = 0 then sc0.setWidth 128 else 0x10001, 9]
  ⟨.st c0 { zm with sb := .a 1, sz := 2, ord := 2, scope := 4 }, c0, _, _, _, _, on g, g, 0, sc0, 1, 0x10001, .align, 0x10001,
    rfl, And.intro (by decide +kernel) (by decide +kernel), by unfold Readable; decide +kernel, roomy_meets (by decide +kernel),
    by decide +kernel, ⟨.scr 0 0x100, by decide +kernel⟩, by decide +kernel, by decide +kernel⟩

/-- The access has room, its pointers and pages pass. -/
def passes (s : State) (g : Group) (i : Instr) (c : Ctl) (f : ME) (need : Need) (zero : Bool) (args : List Arg) : Bool :=
  issues s g i c args && roomy s g &&
    match checkAccess s g need (2 ^ f.sz.toNat) zero (pointers g c f) with
    | .ok _ accs => accs != [] && accs.all (!·.poisoned)
    | _ => false

theorem passes_meets {s : State} {g : Group} {i : Instr} {c : Ctl} {f : ME} {need : Need} {zero : Bool} {args : List Arg}
    (h : passes s g i c f need zero args = true) :
    Acts s g i c ∧ Readable g (execLanes g c) args ∧ execLanes g c ≠ [] ∧ Room s g i f ∧
      ∃ s' accs, checkAccess s g need (2 ^ f.sz.toNat) zero (pointers g c f) = .ok s' accs ∧ ∀ a ∈ accs, a.poisoned = false := by
  simp only [passes, Bool.and_eq_true] at h
  obtain ⟨⟨h1, h2⟩, h4⟩ := h
  obtain ⟨ha, hr, hl⟩ := issues_meets h1
  refine ⟨ha, hr, hl, roomy_meets h2, ?_⟩
  split at h4
  · rename_i s' accs hc
    simp only [Bool.and_eq_true, List.all_eq_true, Bool.not_eq_true'] at h4
    exact ⟨s', accs, hc, h4.2⟩
  · cases h4

/-- R203: checks that succeed, in a memory that has its form. -/
theorem meets_ChecksSucceed : ∃ s g, Memory.wf s = true ∧ ∃ s' accs, checkAccess s g .load 4 false [(0, (0x10010 : Word)), (1, sc0)] = .ok s' accs ∧
    accs ≠ [] ∧ ∀ r ∈ s.stores, r.st = .ordered ∨ r.st = .forwarded → overlaps r.loc r.bytes.length (.dev 0x40010) 1 = false := by
  refine ⟨world sg, sg, by decide +kernel, ?_⟩
  have h : (match checkAccess (world sg) sg .load 4 false [(0, (0x10010 : Word)), (1, sc0)] with
    | .ok _ accs => accs != []
    | _ => false) = true := by decide +kernel
  split at h
  · rename_i s' accs hc
    exact ⟨s', accs, hc, by simpa using h, by decide +kernel⟩
  · cases h

theorem meets_Loads : ∃ i c f args s g, accessForm i = some (c, f, Need.load, true, args) ∧ passes s g i c f .load true args = true :=
  ⟨.ldz c0 { zm with sz := 3 }, c0, _, _, world (dg 0x20008), dg 0x20008, rfl, by decide +kernel⟩
theorem meets_Stores : ∃ c f s g, passes s g (.st c f) c f .store false [.src f.sa, .src f.sb] = true :=
  ⟨c0, { zm with sb := .a 1, sz := 4, ord := 2, scope := 5, ack := true }, on sg, sg, by decide +kernel⟩
theorem meets_Atomics : ∃ i c f args s g, accessForm i = some (c, f, Need.atomic, false, args) ∧ passes s g i c f .atomic false args = true :=
  ⟨.cas c0 { zm with sb := .a 1, sc := .a 2, sz := 3, ord := 3, scope := 4 }, c0, _, _, on (dg 0x10008), dg 0x10008, rfl, by decide +kernel⟩
def noGuard : Group := { sg with threads := sg.threads.map fun t => { t with preds := 1 } }
theorem meets_NoLanes : ∃ i c f args s g, accessForm i = some (c, f, Need.store, false, args) ∧ Acts s g i c ∧ execLanes g c = [] :=
  ⟨.st gn { zm with sb := .a 1, sz := 2, ord := 2, scope := 4 }, gn, _, _, on noGuard, noGuard, rfl,
    And.intro (by decide +kernel) (by decide +kernel), by decide +kernel⟩

/-- Page 3 is not mapped. -/
def unmapped (s : State) (g : Group) (i : Instr) (c : Ctl) (f : ME) (args : List Arg) (p : Word) : Bool :=
  let u := importsRead s g (2 ^ f.sz.toNat) (pointers g c f)
  issues s g i c args && roomy s g && pointers g c f == [(0, p)] && ptrSpace p != 3 &&
    check13 u (addrCtx u g) p (2 ^ f.sz.toNat) == .ok (.glob (bitsOf p 54 0)) && tlbFind u g.ctx g.cl (some g.core) (bitsOf p 54 0) == none &&
    !(walk u g.ctx (bitsOf p 54 0)).poisoned && (walk u g.ctx (bitsOf p 54 0)).kind == .unmapped &&
    Memory.wf s && (getCtx s g.ctx).any fun x => (physLoc x.fring).any fun ring => lineQuiet u (ring.plus (32 * (x.fcount % 2 ^ x.lgf))) 32
theorem meets_UnmappedPage : ∃ i c f args p, ∃ s : Group → State, ∃ g h : Group, accessForm i = some (c, f, Need.load, false, args) ∧
    (g.ropen = false ∧ unmapped (s g) g i c f args p = true) ∧ (h.ropen = true ∧ unmapped (s h) h i c f args p = true) :=
  ⟨.ld c0 { zm with sz := 2 }, c0, _, _, 0x30004, world, dg 0x30004, { dg 0x30004 with ropen := true, rpc := 0x10000 }, rfl,
    ⟨rfl, by decide +kernel⟩, rfl, by decide +kernel⟩

/-- A store of the group that is not yet ordered. -/
def store1 : StoreRec :=
  { id := 7, op := 6, gid := 1, ctx := 1, bent := 0, port := none, loc := .dev 0x40010, bytes := [1, 2, 3, 4], ack := false, atomic := false,
    rel := 0, st := .issued, place := 0, age := 0, ptr := 0x10010, carry := [] }
def storing (r : StoreRec) : State := { on sg with stores := [r], nextId := 9 }

/-- What the row of a FENCE asks for, as R240 gives it. -/
def fenceMet (s : State) (g : Group) (f : ME) : Bool :=
  loadsReturned s g.gid s.nextId && (if f.ord = 1 then
      s.stores.all fun r => !(r.gid == g.gid && r.atomic) || r.performed
    else (s.stores.all fun r => !(r.gid == g.gid && r.op < s.nextId) || storeReleased f.scope.toNat r) &&
      (f.scope.toNat ≤ 3 || seenPerformed s g.gid s.nextId))
def fenceLost (s : State) (g : Group) (f : ME) : Option StoreRec := if f.ord = 1 then lostAtomic s g.gid else lostStore s g.gid

/-- For a FENCE.acq and a FENCE.rel: what it covers meets its row, does not, or is lost. -/
theorem meets_Fence :
    let rel : ME := { zm with ord := 2, scope := 4 }
    let acq : ME := { zm with ord := 1, scope := 4 }
    let lost : StoreRec := { store1 with st := .lost, atomic := true }
    (∀ s ∈ [on sg, storing store1, storing lost], ∀ f ∈ [rel, acq], Acts s sg (.fence c0 f) c0 ∧ asWhole c0 sg = true ∧ sg.stPoison = []) ∧
    (∀ f ∈ [rel, acq], fenceLost (on sg) sg f = none ∧ fenceMet (on sg) sg f = true) ∧
    (fenceLost (storing store1) sg rel = none ∧ fenceMet (storing store1) sg rel = false) ∧
    (fenceLost (storing { store1 with atomic := true }) sg acq = none ∧ fenceMet (storing { store1 with atomic := true }) sg acq = false) ∧
    (∀ f ∈ [rel, acq], fenceLost (storing lost) sg f = some lost) ∧
    (Acts (on noGuard) noGuard (.fence gn rel) gn ∧ asWhole gn noGuard = false) := by
  refine ⟨fun s hs f hf => ?_, by decide +kernel, by decide +kernel, by decide +kernel, by decide +kernel, And.intro (by decide +kernel) (by decide +kernel), by decide +kernel⟩
  simp only [List.mem_cons, List.not_mem_nil, or_false] at hs hf
  rcases hs with rfl | rfl | rfl <;> rcases hf with rfl | rfl <;> exact ⟨And.intro (by decide +kernel) (by decide +kernel), by decide +kernel⟩

/-- A write of the device's own beside a store that has its place on the line. -/
theorem meets_DeviceWrites : ∃ s l, ∃ bs : List Byte, Memory.wf s = true ∧ bs ≠ [] ∧ (∀ d c e k o, l ≠ Loc.peer d c e k o) ∧
    s.stores.filter (placedOn l bs.length) ≠ [] :=
  ⟨storing { store1 with st := .ordered, place := 8 }, .dev 0x40020, [1], by decide +kernel, by decide, nofun, by decide +kernel⟩

theorem meets_StoreSteps :
    let st1 := storing store1
    let st2 := storing { store1 with st := .ordered, place := 8 }
    let st3 := storing { store1 with st := .forwarded, place := 8 }
    let st4 := storing { store1 with st := .ordered, place := 8, ack := true }
    let sc := storing { store1 with loc := .scr 1 0 16 }
    let vis := storing { store1 with st := .visible, place := 8 }
    let sound (s : State) (r : StoreRec) : Bool := getStore s 7 == some r && Memory.wf s && !isPoisoned s r.loc r.bytes.length
    (∃ r, sound st1 r = true ∧ orderReady st1 r = true ∧ wayTo st1 r.loc = .open') ∧
    (∃ r, sound sc r = true ∧ orderReady sc r = true ∧ wayTo sc r.loc = .open') ∧
    (∃ r, sound st2 r = true ∧ r.st = .ordered ∧ r.ack = false ∧ earlierPlaced st2 r (fun x => x.st == .forwarded) = true) ∧
    (∃ r, sound st3 r = true ∧ r.st = .forwarded ∧ earlierPlaced st3 r (fun _ => false) = true) ∧
    (∃ r, sound st4 r = true ∧ (r.st = .ordered ∧ r.ack = true) ∧ earlierPlaced st4 r (fun _ => false) = true) ∧
    (onePoint st1 store1 = false ∧ onePoint sc { store1 with loc := .scr 1 0 16 } = true) ∧
    (∃ r, sound vis r = true ∧ r.st = .visible) :=
  ⟨⟨store1, by decide +kernel⟩, ⟨{ store1 with loc := .scr 1 0 16 }, by decide +kernel⟩,
    ⟨{ store1 with st := .ordered, place := 8 }, by decide +kernel⟩, ⟨{ store1 with st := .forwarded, place := 8 }, by decide +kernel⟩,
    ⟨{ store1 with st := .ordered, place := 8, ack := true }, by decide +kernel⟩, by decide +kernel,
    ⟨{ store1 with st := .visible, place := 8 }, by decide +kernel⟩⟩

/-- A combined request of two lanes that add. -/
def request : AtomRec :=
  { id := 7, op := 6, gid := 1, ctx := 1, bent := 0, port := none, age := 0, loc := .dev 0x40010, width := 4, code := 1, acq := 0, rel := 0,
    ptr := 0x10010, lanes := [⟨some 5, 3, 0⟩, ⟨some 6, 4, 0⟩] }
/-- The same without answers: an ATOMN. -/
def request' : AtomRec := { request with lanes := [⟨none, 3, 0⟩, ⟨none, 4, 0⟩] }

theorem meets_AtomicRequest : ∀ a ∈ [request, request', { request' with loc := .scr 1 0 16 }],
    let s : State := { on sg with atoms := [a], nextId := 8 }
    s.atoms.find? (fun x => x.id == 7) = some a ∧ atomReady s a = true ∧ wayTo s a.loc = .open' ∧
    isPoisoned s a.loc a.width = false ∧ Memory.wf s = true ∧ (a.width = 4 ∨ a.width = 8) ∧ (getGroup s a.gid).isSome = true ∧
    (∀ l ∈ a.lanes, l.d < 2 ^ (8 * a.width)) ∧ (∀ d c e k o, a.loc ≠ .peer d c e k o) ∧ a.lanes ≠ [] ∧ a.code ≠ 16 := by
  intro a ha
  simp only [List.mem_cons, List.not_mem_nil, or_false] at ha
  rcases ha with rfl | rfl | rfl <;>
    exact ⟨by decide +kernel, by decide +kernel, by decide +kernel, by decide +kernel, by decide +kernel, by decide, by decide +kernel,
      by decide, nofun, by decide, by decide⟩

theorem meets_Losses :
    (∃ s : State, ∃ r, getStore s 7 = some r ∧ r.st ≠ .lost ∧ (getGroup s r.gid).isSome = true ∧ 65536 ≤ r.age) ∧
    (∃ s : State, ∃ a, getStore s 7 = none ∧ s.atoms.find? (fun x => x.id == 7) = some a ∧ (getGroup s a.gid).isSome = true ∧ 65536 ≤ a.age) ∧
    (∃ s : State, ∃ r g o, getStore s 7 = some r ∧ getGroup s r.gid = some g ∧ r.st = .lost ∧ g.wdog ≠ 0xFFFFFFFF ∧ g.wdog.toNat ≤ r.age ∧
      g.st ≠ .saved ∧ g.drain = false ∧ lostStore s g.gid = some o) :=
  let g := { sg with wdog := 100 }
  ⟨⟨storing { store1 with age := 65536 }, { store1 with age := 65536 }, by decide +kernel⟩,
    ⟨{ on sg with atoms := [{ request with age := 65536 }], nextId := 8 }, { request with age := 65536 }, by decide +kernel⟩,
    ⟨{ storing { store1 with st := .lost, age := 100 } with groups := [g] }, { store1 with st := .lost, age := 100 }, g,
      { store1 with st := .lost, age := 100 }, by decide +kernel⟩⟩

/-- A load of 8 bytes that is outstanding. -/
def load1 (w : LoadWork) : LoadRec := { id := 7, op := 6, gid := 1, bent := 0, port := none, acq := 0, cld := true, ptr := 0x10010, work := w }
def loading (w : LoadWork) : State := { on sg with loads := [load1 w], nextId := 8 }

theorem meets_ArrivingData :
    (∃ s : State, ∃ r g v, s.queries.find? (fun q => q.id == 7) = none ∧ s.loads.find? (fun x => x.id == 7) = some r ∧
      getGroup s r.gid = some g ∧ (∀ p ∈ g.recs, p.1 ≠ 7) ∧ g.area = none ∧ r.work = .value v) ∧
    (∀ poisoned ∈ [true, false], ∃ s : State, ∃ r g lo loc n, s.queries.find? (fun q => q.id == 7) = none ∧
      s.loads.find? (fun x => x.id == 7) = some r ∧ getGroup s r.gid = some g ∧ g.area = none ∧ g.drain = false ∧
      (∀ p ∈ g.recs, ∀ x ∈ s.loads, sameRead r x = true → p.1 ≠ x.id) ∧ r.work = .read lo (some []) loc n true ∧
      acquiresDone s r.gid r.op = true ∧ readMayGo s r.gid r.port r.op loc n = true ∧ wayTo s (loc.plus 0) = .open' ∧ lo = none ∧ n = 8 ∧
      isPoisoned s (loc.plus 0) 8 = poisoned) ∧
    (∃ s : State, ∃ r loc, s.loads.find? (fun x => x.id == 7) = some r ∧ r.work = .read (some []) none loc 16 false ∧
      acquiresDone s r.gid r.op = true ∧ readMayGo s r.gid r.port r.op loc 16 = true ∧ wayTo s (loc.plus 8) = .open') := by
  refine ⟨⟨loading (.value 5), load1 (.value 5), sg, 5, by decide +kernel, by decide +kernel, by decide +kernel, nofun, rfl, rfl⟩, fun b hb => ?_,
    ⟨loading (.read (some []) none (.dev 0x40010) 16 false), load1 (.read (some []) none (.dev 0x40010) 16 false), .dev 0x40010,
      by decide +kernel, rfl, by decide +kernel, by decide +kernel, by decide +kernel⟩⟩
  simp only [List.mem_cons, List.not_mem_nil, or_false] at hb
  rcases hb with rfl | rfl
  · exact ⟨{ loading (.read none (some []) (.dev 0x40010) 8 true) with poison := [(.dev 0x40000, 128)] },
      load1 (.read none (some []) (.dev 0x40010) 8 true), sg, none, .dev 0x40010, 8, by decide +kernel, by decide +kernel,
      by decide +kernel, rfl, rfl, nofun, rfl, by decide +kernel, by decide +kernel, by decide +kernel, rfl, rfl, by decide +kernel⟩
  · exact ⟨loading (.read none (some []) (.dev 0x40010) 8 true), load1 (.read none (some []) (.dev 0x40010) 8 true), sg, none, .dev 0x40010, 8,
      by decide +kernel, by decide +kernel, by decide +kernel, rfl, rfl, nofun, rfl, by decide +kernel, by decide +kernel, by decide +kernel,
      rfl, rfl, by decide +kernel⟩

/-! ### Pages -/

/-- The checks pass, and what they find meets `p`. -/
def found (r : Checked) (p : State → List Acc → Bool) : Bool := match r with | .ok s accs => p s accs | .out _ => false
theorem found_meets {r : Checked} {p : State → List Acc → Bool} (h : found r p = true) : ∃ s accs, r = .ok s accs ∧ p s accs = true := by
  cases r with
  | ok s accs => exact ⟨s, accs, rfl, h⟩
  | out o => cases h

theorem meets_PageQueries :
    (∃ c f g ps, issues (world g) g (.alloc c f) c [.src f.sa, .src f.sb] = true ∧ cldOf (world g) g.gid < 15 ∧
      globPtrs (addrCtx (world g) g) (pointers g c f) = .ok ps ∧
      found (checkLanes (world g) g .atomic 1 false (ps.map fun x => (x.1, x.2, Target.glob (bitsOf x.2 54 0)))) (fun _ l => l != []) = true) ∧
    (∃ c f g ps, issues (world g) g (.pcommit c f) c [.src f.sa] = true ∧ cldOf (world g) g.gid < 15 ∧ coverRelease (world g) g = none ∧
      globPtrs (addrCtx (world g) g) (pointers g c f) = .ok ps ∧ ∀ x ∈ ps, Committable (world g) g.ctx x.2) ∧
    (∃ c f g ps, issues (world g) g (.pquery c f) c [.src f.sa] = true ∧ cldOf (world g) g.gid < 15 ∧
      globPtrs (addrCtx (world g) g) (pointers g c f) = .ok ps) :=
  ⟨⟨c0, { zm with sb := .a 1 }, dg 0x10000, [(0, 0x10000)], by decide +kernel, by decide +kernel, by decide +kernel, by decide +kernel⟩,
   ⟨c0, zm, dg 0x20000, [(0, 0x20000)], by decide +kernel, by decide +kernel, by decide +kernel, by decide +kernel,
     by unfold Committable; decide +kernel⟩,
   ⟨c0, zm, dg 0x30000, [(0, 0x30000)], by decide +kernel, by decide +kernel, by decide +kernel⟩⟩

/-- One query that its answer reaches, with a pool of the context. -/
def query (kind : QueryKind) (va : Word) : QueryRec := { id := 7, op := 6, gid := 1, kind, lanes := [(8, va, 0)] }
def asks (q : QueryRec) (pool : List (List Nat)) : State :=
  let s := world sg
  { s with queries := [q], nextId := 9, ctxs := s.ctxs.map fun x => { x with pool } }
theorem asks_one (kind : QueryKind) (va : Word) (pool : List (List Nat)) (h : queryReady (asks (query kind va) pool) (query kind va) sg = true) :
    OneQuery (asks (query kind va) pool) (query kind va) sg kind 8 va 0 :=
  ⟨rfl, rfl, rfl, rfl, nofun, rfl, rfl, h, nofun⟩

theorem meets_PageQueriesAnswer :
    let e : List (List Nat) := List.replicate 8 []
    (∃ s q x va, OneQuery s q sg .pquery 8 va 0 ∧ getCtx s 1 = some x ∧ Memory.wf s = true) ∧
    (∃ s q x va, OneQuery s q sg .pcommit 8 va 0 ∧ getCtx s 1 = some x ∧ Memory.wf s = true ∧ (walk s 1 (bitsOf va 54 0)).kind = .page) ∧
    (∃ s q x va, OneQuery s q sg .pcommit 8 va 0 ∧ getCtx s 1 = some x ∧ Memory.wf s = true ∧ (walk s 1 (bitsOf va 54 0)).kind = .unmapped) ∧
    (∃ s q x va, OneQuery s q sg .pcommit 8 va 0 ∧ getCtx s 1 = some x ∧ Memory.wf s = true ∧ (walk s 1 (bitsOf va 54 0)).kind = .sparse ∧
      x.pool = e) ∧
    (∃ s q x va, OneQuery s q sg .pdecommit 8 va 0 ∧ getCtx s 1 = some x ∧ Memory.wf s = true ∧ (walk s 1 (bitsOf va 54 0)).kind = .sparse) ∧
    (∃ s q x va, OneQuery s q sg .pdecommit 8 va 0 ∧ getCtx s 1 = some x ∧ Memory.wf s = true ∧
      (walk s 1 (bitsOf va 54 0)).kind = .page ∧ pteCP (walk s 1 (bitsOf va 54 0)).entry = false) ∧
    (∃ s q x va, OneQuery s q sg .pdecommit 8 va 0 ∧ getCtx s 1 = some x ∧ Memory.wf s = true ∧
      (walk s 1 (bitsOf va 54 0)).kind = .page ∧ pteCP (walk s 1 (bitsOf va 54 0)).entry = true ∧
      lineQuiet s (walk s 1 (bitsOf va 54 0)).at' 8 = true) :=
  ⟨⟨_, _, _, 0x10000, asks_one _ _ (List.replicate 8 []) (by decide +kernel), rfl, by decide +kernel⟩,
   ⟨_, _, _, 0x10000, asks_one _ _ (List.replicate 8 []) (by decide +kernel), rfl, by decide +kernel⟩,
   ⟨_, _, _, 0x30000, asks_one _ _ (List.replicate 8 []) (by decide +kernel), rfl, by decide +kernel⟩,
   ⟨_, _, _, 0x20000, asks_one _ _ (List.replicate 8 []) (by decide +kernel), rfl, by decide +kernel⟩,
   ⟨_, _, _, 0x20000, asks_one _ _ (List.replicate 8 []) (by decide +kernel), rfl, by decide +kernel⟩,
   ⟨_, _, _, 0x10000, asks_one _ _ (List.replicate 8 []) (by decide +kernel), rfl, by decide +kernel⟩,
   ⟨_, _, _, 0x40000, asks_one _ _ (List.replicate 8 []) (by decide +kernel), rfl, by decide +kernel⟩⟩

/-- A decommit of a page that was stranded (R373). -/
theorem meets_DecommitStranded : ∃ s q x, OneQuery s q sg .pdecommit 8 0x40000 0 ∧ getCtx s 1 = some x ∧ Memory.wf s = true ∧
    (walk s 1 0x40000).kind = .page ∧ pteCP (walk s 1 0x40000).entry = true ∧ ptePSN (walk s 1 0x40000).entry = true ∧
    lineQuiet s (walk s 1 0x40000).at' 8 = true :=
  ⟨writeWord (asks (query .pdecommit 0x40000) (List.replicate 8 [])) (.dev 0x30020) 0x9881B, query .pdecommit 0x40000, _,
    ⟨rfl, rfl, rfl, rfl, nofun, rfl, rfl, by decide +kernel, nofun⟩, rfl, by decide +kernel⟩

/-- FREE and the queries without participating threads. -/
theorem meets_NoThreads : (∃ c f s g, Acts s g (.free c f) c ∧ execLanes g c = []) ∧ ∃ c f s g, Acts s g (.pcommit c f) c ∧ execLanes g c = [] :=
  ⟨⟨gn, { zm with sb := .a 1 }, on noGuard, noGuard, And.intro (by decide +kernel) (by decide +kernel), by decide +kernel⟩,
    gn, zm, on noGuard, noGuard, And.intro (by decide +kernel) (by decide +kernel), by decide +kernel⟩

theorem first_tried (a : Nat) : ¬ triedBefore 0 a 0 := by simp [triedBefore, hops]

theorem meets_Commit : ∃ s q x va w fr rest, OneQuery s q sg .pcommit 8 va 0 ∧ getCtx s 1 = some x ∧ Memory.wf s = true ∧
    walk s 1 (bitsOf va 54 0) = w ∧ w.kind = .sparse ∧ (x.pool[pteHome w.entry]?).getD [] = fr :: rest ∧
    (∀ a < 8, ¬ triedBefore (pteHome w.entry) a (pteHome w.entry)) ∧ (∀ k < 8, ∀ j < 65536, w.at'.plus k ≠ .dev (fr + j)) ∧ lineQuiet s w.at' 8 = true := by
  refine ⟨_, _, _, 0x20000, ⟨.sparse, 0x1E, .dev 0x30010, 3, false⟩, 0xA0000, [], asks_one _ _ ([0xA0000] :: List.replicate 7 []) (by decide +kernel),
    rfl, by decide +kernel, by decide +kernel, rfl, by decide +kernel, fun a _ => first_tried a, ?_, by decide +kernel⟩
  intro k hk j hj h
  simp only [Loc.plus, Loc.dev.injEq] at h
  omega

theorem poolLoc_stays {s t : State} {ctx d : Nat} {p : Word} {blocks : List (Loc × Nat)} (hc : t.ctxs = s.ctxs) (ho : OnlyBytes s t blocks)
    (hd : ∀ l ∈ walkWords s ctx (bitsOf (ptrAdd p d) 54 0), ∀ k < 8, ∀ b ∈ blocks, ∀ j < b.2, l.plus k ≠ b.1.plus j) :
    poolLoc t ctx p d = poolLoc s ctx p d := by
  unfold poolLoc virtLoc
  rw [walk_congr hc (fun l hl => by
    unfold readWord; rw [readNat_congr (fun k hk => ho _ (fun b hb j hj => hd l hl k hk b hb j hj))])]

/-- A pool of four blocks of 64 bytes at 0x10100, of which the first is free, its bitmap at 0x10200. -/
def pool (g : Group) (map : Nat) (first : Nat) : State :=
  (translate (wr (world g) [(0x40000, 0x61), (0x40008, 0x10100), (0x40010, 0x10200), (0x40018, 0x400000004), (0x40020, first), (0x40200, map)])
    1 0 (some 0) 0x10000).1

theorem meets_Alloc :
    (∃ (s : State) (l : Loc), isPoisoned s l 64 = true) ∧
    (∃ (s : State) (l : Loc), isPoisoned s l 64 = false ∧ (poolHdr s l).ok = false) ∧
    (∃ (s : State) (l : Loc), isPoisoned s l 64 = false ∧ (poolHdr s l).ok = true ∧ ∀ b < 8, (getBent s b).online = false) ∧
    (∃ (s : State) (l : Loc), isPoisoned s l 64 = false ∧ (poolHdr s l).ok = true ∧ (getBent s 0).online = true ∧ ∀ b < 8, readNat s (l.plus (0x20 + 4 * b)) 4 = 0) ∧
    (∃ (s : State) (l : Loc), let h := poolHdr s l
      let u := usePool s (addrCtx s sg) h 0
      isPoisoned s l 64 = false ∧ h.ok = true ∧ Memory.wf s = true ∧ (getBent s 0).online = true ∧
      readNat s (l.plus (0x20 + 4 * 0)) 4 = 1 ∧ (poolPoisoned u 1 h.base 0 8 || poolPoisoned u 1 h.map 0 1) = true) ∧
    (∃ (s : State) (l bl ml : Loc) (i : Nat), let h := poolHdr s l
      let off := i * 2 ^ (h.ctrl / 16 % 32)
      let u := usePool s (addrCtx s sg) h i
      isPoisoned s l 64 = false ∧ poolPoisoned u 1 h.base off 8 = false ∧ poolPoisoned u 1 h.map (i / 8) 1 = false ∧
      h.ok = true ∧ Memory.wf s = true ∧ (getBent s 0).online = true ∧ readNat s (l.plus (0x20 + 4 * 0)) 4 = i + 1 ∧
      (∀ t : State, t.ctxs = s.ctxs → OnlyBytes u t [(l, 64), (ml, 1)] → poolLoc t 1 h.base off = some bl) ∧
      (∀ t : State, t.ctxs = s.ctxs → OnlyBytes u t [(l, 64), (ml, 1)] → poolLoc t 1 h.map (i / 8) = some ml) ∧
      (∀ j < 64, ∀ k < 8, l.plus j ≠ bl.plus k) ∧ (∀ j < 64, l.plus j ≠ ml) ∧ (∀ k < 8, ml ≠ bl.plus k)) :=
  ⟨⟨{ pool sg 0 0 with poison := [(.dev 0x40000, 128)] }, .dev 0x40000, by decide +kernel⟩,
   ⟨world sg, .dev 0x40000, by decide +kernel⟩,
   ⟨{ pool sg 0 0 with bents := (pool sg 0 0).bents.map fun b => { b with online := false } }, .dev 0x40000, by decide +kernel⟩,
   ⟨pool sg 0 0, .dev 0x40000, by decide +kernel⟩,
   ⟨{ pool sg 0 1 with poison := [(.dev 0x40100, 128)] }, .dev 0x40000, by decide +kernel⟩,
   ⟨pool sg 0 1, .dev 0x40000, .dev 0x40100, .dev 0x40200, 0, by decide +kernel, by decide +kernel, by decide +kernel, by decide +kernel, by decide +kernel, by decide +kernel, by decide +kernel,
    fun _ hc ho => (poolLoc_stays (hc.trans (by decide +kernel)) ho (by decide +kernel)).trans (by decide +kernel),
    fun _ hc ho => (poolLoc_stays (hc.trans (by decide +kernel)) ho (by decide +kernel)).trans (by decide +kernel), by decide +kernel, by decide +kernel, by decide +kernel⟩⟩

/-- What FREE asks of one lane's block. -/
def held (s : State) (g : Group) (f : ME) (a : Acc) (n : Nat) : Bool :=
  let b : Word := (argVal g a.lane (.src f.sb)).setWidth 64
  let u := useFree g s ⟨a.lane, a.loc, poolHdr s a.loc, b⟩
  !a.poisoned && !isPoisoned s a.loc 64 && wayTo s a.loc != .dead && (freeTouches s g.ctx a.loc b).all (fun x => objectMayGo s g.gid x.1 x.2) &&
    !poolPoisoned u g.ctx (poolHdr s a.loc).base (n * 2 ^ ((poolHdr s a.loc).ctrl / 16 % 32)) 8 &&
    !poolPoisoned u g.ctx (poolHdr s a.loc).map (n / 8) 1 && blockOf (poolHdr s a.loc) b == some n && !(walk u g.ctx (bitsOf b 54 0)).poisoned &&
    (walk u g.ctx (bitsOf b 54 0)).kind == .page && (poolRead u g.ctx (poolHdr s a.loc).map (n / 8) 1).2.testBit (n % 8)

def fg : Group := one [0x10000, 0x10140]

theorem meets_Free :
    (∃ c f s g ps, issues s g (.free c f) c [.src f.sa, .src f.sb] = true ∧ coverRelease s g = none ∧
      globPtrs (addrCtx s g) (pointers g c f) = .ok ps ∧
      found (checkLanes s g .atomic 1 false (ps.map fun x => (x.1, x.2, Target.glob (bitsOf x.2 54 0))))
        (fun s' l => releaseOk s' g.gid 4 s'.nextId && storesPlaced s' g.gid s'.nextId && l.length == 1 && l.all fun a => held s' g f a 1) = true) ∧
    (∃ (s : State) (l bl ml : Loc) (p : Word) (n : Nat), let h := poolHdr s l
      Memory.wf s = true ∧ blockOf h p = some n ∧ poolLoc s 1 h.base (n * 2 ^ (h.ctrl / 16 % 32)) = some bl ∧
      (∀ t : State, t.ctxs = s.ctxs → OnlyBytes s t [(bl, 8)] → poolLoc t 1 h.map (n / 8) = some ml) ∧
      (∀ j < 64, ∀ k < 8, l.plus j ≠ bl.plus k) ∧ (∀ j < 64, l.plus j ≠ ml) ∧ (∀ k < 8, ml ≠ bl.plus k)) :=
  ⟨⟨c0, { zm with sb := .a 1 }, pool fg 2 0, fg, [(0, 0x10000)], by decide +kernel, by decide +kernel, by decide +kernel, by decide +kernel⟩,
   ⟨pool fg 2 0, .dev 0x40000, .dev 0x40140, .dev 0x40200, 0x10140, 1, by decide +kernel, by decide +kernel, by decide +kernel,
    fun _ hc ho => (poolLoc_stays hc ho (by decide +kernel)).trans (by decide +kernel), by decide +kernel, by decide +kernel, by decide +kernel⟩⟩

/-- A handler's group, privileged, with a uniform value. -/
def pg (va : Nat) : Group := { one [] [BitVec.ofNat 128 va] with prv := true, hnd := true, tmk := true }

theorem meets_Invalidations :
    (∃ c f s g x, Acts s g (.tinv c f) c ∧ getCtx s g.ctx = some x ∧ coverRelease s g = none ∧ storesDone s g.gid = true ∧ g.wreason ≠ .pflt ∧
      f.imm16.toNat ≠ 0 ∧ Readable g [0] [.src f.sa] ∧ bitsOf ((argVal g 0 (.src f.sa)).setWidth 64) 63 55 = 0 ∧
      bitsOf ((argVal g 0 (.src f.sa)).setWidth 64) 54 16 + f.imm16.toNat ≤ 2 ^ 39 ∧
      invalidateReady s g.ctx (bitsOf ((argVal g 0 (.src f.sa)).setWidth 64) 54 16) f.imm16.toNat = true) ∧
    (∃ c f s g x, Acts s g (.tinv c f) c ∧ getCtx s g.ctx = some x ∧ coverRelease s g = none ∧ storesDone s g.gid = true ∧ g.wreason ≠ .pflt ∧
      f.imm16 = 0 ∧ invalidateReady s g.ctx 0 0 = true ∧ x.gen + 1 < 65536) ∧
    (∃ c f s g, Acts s g (.harvest c f) c ∧ coverRelease s g = none ∧ storesDone s g.gid = true ∧ Readable g [0] [.src f.sa] ∧
      Memory.wf s = true ∧ f.imm16 = 1 ∧ bitsOf ((argVal g 0 (.src f.sa)).setWidth 64) 63 55 = 0 ∧
      (walk s g.ctx (bitsOf ((argVal g 0 (.src f.sa)).setWidth 64) 54 16 * 65536)).kind = .page ∧
      lineQuiet s (walk s g.ctx (bitsOf ((argVal g 0 (.src f.sa)).setWidth 64) 54 16 * 65536)).at' 8 = true) ∧
    (∃ c f s g x, Acts s g (.icinv c f) c ∧ getCtx s g.ctx = some x ∧ coverRelease s g = none ∧ storesDone s g.gid = true ∧
      f.imm16.toNat ≠ 0 ∧ Readable g [0] [.src f.sa] ∧ bitsOf ((argVal g 0 (.src f.sa)).setWidth 64) 63 55 = 0 ∧
      bitsOf ((argVal g 0 (.src f.sa)).setWidth 64) 54 7 + f.imm16.toNat ≤ 2 ^ 48) ∧
    (∃ c f s g x, Acts s g (.icinv c f) c ∧ getCtx s g.ctx = some x ∧ coverRelease s g = none ∧ storesDone s g.gid = true ∧ f.imm16.toNat = 0) ∧
    (∃ s x, getCtx s 1 = some x ∧ (walk s 1 (4 * 65536)).kind = .page ∧ tlbFind s 1 0 none (4 * 65536) = none ∧ Memory.wf s = true ∧
      lineQuiet s (walk s 1 (4 * 65536)).at' 8 = true) :=
  ⟨⟨cu, { zs with sa := .g 0, imm16 := 2 }, world (pg 0x10000), pg 0x10000, _, And.intro (by decide +kernel) (by decide +kernel), rfl,
     by decide +kernel, by decide +kernel, by decide, by decide, by unfold Readable; decide +kernel, by decide +kernel, by decide +kernel, by decide +kernel⟩,
   ⟨cu, zs, world (pg 0x10000), pg 0x10000, _, And.intro (by decide +kernel) (by decide +kernel), rfl,
     by decide +kernel, by decide +kernel, by decide, rfl, by decide +kernel, by decide⟩,
   ⟨cu, { zs with sa := .g 0, imm16 := 1 }, world (pg 0x10000), pg 0x10000, And.intro (by decide +kernel) (by decide +kernel),
     by decide +kernel, by decide +kernel, by unfold Readable; decide +kernel, by decide +kernel, rfl, by decide +kernel, by decide +kernel⟩,
   ⟨cu, { zs with sa := .g 0, imm16 := 3 }, world (pg 0x10000), pg 0x10000, _, And.intro (by decide +kernel) (by decide +kernel), rfl,
     by decide +kernel, by decide +kernel, by decide, by unfold Readable; decide +kernel, by decide +kernel, by decide +kernel⟩,
   ⟨cu, zs, world (pg 0x10000), pg 0x10000, _, And.intro (by decide +kernel) (by decide +kernel), rfl, by decide +kernel, by decide +kernel, rfl⟩,
   ⟨world sg, _, rfl, by decide +kernel⟩⟩

/-! ### Gangs and the matrix engine -/

/-- The first of two groups of a team whose placement is of two. -/
def pair (s : State) : State := { s with teams := s.teams.map fun t => { t with hdr := 0x00000100022002A1 } }
def key1 : Gang :=
  { formed sg 5 1 1 with joined := 4, granted := true, members := [⟨1, 0, 0, false⟩] }
def ganged (g : Group) : Group := { g with gang := { joinedReg g 1 1 2 with seq := 0, done := 0 } }
def atGang (g : Group) (k : Gang) : State :=
  { on g with nextId := 9, gangs := [k], tiles := [{ cl := 0, eng := 0, z := 0, owner := some 5, lastCtx := some 1, words := [], lost := 0 }] }

/-- A trap of a member of a gang. -/
theorem meets_TrapInGang : ∃ c f s g k, Acts s g (.trap c f) c ∧ asWhole c g = true ∧ gangOf s g.gid = some k :=
  ⟨c0, { zs with imm16 := 7 }, atGang (ganged sg) key1, ganged sg, key1, And.intro (by decide +kernel) (by decide +kernel), by decide +kernel⟩

theorem meets_GangForms :
    (∃ c f s g, Acts s g (.gang c f) c ∧ MayJoin s g (bitsOf f.imm16 1 0) ∧ membersOf g (bitsOf f.imm16 1 0) = 2 ∧ s.gangs = []) ∧
    (∃ c f s g, Acts s g (.gang c f) c ∧ MayJoin s g (bitsOf f.imm16 1 0) ∧ membersOf g (bitsOf f.imm16 1 0) = 1 ∧ s.gangs = [] ∧
      ∀ z < 4, tileFree s g.cl (g.core / 2) z = true) ∧
    (∃ c f s g k, Acts s g (.gang c f) c ∧ MayJoin s g (bitsOf f.imm16 1 0) ∧ s.gangs = [k] ∧
      gangById s g (g.ident.gidx / membersOf g (bitsOf f.imm16 1 0)) = some k ∧ k.sz = bitsOf f.imm16 1 0 ∧
      k.own = BitVec.ofNat 4 (bitsOf f.imm16 7 4) ∧ k.granted = false ∧ k.broken = false ∧ (∀ m ∈ k.members, m.gid ≠ g.gid) ∧
      k.members.length + 1 ≠ k.size) :=
  ⟨⟨cu, { zs with imm16 := 0x12 }, pair (on sg), sg, And.intro (by decide +kernel) (by decide +kernel), by unfold MayJoin; decide +kernel, by decide +kernel⟩,
   ⟨cu, { zs with imm16 := 0x31 }, on sg, sg, And.intro (by decide +kernel) (by decide +kernel), by unfold MayJoin; decide +kernel, by decide +kernel⟩,
   let g : Group := { sg with ident := { sg.ident with ngrp := 4 } }
   let k : Gang := { formed g 5 3 1 with members := [⟨2, 1, 0, false⟩] }
   let s : State := { on g with teams := (on g).teams.map fun t => { t with hdr := 0x00000100032004A1 }, gangs := [k] }
   ⟨cu, { zs with imm16 := 0x13 }, s, g, k, And.intro (by decide +kernel) (by decide +kernel), by unfold MayJoin; decide +kernel, by decide +kernel⟩⟩

/-- R174: a kernel without gangs; a group in a gang; a gang of another size, formed and forming. -/
theorem meets_GangMismatches :
    let bare : State := { on sg with teams := (on sg).teams.map fun t => { t with hdr := 0 } }
    let f : SY := { zs with imm16 := 0x31 }
    let usable (s : State) (g : Group) : Bool := headerBit s g 5 && membersOf g 1 ≤ placementSize s g
    Acts bare sg (.gang cu f) cu ∧ usable bare sg = false ∧
    Acts (on (ganged sg)) (ganged sg) (.gang cu f) cu ∧ (ganged sg).st ≠ .waiting ∧ usable (on (ganged sg)) (ganged sg) = true ∧
    (∀ b ∈ [true, false], let k : Gang := { key1 with members := [⟨2, 0, 0, false⟩], granted := b }
      let s : State := { on sg with gangs := [k] }
      Acts s sg (.gang cu f) cu ∧ usable s sg = true ∧ sg.gang.gst = 0 ∧ gangById s sg (sg.ident.gidx / membersOf sg 1) = some k ∧
      (∀ m ∈ k.members, m.gid ≠ sg.gid) ∧ k.own.toNat ≠ bitsOf f.imm16 7 4) := by
  refine ⟨And.intro (by decide +kernel) (by decide +kernel), by decide +kernel, And.intro (by decide +kernel) (by decide +kernel),
    by decide, by decide +kernel, fun b hb => ?_⟩
  simp only [List.mem_cons, List.not_mem_nil, or_false] at hb
  rcases hb with rfl | rfl <;> exact ⟨And.intro (by decide +kernel) (by decide +kernel), by decide +kernel⟩

/-- R176, R179, R190: no gang, a broken gang, a tile that is not the gang's, and an MMA that differs from its operation. -/
theorem meets_EngineTraps :
    let acts (s : State) (g : Group) (i : Instr) (c : Ctl) : Bool := getGroup s s.cur == some g && issueTrap s g i c == none
    let x1 : MX := { zx with z := 1 }
    let f : MX := { zx with ta := 9, tb := 9, sb := .a 1, sc := .a 2, acc := true }
    let broken : Group := { ganged sg with gang := { (ganged sg).gang with gst := 3 } }
    let k3 : Gang := { key1 with broken := true }
    let o : JointOp := ⟨1, paramOf { f with acc := false }, [⟨1, [], [], []⟩], 0⟩
    let kd : Gang := { key1 with ops := [o] }
    acts (on sg) sg (.mmz cu zx) cu ∧ sg.gang.gst ≤ 1 ∧
    acts (atGang broken k3) broken (.mmz cu zx) cu ∧ gangOf (atGang broken k3) broken.gid = some k3 ∧
    acts (atGang (ganged sg) key1) (ganged sg) (.mmz cu x1) cu ∧ key1.own.getLsbD x1.z.toNat = false ∧
    acts (atGang (ganged sg) kd) (ganged sg) (.mma c0 f) c0 ∧ memberOf kd sg.gid = some ⟨1, 0, 0, false⟩ ∧ o.n = 0 + 1 ∧ o.param ≠ paramOf f := by
  decide +kernel

theorem meets_GangGrant : ∃ s k, s.gangs.find? (fun x => x.key == k.key) = some k ∧ grantable s k = true :=
  ⟨{ on sg with gangs := [{ key1 with granted := false }] }, { key1 with granted := false }, by decide +kernel⟩

theorem meets_GangLeaves :
    (∃ c f s g, Acts s g (.gangLeave c f) c ∧ g.gang.gst = 0) ∧
    (∃ c f s g k, Acts s g (.gangLeave c f) c ∧ g.gang.gst ≠ 0 ∧ ctlOf s g.gid = 0 ∧ gangOf s g.gid = some k ∧ s.gangs = [k] ∧
      k.ops = [] ∧ k.tileOps = []) ∧
    (∃ c f s g k o, Acts s g (.mmstat c f) c ∧ gangOf s g.gid = some k ∧ g.gang.done < 256 ∧ k.size = 2 ∧ k.ops = [o] ∧
      o.parts.length = 1 ∧ (∀ p ∈ o.parts, p.memb < 8)) :=
  ⟨⟨cu, zs, on sg, sg, And.intro (by decide +kernel) (by decide +kernel), by decide +kernel⟩,
   ⟨cu, zs, atGang (ganged sg) key1, ganged sg, key1, And.intro (by decide +kernel) (by decide +kernel), by decide +kernel⟩,
   let o : JointOp := ⟨1, ⟨0, 0, 0, 0, false, false⟩, [⟨0, [], [], []⟩], 0⟩
   let k : Gang := { key1 with size := 2, ops := [o] }
   ⟨cu, zs, atGang (ganged sg) k, ganged sg, k, o, And.intro (by decide +kernel) (by decide +kernel), by decide +kernel⟩⟩

theorem meets_Delivery :
    (∃ c f s g k m, Acts s g (.mma c f) c ∧ AtEngine s g f.z.toNat k m ∧ (∀ x ∈ k.members, x.left = false) ∧
      (∀ x ∈ k.members, m.delivered + 1 ≤ x.delivered + 4) ∧ (∀ o ∈ k.ops, o.n = m.delivered + 1 → o.param = paramOf f) ∧
      Readable g (parts c g) [.src f.sa, .src f.sb, .src f.sc] ∧ 6 ≤ f.ta.toNat) ∧
    (∃ c f s g k m, Acts s g (.mmz c f) c ∧ AtEngine s g f.z.toNat k m) ∧
    (∃ c f s g k m p q o mo, Acts s g (.mmst c f) c ∧ AtEngine s g f.z.toNat k m ∧ f.ta.toNat = 9 ∧ f.acc = false ∧
      Readable g [0] [.src f.sa, .src f.sb] ∧
      resolveSeg (addrCtx s g) ((argVal g 0 (.src f.sa)).setWidth 64) (31 * 16 + 16) = .ok p ∧
      resolveSeg (addrCtx s g) ((argVal g 0 (.src f.sb)).setWidth 64) (32 * 1 * 2) = .ok q ∧
      extentCheck (addrCtx s g) 32 f.ta.toNat f.acc 16 p q = .ok (o, mo)) ∧
    (∃ c f s g k m, Acts s g (.mmld c f) c ∧ AtEngine s g f.z.toNat k m ∧ f.acc = true) ∧
    (∃ c f s g k m, Acts s g (.mmrd c f) c ∧ AtEngine s g f.z.toNat k m ∧ parts c g ≠ []) ∧
    (∃ c f s g k m, Acts s g (.mmrd c f) c ∧ AtEngine s g f.z.toNat k m ∧ parts c g = []) :=
  let g : Group := ganged (one [1, 2, 3] [(ownScratch 0x1000).setWidth 128, (ownScratch 0x2000).setWidth 128])
  have e : AtEngine (atGang g key1) g 0 key1 ⟨1, 0, 0, false⟩ := by unfold AtEngine; decide +kernel
  ⟨⟨c0, { zx with ta := 9, tb := 9, sb := .a 1, sc := .a 2, acc := true }, atGang g key1, g, key1, ⟨1, 0, 0, false⟩,
      And.intro (by decide +kernel) (by decide +kernel), e, by decide +kernel, by decide +kernel, by decide +kernel,
      by unfold Readable; decide +kernel, by decide⟩,
   ⟨cu, zx, atGang g key1, g, key1, ⟨1, 0, 0, false⟩, And.intro (by decide +kernel) (by decide +kernel), e⟩,
   ⟨cu, { zx with sa := .g 0, sb := .g 1, ta := 9, imm16 := 16 }, atGang g key1, g, key1, ⟨1, 0, 0, false⟩, ownScratch 0x1000, ownScratch 0x2000,
      0x1000, 0x2000, And.intro (by decide +kernel) (by decide +kernel), e, by decide, rfl, by unfold Readable; decide +kernel,
      by decide +kernel, by decide +kernel, by decide +kernel⟩,
   ⟨cu, { zx with sa := .g 0, acc := true }, atGang g key1, g, key1, ⟨1, 0, 0, false⟩, And.intro (by decide +kernel) (by decide +kernel), e, rfl⟩,
   ⟨c0, zx, atGang g key1, g, key1, ⟨1, 0, 0, false⟩, And.intro (by decide +kernel) (by decide +kernel), e, by decide +kernel⟩,
   let h : Group := ganged noGuard
   ⟨gn, zx, atGang h key1, h, key1, ⟨1, 0, 0, false⟩, And.intro (by decide +kernel) (by decide +kernel), by unfold AtEngine; decide +kernel,
     by decide +kernel⟩⟩

theorem meets_JointOperation : ∃ s k o ti, s.gangs.find? (fun x => x.key == k.key) = some k ∧ nextJoint s k = some o ∧
    tileAt s k.cl k.eng o.param.z = some ti ∧ k.w * k.size ≤ 128 :=
  let o : JointOp := ⟨1, ⟨9, 9, 0, 0, true, false⟩, [⟨0, [], [], []⟩], 3⟩
  let k : Gang := { key1 with ops := [o] }
  ⟨atGang (ganged sg) k, k, o, _, by decide +kernel, by decide +kernel, rfl, by decide⟩

/-- A gang's tile operation may be performed. -/
def tileable (kind : TileKind) : Bool :=
  let u : TileOp := ⟨7, 1, 0, 0, 0, kind⟩
  let k : Gang := { key1 with tileOps := [u] }
  let s := atGang (ganged sg) k
  s.gangs.find? (fun x => x.key == k.key) == some k && k.tileOps.find? (fun x => x.id == u.id) == some u && tileReady s k u &&
    (tileAt s k.cl k.eng u.z).isSome && k.w * k.size ≤ 128 && Memory.wf s

theorem meets_TileOperations : tileable .mmz && tileable (.mmst (.scr 1 0 0x1000) (.scr 1 0 0) 0 true 512 1 0) &&
    tileable (.mmld (.scr 1 0 0x1000) (.scr 1 0 0) 1 false 64) && tileable (.mmld (.scr 1 0 0x1000) (.scr 1 0 0) 8 false 16) &&
    tileable (.mmst (.scr 1 0 0x1000) (.scr 1 0 0) 9 false 16 1 0) && tileable (.mmrd 3 [(0, 8)]) = true := by decide +kernel

/-- R183: codes and metadata that do not overlap. -/
theorem meets_TileBlocks : rowLength key1 9 false ≤ 16 ∧ key1.w * key1.size % 32 = 0 ∧
    ∀ i < 32, ∀ x < 16, ∀ y < 64, (Loc.scr 1 0 0x1000).plus (i * 16 + x) ≠ (Loc.scr 1 0 0).plus y := by
  refine ⟨by decide, by decide, fun i hi x hx y hy h => ?_⟩
  simp only [Loc.plus, Loc.scr.injEq, true_and] at h
  omega

/-! ### Copies -/

/-- Words of the team's scratchpad. -/
def wrs (s : State) (l : List (Nat × Nat)) : State :=
  l.foldl (fun s x => writeWord s (.scr 1 0 x.1) (BitVec.ofNat 64 x.2)) s
/-- A uniform file of scratch pointers. -/
def ug (offs : List Nat) : Group := one [] (offs.map fun o => (ownScratch o).setWidth 128)

theorem meets_NoLaneCopy : ∃ c f s g, Acts s g (.cpyl c f) c ∧ parts c g = [] :=
  ⟨gn, zc, on noGuard, noGuard, And.intro (by decide +kernel) (by decide +kernel), by decide +kernel⟩
theorem meets_LaneCopy : ∃ c f s g ts, let p : Word := (argVal g 0 (.src f.sb)).setWidth 64
    let u := touchImports s g [(ownScratch 0x100, 16), (ownScratch 0x200, 16)]
    Acts s g (.cpyl c f) c ∧ parts c g ≠ [] ∧ f.imm26.getLsbD 0 = true ∧ Readable g (parts c g) [.src f.sa, .src f.sb] ∧
    ccpOf s g.gid < 15 ∧ checkTargets u (addrCtx u g) (4 * 2 ^ bitsOf f.sub 1 0) [(0, ownScratch 0x100), (0, ownScratch 0x200)] = .ok ts ∧
    barPtrBad u g p = none ∧ HasRoom s g f.cq.toNat ∧ HasRoom { s with copies := List.replicate 31 (placedEntry s g f.cq.toNat (.join 1)) } g f.cq.toNat :=
  let g : Group := one [(ownScratch 0x100).setWidth 128 + (ownScratch 0x200).setWidth 128 * 2 ^ 64] [(ownScratch 0x400).setWidth 128]
  ⟨c0, { zc with sb := .g 0, sub := 14, cq := 3, imm26 := 1 }, on g, g, [(0, ownScratch 0x100, .scr 0 0x100), (0, ownScratch 0x200, .scr 0 0x200)], And.intro (by decide +kernel) (by decide +kernel), by decide +kernel,
    by decide, by unfold Readable; decide +kernel, by decide +kernel, by decide +kernel, by decide +kernel, by unfold HasRoom; decide +kernel,
    by unfold HasRoom; decide +kernel⟩

/-- A box of four elements of 4 bytes in one dimension. -/
def tg : Group := one [] [(ownScratch 0x1000).setWidth 128, (ownScratch 0x2000).setWidth 128 + 4 * 2 ^ 64, (ownScratch 0x3000).setWidth 128]
def tensorState : State := wrs (on tg) [(0x1000, 0x211), (0x1010, 3)]
def laidOut : Layout := layoutOf [0x211, 0, 3, 0, 0, 0, 0, 0]

/-- A record is read, and what is read meets `p`. -/
def recordRead (r : Except Out (State × List Word)) (p : State → List Word → Bool) : Bool := match r with | .ok x => p x.1 x.2 | .error _ => false
theorem recordRead_meets {r : Except Out (State × List Word)} {p : State → List Word → Bool} (h : recordRead r p = true) :
    ∃ s ws, r = .ok (s, ws) ∧ p s ws = true := by
  cases r with
  | ok x => exact ⟨x.1, x.2, rfl, h⟩
  | error o => cases h

theorem meets_TensorCopy : (∃ c f s g, Acts s g (.cpyt c f) c ∧ Readable g [0] [.src f.sa, .src f.sb, .src f.sc] ∧ ccpOf s g.gid < 15 ∧
      recordRead (readRecord (withGroup s (shut g)) (shut g) ((argVal g 0 (.src f.sa)).setWidth 64) 64 8) (fun s' ws =>
        let v := touchImports s' (shut g) [((argVal g 0 (.src f.sb)).setWidth 64, (layoutOf ws).esz), ((argVal g 0 (.src f.sc)).setWidth 64, 16)]
        layoutBad (layoutOf ws) == none && tensorBad v (addrCtx v g) (layoutOf ws)
          ((argVal g 0 (.src f.sb)).setWidth 64) ((argVal g 0 (.src f.sc)).setWidth 64) == none) = true ∧ HasRoom s g f.cq.toNat) ∧
    ∃ l : Layout, ∃ n j, n < l.rows ∧ j < l.row / l.esz ∧ ∃ p, (boxElement l 0 0 (fun _ => 4) (fun _ => 0) n j).src = some p :=
  ⟨⟨cu, { zc with sa := .g 0, sb := .g 1, sc := .g 2, sub := 8 }, tensorState, tg, And.intro (by decide +kernel) (by decide +kernel),
    by unfold Readable; decide +kernel, by decide +kernel, by decide +kernel, by unfold HasRoom; decide +kernel⟩,
    laidOut, 0, 3, by decide +kernel, by decide +kernel, 12, by decide +kernel⟩

/-- A copy of 4 bytes at the head of queue 0. -/
def copy1 (kind : CopyKind) (st : CopyState) : CopyRec := { placedEntry (on sg) sg 0 kind with id := 7, st, isLane := true }
def copying (c : CopyRec) : State := { on sg with copies := [c], nextId := 9 }
def move1 : Move := { dst := ownScratch 0x200, src := some (ownScratch 0x100), fill := [], n := 4 }

theorem meets_CopyControls :
    (∃ c f s g, Acts s g (.cpyfJoin c f) c ∧ ccpOf s g.gid < 15 ∧ s.nextId ≠ 0 ∧ ∀ q < 16, HasRoom s g q) ∧
    (∃ c f s g, Acts s g (.cpyfBar c f) c ∧ ccpOf s g.gid < 15 ∧ HasRoom s g f.cq.toNat ∧ f.imm26 = 0 ∧
      barPtrBad s g ((argVal g 0 (.src f.sa)).setWidth 64) = none ∧ Readable g [0] [.src f.sa]) ∧
    (∃ c f s g, Acts s g (.cpyfCring c f) c ∧ ccpOf s g.gid < 15 ∧ HasRoom s g f.cq.toNat ∧ bitsOf f.imm26 4 0 ≠ 0 ∧ Readable g [0] [.src f.sa]) ∧
    (∃ c f s g, Acts s g (.cpyfBar c f) c ∧ ccpOf s g.gid < 15 ∧ HasRoom s g f.cq.toNat ∧ f.imm26 ≠ 0) ∧
    (∃ c f s g, Acts s g (.cpyrResume c f) c ∧ ccpOf s g.gid < 15 ∧ g.area = none ∧ (entriesOf s g.ctx g.rank f.cq.toNat).head? = none) ∧
    (∃ c f s g x, Acts s g (.cpyrResume c f) c ∧ ccpOf s g.gid < 15 ∧ g.area = none ∧ (entriesOf s g.ctx g.rank f.cq.toNat).head? = some x ∧
      x.st = .faulted) ∧
    (∃ c f s g x, Acts s g (.cpyrSkip c f) c ∧ ccpOf s g.gid < 15 ∧ g.area = none ∧ (entriesOf s g.ctx g.rank f.cq.toNat).head? = some x ∧ x.st = .faulted) :=
  ⟨⟨cu, { zc with imm26 := 3 }, on sg, sg, And.intro (by decide +kernel) (by decide +kernel), by decide +kernel, by decide +kernel,
      by unfold HasRoom; decide +kernel⟩,
   ⟨cu, { zc with sa := .g 0, sub := 1 }, on (ug [0x400]), ug [0x400], And.intro (by decide +kernel) (by decide +kernel), by decide +kernel,
      by unfold HasRoom; decide +kernel, by decide, by decide +kernel, by unfold Readable; decide +kernel⟩,
   ⟨cu, { zc with sa := .g 0, sub := 2, imm26 := 4 }, on (ug [0x400]), ug [0x400], And.intro (by decide +kernel) (by decide +kernel), by decide +kernel,
      by unfold HasRoom; decide +kernel, by decide, by unfold Readable; decide +kernel⟩,
   ⟨cu, { zc with sub := 1, imm26 := 1 }, on sg, sg, And.intro (by decide +kernel) (by decide +kernel), by decide +kernel,
      by unfold HasRoom; decide +kernel, by decide⟩,
   ⟨cu, zc, on sg, sg, And.intro (by decide +kernel) (by decide +kernel), by decide +kernel, rfl, by decide +kernel⟩,
   ⟨cu, zc, copying (copy1 (.moves []) .faulted), sg, copy1 (.moves []) .faulted, And.intro (by decide +kernel) (by decide +kernel),
      by decide +kernel, rfl, by decide +kernel, rfl⟩,
   ⟨cu, { zc with sub := 1 }, copying (copy1 (.moves []) .faulted), sg, copy1 (.moves []) .faulted, And.intro (by decide +kernel) (by decide +kernel),
      by decide +kernel, rfl, by decide +kernel, rfl⟩⟩

/-- The line operation may go, or faults. -/
def placed (r : LineOut) (p : State → List Placed → Bool) : Bool := match r with | .go s ps => p s ps | _ => false
def faulted (r : LineOut) (p : State → Bool) : Bool := match r with | .fault s _ _ => p s | _ => false

theorem meets_CopyLines :
    (∃ s c l, AtHead s 7 c ∧ c.st = .queued ∧ c.kind = .moves l ∧ acquiresDone s c.gid c.op = true ∧ c.rel = true ∧
      releaseOk s c.gid c.scope c.op = true ∧ storesPlaced s c.gid c.op = true) ∧
    (∃ s c, AtHead s 7 c ∧ c.st = .queued ∧ c.kind = .bindBar none) ∧
    (∃ s ac now rest, nextLine s ac [move1, { move1 with dst := ownScratch 0x300 }] = (now, rest) ∧ rest ≠ []) ∧
    (∃ s c l now rest, AtHead s 7 c ∧ c.st = .running ∧ c.kind = .moves l ∧ nextLine s c.actx l = (now, rest) ∧
      placed (placeMoves s c.actx none 0 now) (fun s' ps => Memory.wf s' && ps.length == 1 && ps.all fun p => p.src.isSome &&
        (match p.dst, p.src with | .scr .., some (.scr ..) => true | _, _ => false)) = true) ∧
    (∃ s c l now rest g, AtHead s 7 c ∧ c.st = .running ∧ c.kind = .moves l ∧ nextLine s c.actx l = (now, rest) ∧ c.isLane = true ∧
      c.counts = true ∧ faulted (placeMoves s c.actx none 0 now) (fun s' => (cqueueOf s' c.ctx c.rank c.q).qring.isNone && getGroup s' c.gid == some g) = true) :=
  ⟨⟨copying { copy1 (.moves [move1]) .queued with rel := true }, { copy1 (.moves [move1]) .queued with rel := true }, [move1],
      by unfold AtHead; decide +kernel, rfl, rfl, by decide +kernel⟩,
   ⟨copying (copy1 (.bindBar none) .queued), copy1 (.bindBar none) .queued, by unfold AtHead; decide +kernel, rfl, rfl⟩,
   ⟨on sg, addrCtx (on sg) sg, [move1], [{ move1 with dst := ownScratch 0x300 }], by decide +kernel⟩,
   ⟨copying (copy1 (.moves [move1]) .running), copy1 (.moves [move1]) .running, [move1], [move1], [], by unfold AtHead; decide +kernel, rfl, rfl,
      by decide +kernel⟩,
   let m : Move := { move1 with dst := ownScratch 0x200000 }
   ⟨copying (copy1 (.moves [m]) .running), copy1 (.moves [m]) .running, [m], [m], [], sg, by unfold AtHead; decide +kernel, rfl, rfl, by decide +kernel⟩⟩

/-- An engine's access to a scratchpad changes nothing. -/
theorem engineLoc_scr {s : State} {ac : AddrCtx} {need : Need} {p : Word} {n r o : Nat} (h : ptrSpace p = 1)
    (ht : engineTarget s ac p n = .ok (.scr r o)) (hp : isPoisoned s (.scr ac.ctx r o) n = false) :
    engineLoc s ac need p n = (s, .ok (.scr ac.ctx r o)) := by
  have hs : touchImport s ac p n = s := by simp [touchImport, resolveSeg, h]
  unfold engineLoc
  simp only [hs, ht, hp]
  rfl

theorem meets_CopyEnds :
    (∃ s c g, AtHead s 7 c ∧ c.st = .moved ∧ c.bar = false ∧ c.record = false ∧ Reportable s c g ∧ c.token = some (1, 8)) ∧
    (∃ s c g p n ac l, AtHead s 7 c ∧ c.st = .moved ∧ c.bar = false ∧ c.record = true ∧ c.q < 16 ∧
      (cqueueOf s c.ctx c.rank c.q).qring = some (p, n, ac) ∧ engineLoc s ac .store (ptrAdd p 0) 16 = (s, .ok l) ∧
      (∀ d x e k o, l ≠ .peer d x e k o) ∧ Memory.wf s = true ∧ engineWay s l = .open' ∧ lineQuiet s l 16 = true ∧ Reportable s c g) ∧
    (∃ s c g q l, AtHead s 7 c ∧ c.st = .moved ∧ c.bar = true ∧ c.record = false ∧ c.token = none ∧ c.ownBar = some q ∧
      engineLoc s c.actx .store q 32 = (s, .ok l) ∧ lineQuiet s l 32 = true ∧
      getGroup (countBar s c.ctx l c.counted) c.gid = some g ∧ g.area = none) ∧
    (∃ s c, s.copies.find? (fun x => x.id == 7) = some c ∧ c.kind = .join 1 ∧ s.copies = [c] ∧ AtHead s 7 c) :=
  let r : State := { copying { copy1 (.moves []) .moved with record := true } with
    cqueues := [{ cqueueOf (on sg) 1 0 0 with qring := some (ownScratch 0x1000, 3, addrCtx (on sg) sg) }] }
  let b : CopyRec := { copy1 (.moves []) .moved with bar := true, ownBar := some (ownScratch 0x400) }
  ⟨⟨copying { copy1 (.moves []) .moved with token := some (1, 8) }, { copy1 (.moves []) .moved with token := some (1, 8) }, sg,
      by unfold AtHead; decide +kernel, rfl, rfl, rfl, ⟨by decide +kernel, nofun, rfl, fun _ => rfl, by rintro k ⟨⟩; rfl⟩, rfl⟩,
   ⟨r, { copy1 (.moves []) .moved with record := true }, sg, ownScratch 0x1000, 3, addrCtx (on sg) sg, .scr 1 0 0x1000, by unfold AtHead; decide +kernel,
      rfl, rfl, rfl, by decide, by decide +kernel, engineLoc_scr (by decide) (by decide +kernel) (by decide +kernel), nofun, by decide +kernel, by decide +kernel, by decide +kernel, ⟨by decide +kernel, nofun, rfl, nofun, nofun⟩⟩,
   ⟨copying b, b, sg, ownScratch 0x400, .scr 1 0 0x400, by unfold AtHead; decide +kernel, rfl, rfl, rfl, rfl, rfl, engineLoc_scr (by decide) (by decide +kernel) (by decide +kernel), by decide +kernel, by decide +kernel, rfl⟩,
   ⟨copying (copy1 (.join 1) .queued), copy1 (.join 1) .queued, by decide +kernel, rfl, rfl, by unfold AtHead; decide +kernel⟩⟩

/-! ### Rings -/

def ring1 : Loc := .scr 1 0 0x1000
/-- A ring of 16 granules: its state, the counters and holders of the producer's and the consumer's side. -/
def ringed (g : Group) (state claim vtail await head phold chold : Nat) : State :=
  { wrs (on g) [(0x1000, 0x41 + 256 * state), (0x1008, claim + 2 ^ 32 * vtail), (0x1010, await + 2 ^ 32 * head), (0x1018, phold + 2 ^ 32 * chold),
      (0x800, (ownScratch 0x900).toNat), (0x808, 0x10000), (0x810, 16), (0x830, 1 + 2 * 2 ^ 32), (0x900, 0x211), (0x910, 15)] with
    rings := [ring1], nextId := 20 }
/-- The ring's pointer, a span of 2 granules from granule 0, a descriptor. -/
def rg : Group := one [] [(ownScratch 0x1000).setWidth 128, 2 * 2 ^ 32, (ownScratch 0x800).setWidth 128]
def own1 : Nat := 2 ^ 30 + 1
def zr : CP := { zc with sa := .g 0 }

/-- The instruction acts on the ring. -/
def onRing (s : State) (i : Instr) (f : CP) (more : List Arg) : Prop :=
  Acts s rg i cu ∧ Readable rg [0] (.src f.sa :: more) ∧ ringAt s rg (operand rg f.sa) = .ok ring1 ∧ ringMalformed s ring1 = false ∧
    objectReady s rg.gid ring1 64 = true ∧ Memory.wf s = true

theorem onRing_meets {s : State} {i : Instr} {f : CP} {more : List Arg} (h : onRing s i f more) :
    Acts s rg i cu ∧ NamesRing s rg f more ring1 := ⟨h.1, h.2.1, h.2.2.1, h.2.2.2.1, ⟨h.2.2.2.2.1, 1, 0, 0x1000, rfl, .inl rfl⟩, h.2.2.2.2.2⟩

/-- The ring's consumer side is held by a second team. -/
def otherHolds : State := { ringed rg 0 0 0 0 0 0 (2 ^ 30 + 2) with
  teams := (on rg).teams ++ (on rg).teams.map fun t => { t with no := 2 } }

theorem meets_ClaimsAndAwaits :
    (∃ s f, onRing s (.rclm cu f) f [] ∧ ringState s ring1 = 3) ∧
    (∃ s f, onRing s (.rclm cu f) f [] ∧ ringState s ring1 ≠ 3 ∧ ringState s ring1 ≠ 0) ∧
    (∃ s f, onRing s (.rclm cu f) f [] ∧ ringState s ring1 = 0 ∧ ringSize s ring1 < bitsOf f.imm26 8 0) ∧
    (∃ s f, onRing s (.rawt cu f) f [] ∧ ringState s ring1 = 0 ∧ bitsOf f.imm26 16 0 = ringSize s ring1 ∧ SideTaken s ring1 (ringChold s ring1) own1) ∧
    (∃ s f, onRing s (.rawt cu f) f [] ∧ ringState s ring1 = 2 ∧ bitsOf f.imm26 16 0 ≤ ringSize s ring1 ∧ ¬ SideTaken s ring1 (ringChold s ring1) own1) ∧
    (∃ s f, onRing s (.rclm cu f) f [] ∧ ringState s ring1 = 0 ∧ bitsOf f.imm26 8 0 ≤ ringSize s ring1 ∧ ¬ SideTaken s ring1 (ringPhold s ring1) own1) := by
  refine ⟨⟨ringed rg 3 0 0 0 0 0 0, { zr with imm26 := 2 }, ?_⟩, ⟨ringed rg 1 0 0 0 0 0 0, { zr with imm26 := 2 }, ?_⟩,
    ⟨ringed rg 0 0 0 0 0 0 0, { zr with imm26 := 17 }, ?_⟩, ⟨otherHolds, { zr with imm26 := 16 }, ?_⟩,
    ⟨ringed rg 2 0 0 0 0 0 0, { zr with imm26 := 1 }, ?_⟩, ⟨ringed rg 0 0 0 0 0 own1 0, { zr with imm26 := 16 }, ?_⟩⟩ <;>
  unfold onRing Acts Readable <;> (try unfold SideTaken) <;> decide +kernel

theorem meets_CommitsAndReturns :
    (∃ s f, onRing s (.rcmt cu f) f [.src f.sb] ∧ ringState s ring1 = 3) ∧
    (∃ s f, let sp := spanIn (argVal rg 0 (.src f.sb))
      onRing s (.rcmt cu f) f [.src f.sb] ∧ ringState s ring1 ≠ 3 ∧ releaseOut s rg 4 = none ∧ ringPhold s ring1 = own1 ∧ sp.k ≠ 0 ∧ sp.start = 0 ∧
      ringVtail s ring1 = 0 ∧ sp.k ≤ 256 ∧ sp.k ≤ ringClaim s ring1 ∧ ringCmap s ring1 = 0 ∧ s.ringWaits = []) ∧
    (∃ s f, onRing s (.rcmt cu f) f [.src f.sb] ∧ ringState s ring1 ≠ 3 ∧ ringPhold s ring1 ≠ own1) ∧
    (∃ s f, let sp := spanIn (argVal rg 0 (.src f.sb))
      onRing s (.rret cu f) f [.src f.sb] ∧ ringState s ring1 = 1 ∧ releaseOut s rg 4 = none ∧ sp.start = ringHead s ring1 ∧
      sp.k ≤ (ringAwait s ring1 + 2 ^ 32 - ringHead s ring1) % 2 ^ 32 ∧ ringAwait s ring1 ≠ ringHead s ring1 ∧ s.ringWaits = [] ∧
      bitsOf (argVal rg 0 (.src f.sb)) 63 56 = 0 ∧ s.subs = []) ∧
    (∃ s f, onRing s (.rret cu f) f [.src f.sb] ∧ ringState s ring1 = 3) ∧
    (∃ s f, onRing s (.rret cu f) f [.src f.sb] ∧ ringState s ring1 ≠ 3 ∧ ringAwait s ring1 = ringHead s ring1) ∧
    (∃ s f, onRing s (.rclose cu f) f [] ∧ ringState s ring1 = 3) ∧
    (∃ s f, onRing s (.rclose cu f) f [] ∧ ringState s ring1 ≠ 3) ∧
    (∃ s f, onRing s (.rcmtQ cu f) f [.src f.sb] ∧ ringState s ring1 = 3) ∧
    (∃ s f, onRing s (.rcmtQ cu f) f [.src f.sb] ∧ ringState s ring1 ≠ 3 ∧ releaseOut s rg 3 = none ∧ HasRoom s rg f.cq.toNat) := by
  refine ⟨⟨ringed rg 3 0 0 0 0 0 0, { zr with sb := .g 1 }, ?_⟩, ⟨ringed rg 0 4 0 0 0 own1 0, { zr with sb := .g 1 }, ?_⟩,
    ⟨ringed rg 0 4 0 0 0 0 0, { zr with sb := .g 1 }, ?_⟩, ⟨ringed rg 1 4 4 2 0 0 own1, { zr with sb := .g 1 }, ?_⟩,
    ⟨ringed rg 3 4 4 2 0 0 own1, { zr with sb := .g 1 }, ?_⟩, ⟨ringed rg 0 4 4 0 0 0 own1, { zr with sb := .g 1 }, ?_⟩,
    ⟨ringed rg 3 4 4 2 0 0 0, zr, ?_⟩, ⟨ringed rg 0 4 4 2 0 0 0, zr, ?_⟩, ⟨ringed rg 3 4 0 0 0 own1 0, { zr with sb := .g 1, sub := 3 }, ?_⟩,
    ⟨ringed rg 0 4 0 0 0 own1 0, { zr with sb := .g 1, sub := 3 }, ?_⟩⟩ <;>
  unfold onRing Acts Readable <;> (try unfold HasRoom) <;> decide +kernel

theorem meets_RingInit : ∃ s f, Acts s rg (.rinit cu f) cu ∧ Readable rg [0] [.src f.sa] ∧ ringAt s rg (operand rg f.sa) = .ok ring1 ∧
    Memory.wf s = true ∧ areaBad s rg ring1 (operand rg f.sa) (2 ^ bitsOf f.imm26 3 0) = none ∧
    objectReady s rg.gid ring1 64 = true ∧ ring1 = .scr 1 rg.rank 0x1000 ∧ s.ringWaits = [] ∧ s.subs = [] ∧ s.copies = [] :=
  ⟨on rg, { zr with imm26 := 4 }, And.intro (by decide +kernel) (by decide +kernel), by unfold Readable; decide +kernel, by decide +kernel⟩

theorem meets_Subscribe : ∃ s f n, onRing s (.rsub cu f) f [.src f.sb] ∧ s.rings.contains ring1 = true ∧ ringState s ring1 ≠ 3 ∧
    recordRead (readRecord (withGroup s (shut rg)) (shut rg) (operand rg f.sb) 8 8) (fun s1 d => bitsOf ((d[0]?).getD 0) 5 0 == 0 &&
      recordRead (readRecord s1 (shut rg) ((d[0]?).getD 0) 64 8) (fun s2 ws =>
        !subBad s2 ring1 (makeSub s2 (shut rg) true ring1 (operand rg f.sa) d (layoutOf ws)) d && !holderLive s2 ring1 (ringPhold s2 ring1) &&
        freeSlot s2 (clusterOf s2 ring1 / 24) true == some n && Memory.wf s2)) = true := by
  refine ⟨ringed rg 0 0 0 0 0 0 0, { zr with sb := .g 2 }, 0, ?_⟩
  unfold onRing Acts Readable
  decide +kernel

def wait1 (kind : RingWaitKind) : RingWait :=
  { id := 7, gid := 1, teamNo := 1, ring := ring1, ptr := ownScratch 0x1000, kind, span := { start := 2, k := 2 } }
def waiting (s : State) (kind : RingWaitKind) : State := { s with ringWaits := [wait1 kind] }

theorem meets_RingWaits :
    (∃ s, Waits s (wait1 .claim) .claim rg ∧ (4 + 2 ^ 32 - ringHead s ring1) % 2 ^ 32 ≤ ringSize s ring1 ∧
      (4 + 2 ^ 32 - ringVtail s ring1) % 2 ^ 32 ≤ 256) ∧
    (∃ s, Waits s (wait1 .await) .await rg ∧ 0 ≤ sxNat 32 ((ringVtail s ring1 + 2 ^ 32 - 4 % 2 ^ 32) % 2 ^ 32)) ∧
    (∃ s, Waits s (wait1 .await) .await rg ∧ sxNat 32 ((ringVtail s ring1 + 2 ^ 32 - 4 % 2 ^ 32) % 2 ^ 32) < 0 ∧ ringState s ring1 ≠ 0 ∧
      ringVtail s ring1 = ringClaim s ring1) := by
  refine ⟨⟨waiting (ringed rg 0 4 2 0 0 own1 0) .claim, ?_⟩, ⟨waiting (ringed rg 0 4 4 4 0 own1 own1) .await, ?_⟩,
    ⟨waiting (ringed rg 1 3 3 4 2 own1 own1) .await, ?_⟩⟩ <;>
  unfold Waits Receives <;> decide +kernel

theorem meets_QueuedCommit : ∃ s c g p sp, AtHead s 7 c ∧ c.kind = .commit ring1 p 1 sp 8 ∧ getGroup s c.gid = some g ∧ Receives g 8 ∧ ringMalformed s ring1 = false ∧ Memory.wf s = true ∧ s.rings.contains ring1 = true ∧ ringState s ring1 ≠ 3 ∧
    commitOk s ring1 (2 ^ 30 + 1) sp = true :=
  let c : CopyRec := { placedEntry (on rg) rg 0 (.commit ring1 (ownScratch 0x1000) 1 ⟨0, 2⟩ 8) with id := 7 }
  ⟨{ ringed rg 0 4 0 0 0 own1 0 with copies := [c] }, c, rg, _, ⟨0, 2⟩, by unfold AtHead; decide +kernel, rfl, by decide +kernel, by unfold Receives; decide +kernel, by decide +kernel⟩

/-- One that its ring refuses: nothing is claimed. -/
theorem meets_QueuedCommitFails : ∃ s c g p sp, AtHead s 7 c ∧ c.kind = .commit ring1 p 1 sp 8 ∧ getGroup s c.gid = some g ∧ Receives g 8 ∧ ringMalformed s ring1 = false ∧ Memory.wf s = true ∧ s.rings.contains ring1 = true ∧ commitOk s ring1 (2 ^ 30 + 1) sp = false :=
  let c : CopyRec := { placedEntry (on rg) rg 0 (.commit ring1 (ownScratch 0x1000) 1 ⟨0, 2⟩ 8) with id := 7 }
  ⟨{ ringed rg 0 0 0 0 0 own1 0 with copies := [c] }, c, rg, _, ⟨0, 2⟩, by unfold AtHead; decide +kernel, rfl, by decide +kernel, by unfold Receives; decide +kernel, by decide +kernel⟩

/-- A subscription of boxes of one granule. -/
def sub1 (load : Bool) (claim : Option Nat) (done : Nat) : Sub :=
  { makeSub (ringed rg 0 0 0 0 0 0 0) rg load ring1 (ownScratch 0x1000) [ownScratch 0x900, 0x10000, 16, 0, 0, 0, 0x200000001, 0]
      (layoutOf [0x211, 0, 15, 0, 0, 0, 0, 0]) with id := 7, pend := 8, claim, done }
def subbed (s : State) (x : Sub) : State := { s with subs := [x] }
/-- The box of the subscription is moved. -/
def boxed (s : State) (x : Sub) (start : Nat) (p : State → Bool) : Bool := match subBox s x start with | .done s' => p s' | _ => false

theorem meets_Loader :
    (∃ s x, Subscribed s x true ∧ x.claim = none ∧ ringState s x.ring = 0) ∧
    (∃ s x, Subscribed s x true ∧ x.claim = none ∧ ringState s x.ring ≠ 0 ∧ getGroup s x.gid = some rg ∧ Receives rg x.pend) ∧
    (∃ s x, Subscribed s x true ∧ x.claim = some 0 ∧ claimFits s x.ring { start := 0, k := x.k } = true ∧ x.done + 1 ≠ x.count ∧
      boxed s x 0 (fun s' => Memory.wf s' && s'.subs == s.subs && (0 + 2 ^ 32 - ringVtail s' x.ring) % 2 ^ 32 + x.k ≤ 256) = true) ∧
    (∃ s x, Subscribed s x true ∧ x.claim = some 0 ∧ claimFits s x.ring { start := 0, k := x.k } = true ∧ x.done + 1 = x.count ∧
      boxed s x 0 (fun s' => Memory.wf s' && s'.subs == s.subs && getGroup s' x.gid == some rg && ringState s' x.ring == 0) = true ∧ Receives rg x.pend) := by
  refine ⟨⟨subbed (ringed rg 0 0 0 0 0 (2 ^ 31) 0) (sub1 true none 0), sub1 true none 0, ?_⟩,
    ⟨subbed (ringed rg 1 0 0 0 0 (2 ^ 31) 0) (sub1 true none 0), sub1 true none 0, ?_⟩,
    ⟨subbed (ringed rg 0 1 0 0 0 (2 ^ 31) 0) (sub1 true (some 0) 0), sub1 true (some 0) 0, ?_⟩,
    ⟨subbed (ringed rg 0 1 0 0 0 (2 ^ 31) 0) (sub1 true (some 0) 1), sub1 true (some 0) 1, ?_⟩⟩ <;>
  refine And.intro ⟨by decide +kernel, by decide +kernel, by decide +kernel, by decide +kernel, by decide +kernel, by decide +kernel,
    ⟨1, 0, 0x1000, rfl⟩, by decide +kernel⟩ (by (try unfold Receives); decide +kernel)

theorem meets_Storer :
    (∃ s x, Subscribed s x false ∧ x.claim = none) ∧
    (∃ s x, Subscribed s x false ∧ x.claim = some 0 ∧ awaitDone s x.ring { start := 0, k := x.k } = some none ∧ x.done + 1 ≠ x.count ∧
      boxed s x 0 (fun s' => Memory.wf s' && s'.subs == s.subs) = true) ∧
    (∃ s x, Subscribed s x false ∧ x.claim = some 0 ∧ awaitDone s x.ring { start := 0, k := x.k } = some (some 0) ∧
      getGroup s x.gid = some rg ∧ Receives rg x.pend) := by
  refine ⟨⟨subbed (ringed rg 0 1 1 0 0 0 (3 * 2 ^ 30)) (sub1 false none 0), sub1 false none 0, ?_⟩,
    ⟨subbed (ringed rg 0 1 1 1 0 0 (3 * 2 ^ 30)) (sub1 false (some 0) 0), sub1 false (some 0) 0, ?_⟩,
    ⟨subbed (ringed rg 1 0 0 1 0 0 (3 * 2 ^ 30)) (sub1 false (some 0) 0), sub1 false (some 0) 0, ?_⟩⟩ <;>
  refine And.intro ⟨by decide +kernel, by decide +kernel, by decide +kernel, by decide +kernel, by decide +kernel, by decide +kernel,
    ⟨1, 0, 0x1000, rfl⟩, by decide +kernel⟩ (by (try unfold Receives); decide +kernel)

/-! ### Barriers -/

/-- A barrier's words: level, bit 7 with a parent, state, target, phase, arrivals, words expected, parent. -/
def barWords (at' level hasp state target ph arr expw parent : Nat) : List (Nat × Nat) :=
  [(at', 1 + 16 * level + 128 * hasp + 256 * state + 2 ^ 24 * target), (at' + 8, ph + 2 ^ 32 * arr), (at' + 16, expw), (at' + 24, parent)]

/-- A team barrier in the scratchpad at 0x2000 and a device barrier at 0x10040 of the address space. -/
def barred (g : Group) (team dev : List (Nat × Nat)) : State := wrs (wr (world g) dev) team
def bg : Group := one [] [(ownScratch 0x2000).setWidth 128, (ownScratch 0x2000).setWidth 128 * 2 ^ 64 + 5, 0x10040, 0x10041]
def bar1 : Loc := .scr 1 0 0x2000
def dbar : Loc := .dev 0x40040

/-- No entry waits on a barrier, and no save record lies in memory. -/
def settled (s : State) : Bool := s.barWaits == [] && s.groups.all fun k => k.area.isNone
theorem settled_meets {s : State} (h : settled s = true) : NoneSaved s := by
  simp only [settled, Bool.and_eq_true, beq_iff_eq, List.all_eq_true, Option.isNone_iff_eq_none] at h
  exact fun k hk => ⟨h.2 k hk, fun w hw => by rw [h.1] at hw; cases hw⟩

/-- The operand names an object with what `p` says. -/
def namesBar (s : State) (g : Group) (f : CP) (more : List Arg) (level : Option Nat) (p : State → Loc → Bool) : Bool :=
  argPends g [0] (.src f.sa :: more) == [] && match barLoc (withGroup s (shut g)) (shut g) (operand g f.sa) level with
    | .at' s' b => Memory.wf s' && settled s' && objectMayGo s' g.gid b 32 && (match b with | .dev _ | .scr .. => true | _ => false) && p s' b
    | _ => false

theorem namesBar_meets {s : State} {g : Group} {f : CP} {more : List Arg} {level : Option Nat} {p : State → Loc → Bool}
    (h : namesBar s g f more level p = true) : ∃ s' b, NamesBar s g f more level s' b ∧ p s' b = true := by
  simp only [namesBar, Bool.and_eq_true, beq_iff_eq] at h
  obtain ⟨hr, h⟩ := h
  split at h
  · rename_i s' b hb
    simp only [Bool.and_eq_true] at h
    obtain ⟨⟨⟨⟨hw, hn⟩, ho⟩, hl⟩, hp⟩ := h
    refine ⟨s', b, ⟨hr, hb, ho, hw, ?_, settled_meets hn⟩, hp⟩
    cases b with
    | dev a => exact .inl ⟨a, rfl⟩
    | scr c r o => exact .inr ⟨c, r, o, rfl⟩
    | host a => cases hl
    | peer d c e k o => cases hl
  · cases h

theorem meets_BarrierInit :
    let init (n : Nat) (s : State) (f : CP) (level : Nat) (more : List Arg) (p : State → Loc → Bool) : Prop :=
      Acts s bg (.binit cu f) cu ∧ bitsOf f.imm26 19 0 = n ∧ namesBar s bg f more (some level) (fun s' b =>
        !(barState s' b == 1 && ctrlUp (barCtrl s' b)) && p (dismissed s' b) b) = true
    (∃ s f, init 0 s f 0 [] fun _ _ => true) ∧
    (∃ s f, init 9 s f 1 [] fun u b => slotFree u b 1 0 == false) ∧
    (∃ s f, init 9 s f 0 [.src f.sb] fun u _ => goodParent u (shut bg) 0 (operand bg f.sb) == none) ∧
    (∃ s f, init 9 s f 0 [.src f.sb] fun u _ => goodParent u (shut bg) 0 (operand bg f.sb) == some (dbar, 0x10040)) := by
  refine ⟨⟨barred bg [] [], { zr with sub := 0 }, ?_⟩,
    ⟨{ barred bg [] [] with combiners := List.replicate 256 { bar := .dev 0, ctx := 1, bent := some 0, die := 0 } },
      { zr with sa := .g 2, sub := 1, imm26 := 9 }, ?_⟩,
    ⟨barred bg [] [], { zr with sb := .g 3, sub := 4, imm26 := 9 }, ?_⟩,
    ⟨barred bg [] (barWords 0x40040 2 0 1 2 0 0 0 0), { zr with sb := .g 2, sub := 4, imm26 := 9 }, ?_⟩⟩ <;>
  unfold Acts <;> decide +kernel

/-- The team barrier, with the team that ran its BINIT. -/
def madeBy (no : Nat) (ws : List (Nat × Nat)) : State :=
  { barred bg ws [] with bteams := [(bar1, 1, no, (teamKey (on bg) bg).2.2)] }
def member (s : State) (b : Loc) : Bool := match s.bteams.find? fun x => x.1 == b with | some x => x.2 == teamKey s bg | none => true
theorem member_meets {s : State} (h : member s bar1 = true) : Participates s bg bar1 := by
  intro x hx
  simpa [member, hx] using h
def alone (s : State) (b : Loc) : Bool := !ctrlHasp (barCtrl s b) && s.raised == [] && s.releases == [] && s.upward == []
theorem alone_meets {s : State} {b : Loc} (h : alone s b = true) : Alone s b := by
  simp only [alone, Bool.and_eq_true, Bool.not_eq_true', beq_iff_eq] at h
  obtain ⟨⟨⟨h1, h2⟩, h3⟩, h4⟩ := h
  exact ⟨h1, (fun r hr => by rw [h2] at hr; cases hr), (fun r hr => by rw [h3] at hr; cases hr), fun x hx => by rw [h4] at hx; cases hx⟩

theorem meets_Arrivals :
    let arrive (i : CP → Instr) (s : State) (f : CP) (p : State → Loc → Bool) : Prop :=
      Acts s bg (i f) cu ∧ namesBar s bg f [] none (fun s' b => !barMalformed s' b && b == bar1 && p s' b) = true
    let n (f : CP) : Nat := bitsOf f.imm26 15 0
    (∃ s f, arrive (.barv cu) s f fun s' b => barState s' b == 0) ∧
    (∃ s f, arrive (.barv cu) s f fun s' b => barState s' b == 1 && !member s' b) ∧
    (∃ s f, arrive (.barw cu) s f fun s' b => barState s' b == 2 && member s' b) ∧
    (∃ s f, arrive (.barw cu) s f fun s' b => barState s' b == 1 && member s' b && !ctrlUp (barCtrl s' b) &&
      barArrived s' b + n f == ctrlTarget (barCtrl s' b) && (releaseOut s' (shut bg) 2).isNone && alone s' b) ∧
    (∃ s f, arrive (.barw cu) s f fun s' b => barState s' b == 1 && member s' b && !ctrlUp (barCtrl s' b) &&
      barArrived s' b + n f < ctrlTarget (barCtrl s' b) && (releaseOut s' (shut bg) 2).isNone) ∧
    (∃ s f, arrive (.barv cu) s f fun s' b => barState s' b == 1 && member s' b && barArrived s' b + n f == ctrlTarget (barCtrl s' b) + 1 && alone s' b) := by
  refine ⟨⟨madeBy 1 (barWords 0x2000 0 0 0 0 0 0 0 0), { zr with imm26 := 2 }, ?_⟩, ⟨madeBy 2 (barWords 0x2000 0 0 1 3 0 0 0 0), { zr with imm26 := 2 }, ?_⟩,
    ⟨madeBy 1 (barWords 0x2000 0 0 2 3 0 0 0 0), { zr with imm26 := 2 }, ?_⟩, ⟨madeBy 1 (barWords 0x2000 0 0 1 3 5 1 0 0), { zr with imm26 := 2 }, ?_⟩,
    ⟨madeBy 1 (barWords 0x2000 0 0 1 3 5 0 0 0), { zr with imm26 := 2 }, ?_⟩, ⟨madeBy 1 (barWords 0x2000 0 0 1 3 5 1 0 0), { zr with imm26 := 3 }, ?_⟩⟩ <;>
  refine And.intro (And.intro (by decide +kernel) (by decide +kernel)) (by decide +kernel)

/-- A device barrier: the participant is of the context, of the bent at bent level; a barrier that stores made takes any. -/
theorem meets_Participates : ∀ level ∈ [1, 2], Participates (barred bg [] (barWords 0x40040 level 0 1 3 0 0 0 0)) bg dbar := by
  intro level h
  simp only [List.mem_cons, List.not_mem_nil, or_false] at h
  show if _ then _ else _
  rcases h with rfl | rfl
  · rw [if_pos (by decide +kernel)]; decide
  · rw [if_neg (by decide +kernel)]
    intro x hx
    have h : (barred bg [] (barWords 0x40040 2 0 1 3 0 0 0 0)).bteams = [] := by decide +kernel
    rw [h] at hx; cases hx

/-- Each row of the table of R277. -/
theorem meets_Evaluates :
    let full (s : State) : Prop := barState s bar1 = 1 ∧ ctrlUp (barCtrl s bar1) = false ∧ barArrived s bar1 = ctrlTarget (barCtrl s bar1)
    (∃ s : State, barState s bar1 = 1 ∧ barArrived s bar1 ≠ ctrlTarget (barCtrl s bar1)) ∧ (∃ s, full s ∧ 0 < barShort s bar1) ∧
    (∃ s, full s ∧ barShort s bar1 < 0 ∧ Alone s bar1) ∧ (∃ s, full s ∧ barShort s bar1 = 0 ∧ ctrlHasp (barCtrl s bar1) = false) ∧
    (∃ s, full s ∧ barShort s bar1 = 0 ∧ parentLoc s 1 bar1 = some dbar ∧ collectedOk s bar1 dbar = false) ∧
    (∃ s p, full s ∧ barShort s bar1 = 0 ∧ parentLoc s 1 bar1 = some p ∧ collectedOk s bar1 p = true ∧ HasObject s p ∧
      overlaps bar1 32 p 32 = false ∧ barState s p = 1 ∧ childFits s bar1 p = false) ∧
    (∃ s, full s ∧ barShort s bar1 = 0 ∧ parentLoc s 1 bar1 = some dbar ∧ Waiting s bar1 dbar) := by
  let up := barred bg (barWords 0x2000 0 1 1 3 5 3 0 0x10040) (barWords 0x40040 2 0 1 9 0 1 0 0)
  let far := barred bg (barWords 0x2000 0 1 1 3 5 3 0 0x50040) ((0x30028, 0x200000901B) :: barWords 0x2000000040 1 0 1 9 0 1 0 0)
  let c : Carry := { gid := 1, ctx := 1, teamNo := 1, bent := 0, scope := 2, ids := [7] }
  refine ⟨⟨madeBy 1 (barWords 0x2000 0 0 1 3 5 1 0 0), by decide +kernel⟩, ⟨madeBy 1 (barWords 0x2000 0 0 1 3 5 3 1 0), by decide +kernel⟩,
    ⟨madeBy 1 (barWords 0x2000 0 0 1 3 5 3 0xFFFFFFFF 0), by decide +kernel, by decide +kernel, alone_meets (by decide +kernel)⟩,
    ⟨madeBy 1 (barWords 0x2000 0 0 1 3 5 3 0 0), by decide +kernel⟩,
    ⟨{ up with stores := [store1], carries := [(bar1, 32, [c])] }, by decide +kernel⟩,
    ⟨far, .dev 0x2000000040, by decide +kernel, by decide +kernel, by decide +kernel, by decide +kernel,
      ⟨by decide +kernel, .inl ⟨_, rfl⟩, by decide +kernel, settled_meets (by decide +kernel)⟩, by decide +kernel⟩, ⟨up, by decide +kernel, by decide +kernel, by decide +kernel, ?_⟩⟩
  exact ⟨⟨by decide +kernel, .inl ⟨_, rfl⟩, by decide +kernel, settled_meets (by decide +kernel)⟩, by decide +kernel⟩

theorem meets_AwaitsAndWords :
    let await (s : State) (f : CP) (p : State → Loc → Bool) : Prop :=
      Acts s bg (.bwait cu f) cu ∧ namesBar s bg f [.src f.sb] none (fun s' b => !barMalformed s' b && p s' b) = true
    let mine (f : CP) : Bool := bitsOf (argVal bg 0 (.src f.sb)) 127 64 == (operand bg f.sa).toNat && bitsOf (argVal bg 0 (.src f.sb)) 63 56 == 0
    let expect (s : State) (f : CP) (p : State → Loc → Bool) : Prop :=
      Acts s bg (.bexp cu f) cu ∧ namesBar s bg f [] none (fun s' b => !barMalformed s' b && p s' b) = true
    (∃ s f, await s f fun _ _ => !mine f) ∧ (∃ s f, await s f fun s' b => mine f && barState s' b == 0) ∧
    (∃ s f, await s f fun s' b => mine f && barState s' b == 2) ∧ (∃ s f, await s f fun s' b => mine f && barState s' b == 1 && barPhase s' b == 6) ∧
    (∃ s f, await s f fun s' b => mine f && barState s' b == 1 && barPhase s' b == 5) ∧
    (∃ s f, expect s f fun s' b => barState s' b == 2) ∧ (∃ s f, expect s f fun s' b => barState s' b == 1 && f.imm26.toNat % 4 == 0) ∧
    (∃ s f, Acts s bg (.bexp cu f) cu ∧ f.sub.getLsbD 0 = true ∧ (argVal bg 0 (.src f.sb)).toNat % 2 ^ 32 % 4 = 1 ∧
      namesBar s bg f [.src f.sb] none (fun s' b => !barMalformed s' b && barState s' b == 1 && alone s' b) = true) := by
  refine ⟨⟨barred bg (barWords 0x2000 0 0 1 3 0 0 0 0) [], { zr with sb := .g 2 }, ?_⟩, ⟨barred bg [] [], { zr with sb := .g 1 }, ?_⟩,
    ⟨barred bg (barWords 0x2000 0 0 2 3 0 0 0 0) [], { zr with sb := .g 1 }, ?_⟩, ⟨barred bg (barWords 0x2000 0 0 1 3 6 0 0 0) [], { zr with sb := .g 1 }, ?_⟩,
    ⟨barred bg (barWords 0x2000 0 0 1 3 5 0 0 0) [], { zr with sb := .g 1 }, ?_⟩, ⟨barred bg (barWords 0x2000 0 0 2 3 5 0 0 0) [], { zr with imm26 := 8 }, ?_⟩,
    ⟨barred bg (barWords 0x2000 0 0 1 3 5 0 0 0) [], { zr with imm26 := 8 }, ?_⟩, ⟨barred bg (barWords 0x2000 0 0 1 3 5 0 0 0) [], { zr with sb := .g 1, sub := 1 }, ?_⟩⟩ <;>
  refine And.intro (And.intro (by decide +kernel) (by decide +kernel)) (by decide +kernel)

theorem meets_ReleasesAndLosses :
    (∃ s b r, s.releases.find? (fun r => r.1 == b) = some r ∧ barSaved s b = false ∧ HasObject s b ∧ barState s b = 1 ∧
      ctrlUp (barCtrl s b) = true ∧ ctrlTarget (barCtrl s b) ≠ 0) ∧
    (∃ s b r, s.releases.find? (fun r => r.1 == b) = some r ∧ barSaved s b = false ∧ HasObject s b ∧ barState s b = 2) ∧
    (∃ s l, (∃ k ∈ s.combiners, k.bar = l) ∧ barSaved s l = false ∧ HasObject s l ∧ barState s l = 1 ∧ Alone s l) ∧
    (∃ s l, (∃ x ∈ s.bteams, x.1 = l) ∧ barSaved s l = false ∧ HasObject s l ∧ barState s l = 1 ∧ Alone s l) ∧
    (∃ s l p, (∃ k ∈ s.combiners, k.bar = l) ∧ barSaved s l = false ∧ HasObject s l ∧ barState s l = 1 ∧
      parentLoc s (barCtx s l) l = some p ∧ HasObject s p ∧ overlaps l 32 p 32 = false ∧ barState s p = 1 ∧ s.raised = [] ∧ s.releases = [] ∧ s.upward = [] ∧
      ctrlHasp (barCtrl s p) = false) := by
  refine ⟨⟨{ barred bg (barWords 0x2000 4 1 1 3 5 0 0 0x10040) [] with releases := [(bar1, dbar)] }, bar1, (bar1, dbar), ?_⟩,
    ⟨{ barred bg (barWords 0x2000 0 1 2 3 5 0 0 0x10040) [] with releases := [(bar1, dbar)] }, bar1, (bar1, dbar), ?_⟩,
    ⟨{ barred bg [] (barWords 0x40040 1 0 1 3 5 0 0 0) with combiners := [⟨dbar, 1, some 0, 0⟩] }, dbar, ⟨_, List.mem_singleton.mpr rfl, rfl⟩, ?_⟩,
    ⟨madeBy 1 (barWords 0x2000 0 0 1 3 5 0 0 0), bar1, ⟨_, List.mem_singleton.mpr rfl, rfl⟩, ?_⟩,
    ⟨{ barred bg [] (barWords 0x40040 1 1 1 3 5 0 0 0x10080 ++ barWords 0x40080 2 0 1 2 0 0 0 0) with combiners := [⟨dbar, 1, some 0, 0⟩] },
      dbar, .dev 0x40080, ⟨_, List.mem_singleton.mpr rfl, rfl⟩, ?_⟩⟩
  · exact ⟨by decide +kernel, by decide +kernel, ⟨by decide +kernel, .inr ⟨1, 0, 0x2000, rfl⟩, by decide +kernel, settled_meets (by decide +kernel)⟩, by decide +kernel⟩
  · exact ⟨by decide +kernel, by decide +kernel, ⟨by decide +kernel, .inr ⟨1, 0, 0x2000, rfl⟩, by decide +kernel, settled_meets (by decide +kernel)⟩, by decide +kernel⟩
  · exact ⟨by decide +kernel, ⟨by decide +kernel, .inl ⟨_, rfl⟩, by decide +kernel, settled_meets (by decide +kernel)⟩, by decide +kernel, alone_meets (by decide +kernel)⟩
  · exact ⟨by decide +kernel, ⟨by decide +kernel, .inr ⟨_, _, _, rfl⟩, by decide +kernel, settled_meets (by decide +kernel)⟩, by decide +kernel, alone_meets (by decide +kernel)⟩
  · exact ⟨by decide +kernel, ⟨by decide +kernel, .inl ⟨_, rfl⟩, by decide +kernel, settled_meets (by decide +kernel)⟩, by decide +kernel, by decide +kernel,
      ⟨by decide +kernel, .inl ⟨_, rfl⟩, by decide +kernel, settled_meets (by decide +kernel)⟩, by decide +kernel⟩

theorem parentLoc_stays {s t : State} {ctx : Nat} {b : Loc} {blocks : List (Loc × Nat)} (hc : t.ctxs = s.ctxs) (ho : OnlyBytes s t blocks)
    (hb : ∀ k < 32, ∀ x ∈ blocks, ∀ j < x.2, b.plus k ≠ x.1.plus j)
    (hd : ∀ l ∈ walkWords s ctx (bitsOf (barParent s b) 54 0), ∀ k < 8, ∀ x ∈ blocks, ∀ j < x.2, l.plus k ≠ x.1.plus j) :
    parentLoc t ctx b = parentLoc s ctx b := by
  have h1 : barCtrl t b = barCtrl s b := readNat_congr fun k hk => ho _ (hb k (by omega))
  have h2 : barParent t b = barParent s b := congrArg (BitVec.ofNat 64) (readNat_congr fun k hk => by
    rw [Loc.plus_plus]; exact ho _ (hb _ (by omega)))
  have h3 : walk t ctx (bitsOf (barParent s b) 54 0) = walk s ctx (bitsOf (barParent s b) 54 0) := walk_congr hc fun l hl => by
    unfold readWord; rw [readNat_congr (fun k hk => ho _ (fun x hx j hj => hd l hl k hk x hx j hj))]
  unfold parentLoc virtLoc
  simp only [h1, h2, h3]

theorem meets_ParentLost : ∃ s l b now, (∃ k ∈ s.combiners, k.bar = l) ∧ barSaved s l = false ∧ HasObject s l ∧ barState s l = 1 ∧
    s.raised = [⟨b, l, now⟩] ∧ s.releases = [] ∧ s.upward = [] ∧ ctrlHasp (barCtrl s l) = false ∧ HasObject s b ∧ barSaved s b = false ∧
    overlaps l 32 b 32 = false ∧ barState s b = 1 ∧
    (∀ t, BarsBeside s t → OnlyBytes s t [(l.plus 1, 2)] → ∀ p, parentLoc t (barCtx s l) b = some p → p = l) := by
  refine ⟨{ barred bg (barWords 0x2000 4 1 1 3 5 0 0 0x10040) (barWords 0x40040 1 0 1 3 5 0 0 0) with
      combiners := [⟨dbar, 1, some 0, 0⟩], raised := [⟨bar1, dbar, true⟩] }, dbar, bar1, true, ⟨_, List.mem_singleton.mpr rfl, rfl⟩, by decide +kernel,
    ⟨by decide +kernel, .inl ⟨_, rfl⟩, by decide +kernel, settled_meets (by decide +kernel)⟩, by decide +kernel, rfl, by decide +kernel, by decide +kernel, by decide +kernel,
    ⟨by decide +kernel, .inr ⟨1, 0, 0x2000, rfl⟩, by decide +kernel, settled_meets (by decide +kernel)⟩, by decide +kernel, by decide +kernel,
    by decide +kernel, ?_⟩
  intro t hb ho p hp
  rw [parentLoc_stays (by rw [hb]) ho (by decide +kernel) (by decide +kernel)] at hp
  exact (Option.some.inj ((by decide +kernel : parentLoc _ _ _ = some dbar).symm.trans hp)).symm

/-! ### Events and mailboxes -/

/-- A group with a binding `b` in slot 5, its edge bit set. -/
def binding (b : Binding) : Group := { ug [0x2000] with evbind := (ug [0x2000]).evbind.set 5 b, evpend := 0x20 }
def soft : Binding := ⟨7, 0, 0, 0x10200, 0, none, 0⟩
/-- A frame that describes the barrier at 0x2000 in phase 5, or a ring. -/
def described (p : Nat) : Group :=
  { ug [0x10200] with gages := [.val 0x10200], gframes := (ug []).gframes.set 2 ((ownScratch 0x2000).setWidth 128 + BitVec.ofNat 128 (p * 2 ^ 64)) }

theorem meets_Bind :
    (∃ c f s g, Acts s g (.evbind c f) c ∧ f.sub.toNat = 0) ∧
    (∃ c f s g, Acts s g (.evbind c f) c ∧ f.sub.toNat = 3 ∧ f.sa.zero = true ∧ bitsOf (relative g (sxNat 18 (bitsOf f.imm26 25 8))) 63 55 = 0 ∧
      bitsOf (relative g (sxNat 18 (bitsOf f.imm26 25 8))) 2 0 = 0 ∧ ParamOk 3 0) ∧
    (∃ c f s g, Acts s g (.evbind c f) c ∧ f.sub.toNat = 1 ∧ f.sa.zero = false ∧ Readable g [0] [.src f.sa] ∧ bitsOf (operand g f.sa) 63 55 = 0 ∧
      bitsOf (operand g f.sa) 2 0 = 0 ∧ ParamOk 1 (bitsOf ((g.gframes[bitsOf f.imm26 6 4]?).getD 0) 127 64) ∧
      found (checkAccess (withGroup s (shut g)) (shut g) .load 32 false [(0, ((g.gframes[bitsOf f.imm26 6 4]?).getD 0).setWidth 64)])
        (fun s' l => l.length == 1 && l.all fun a => !a.poisoned && barState s' a.loc == 1) = true) :=
  ⟨⟨cu, { zc with imm26 := 5 }, on sg, sg, And.intro (by decide +kernel) (by decide +kernel), rfl⟩,
   ⟨cu, { zc with sub := 3, imm26 := 0x405 }, on sg, sg, And.intro (by decide +kernel) (by decide +kernel), rfl, rfl, by decide +kernel,
     by decide +kernel, by unfold ParamOk; decide⟩,
   ⟨cu, { zr with sub := 1, imm26 := 0x25 }, barred (described 5) (barWords 0x2000 0 0 1 3 6 0 0 0) [], described 5,
     And.intro (by decide +kernel) (by decide +kernel), rfl, by decide, by unfold Readable; decide +kernel, by decide +kernel,
     by decide +kernel, by unfold ParamOk; decide +kernel, by decide +kernel⟩⟩

theorem pending_soft : Pending (on (binding soft)) (binding soft) 5 := ⟨soft, by decide +kernel, by decide, by decide +kernel⟩
theorem dispatched_soft : Dispatched (on (binding soft)) (binding soft) 0x30 5 := by
  refine ⟨by decide, ⟨by decide, by decide +kernel, pending_soft⟩, fun k hk h => ?_⟩
  have : k = 4 := by
    have := h.1
    match k, hk with
    | 0, _ | 1, _ | 2, _ | 3, _ => simp at this
    | 4, _ => rfl
  subst this
  obtain ⟨-, -, b, hb, hk, -⟩ := h
  rw [show (binding soft).evbind[4]? = some ⟨0, 0, 0, 0, 0, none, 0⟩ by decide +kernel] at hb
  exact hk (by rw [← Option.some.inj hb])
theorem not_dispatched (n : Nat) : ¬ Dispatched (on sg) sg 0x30 n := by
  rintro ⟨hn, ⟨-, -, b, hb, hk, -⟩, -⟩
  have : ∀ m < 16, (sg.evbind[m]?).map (·.kind) = some 0 := by decide +kernel
  have h := this n hn
  rw [hb] at h
  exact hk (Option.some.inj h)

/-- A second group of the team. -/
def otherGroup : Group := { sg with gid := 2, core := 1, ident := { sg.ident with gidx := 1 } }
def with2 (g : Group) : State := { on g with groups := [g, otherGroup] }

theorem meets_Take :
    (∃ c f s g h, Acts s g (.evmask c f) c ∧ eventRow (shut g) (.evmask c f) = some (c, h)) ∧
    (∃ c f s g h, Acts s g (.mrecv c f) c ∧ eventRow (shut g) (.mrecv c f) = some (c, h) ∧ g.mbox = [3, 4]) ∧
    (∃ c f s g, Acts s g (.mrecv c f) c ∧ g.mbox = [] ∧ f.sub.getLsbD 0 = true) ∧
    (∃ c f s g h, Acts s g (.mrecv c f) c ∧ eventRow (shut g) (.mrecv c f) = some (c, h) ∧ g.mbox = []) ∧
    (∃ c f s g n b, Acts s g (.evwait c f) c ∧ Dispatched s g (f.imm26.setWidth 16) n ∧ g.evbind[n]? = some b) ∧
    (∃ c f s g, Acts s g (.evwait c f) c ∧ ∀ n, ¬ Dispatched s g (f.imm26.setWidth 16) n) ∧
    (∃ c f s g, Acts s g (.evpoll c f) c) ∧
    (∃ c f s g, Acts s g (.evraise c f) c ∧ f.sa.zero = true ∧ g.area = none) ∧
    (let names (p : State → Group → Option Group → Prop) : Prop :=
       ∃ c f s g, Acts s g (.evraise c f) c ∧ f.sa.zero = false ∧ Readable g [0] [.src f.sa] ∧
         p s g (groupOfHandle (withGroup s (flagged (voidFlag g [0] [.src f.sa]) (shut g))) g.ctx (operand g f.sa))
     names (fun _ g r => ∃ k, r = some k ∧ k.area = none ∧ k.gid = g.gid) ∧
     names (fun s g r => (∃ k, r = some k ∧ k.area = none ∧ k.gid ≠ g.gid) ∧ releaseOut (withGroup s (shut g)) (shut g) 4 = none) ∧
     names (fun _ _ r => r = none)) := by
  let m : Group := { sg with mbox := [3, 4] }
  let e : Group := { ug [] with gages := [.val ((handleOf (on sg) sg).setWidth 128)] }
  let h : Group := { e with gages := [.val ((handleOf (on sg) otherGroup).setWidth 128)] }
  exact ⟨⟨cu, { zc with sub := 1, imm26 := 9 }, on sg, sg, _, And.intro (by decide +kernel) (by decide +kernel), rfl⟩,
   ⟨cu, zc, on m, m, _, And.intro (by decide +kernel) (by decide +kernel), rfl, rfl⟩,
   ⟨cu, { zc with sub := 1 }, on sg, sg, And.intro (by decide +kernel) (by decide +kernel), rfl, rfl⟩,
   ⟨cu, zc, on sg, sg, _, And.intro (by decide +kernel) (by decide +kernel), rfl, rfl⟩,
   ⟨cu, { zc with imm26 := 0x30 }, on (binding soft), binding soft, 5, soft, And.intro (by decide +kernel) (by decide +kernel), dispatched_soft,
     by decide +kernel⟩,
   ⟨cu, { zc with imm26 := 0x30 }, on sg, sg, And.intro (by decide +kernel) (by decide +kernel), not_dispatched⟩,
   ⟨cu, { zc with imm26 := 0x30 }, on sg, sg, And.intro (by decide +kernel) (by decide +kernel)⟩,
   ⟨cu, { zc with imm26 := 5 }, on sg, sg, And.intro (by decide +kernel) (by decide +kernel), rfl, rfl⟩,
   ⟨cu, { zr with imm26 := 5 }, on e, e, And.intro (by decide +kernel) (by decide +kernel), by decide, by unfold Readable; decide +kernel,
     shut e, by decide +kernel, by decide +kernel, by decide +kernel⟩,
   ⟨cu, { zr with imm26 := 5 }, with2 h, h, And.intro (by decide +kernel) (by decide +kernel), by decide, by unfold Readable; decide +kernel,
     ⟨otherGroup, by decide +kernel, by decide +kernel, by decide⟩, by decide +kernel⟩,
   ⟨cu, { zr with imm26 := 5 }, on rg, rg, And.intro (by decide +kernel) (by decide +kernel), by decide, by unfold Readable; decide +kernel,
     by decide +kernel⟩⟩

/-- A message of group 1 to itself, with a free or a full mailbox. -/
def mail : Msg := { id := 7, op := 6, gid := 1, ctx := 1, target := handleOf (on sg) sg, data := 5, scope := 4 }
def mailed (m : Msg) (g : Group) : State := { on g with msgs := [m], nextId := 9 }

theorem meets_Route :
    (∃ c f s g, Acts s g (.msend c f) c ∧ Readable g (execLanes g c) [.src f.sa, .src f.sb] ∧ g.stPoison = [] ∧ lostStore s g.gid = none ∧
      cstOf s g.gid < 15 ∧ execLanes g c ≠ []) ∧
    (∃ c f s g, Acts s g (.msend c f) c ∧ execLanes g c = []) ∧
    (let ok (s : State) (m : Msg) : Prop := s.msgs.find? (fun x => x.id == m.id) = some m ∧ s.msgs = [m] ∧ releaseSettled s m.gid m.scope m.op = true ∧
        storesPlaced s m.gid m.op = true ∧ s.groups.all (fun k => k.area.isNone && k.recs == [] && (k.gid != m.gid || !k.drain)) = true
     (∃ s m, ok s m ∧ groupOfHandle s m.ctx m.target = none) ∧
     (∃ s m k, ok s m ∧ groupOfHandle s m.ctx m.target = some k ∧ k.drain = true) ∧
     (∃ s m k, ok s m ∧ groupOfHandle s m.ctx m.target = some k ∧ k.drain = false ∧ k.mbox.length = 8) ∧
     (∃ s m k, ok s m ∧ groupOfHandle s m.ctx m.target = some k ∧ k.drain = false ∧ k.mbox.length = 7)) ∧
    (∃ s g b, ∃ n : BitVec 4, getGroup s g.gid = some g ∧ g.evbind[n.toNat]? = some b ∧ b.kind = 6 ∧ bitsOf b.desc 63 0 ≠ 0 ∧
      bitsOf b.desc 63 0 ≤ b.count ∧ g.area = none) ∧
    (∃ s g, getGroup s g.gid = some g ∧ g.st = .waiting ∧ g.wreason = .event) := by
  let h (n : Nat) : Group := { sg with mbox := List.replicate n 0 }
  let toOther : Msg := { mail with target := handleOf (on sg) otherGroup }
  let t : Binding := ⟨6, 0, 0, 0x10200, 100, none, 100⟩
  exact ⟨⟨c0, { zc with sb := .a 1, sub := 4 }, on sg, sg, And.intro (by decide +kernel) (by decide +kernel), by unfold Readable; decide +kernel,
      by decide +kernel⟩,
    ⟨gq, { zc with sb := .a 1, sub := 4 }, on sg, sg, And.intro (by decide +kernel) (by decide +kernel), by decide +kernel⟩,
    ⟨⟨mailed { mail with target := 0 } sg, { mail with target := 0 }, by decide +kernel⟩,
     ⟨{ mailed toOther sg with groups := [sg, { otherGroup with drain := true }] }, toOther, { otherGroup with drain := true }, by decide +kernel⟩,
     ⟨mailed mail (h 8), mail, h 8, by decide +kernel⟩, ⟨mailed mail (h 7), mail, h 7, by decide +kernel⟩⟩,
    ⟨on (binding t), binding t, t, 5, by decide +kernel⟩,
    ⟨on { sg with st := .waiting, wreason := .event }, { sg with st := .waiting, wreason := .event }, by decide +kernel⟩⟩

/-! ### System registers, the way back from a trap, waiting -/

/-- A group in its handler: its record, all zero, lies below its stack pointer. -/
def hgrp : Group := { pg 0x8 with cstk := ownScratch 0xF29C0 }

theorem meets_Registers :
    (∃ c f s g, Acts s g (.srd c f) c ∧ ∀ l, (systemRegister s g l f.sreg.toNat).isSome = true) ∧
    (∃ c f s g, Acts s g (.swr c f) c ∧ Readable g [0] [.src f.sa] ∧ (systemRegister s g 0 f.sreg.toNat).isSome = true) ∧
    (∃ c f s g, Acts s g (.segset c f) c ∧ Readable g [0] [.src f.sa, .src f.sb]) ∧
    (∃ c f s g, Acts s g (.snapt c f) c ∧ s.snap.valid = false) :=
  ⟨⟨c0, { zs with sreg := 0x070 }, on sg, sg, And.intro (by decide +kernel) (by decide +kernel), fun _ => rfl⟩,
   ⟨cu, { zs with sa := .g 0, sreg := 0x044 }, on (pg 8), pg 8, And.intro (by decide +kernel) (by decide +kernel), by unfold Readable; decide +kernel, rfl⟩,
   ⟨cu, { zs with sa := .g 0, sb := .g 0, imm16 := 3 }, on (pg 8), pg 8, And.intro (by decide +kernel) (by decide +kernel),
     by unfold Readable; decide +kernel⟩,
   ⟨cu, zs, on (pg 8), pg 8, And.intro (by decide +kernel) (by decide +kernel), rfl⟩⟩

theorem meets_Handlers :
    (∃ c f s g b, Acts s g (.tret c f) c ∧ stackLoc s g (g.cstk - 0x29C0) 0x29C0 = .ok b ∧ stackSwaps s g (g.cstk - 0x29C0) = false ∧
      objectReady s g.gid b 0x29C0 = true ∧
      askedToHalt s g = false ∧ g.held = []) ∧
    (∃ c f s g b, Acts s g (.tret c f) c ∧ stackLoc s g (g.cstk - 0x29C0) 0x29C0 = .ok b ∧ stackSwaps s g (g.cstk - 0x29C0) = false ∧
      objectReady s g.gid b 0x29C0 = true ∧
      askedToHalt s g = false ∧ g.held ≠ [] ∧ g.tcause.getLsbD 9 = true) ∧
    (∃ c f s g, Acts s g (.tmaskMask c f) c) ∧ (∃ c f s g, Acts s g (.tmaskUnmask c f) c ∧ g.held = [] ∧ askedToHalt s g = false) ∧
    (∃ c f s g h b, Acts s g (.tmaskUnmask c f) c ∧ g.held = [h] ∧ g.step = .off ∧
      Enterable s { completed { g with tmk := false } (g.pc + 8) with held := [] } b) ∧
    (∃ s g a b, getGroup s g.gid = some g ∧ g.step = .due a ∧ g.st = .ready ∧ Enterable s g b) := by
  let k : Group := { pg 8 with held := [(.wdog, 3)] }
  let r : Group := { hgrp with held := [(.wdog, 3)], tcause := 0x200 }
  let d : Group := { sg with step := .due 5 }
  exact ⟨⟨cu, zs, on hgrp, hgrp, .scr 1 0 0xF0000, And.intro (by decide +kernel) (by decide +kernel), by decide +kernel⟩,
   ⟨cu, zs, on r, r, .scr 1 0 0xF0000, And.intro (by decide +kernel) (by decide +kernel), by decide +kernel⟩,
   ⟨cu, { zs with imm16 := 1 }, on (pg 8), pg 8, And.intro (by decide +kernel) (by decide +kernel)⟩,
   ⟨cu, zs, on (pg 8), pg 8, And.intro (by decide +kernel) (by decide +kernel), by decide +kernel⟩,
   ⟨cu, zs, on k, k, (.wdog, 3), .scr 1 0 0xF0000, And.intro (by decide +kernel) (by decide +kernel), rfl, rfl,
     ⟨by unfold CanEnter; decide +kernel, by unfold InRange; decide +kernel, by decide +kernel, by decide +kernel⟩⟩,
   ⟨on d, d, 5, .scr 1 0 0xF0000, by decide +kernel, rfl, by decide +kernel,
     ⟨by unfold CanEnter; decide +kernel, by unfold InRange; decide +kernel, by decide +kernel, by decide +kernel⟩⟩⟩

def team1 : Team :=
  { ctx := 1, no := 1, gen := 0, seq := 0, index := 0, cl := 0, rank := 0, wb := 0, wsize := 0x100000, hdr := 0x00000100002001A1, rem := 1000000,
    dl := 0, overdue := false, prio := 0, ecls := 0, spawned := false, yielded := false, yielding := false, budgetDue := false }

/-- A group that waits. -/
def blocked (r : WReason) (n : Nat) : Group := { sg with st := .waiting, wreason := r, wdcnt := n, wdog := 100 }

theorem meets_Waits :
    (∃ (s : State) (g : Group), getGroup s g.gid = some g ∧ g.st = .waiting ∧ g.wreason ≠ .pflt ∧ g.wreason ≠ .nap ∧ g.drain = false ∧
      mayIssue s g = true) ∧
    (∃ s g, getGroup s g.gid = some g ∧ g.st = .waiting ∧ g.drain = true ∧ coverWait s g 0 0 0 = none ∧ countersZero s g.gid = true) ∧
    (∃ s g, getGroup s g.gid = some g ∧ g.st = .waiting ∧ g.drain = true ∧ coverWait s g 0 0 0 = none ∧ countersZero s g.gid = false) ∧
    (∃ s g, getGroup s g.gid = some g ∧ g.st = .waiting ∧ g.wreason = .pflt ∧ g.served = true) ∧
    (∃ s g, getGroup s g.gid = some g ∧ g.st = .waiting ∧ g.wreason = .nap ∧ g.wdcnt = 0) ∧
    (∃ s g b, getGroup s g.gid = some g ∧ g.st = .waiting ∧ g.wreason.counts = true ∧ g.wdog ≠ 0xFFFFFFFF ∧ 0 < g.wdcnt ∧
      g.wdog.toNat ≤ g.wdcnt ∧ Enterable s g b) ∧
    (∃ s x g b, getTeam s x.ctx x.no = some x ∧ x.budgetDue = true ∧ (s.groups.filter fun k => k.ctx = x.ctx ∧ k.teamNo = x.no) = [g] ∧
      getGroup s g.gid = some g ∧ g.st ≠ .saved ∧ g.step = .off ∧ Enterable s g b) := by
  let e : Group := { blocked .cnt 0 with drain := true, emask := 0, amask := 0 }
  let p : Group := { blocked .pflt 0 with served := true }
  refine ⟨⟨on (blocked .age 3), blocked .age 3, by decide +kernel⟩, ⟨on e, e, by decide +kernel⟩,
   ⟨{ on e with copies := [copy1 (.moves []) .queued] }, e, by decide +kernel⟩,
   ⟨on p, p, by decide +kernel⟩, ⟨on (blocked .nap 0), blocked .nap 0, by decide +kernel⟩,
   ⟨on (blocked .fence 100), blocked .fence 100, .scr 1 0 0xF0000, by decide +kernel, by decide +kernel, by decide +kernel, by decide +kernel,
     by decide +kernel, by decide +kernel,
     ⟨by unfold CanEnter; decide +kernel, by unfold InRange; decide +kernel, by decide +kernel, by decide +kernel⟩⟩,
   ⟨{ on sg with teams := [{ team1 with budgetDue := true }] }, { team1 with budgetDue := true }, sg, .scr 1 0 0xF0000, by decide +kernel, rfl, by decide +kernel,
     by decide +kernel, by decide +kernel, rfl,
     ⟨by unfold CanEnter; decide +kernel, by unfold InRange; decide +kernel, by decide +kernel, by decide +kernel⟩⟩⟩

/-! ### Teams, spawning, deadlines, power -/

/-- A slice of four teams of one group each, on the list of cluster 0. -/
def slice1 : Slice :=
  { ctx := 1, seq := 0, st := .waiting, hdr := 0x00000100002001A1, entry := 0x10200, args := 5, teams := 4, aff := 255, deadline := 100,
    tbudget := 1000, ecls := 0, rsv := 0, spt := 16, prio := 8, chain := [], nextTeam := 0, finished := 0, retiring := [], q := 1, index := 0,
    tag := 0, nocpl := true }
def sliced (g : Group) : State := { on g with slices := [slice1], cands := [⟨0, 1, 0, 100, false⟩], nextId := 20, teams := [team1] }
/-- A thread that spawns at 0x10200 with one value. -/
def spawner : Group := one [0x10200, 7]
def bin1 (n : Nat) : Bin :=
  { id := 3, ctx := 1, rank := 0, key := some (0, 0x10200), fill := List.replicate n [9], lkey := (0, 0), launch := [], timer := 20, used := 0, due := 0, filled := 0 }
def spawnF : CP := { zc with sub := 2, imm26 := 1 }

/-- The bins of a SPAWN are made. -/
def binned (r : Option State) (p : State → Bool) : Bool := match r with | some s => p s | none => false

theorem meets_Spawn :
    let key := spawnKey (sliced spawner) spawner spawnF 0
    let acts (s : State) : Prop := Acts s spawner (.spawn c0 spawnF) c0 ∧ Readable spawner [0] (.src spawnF.sa :: spawnOperands spawnF) ∧
      parts c0 spawner = [0] ∧ spawnKey s spawner spawnF 0 = key ∧ bitsOf key.2 63 55 = 0 ∧ bitsOf key.2 2 0 = 0
    (∃ s, acts s ∧ binned (makeBins (withGroup s (shut spawner)) 1 0 [key] [key]) (fun _ => true) = false) ∧
    (∃ s, acts s ∧ releaseOut (withGroup s (shut spawner)) (shut spawner) 4 = none ∧
      binned (makeBins (withGroup s (shut spawner)) 1 0 [key] [key]) (fun s' => s'.bins.length == 1 && decide (s'.bins.map (·.id)).Nodup &&
      s'.bins.all fun b => b.fill.length + 1 < 32) = true) ∧
    (∃ s b, acts s ∧ keyBin (withGroup s (shut spawner)) 1 0 key = some b ∧ b.fill.length + 1 = 32 ∧ b.launch = [] ∧
      releaseOut (withGroup s (shut spawner)) (shut spawner) 4 = none) := by
  let full (k : Nat) : Bin := { bin1 31 with id := k, launch := [[9]], key := some (k, 0) }
  refine ⟨⟨{ sliced spawner with bins := (List.range 64).map full }, ?_⟩, ⟨sliced spawner, ?_⟩,
    ⟨{ sliced spawner with bins := [bin1 31] }, bin1 31, ?_⟩⟩ <;>
  unfold Acts Readable <;> decide +kernel

theorem meets_SpawnNoThreads : ∃ s, Acts s noGuard (.spawn gn spawnF) gn ∧ parts gn noGuard = [] :=
  ⟨{ sliced noGuard with nextId := 20 }, And.intro (by decide +kernel) (by decide +kernel), by decide +kernel⟩

theorem meets_Bins :
    (∃ s b, s.bins.find? (fun x => x.id == b.id) = some b ∧ b.fill ≠ [] ∧ binSpt s b ≤ b.timer) ∧
    (∃ s b c x, ∃ p : Placement, s.bins.find? (fun y => y.id == b.id) = some b ∧ getCtx s b.ctx = some c ∧ getSlice s b.ctx b.lkey.1 = some x ∧
      b.launch ≠ [] ∧ b.launch.length = 32 ∧ ctxRuns s b.ctx = true ∧ launchRoom s x b.rank = true ∧ olderStage s b = false ∧
      p.cores = [1] ∧ coreLoad s b.ctx b.rank 1 < 8 ∧ windowFree s b.ctx b.rank p.wb (stackBytes x.hdr) = true ∧ p.wb % 256 = 0 ∧
      numberFree s b.ctx p.teamNo = true ∧ lastGen s b.ctx p.teamNo = some 4 ∧ p.gen = 5 ∧ b.due = 0) :=
  ⟨⟨{ sliced sg with bins := [bin1 3] }, bin1 3, by decide +kernel⟩,
   let b : Bin := { bin1 0 with launch := List.replicate 32 [9], lkey := (0, 0x10200), filled := 5 }
   ⟨{ sliced sg with bins := [b], teamGens := [(1, 2, 4)] }, b, _, slice1, ⟨0x100000, 2, 5, [1]⟩, by decide +kernel, rfl, by decide +kernel⟩⟩

theorem meets_Placing :
    (∃ l k, selectPick l = some k ∧ l.length = 2) ∧
    (∃ s c rank k x p, ownerOf s 0 = some (c, rank) ∧ c.st = .running ∧ selectPick (candidates s c.id rank 0) = some k ∧ k.team = none ∧
      getSlice s c.id k.seq = some x ∧ placementOk s x 0 rank p = true) ∧
    (∃ s c rank k no tm p, ownerOf s 0 = some (c, rank) ∧ c.st = .running ∧ selectPick (candidates s c.id rank 0) = some k ∧ k.team = some no ∧
      getTeam s c.id no = some tm ∧ yieldFits s tm p = true ∧ (s.groups.map (·.gid)).Nodup ∧ s.gangs = [] ∧
      ∃ g, s.groups = [g] ∧ PlainReturn s g) ∧
    (∃ c f s g x, Acts s g (.yield c f) c ∧ teamOf s g = some x) ∧
    (∃ s, ∃ bent : BitVec 3, mainPower s = true ∧ 1024 ≤ (getBent s bent.toNat).period) :=
  ⟨⟨[⟨5, 2, none, true⟩, ⟨5, 1, some 3, true⟩], ⟨5, 1, some 3, true⟩, by decide +kernel⟩,
   ⟨sliced sg, _, 0, ⟨100, 0, none, true⟩, slice1, ⟨0x100000, 2, 0, [1]⟩, rfl, rfl, by decide +kernel⟩,
   ⟨{ sliced { sg with st := .saved, core := 16 } with teams := [{ team1 with yielded := true, dl := 50 }] }, _, 0, ⟨50, 0, some 1, true⟩, 1,
     { team1 with yielded := true, dl := 50 }, ⟨0, 1, 0, [3]⟩, rfl, rfl, by decide +kernel, rfl, by decide +kernel, by decide +kernel, by decide +kernel, rfl,
     _, rfl, by decide, rfl, rfl, rfl, nofun, nofun⟩,
   ⟨cu, zc, sliced sg, sg, team1, And.intro (by decide +kernel) (by decide +kernel), by decide +kernel⟩,
   ⟨{ on sg with bents := List.replicate 8 { Bent.reset with period := 1024, h := 3 } }, 2, by decide +kernel⟩⟩

/-! ### Contexts and code objects -/

def ctx1 : Context :=
  { id := 1, st := .running, root := 0x10000, asid := 1, gen := 0, evac := false, rcb := 0, prio := 0, tvec := 0x10400, wdog := 0xFFFFFFFF, ncl := 1,
    fring := 0x50000, lgf := 4, fcount := 0, nextSeq := 1, nextObj := 1, ranks := [0], savedRanks := 1, ts := none, th := none, thSet := 0,
    hard := false, req := 0, destroy := false, shadow := [], pool := List.replicate 8 [], stub := none, dels := [] }
/-- The context in a state of R337, with a slice. -/
def inState (c : Context) (g : Group) : State := { sliced g with ctxs := [c] }

/-- The context is saved, its rank in the shadow of cluster 5 or in its save area. -/
def ctxS (shadow : List (Nat × Nat)) : Context := { ctx1 with st := .saved, ranks := [], shadow }
/-- A second context asks for a partition. -/
def ctx2 : Context := { ctx1 with id := 2, asid := 2, st := .idle, ranks := [], rcb := 8, prio := 1 }
def none1 (s : State) : State := { s with groups := [], teams := [] }

theorem simple_one : Simple (inState (ctxS [(0, 0)]) { sg with st := .saved }) 1 := by
  refine ⟨by decide +kernel, by decide +kernel, by decide +kernel, ?_, ?_⟩
  · intro b hb
    rw [show knownBars (inState (ctxS [(0, 0)]) { sg with st := .saved }) = [] by decide +kernel] at hb
    cases hb
  intro g hg _
  obtain rfl : g = { sg with st := .saved } := by simpa [inState, sliced, on] using hg
  exact ⟨by decide, rfl, rfl, rfl, nofun, nofun⟩
theorem simple_none : Simple (none1 (inState (ctxS []) sg)) 1 :=
  ⟨by decide +kernel, by decide +kernel, by decide +kernel,
    (fun b hb => by rw [show knownBars (none1 (inState (ctxS []) sg)) = [] by decide +kernel] at hb; cases hb),
    fun g hg => absurd (show g ∈ ([] : List Group) from hg) List.not_mem_nil⟩

theorem meets_Grant :
    (∃ s c cls cores, MayGrant s c cls cores ∧ c.st = .idle ∧ shadowsOn s c cls = []) ∧
    (∃ s c cls cores x r cl, MayGrant s c cls cores ∧ c.st = .idle ∧ Memory.wf s = true ∧ (s.ctxs.map (·.id)).Nodup ∧
      shadowsOn s c cls = [(x, r, cl)]) ∧
    (∃ s c cls cores, MayGrant s c cls cores ∧ c.st = .saved ∧ Simple s c.id ∧ shadowsOn s c cls = [] ∧ Memory.wf s = true ∧
      0 < c.savedRanks ∧ c.shadow = [] ∧ s.scratch = []) ∧
    (∃ s c cls cores, MayGrant s c cls cores ∧ c.st = .saved ∧ Simple s c.id ∧ shadowsOn s c cls = [] ∧
      (∀ r < c.savedRanks, ∃ y ∈ c.shadow, y.1 = r) ∧ cores = [(1, 2)]) := by
  refine ⟨⟨none1 (inState { ctx1 with st := .idle, ranks := [] } sg), { ctx1 with st := .idle, ranks := [] }, [5], [], ?_, rfl, ?_⟩,
    ⟨none1 { inState ctx2 sg with ctxs := [ctxS [(0, 5)], ctx2] }, ctx2, [5], [], 1, 0, 5, ?_, rfl, ?_, ?_, ?_⟩,
    ⟨none1 (inState (ctxS []) sg), ctxS [], [5], [], ?_, rfl, simple_none, ?_, ?_, ?_, rfl, ?_⟩,
    ⟨inState (ctxS [(0, 0)]) { sg with st := .saved }, ctxS [(0, 0)], [5], [(1, 2)], ?_, rfl, simple_one, ?_, ?_, rfl⟩⟩
  · unfold MayGrant; decide +kernel
  · decide +kernel
  · unfold MayGrant; decide +kernel
  · decide +kernel
  · decide +kernel
  · decide +kernel
  · unfold MayGrant; decide +kernel
  · decide +kernel
  · decide +kernel
  · decide
  · decide +kernel
  · unfold MayGrant; decide +kernel
  · decide +kernel
  · decide +kernel

/-- The group waits for a phase of a barrier, and its team may be saved. -/
def barWaiting : State :=
  { inState { ctx1 with st := .saving } { sg with gages := [.pend 7] } with
    teams := [{ team1 with hdr := 0x00000100002001E1 }], barWaits := [⟨7, 1, bar1, ownScratch 0x2000, 5⟩] }

theorem meets_PreemptionEnds :
    (∃ s c, getCtx s c.id = some c ∧ c.st = .draining ∧ drained s c.id = true) ∧
    (∃ s c, getCtx s c.id = some c ∧ c.st = .saving ∧ NoForms s ∧ (∀ g ∈ s.groups, g.ctx = c.id → g.st = .saved ∨ haltReady s g = true) ∧
      s.gangs = [] ∧ s.groups ≠ []) ∧
    (∃ s c g w, getCtx s c.id = some c ∧ c.st = .saving ∧ s.groups = [g] ∧ g.ctx = c.id ∧ haltReady s g = true ∧ s.gangs = [] ∧
      s.barWaits = [w] ∧ w.gid = g.gid ∧ g.gages = [.pend w.id] ∧ w.ph < 2 ^ 32) ∧
    (∃ s c, getCtx s c.id = some c ∧ c.st = .draining ∧ c.ts = some 0 ∧ NoForms s) :=
  ⟨⟨none1 (inState { ctx1 with st := .draining } sg), { ctx1 with st := .draining }, by decide +kernel⟩,
   ⟨{ inState { ctx1 with st := .saving } sg with teams := [{ team1 with hdr := 0x00000100002001E1 }] }, { ctx1 with st := .saving },
     by decide +kernel, rfl, And.intro (by decide +kernel) (by decide +kernel), by decide +kernel⟩,
   ⟨barWaiting, { ctx1 with st := .saving }, _, _, by decide +kernel, rfl, rfl, by decide +kernel, by decide +kernel, rfl, rfl, rfl, rfl, by decide⟩,
   ⟨inState { ctx1 with st := .draining, ts := some 0 } sg, { ctx1 with st := .draining, ts := some 0 }, by decide +kernel, rfl, rfl,
     And.intro (by decide +kernel) (by decide +kernel)⟩⟩

theorem meets_Resets :
    (∃ s c, getCtx s c.id = some c ∧ c.st = .saving ∧ c.th = some 0) ∧ (∃ s c, getCtx s c.id = some c ∧ c.st = .resetting ∧ c.destroy = false) ∧
    (∃ s c, getCtx s c.id = some c ∧ c.st = .resetting ∧ c.destroy = true ∧ c.dels = [] ∧ s.queues = []) :=
  ⟨⟨inState { ctx1 with st := .saving, th := some 0 } sg, { ctx1 with st := .saving, th := some 0 }, by decide +kernel⟩,
   ⟨inState { ctx1 with st := .resetting } sg, { ctx1 with st := .resetting }, by decide +kernel⟩,
   ⟨inState { ctx1 with st := .resetting, destroy := true } sg, { ctx1 with st := .resetting, destroy := true }, by decide +kernel⟩⟩

/-- A fixed object with a text section of one instruction at 0x100000 and the metadata of one kernel (R302, R303, R307). -/
def elfWords : List (Nat × Nat) :=
  [(0, 0x00010102464C457F), (16, 0xC6A10002), (40, 64), (56, 0x300400000), (128, 0x7000000100000000), (144, 0x100000), (152, 256), (160, 8), (176, 8),
    (192, 0x7000000300000000), (216, 264), (224, 32), (240, 8), (256, 0), (264, 0x00000100002001A1), (272, 0x100000)]
def obj1 (st : ObjState) : CodeObj :=
  { ctx := 1, num := 1, st, image := 0xB0000, len := 296, q := 1, index := 0, tag := 0, nocpl := true, kernels := [], exports := [], linkage := [],
    mapped := [16], text := [], notes := [], held := [], before := [] }
def loaded (o : CodeObj) (ws : List (Nat × Nat)) : State :=
  { wr (inState ctx1 sg) (ws.map fun x => (0xB0000 + x.1, x.2)) with objs := [o] }
/-- The same with its text on a page that is mapped. -/
def inTheWay : List (Nat × Nat) :=
  elfWords.map fun x => if x.1 = 144 then (144, 0x10000) else if x.1 = 272 then (272, 0x10000) else x
/-- The image is accepted with what `p` says. -/
def accepted (r : Except Nat Elf) (p : Elf → Bool) : Bool := match r with | .ok e => p e | .error _ => false

theorem meets_LoadEnds :
    (∃ s c o, ∃ plan : LoadPlan, getCtx s c.id = some c ∧ getObj s c.id o.num = some o ∧ o.st = .loading ∧ o.held = [] ∧
      imageOf s o.image o.len 16 2 = some 2 ∧ accepted (readElf (imageOf s o.image o.len) 0) (fun e => e.kernels == [(0x00000100002001A1, 0x100000)] &&
        planOk s c e 0 plan && (mapPages c.root s plan.tables (loadPages c e 0 plan) plan.frames).isSome) = true) ∧
    (let rejected (ws : List (Nat × Nat)) (fixed sits : Bool) (tried : LoadTry) (p : Except Nat Elf → Bool) : Bool :=
       let s := loaded (obj1 .loading) ws
       let im := imageOf s 0xB0000 296
       let secs := (readSecs im).getD []
       let bias := if fixed then 0 else tried.vbase
       getObj s 1 1 == some (obj1 .loading) && (im 16 2 == some 2) == fixed && sitsAt s ctx1 secs bias == sits && p (readElf im bias)
     let failed (r : Except Nat Elf) : Bool := match r with | .error _ => true | .ok _ => false
     let short (r : Except Nat Elf) : Bool := accepted r fun e =>
       decide (0 < framesNeeded (loaded (obj1 .loading) elfWords) ctx1 e 0 0x200000)
     rejected [] false true ⟨0, 0, 9, 9⟩ failed && rejected elfWords true true ⟨0, 0x200000, 0, 9⟩ short &&
       rejected inTheWay true false ⟨0, 0x200000, 9, 9⟩ (accepted · fun _ => true)) ∧
    (∃ s c o, getCtx s c.id = some c ∧ getObj s c.id o.num = some o ∧ o.st = .draining ∧ o.before = []) ∧
    (∃ s c o p a, getCtx s c.id = some c ∧ getObj s c.id o.num = some o ∧ o.st = .draining ∧ o.before = [] ∧ Memory.wf s = true ∧
      o.mapped = [p] ∧ (∀ x ∈ s.objs, x.ctx = c.id → x.linkage = []) ∧ (walkFrom s c.root (p * 65536)).kind = .page ∧
      (walkFrom s c.root (p * 65536)).at' = .dev a) :=
  ⟨⟨loaded (obj1 .loading) elfWords, ctx1, obj1 .loading, ⟨0, 0x200000, [0xC0000, 0xD0000], []⟩, by decide +kernel⟩,
   by decide +kernel,
   ⟨loaded (obj1 .draining) [], ctx1, obj1 .draining, by decide +kernel⟩,
   ⟨loaded { obj1 .draining with mapped := [1] } [], ctx1, { obj1 .draining with mapped := [1] }, 1, 0x30008, by decide +kernel⟩⟩

/-- R302: a shared object for which no placement has room. -/
theorem meets_LoadFindsNoRoom : ∃ s o, getObj s 1 1 = some o ∧ o.st = .loading ∧ o.held = [] ∧ imageOf s o.image o.len 16 2 ≠ some 2 ∧
    (∀ x, sitsAt s ctx1 ((readSecs (imageOf s o.image o.len)).getD []) x = false) ∧
    readElf (imageOf s o.image o.len) 0 = .error 4 := by
  refine ⟨loaded (obj1 .loading) (elfWords.map fun x => if x.1 = 16 then (16, 0xC6A10003) else if x.1 = 144 then (144, 2 ^ 55) else x),
    obj1 .loading, by decide +kernel, rfl, rfl, by decide +kernel, fun x => ?_, by decide +kernel⟩
  rw [show (readSecs _).getD [] = [Sec.none, ⟨0x70000001, 0, 2 ^ 55, 256, 8, 0, 0, 8⟩, ⟨0x70000003, 0, 0, 264, 32, 0, 0, 8⟩] by decide +kernel]
  refine Bool.eq_false_iff.mpr fun h => ?_
  simp only [sitsAt, Bool.and_eq_true, List.all_eq_true] at h
  have hm : (2 ^ 55 + x) / 65536 ∈ takenPages [Sec.none, ⟨0x70000001, 0, 2 ^ 55, 256, 8, 0, 0, 8⟩, ⟨0x70000003, 0, 0, 264, 32, 0, 0, 8⟩] x := by
    refine List.mem_append_left _ (List.mem_eraseDups.mpr (List.mem_flatMap.mpr ⟨⟨0x70000001, 0, 2 ^ 55, 256, 8, 0, 0, 8⟩, by decide, ?_⟩))
    exact List.mem_map.mpr ⟨0, List.mem_range.mpr (by show 0 < (2 ^ 55 + x + 8 - 1) / 65536 + 1 - (2 ^ 55 + x) / 65536; omega), rfl⟩
  have := h.2 _ hm
  simp only [pageFree, Bool.and_eq_true, decide_eq_true_eq] at this
  omega

/-! ### Packets and queues -/

def queue1 (id : Nat) : Queue :=
  { id, ctx := 1, st := .running, desc := 0xE1000, ring := 0xE3000, cpl := 0xE2000, lgs := 4, lgc := 4, prio := 8, aff := 0, rcb := 0, head := 0,
    tail := 1, ncpl := 0, blocked := [], taken := false, passed := 0, turn := 0, live := [], dels := [] }
/-- A packet of a kind with its words 1 to 7. -/
def pkt (q kind : Nat) (ws : List Nat) : Packet := { q, words := ((kind :: ws) ++ List.replicate 7 0).take 8 |>.map (BitVec.ofNat 64) }
/-- Device memory as listed and these queues; context 1 runs a slice on cluster 0. -/
def queuing (qs : List Queue) (mem : List (Nat × Nat)) : State :=
  { wr { world sg with ctxs := [ctx1], teams := [team1] } mem with queues := qs, jbase := 0xE0000, nextId := 20 }
/-- The packet is accepted and acts on a state with what `f` says. -/
def takes (s : State) (p : Packet) (f : State → Queue → Bool) : Bool :=
  match getQueue s p.q with
  | some x => s.pkg == .ready && x.st == .running && x.head != x.tail && (!((p.word 0).getLsbD 8 || p.kind == 0x0E) || x.live == []) &&
      packetStatus p == 0 && f (acceptPacket s x p) x
  | none => false

theorem takes_meets {s : State} {p : Packet} {f : State → Queue → Bool} (h : takes s p f = true) :
    ∃ x u, AcceptsTo s p x u ∧ f u x = true := by
  unfold takes at h
  split at h
  · rename_i x hx
    simp only [Bool.and_eq_true, beq_iff_eq, bne_iff_ne, Bool.or_eq_true, Bool.not_eq_true', Bool.or_eq_false_iff, beq_eq_false_iff_ne] at h
    obtain ⟨⟨⟨⟨⟨h1, h2⟩, h3⟩, h4⟩, h5⟩, h6⟩ := h
    refine ⟨x, _, ⟨⟨hx, h1, h2, h3⟩, fun hf => ?_, h5, rfl⟩, h6⟩
    rcases h4 with h4 | h4
    · rcases hf with hf | hf
      · rw [hf] at h4; exact absurd h4.1 (by decide)
      · exact absurd hf h4.2
    · exact h4
  · cases h

theorem meets_TakesPackets :
    (∃ i p s x, packetForm i = some p ∧ MayTake s p x ∧ Follows p ∧ x.live ≠ []) ∧
    (∃ i p s x, packetForm i = some p ∧ MayTake s p x ∧ ¬ Follows p ∧ packetStatus p ≠ 0) :=
  ⟨⟨.signal (pkt 1 0x0E []), pkt 1 0x0E [], queuing [{ queue1 1 with live := [7] }] [], { queue1 1 with live := [7] }, rfl,
     ⟨by decide +kernel, rfl, rfl, by decide⟩, .inr (by decide +kernel), by decide⟩,
   ⟨.ctxnew (pkt 1 0x01 []), pkt 1 0x01 [], queuing [queue1 1] [], queue1 1, rfl, ⟨by decide +kernel, rfl, rfl, by decide⟩,
     by rintro (h | h) <;> revert h <;> decide +kernel, by decide +kernel⟩⟩

theorem meets_RecordsPackets :
    (∃ s x j d, getQueue s x.id = some x ∧ Memory.wf s = true ∧ physLoc s.jbase = some j ∧ physLoc x.desc = some d ∧
      overlaps (d.plus 0x20) 4 (j.plus (64 * (s.jnext % 2 ^ s.jlg))) 64 = false) ∧
    (∃ s x l, getQueue s 1 = some x ∧ Memory.wf s = true ∧ physLoc x.cpl = some l) :=
  ⟨⟨queuing [queue1 1] [], queue1 1, .dev 0xE0000, .dev 0xE1000, by decide +kernel⟩, ⟨queuing [queue1 1] [], queue1 1, .dev 0xE2000, by decide +kernel⟩⟩

theorem meets_QueuePackets :
    let one := queuing [queue1 1] [(0x40000, 5)]
    takes one (pkt 1 0 []) (fun _ _ => true) && takes one (pkt 1 0x0E [2 ^ 60]) (fun _ _ => true) &&
    takes one (pkt 1 0x0E [0x40000, 9]) (fun _ _ => lineQuiet one (.dev 0x40000) 8) && takes one (pkt 1 0x0F [2 ^ 60]) (fun _ _ => true) &&
    takes one (pkt 1 0x0F [0x40000, 5]) (fun u _ => readWord u (.dev 0x40000) == 5) &&
    takes one (pkt 1 0x0F [0x40000, 6, 1]) (fun u _ => (readWord u (.dev 0x40000)).toNat < 6) = true := by decide +kernel

/-- A queue descriptor at 0xE8000. -/
def descr (ctx aff : Nat) : List (Nat × Nat) :=
  [(0xE8000, 0x441 + 2 ^ 16 * aff + 2 ^ 32 * ctx), (0xE8008, 0xE9000), (0xE8010, 0xEA000)]
/-- The queue of that descriptor. -/
def described1 : Queue := { queue1 0 with st := .idle, desc := 0xE8000, ring := 0xE9000, cpl := 0xEA000, prio := 0, aff := 4, tail := 0 }
theorem meets_QueueNew :
    let admin (ctx aff : Nat) := queuing [queue1 0] (descr ctx aff)
    let new (s : State) (f : State → Queue → Bool) := takes s (pkt 0 0x03 [0xE8000]) fun u _ => match readDescriptor u 0xE8000 0 with | some d => f u d | none => false
    takes (queuing [queue1 0] []) (pkt 0 0x03 [0xE8000]) (fun u _ => readDescriptor u 0xE8000 0 == none) &&
    new (admin 0 0) (fun _ d => d.ctx == 0) && new (admin 9 0) (fun u d => d.ctx != 0 && !ctxUsed u d.ctx) &&
    new { admin 1 4 with bents := (admin 1 4).bents.mapIdx fun i b => { b with online := i != 2 } } (fun u d => d.ctx == 1 && Claims.maskOf u d.aff == 0) &&
    new (admin 1 4) (fun u d => ctxUsed u d.ctx && Claims.maskOf u d.aff == 4 && !idTaken u 1) &&
    new (queuing ((List.range 1024).map queue1) (descr 1 4)) (fun u d => ctxUsed u d.ctx && Claims.maskOf u d.aff == 4 &&
      u.queues.map (·.id) == List.range 1024) = true := by decide +kernel

theorem used_of_ids {u : State} (h : u.queues.map (·.id) = List.range 1024) : ∀ id, 1 ≤ id → id < 1024 → idTaken u id = true := by
  intro id _ hid
  have hm : id ∈ u.queues.map (·.id) := by rw [h]; exact List.mem_range.2 hid
  have hq : queueUsed u id = true := by simpa [queueUsed, getQueue, List.find?_isSome] using hm
  simp [idTaken, hq]

theorem meets_QueueDelete :
    let two := queuing [queue1 0, queue1 1] []
    takes two (pkt 0 0x04 []) (fun _ _ => true) && takes two (pkt 0 0x04 [9]) (fun u _ => getQueue u 9 == none) &&
    takes { two with slices := [slice1] } (pkt 0 0x04 [1]) (fun u _ => getQueue u 1 == some (queue1 1) && launchesLeft u 1) &&
    takes two (pkt 0 0x04 [1]) (fun u _ => getQueue u 1 == some (queue1 1) && !launchesLeft u 1) = true := by decide +kernel

theorem meets_Unblock :
    (∃ s x, getQueue s 1 = some x ∧ s.pkg = .ready ∧ x.st = .blocked ∧ unblockReady s x = true ∧ x.taken = true) ∧
    (∃ s x i p, getQueue s 1 = some x ∧ s.pkg = .ready ∧ x.st = .blocked ∧ unblockReady s x = true ∧ x.taken = false ∧
      p = ({ q := 1, words := x.blocked } : Packet) ∧ packetForm i = some p ∧ i = .signal p ∧ p.kind = 0x0E) :=
  ⟨⟨queuing [{ queue1 1 with st := .blocked, taken := true, blocked := (pkt 1 0x0F [0x40000, 5]).words }] [(0x40000, 5)], _, rfl, rfl, rfl,
     by decide +kernel, rfl⟩,
   ⟨queuing [{ queue1 1 with st := .blocked, blocked := (pkt 1 0x0E [0x40000, 5]).words }] [], _, .signal ⟨1, (pkt 1 0x0E [0x40000, 5]).words⟩, _, rfl, rfl, rfl,
     by decide +kernel, rfl, rfl, rfl, rfl, by decide +kernel⟩⟩

/-- Port 0 of the Sill link is UP. -/
def windowed (s : State) : State := { s with ports := s.ports.map fun p => if p.port = .sill 0 then { p with st := .up } else p }
def ringing (x : Queue) : State := windowed (queuing [x] [])

theorem meets_Registers_window :
    (∃ s, s.pkg = .ready ∧ windowOpen s = false) ∧
    (∃ s d, windowOpen s = true ∧ queueUsed s 0 = false ∧ readDescriptor s 0xE8000 0 = some d ∧ Claims.maskOf s d.aff ≠ 0) ∧
    (∃ s d, windowOpen s = true ∧ queueUsed s 0 = false ∧ readDescriptor s 0xE8000 0 = some d ∧ Claims.maskOf s d.aff = 0) ∧
    (∃ s, windowOpen s = true ∧ queueUsed s 0 = true) ∧
    (∃ s, windowOpen s = true ∧ queueUsed s 0 = false ∧ readDescriptor s 0xE8000 0 = none) ∧
    (∃ s, windowOpen s = true ∧ getQueue s 9 = none) ∧
    (let rings (p : State → Queue → BitVec 32 → Prop) : Prop :=
       ∃ s x tail, windowOpen s = true ∧ getQueue s 1 = some x ∧ x.tail < 2 ^ 32 ∧ x.head < 2 ^ 32 ∧ p s x tail
     let n (x : Queue) (tail : BitVec 32) : Nat := (tail.toNat + 2 ^ 32 - x.head) % 2 ^ 32
     let old (x : Queue) : Nat := (x.tail + 2 ^ 32 - x.head) % 2 ^ 32
     rings (fun _ x tail => x.st = .draining ∧ tail.toNat ≠ x.tail) ∧ rings (fun _ x tail => x.st ≠ .draining ∧ tail.toNat = x.tail) ∧
     rings (fun _ x tail => x.st ≠ .draining ∧ tail.toNat ≠ x.tail ∧ n x tail ≤ old x) ∧
     rings (fun _ x tail => x.st ≠ .draining ∧ tail.toNat ≠ x.tail ∧ n x tail = 2 ^ x.lgs + 1) ∧
     rings (fun _ x tail => x.st = .idle ∧ old x < n x tail ∧ n x tail = 2 ^ x.lgs)) := by
  let off (s : State) : State := { s with bents := s.bents.mapIdx fun i b => { b with online := i != 2 } }
  exact ⟨⟨queuing [queue1 1] [], rfl, by decide +kernel⟩,
   ⟨windowed (queuing [] (descr 1 4)), described1, by decide +kernel⟩,
   ⟨off (windowed (queuing [] (descr 1 4))), described1, by decide +kernel⟩,
   ⟨ringing (queue1 0), by decide +kernel⟩, ⟨windowed (queuing [] []), by decide +kernel⟩, ⟨ringing (queue1 1), by decide +kernel⟩,
   ⟨ringing { queue1 1 with st := .draining }, { queue1 1 with st := .draining }, 3, by decide +kernel⟩,
   ⟨ringing (queue1 1), queue1 1, 1, by decide +kernel⟩,
   ⟨ringing { queue1 1 with tail := 2 }, { queue1 1 with tail := 2 }, 1, by decide +kernel⟩,
   ⟨ringing (queue1 1), queue1 1, 17, by decide +kernel⟩,
   ⟨ringing { queue1 1 with st := .idle, tail := 0 }, { queue1 1 with st := .idle, tail := 0 }, 16, by decide +kernel⟩⟩

/-- R385, R411: what the registers hold, a place in a snapshot record among them. -/
theorem meets_WindowReads :
    let s : State := { ringing (queue1 1) with jlg := 6, jnext := 5, pcsel := 3, snap := { State.reset.snap with valid := true, recs := [(2, [7, 8])] } }
    windowOpen s = true ∧ registerHolds s 0x10 6 ∧ registerHolds s 0x18 5 ∧ registerHolds s 0x5000 3 ∧ registerHolds s 0x4000 1 ∧
    registerHolds s 0x10108 8 := by
  refine ⟨by decide +kernel, ?_, ?_, ?_, ?_, ?_⟩
  · exact .inr (.inr (.inl (by decide)))
  · exact .inr (.inr (.inr (.inl (by decide))))
  · exact .inr (.inr (.inr (.inr (.inl (by decide)))))
  · exact .inr (.inr (.inr (.inr (.inr (.inl (by decide))))))
  · exact .inr (.inr (.inr (.inr (.inr (.inr ⟨2, 1, (2, [7, 8]), by decide⟩)))))

/-! ### Packets on contexts, objects, pages and pools -/

/-- A context record at 0xE8000 whose root maps page 1, with a root region block at 0x10000. -/
def newContext (asid ver : Nat) : State :=
  queuing [queue1 0] [(0xE8000, 0x10000), (0xE8008, asid), (0x40000, ver)]
def ctxnewP : Packet := pkt 0 0x01 [0xE8000, 0x10000, 0x10400, 2 ^ 32 - 1 + 2 ^ 32 * 3, 0x50000, 5]

theorem meets_ContextPackets :
    takes (newContext 7 1) (pkt 0 0x01 [2 ^ 60]) (fun _ _ => true) &&
    takes (newContext 7 0) ctxnewP (fun u _ => match readRcb u 0x10000 0x10000 with | some r => r.ver == 0 | none => false) &&
    takes (newContext 1 1) ctxnewP (fun u _ => u.ctxs.any fun c => c.asid == 1) &&
    takes (newContext 7 1) ctxnewP (fun u _ => !(u.ctxs.any fun c => c.asid == 7) && ctxUsed u 1 && !ctxUsed u 2 &&
      (match readRcb u (readNat u (.dev 0xE8000) 8) (ctxnewP.word 2) with | some r => r.ver == 1 && !r.rsv && r.parent == 0 | none => false)) &&
    takes (newContext 7 1) (pkt 0 0x02 [9]) (fun u _ => getCtx u 9 == none) &&
    takes (newContext 7 1) (pkt 0 0x02 [1]) (fun u _ => (getCtx u 1).any fun c => c.st == .running) &&
    takes { newContext 7 1 with ctxs := [{ ctx1 with st := .saved, ranks := [] }] } (pkt 0 0x02 [1]) (fun u _ => (getCtx u 1).any fun c => c.st == .saved) &&
    takes { newContext 7 1 with ctxs := [{ ctx1 with st := .resetting }] } (pkt 0 0x02 [1]) (fun u _ => (getCtx u 1).any fun c => c.st == .resetting && !c.destroy) &&
    takes { newContext 7 1 with ctxs := [{ ctx1 with st := .resetting, destroy := true }] } (pkt 0 0x02 [1])
      (fun u _ => (getCtx u 1).any fun c => c.st == .resetting && c.destroy) &&
    takes (queuing [queue1 1] []) (pkt 1 0x08 [0, 9 + 2 ^ 32 * 8]) (fun u x => (getCtx u x.ctx).any fun c => c.st == .running) = true := by decide +kernel

theorem meets_ContextRecord : ∃ u : State, ∃ r, ContextRecord u ctxnewP (.dev 0xE8000) ∧ RootRegion u ctxnewP (.dev 0xE8000) r :=
  ⟨newContext 7 1, (readRcb (newContext 7 1) 0x10000 0x10000).getD ⟨0, 0, 0, false, 0, 0, 0, 0, 0, 0, true⟩, by unfold ContextRecord; decide +kernel,
    by unfold RootRegion; decide +kernel⟩

/-- A READY object with a kernel, and its context's root region block at 0x10000 of the address space. -/
def objectState (st : ObjState) : State :=
  let s := queuing [queue1 1] [(0x40000, 1)]
  { s with objs := [{ obj1 st with kernels := [(0x00000100002001A1, 0x100000)] }], ctxs := [{ ctx1 with rcb := 0x10000 }] }
def launchP (kernel teams affEcls : Nat) : Packet := pkt 1 0x07 [1 + 2 ^ 32 * kernel, 5, teams + affEcls, 100]

theorem meets_ObjectPackets :
    let chain (u : State) : Option (List Rcb) := readChain u 0x10000 16 [] 0x10000
    takes (objectState .ready) (pkt 1 0x05 [2 ^ 60, 9]) (fun _ _ => true) &&
    takes { objectState .ready with ctxs := [] } (pkt 1 0x05 [0xB0000, 9]) (fun u x => getCtx u x.ctx == none) &&
    takes (objectState .ready) (pkt 1 0x05 [0xB0000, 9]) (fun u x => (getCtx u x.ctx).isSome) &&
    takes (objectState .ready) (pkt 1 0x06 [9]) (fun u x => getObj u x.ctx 9 == none) &&
    takes (objectState .draining) (pkt 1 0x06 [1]) (fun u x => (getObj u x.ctx 1).any fun o => o.st == .draining) &&
    takes (objectState .loading) (pkt 1 0x06 [1]) (fun u x => (getObj u x.ctx 1).any fun o => o.st == .loading) &&
    takes (objectState .ready) (pkt 1 0x06 [1]) (fun u x => (getObj u x.ctx 1).any fun o => o.st == .ready) &&
    takes (objectState .loading) (launchP 0 4 0) (fun u x => (getObj u x.ctx 1).any fun o => o.st == .loading) &&
    takes (objectState .ready) (launchP 3 4 0) (fun u x => (getObj u x.ctx 1).any fun o => o.kernels[3]? == none) &&
    takes (objectState .ready) (launchP 0 0 0) (fun u _ => (chain u).isSome) &&
    takes { objectState .ready with ctxs := [ctx1] } (launchP 0 4 0) (fun u _ => readChain u 0x10000 16 [] 0 == none) &&
    takes (objectState .ready) (launchP 0 4 (2 ^ 48 * 7)) (fun u x => (chain u).any fun l => 7 ≤ (effective 1 l).ecap &&
      launchBents u { ctx1 with rcb := 0x10000 } x (launchP 0 4 (2 ^ 48 * 7)) == 1) &&
    takes (objectState .ready) (launchP 0 4 (2 ^ 32 * 2)) (fun u x =>
      launchBents u { ctx1 with rcb := 0x10000 } x (launchP 0 4 (2 ^ 32 * 2)) == 0) = true := by decide +kernel

/-- The region block caps the energy class at 3. -/
theorem meets_LaunchCapped : takes { objectState .ready with dev := (wr (objectState .ready) [(0x40000, 1 + 2 ^ 19), (0x40010, 2 ^ 32 * 3)]).dev }
    (launchP 0 4 (2 ^ 48 * 4)) (fun u _ => (readChain u 0x10000 16 [] 0x10000).any fun l => (effective 1 l).ecap == 3) = true := by decide +kernel

theorem meets_PagePackets :
    let s := queuing [queue1 1] []
    takes s (pkt 1 0x09 [2 ^ 60, 2]) (fun _ _ => true) &&
    takes s (pkt 1 0x09 [0x10000, 2]) (fun _ x => invalidateReady s x.ctx 1 2) &&
    takes { s with groups := [{ sg with st := .waiting, wreason := .pflt, fault := some (0x10004, 0) }] } (pkt 1 0x0B [(handleOf (on sg) sg).toNat])
      (fun u x => (groupOfHandle u x.ctx (handleOf (on sg) sg)).any (retryServes u)) &&
    takes s (pkt 1 0x0B [0]) (fun u x => (groupOfHandle u x.ctx 0).isNone) &&
    takes s (pkt 1 0x0C [2 ^ 60, 3]) (fun u x => (getCtx u x.ctx).isSome) &&
    takes s (pkt 1 0x0C [0x10000, 0]) (fun u _ => (unitAt u 0x10000 0x10000).any fun z => z.frame / 2 ^ 37 == 0 && z.n == 1) &&
    takes s (pkt 1 0x0C [0x10000, 3]) (fun u x => (unitAt u 0x10000 0x10000).any fun z => z.frame / 2 ^ 37 != 3 && (getBent u 3).online &&
      (migrateTarget u x.ctx 3 z.n).isNone) &&
    takes { s with evacReserve := [3 * 2 ^ 37] } (pkt 1 0x0C [0x10000, 3]) (fun u x => (unitAt u 0x10000 0x10000).any fun z =>
      z.frame / 2 ^ 37 != 3 && (getBent u 3).online && (migrateTarget u x.ctx 3 z.n).isSome) = true := by decide +kernel

theorem meets_PoolPackets :
    let a := queuing [queue1 0] [(0xE8000, 2 ^ 37), (0xE8008, 0xA0000)]
    let t := { a with ctxs := [{ ctx1 with pool := [[], [2 ^ 37], [], [], [], [], [], []] }] }
    takes a (pkt 0 0x0A [9, 0xE8000, 2]) (fun u _ => getCtx u 9 == none) && takes a (pkt 0 0x0A [1, 2 ^ 60, 2]) (fun u _ => (getCtx u 1).isSome) &&
    takes a (pkt 0 0x0A [1, 0xE8000, 2]) (fun u _ => (upTo 2).all fun k => readNat u ((Loc.dev 0xE8000).plus (8 * k)) 8 % 65536 == 0) &&
    takes a (pkt 0 0x0A [1, 0x40000, 1]) (fun _ _ => true) && takes t (pkt 0 0x0A [1 + 2 ^ 16, 0xE8000, 0]) (fun _ _ => true) &&
    takes t (pkt 0 0x0A [1 + 2 ^ 16, 0xE8000, 1]) (fun u _ => (getCtx u 1).any fun c => c.pool[1]? == some [2 ^ 37] && c.pool[0]? == some []) = true := by
  decide +kernel

theorem meets_OfflineAndCensus :
    let a := queuing [queue1 0] []
    takes a (pkt 0 0x0D [0]) (fun _ _ => (getBent a 0).online && a.ctxs.any fun c => c.ranks.any fun cl => cl / 24 == 0) &&
    takes { a with ctxs := [] } (pkt 0 0x0D [3]) (fun u _ => (getBent u 3).online && (takeOffline u 3 false).2 == some 0 && 3 < u.bents.length) &&
    takes a (pkt 0 0x10 [2 ^ 60, 64]) (fun _ _ => true) &&
    takes a (pkt 0 0x10 [0xE8000, 63]) (fun u _ => u.ctxs.length + u.queues.length == 2 && u.objs == [] && u.slices == []) &&
    takes a (pkt 0 0x10 [0xE8000, 64]) (fun u _ => u.ctxs.length + u.queues.length == 2 && u.objs == [] && u.slices == []) = true := by decide +kernel

/-- A root table that its bent homes and that no reserve can take cannot leave. -/
theorem evacuate_fails {s : State} {c : Context} (hs : s.ctxs = [c]) (hr : c.root / 2048 % 2 ≠ 1) (hb : homeOf c.root = 0)
    (ht : evacTarget s c.id 0 1 false = none) : (evacuate s 0).2 = false := by
  have hg : getCtx s c.id = some c := by simp [getCtx, hs]
  have he : evacTable 0 c.id s = some none := by
    unfold evacTable tablesOf
    simp [hg, hr, hb, ht]
  have hn : tableCount s c 0 ≠ 0 := by
    unfold tableCount tablesOf
    simp [hr, hb]
  have h1 : evacTables 0 c.id (tableCount s c 0) s = (s, false) := by
    obtain ⟨n, hn⟩ := Nat.exists_eq_succ_of_ne_zero hn
    rw [hn, evacTables, he]
  have h2 : evacCtxTables 0 (s, true) c.id = (s, false) := by simp [evacCtxTables, hg, h1]
  simp [evacuate, hs, h2, evacCtxLeaves, hg]

/-- A bent whose pages have no place to go stays online. -/
theorem meets_OfflineFails : ∃ p s x u, AcceptsTo s p x u ∧ (takeOffline u 0 false).2 = none := by
  have h : takes { queuing [queue1 0] [] with ctxs := [{ ctx1 with ranks := [] }], groups := [], teams := [] } (pkt 0 0x0D [0])
      (fun u _ => u.ctxs == [{ ctx1 with ranks := [] }] && (evacTarget u 1 0 1 false).isNone && (getBent u 0).online) = true := by decide +kernel
  obtain ⟨x, u, ha, hu⟩ := takes_meets h
  simp only [Bool.and_eq_true, beq_iff_eq, Option.isNone_iff_eq_none] at hu
  refine ⟨_, _, x, u, ha, ?_⟩
  have hf := evacuate_fails hu.1.1 (by decide) (by decide) hu.1.2
  simp [takeOffline, hu.2, hf]

theorem meets_TowerLoss : ∃ (s : State) (bent : BitVec 3), (getBent s bent.toNat).online = true ∧ bent.toNat < s.bents.length :=
  ⟨on sg, 7, by decide +kernel⟩

theorem meets_Badkind : ∃ p s x, MayTake s p x ∧ (Follows p → x.live = []) ∧ 0x10 < p.kind :=
  ⟨pkt 1 0x11 [], queuing [queue1 1] [], queue1 1, ⟨by decide +kernel, rfl, rfl, by decide⟩, fun _ => rfl, by decide +kernel⟩

/-! ### The host, the links, the package -/

def withPort (s : State) (p : Port) (st : PortState) : State :=
  { s with ports := s.ports.map fun x => if x.port = p then { x with st } else x }

theorem meets_HostAccesses :
    let s := on sg
    let u := withPort s (.sill 0) .up
    (sillAt s 0 == .up || sillAt s 1 == .up) = false ∧ sillAt u 0 = .up ∧ 2 ^ 40 - 4 + 4 ≤ 2 ^ 40 ∧ Memory.wf u = true ∧
    lineQuiet u (.dev 0x40000) 4 = true ∧ isPoisoned u (.dev 0x40000) 4 = false ∧ sillAt u (6 % 2) = .up ∧
    isPoisoned u (.host (128 * 6)) 2 = false := by decide +kernel

/-- A group that waits to reach package 3, whose route is port 5. -/
def toPeer : Group := { sg with st := .waiting, wreason := .peer, awaits := 3 }
def routed (st : PortState) : State := { withPort (on toPeer) (.ridge 5) st with routes := State.reset.routes.set 3 0x20 }
theorem meets_PeerChecked :
    let waits (s : State) : Prop := getGroup s toPeer.gid = some toPeer ∧ toPeer.st = .waiting ∧ toPeer.wreason = .peer
    let up (s : State) (n : Nat) : Prop := n < 16 ∧ ((s.routes[toPeer.awaits]?).getD 0).getLsbD n = true ∧ portAt s n = .up
    (waits (routed .up) ∧ toPeer.awaits ∉ (routed .up).held ∧ up (routed .up) 5) ∧
    (waits { routed .up with held := [3] } ∧ toPeer.awaits ∈ ({ routed .up with held := [3] } : State).held) ∧
    (waits (routed .retraining) ∧ ∀ n < 16, ¬ up (routed .retraining) n) := by decide +kernel

/-- An export table whose first entry gives 0x1000 bytes at 0x10000 with key 5. -/
def exporting : State := wr (world sg) [(0x7FFD0, 0xF010B), (0xF0000, 0x500000000000F), (0xF0008, 0x10000), (0xF0010, 0x1000)]

/-- The remote checks pass at a place of the device, where an access is performed. -/
def arrives (s : State) (op : PeerOp) : Bool :=
  match remoteCheck s (peerNeed op).1 1 0 5 16 (peerNeed op).2 true with
  | (u, .ok (.dev a)) => s.pkg == .ready && !(isPoisoned u (.dev a) (peerNeed op).2) && lineQuiet u (.dev a) (peerNeed op).2 && Memory.wf u
  | _ => false
theorem arrives_meets {s op} (h : arrives s op = true) : ∃ u l, s.pkg = .ready ∧
    remoteCheck s (peerNeed op).1 1 0 5 16 (peerNeed op).2 true = (u, .ok l) ∧ isPoisoned u l (peerNeed op).2 = false ∧
    lineQuiet u l (peerNeed op).2 = true ∧ Memory.wf u = true ∧ (∀ d c e k o, l ≠ .peer d c e k o) := by
  unfold arrives at h
  split at h
  · rename_i u a hr
    simp only [Bool.and_eq_true, beq_iff_eq, Bool.not_eq_true'] at h
    exact ⟨u, .dev a, h.1.1.1, hr, h.1.1.2, h.1.2, h.2, by simp⟩
  · cases h
theorem meets_PeerIncoming :
    arrives exporting (.load 8) && arrives exporting (.store [1, 2, 3, 4]) && arrives exporting (.atomic 4 0 [(1, 0), (2, 0)]) = true := by decide +kernel
theorem meets_PeerTrap : (remoteCheck exporting .load 1 0 6 16 8 true).2 = .trap .pprot ∧
    (remoteCheck exporting .load 1 0 5 0x1000 8 true).2 = .trap .bounds ∧ exporting.pkg = .ready := by decide +kernel

/-- Ports in each state, with the attempts and cycles of the limits of R399. -/
theorem meets_PortMoves :
    let s (st : PortState) (n m : Nat) : State := { on sg with ports := [{ port := .sill 0, st, tries := n, cycles := m }] }
    let row (st : PortState) (e : PortEvent) (n m : Nat) : Option PortState := (getPort (s st n m) (.sill 0)).bind fun x => nextPort x.st e x.tries x.cycles
    row .off .enable 0 0 = some .training ∧ row .training .trainOk 0 0 = some .up ∧ row .training .trainFail 6 0 = none ∧
    row .training .trainFail 7 0 = some .fenced ∧ row .retraining .timeout 0 65535 = none ∧ row .retraining .timeout 0 65536 = some .fenced ∧
    row .up .fence 0 0 = some .fenced ∧ row .fenced .unfence 0 0 = some .training ∧ row .up .disable 0 0 = some .off := by decide +kernel

theorem meets_PortCommands :
    portForm (.trainOk (.sill 1)) = some (.sill 1, .trainOk) ∧ linkForm (.linkEnable (.ridge 3)) = some (.ridge 3, .enable) ∧
    (on sg).pkg = .ready ∧ (∀ p ∈ (on sg).ports, (∃ n, p.port = .ridge n) → p.st = .off ∨ p.st = .fenced) := by
  refine ⟨rfl, rfl, rfl, ?_⟩
  decide +kernel

theorem meets_SetDidNotQuiet : ∃ s : State, s.pkg = .ready ∧ ∃ p ∈ s.ports, (∃ n, p.port = .ridge n) ∧ p.st = .up :=
  ⟨withPort (on sg) (.ridge 2) .up, rfl, { port := .ridge 2, st := .up, tries := 0, cycles := 0 }, by decide +kernel, ⟨2, rfl⟩, rfl⟩

theorem meets_SetRoute :
    let s := withPort (on sg) (.ridge 2) .up
    let up (m : BitVec 16) : List Nat := (upTo 16).filter fun n => m.getLsbD n && portAt s n == .up
    up ((s.routes[31]?).getD 0) = up 0 ∧ up ((s.routes[31]?).getD 0) ≠ up 4 := by decide +kernel

/-- The states of the package; empty slots hold nothing that it boots. -/
theorem meets_BringsUp :
    State.reset.pkg = .off ∧ ({ State.reset with pkg := .boot } : State).pkg = .boot ∧ State.reset.authed = false ∧ CannotBoot State.reset.fw := by
  refine ⟨rfl, rfl, rfl, ?_⟩
  intro i h
  rcases h with h | h <;> simp [slotOf, State.reset, Firmware.reset] at h

/-- A number in 48 bytes, the most significant first. -/
def be48 (n : Nat) : List Byte := (bytesOf 48 n).reverse
/-- An image without a body, its key 5 times the base point of P-384 (calculated outside the model). -/
def image : FwImage :=
  { svn := 1, keySlot := 3, gen := 6, body := []
    key :=
      be48 0x11DE24A2C251C777573CAC5EA025E467F208E51DBFF98FC54F6661CBE56583B037882F4A1CA297E60ABCDBC3836D84BC ++
      be48 0x8FA696C77440F92D0F5837E90A00E7C5284B447754D5DEE88C986533B6901AEB3177686D0AE8FB33184414ABE6C1713A
    signature :=
      be48 0x283C1D7365CE4788F29F8EBF234EDFFEAD6FE997FBEA5FFA2D58CC9DFA7B1C508B05526F55B9EBB2040F05B48FB6D0E1 ++
      be48 0x7C3DD34B742D06354D1D742620120962D35ABB485ABB22E54198F6F63AE8B21EE9990CF5591BF8652A529134DD90DEDC }
def slots : Firmware :=
  { slotA := some image, slotB := none, activeA := true, staged := false, minSvn := 1, revoked := 7
    keyHashes := List.replicate 4 (sha384 image.key), patches := [] }
theorem image_authentic : Authentic slots image :=
  ⟨by decide, by decide, by
    rw [show slots.keyHashes = List.replicate 4 (sha384 image.key) from rfl, show image.keySlot = 3 from rfl,
      List.getElem?_replicate, if_pos (by decide), Option.getD_some],
    by decide +kernel, by decide, rfl⟩
/-- The active slot boots; where only the other holds the image, that one does. -/
theorem meets_Boots : Boots slots true ∧ Boots { slots with activeA := false } true ∧ Authentic slots image :=
  ⟨.inl ⟨⟨image, rfl, image_authentic⟩, rfl⟩,
    .inr ⟨(by rintro ⟨i, h, -⟩; cases h), ⟨image, rfl, image_authentic⟩, rfl⟩, image_authentic⟩
theorem meets_NotAuthentic : ¬ Authentic slots { image with keySlot := 2 } ∧ ¬ Authentic slots { image with gen := 5 } ∧
    ¬ Authentic slots { image with svn := 0 } := by
  refine ⟨fun h => ?_, fun h => ?_, fun h => ?_⟩ <;> simp [Authentic, slots, image] at h

/-- Port 2 of the Ridge links is FENCED when the package becomes READY; none is. -/
theorem meets_Journals :
    (∃ x ∈ (withPort (on sg) (.ridge 2) .fenced).ports, x.st = .fenced) ∧ (∀ x ∈ (on sg).ports, x.st ≠ .fenced) := by decide +kernel
/-- A snapshot that SNAPREAD returns. -/
theorem meets_SnapRead : ∃ s : State, ∃ r, s.pkg = .ready ∧ s.snap.recs.find? (fun x => x.1 == 191) = some r ∧ r.2[15]? = some 7 :=
  ⟨{ on sg with snap := { State.reset.snap with valid := true, recs := [(191, List.replicate 16 7)] } }, _, rfl, rfl, rfl⟩

theorem meets_Manages :
    readyForm .snapread = some 0x08 ∧ State.reset.pkg ≠ .ready ∧ ({ State.reset with pkg := .standby } : State).pkg ≠ .off ∧
    spdmForm (.getDigests ⟨0x12, 0, false, 0, 0⟩) = some (0x181, true) ∧ spdmForm (.getMeasurements ⟨0x13, 0, true, 5, 0⟩) = some (0x1E0, true) ∧
    spdmForm (.getMeasurements ⟨0x13, 0, true, 6, 0⟩) = some (0x1E0, false) := by
  refine ⟨rfl, ?_, ?_, ?_, ?_, ?_⟩ <;> decide

theorem meets_MgmtOffline :
    let a := on sg
    let t : State := { a with ctxs := [], groups := [], teams := [] }
    ((getBent a 0).online = true ∧ ∃ c ∈ a.ctxs, ∃ cl ∈ c.ranks, cl / 24 = 0) ∧
    (¬ ∃ c ∈ t.ctxs, ∃ cl ∈ c.ranks, cl / 24 = 3) ∧ (takeOffline t 3 false).2 = some 0 := by decide +kernel

/-! ### Steps, decoding, rounding, memory -/

/-- The word, fetched as the first instruction after reset. -/
def first (w : Nat) : State := State.reset.withFetchWord 64 w

/-- The group's PC leads to device memory that no cache holds, and its bytes decode to `r`. -/
def fetching (s0 : State) (g : Group) (r : Except DecodeError Instr) : Bool :=
  ptrSpace g.pc == 0 && ptrFormed g.pc && bitsOf g.pc 2 0 == 0 &&
  (match check45 s0 (addrCtx s0 g) .fetch (bitsOf g.pc 54 0) with
   | (u, .ok (.dev a)) => !(isPoisoned u (.dev a) 8) && fetchLink u g (bitsOf g.pc 54 0) (.dev a) == .open' &&
     icacheFind u g (bitsOf g.pc 54 0) == none && ilineFind u (bentOf g.cl) (.dev a) == none &&
     (match decodeBytes (readBytes u (.dev a) 8), r with | .ok i, .ok j => i == j | .error c, .error d => c == d | _, _ => false)
   | _ => false)

theorem fetching_meets {s0 : State} {g : Group} {r : Except DecodeError Instr} (h : fetching s0 g r = true) :
    ∃ u l, FetchesAt s0 u g l ∧ decodeBytes (readBytes u l 8) = r := by
  unfold fetching at h
  simp only [Bool.and_eq_true, beq_iff_eq] at h
  obtain ⟨⟨⟨h5, h6⟩, h7⟩, h8⟩ := h
  split at h8
  · rename_i u a hc
    simp only [Bool.and_eq_true, beq_iff_eq, Bool.not_eq_true'] at h8
    obtain ⟨⟨⟨⟨h1, h2⟩, h3⟩, h4⟩, h9⟩ := h8
    refine ⟨u, .dev a, ⟨h5, h6, h7, hc, h1, h2, fun r hr => by simp [h3] at hr, fun r hr => by simp [h4] at hr⟩, ?_⟩
    split at h9 <;> simp_all
  · cases h8

/-- Group 1, whose turn the agenda says it is, or the rest of it. -/
def turn1 (w : Nat) (r : Except DecodeError Instr) : Bool :=
  match (first w).agenda, getGroup (first w) 1 with
  | [.issue 1], some g => let s0 := { first w with agenda := [] }
    g.st == .ready && mayIssue s0 g && g.gid == 1 && (match g.step with | .due _ => false | _ => true) && (first w).resume == [] && fetching s0 g r
  | _, _ => false

theorem meets_fetches (w : Nat) (r : Except DecodeError Instr) (h : turn1 w r = true) :
    ∃ s s0 u g l, TurnOf s s0 g ∧ FetchesAt s0 u g l ∧ decodeBytes (readBytes u l 8) = r := by
  unfold turn1 at h
  split at h
  · rename_i g ha hg
    simp only [Bool.and_eq_true, beq_iff_eq] at h
    obtain ⟨⟨⟨⟨⟨h1, h2⟩, h3⟩, h4⟩, h5⟩, h6⟩ := h
    obtain ⟨u, l, hf, hd⟩ := fetching_meets h6
    exact ⟨first w, { first w with agenda := [] }, u, g, l,
      ⟨by rw [h3]; exact hg, h1, h2, fun a ha => by simp_all, h5, .inl ⟨[], by rw [h3]; exact ha, rfl⟩⟩, hf, hd⟩
  · cases h

/-- The agenda may be empty: the first group that may issue does. -/
theorem meets_FirstReady : ∃ s s0 g, TurnOf s s0 g ∧ s.agenda = [] :=
  ⟨{ first 0 with agenda := [] }, { first 0 with agenda := [] }, ((first 0).groups[0]?).getD sg,
    And.intro (by decide +kernel) (And.intro (by decide +kernel) (And.intro (by decide +kernel)
      (And.intro (fun a h => by cases h) (And.intro (by decide +kernel) (Or.inr (And.intro rfl (And.intro rfl (by decide +kernel)))))))), rfl⟩

/-- The group waits, and a wake has found that it may issue. -/
def waiting1 (w : Nat) : Group := { ((first w).groups[0]?).getD sg with st := .waiting, wreason := .age }
def again1 (w : Nat) : State := { first w with groups := [waiting1 w], agenda := [], resume := [1] }
theorem meets_Again (w : Nat) (r : Except DecodeError Instr) (hm : mayIssue { again1 w with resume := [] } (waiting1 w) = true)
    (hf : fetching { again1 w with resume := [] } (waiting1 w) r = true) :
    ∃ s s0 u g l, AgainOf s s0 g ∧ FetchesAt s0 u g l ∧ decodeBytes (readBytes u l 8) = r := by
  obtain ⟨u, l, hf, hd⟩ := fetching_meets hf
  exact ⟨again1 w, { again1 w with resume := [] }, u, waiting1 w, l, ⟨[], rfl, rfl, rfl, rfl, rfl, nofun, hm⟩, hf, hd⟩

theorem meets_StepRuns : ∃ s s0 u g l, TurnOf s s0 g ∧ FetchesAt s0 u g l ∧ decodeBytes (readBytes u l 8) = .ok (.leaImm c0 { zi with sa := .a 2, fn := 0b100100, imm32 := 0x100 }) :=
  meets_fetches 0x5200_2048_0000_0100 _ (by decide +kernel)
theorem meets_StepAgain : ∃ s s0 u g l, AgainOf s s0 g ∧ FetchesAt s0 u g l ∧ decodeBytes (readBytes u l 8) = .ok (.nop c0 zs) :=
  meets_Again 0 _ (by decide +kernel) (by decide +kernel)
theorem meets_StepTraps : (∃ s s0 u g l, TurnOf s s0 g ∧ FetchesAt s0 u g l ∧ decodeBytes (readBytes u l 8) = .error .illop) ∧
    ∃ s s0 u g l, TurnOf s s0 g ∧ FetchesAt s0 u g l ∧ decodeBytes (readBytes u l 8) = .error .illfld :=
  ⟨meets_fetches 0xFF00_0000_0000_0000 _ (by decide +kernel), meets_fetches 0x604E_2883_A800_0000 _ (by decide +kernel)⟩

/-- The fetched instruction has its effect: NOP goes on to the next word. -/
theorem test_step_nop :
    (match step (first 0) with | .next t => (getGroup t 1).map (·.pc) | _ => none) = some 0x10008 := by decide +kernel

/-- An event, an instruction word and a packet on the agenda. -/
theorem meets_StepEvent :
    (∃ s : State, ∃ i rest, s.agenda = .event i :: rest ∧ s.resume = [] ∧ encode i = none ∧ packetForm i = none) ∧
    (∃ s : State, ∃ i rest w, s.agenda = .event i :: rest ∧ s.resume = [] ∧ encode i = some w) ∧
    (∃ s : State, ∃ i rest qu p, s.agenda = .event i :: rest ∧ s.resume = [] ∧ packetForm i = some p ∧ nextQueue { s with agenda := rest } = some qu ∧
      headPacket { s with agenda := rest } qu = p ∧ decodePacket p = i ∧ s.pkg = .ready) :=
  let s := queuing [queue1 1] []
  ⟨⟨{ State.reset with agenda := [.event .standbyOn] }, .standbyOn, [], rfl, rfl, rfl, rfl⟩,
   ⟨{ State.reset with agenda := [.event (.nop c0 zs)] }, .nop c0 zs, [], 0, rfl, rfl, by decide +kernel⟩,
   ⟨{ s with agenda := [.event (.nopPacket (pkt 1 0 []))] }, .nopPacket (pkt 1 0 []), [], queue1 1, pkt 1 0 [],
     by decide +kernel, by decide +kernel, by decide +kernel, by decide +kernel, by decide +kernel, by decide +kernel, by decide +kernel⟩⟩
theorem meets_StepPacket : ∃ s : State, ∃ qu, s.resume = [] ∧ s.agenda = .take qu.id :: [] ∧ s.pkg = .ready ∧ nextQueue { s with agenda := [] } = some qu :=
  ⟨{ queuing [queue1 1] [] with agenda := [.take (queue1 1).id] }, queue1 1, by decide +kernel⟩

theorem meets_Decoding : ∃ i w, encode i = some w ∧ i.wf = true ∧ decodeWord w = .ok i :=
  ⟨.add c0 { z3 with sa := .a 3, ty := .i32, imm := true, imm16 := 0xFFFB }, 0x3000_3000_1020_FFFB, by decide +kernel⟩

/-- R62: a privileged instruction in user mode, past check 2. -/
theorem meets_FirstCheck : ∃ s g i w k, encode i = some w ∧ getGroup s s.cur = some g ∧ firstCheck s g i w = some k :=
  ⟨on sg, sg, .tret cu zs, 0xE280_0000_0000_0000, .priv, by decide +kernel⟩

/-- 1 is held; 1 + 2^-30 is not, in binary32; a magnitude beyond the largest; in e2m1, 7 lies between the largest value and
one last place above it; under FTZO, 2^-149 is below the least normal magnitude. -/
theorem meets_Rounding :
    let f := fmtF32
    let x (n d : Nat) (e : Int) : Nat × Nat := scaleTo n d e (f.emin - f.fb)
    unitsOf f 0x3F800000 * (x 1 1 0).2 = (x 1 1 0).1 ∧
    (unitsOf f 0x3F800000 * (x (2 ^ 30 + 1) (2 ^ 30) 0).2 < (x (2 ^ 30 + 1) (2 ^ 30) 0).1 ∧ (x (2 ^ 30 + 1) (2 ^ 30) 0).1 < unitsOf f 0x3F800001 * (x (2 ^ 30 + 1) (2 ^ 30) 0).2) ∧
    unitsOf f (f.maxCode + 1) * (x 1 1 128).2 ≤ (x 1 1 128).1 ∧
    (let y := scaleTo 7 1 0 (fmtE2m1.emin - fmtE2m1.fb)
     unitsOf fmtE2m1 fmtE2m1.maxCode * y.2 < y.1 ∧ y.1 < unitsOf fmtE2m1 (fmtE2m1.maxCode + 1) * y.2) ∧
    unitsOf f 1 * (x 1 1 (-149)).2 = (x 1 1 (-149)).1 := by decide +kernel

theorem meets_EveryStep : ∃ s t : State, Memory.wf s = true ∧ s.dev ≠ State.reset.dev ∧ step s = .next t :=
  ⟨first 0, match step (first 0) with | .next t => t | _ => State.reset, by decide +kernel, by decide +kernel, by rfl⟩
end Sys2Proof.Tests
end

section
/-! R114, the end of an arm. First the trap at the join address: an instruction that has a word is issued, and where the
manual's checks (`firstCheck`) find nothing, so do the model's, up to the one for the join address. Then `completed` in
each case of the arm's end, from one equation of `settleArms` a branch. -/

namespace Sys2Proof.Machine
open Sys2Proof.Claims

/-! ### Instructions that have a word -/

theorem word_getLsbD_u (opc : BitVec 8) (c : Ctl) (b : BitVec 49) : (word opc c b).getLsbD 55 = c.u := by
  simp only [word, Ctl.bits, bit1, BitVec.getLsbD_append]
  simp

/-- R49, R64: an instruction that has a word is one that a group issues, and bit 55 of its word is the U of its control
field. -/
theorem exec_eq_issue_of_encode {i : Instr} {w : Word} (h : encode i = some w) :
    ∃ c body, w.getLsbD 55 = c.u ∧ ∀ s, exec i s = issue i c body s := by
  -- `cases h` closes the constructors without a word, the steps of the other agents.
  cases i <;> cases h <;> exact ⟨_, _, word_getLsbD_u _ _ _, fun _ => rfl⟩

/-! ### Checks 2 to 5 of R62 -/

/-- Four checks in order find nothing exactly where each of them passes. -/
theorem checks_pass_iff {p q r t : Prop} [Decidable p] [Decidable q] [Decidable r] [Decidable t] {a b c d : Cause} :
    (if p then some a else if q then some b else if r then some c else if t then some d else none) = none ↔
      ¬ p ∧ ¬ q ∧ ¬ r ∧ ¬ t := by
  split_ifs <;> simp_all

section
variable {s : State} {g : Group} {i : Instr} {w : Word}

theorem fieldsOk_of_firstCheck (h : firstCheck s g i w = none) : fieldsOk i g = true := by
  obtain ⟨hfields, -, -, -⟩ := checks_pass_iff.mp h
  simp only [not_or, Bool.not_eq_false, Bool.not_eq_true] at hfields
  obtain ⟨hwf, hunif⟩ := hfields
  unfold fieldsOk
  rw [hwf, Bool.true_and]
  split
  · exact Bool.not_eq_eq_eq_not.mpr hunif
  · rfl

theorem needsPriv_of_firstCheck (h : firstCheck s g i w = none) (hg : g.prv = false) : needsPriv i = false := by
  obtain ⟨-, hopen, -, -⟩ := checks_pass_iff.mp h
  have hpriv := fun hp => hopen (.inl ⟨hg, hp⟩)
  unfold needsPriv
  split
  case h_8 c f =>
    cases hr : SReg.ofNum f.sreg.toNat with
    | none => rfl
    | some r => simpa [hr] using hpriv
  case h_9 => rfl
  all_goals exact absurd rfl hpriv

theorem openTo_of_firstCheck (h : firstCheck s g i w = none) : openTo s g i = true := by
  obtain ⟨-, hopen, -, -⟩ := checks_pass_iff.mp h
  have hteam := fun ht => hopen (.inr ht)
  have hneeds := needsPriv_of_firstCheck h
  unfold openTo
  rw [Bool.and_eq_true]
  refine ⟨?_, ?_⟩
  · cases hg : g.prv
    · simp [hneeds hg]
    · rfl
  · split
    · exact (Bool.not_eq_false _).mp hteam
    · rfl

theorem comboOk_of_firstCheck {c : Ctl} {f : MX} (h : firstCheck s g (.mma c f) w = none) :
    comboOk f.ta.toNat f.tb.toNat f.tc.toNat = true := by
  obtain ⟨-, -, hcombo, -⟩ := checks_pass_iff.mp h
  have hmem := List.contains_iff_mem.mp ((Bool.not_eq_false _).mp hcombo)
  exact List.all_eq_true (p := fun x => comboOk x.1 x.2.1 x.2.2).mp (by decide) _ hmem

theorem visibleDepth_of_firstCheck (h : firstCheck s g i w = none) (hu : w.getLsbD 55 = true) : visibleDepth g = 0 := by
  obtain ⟨-, -, -, hdiv⟩ := checks_pass_iff.mp h
  exact not_not.mp fun hd => hdiv ⟨hu, hd⟩

/-- R114: where no check of R62 fails, an instruction other than JOIN is stopped at the innermost join address. -/
theorem issueTrap_joinlay {c : Ctl} {e : Div} (h : firstCheck s g i w = none) (hu : w.getLsbD 55 = c.u)
    (he : innermost g = some e) (hpc : g.pc = e.jaddr) (hj : isJoin i = false) : issueTrap s g i c = some .joinlay := by
  have hdiv : ¬ (c.u && visibleDepth g ≠ 0) = true := fun hd => by
    simp only [Bool.and_eq_true, decide_eq_true_eq] at hd
    exact hd.2 (visibleDepth_of_firstCheck h (hu.trans hd.1))
  unfold issueTrap
  rw [fieldsOk_of_firstCheck h, openTo_of_firstCheck h, if_neg (by decide), if_neg (by decide), if_neg, if_neg hdiv, he]
  · simp [hpc, hj]
  · split
    · rw [comboOk_of_firstCheck h]; decide
    · decide

theorem isJoin_eq_false (h : ∀ c f, i ≠ .join c f) : isJoin i = false := by
  unfold isJoin
  split
  case h_1 c f => exact absurd rfl (h c f)
  case h_2 => rfl

end

/-- R114: at the innermost join address an instruction that is no JOIN takes JOINLAY, with a free TADDR. -/
theorem trapsAt_joinlay {i : Instr} {w : Word} {s : State} {g : Group} {e : Div} (hi : encode i = some w)
    (hg : getGroup s s.cur = some g) (hc : firstCheck s g i w = none) (he : innermost g = some e) (hpc : g.pc = e.jaddr)
    (hj : ∀ c f, i ≠ .join c f) : TrapsAt s i g .joinlay := by
  obtain ⟨c, body, hu, hx⟩ := exec_eq_issue_of_encode hi
  refine ⟨(freshWord s).2, ?_⟩
  rw [hx, issue, hg]
  simp only [issueTrap_joinlay hc hu he hpc (isJoin_eq_false hj)]
  rfl

/-! ### The end of an arm (R114) -/

section
variable {g : Group} {e : Div}

theorem innermost_setInnermost (h : innermost g = some e) (e' : Div) : innermost (setInnermost g e') = some e' := by
  unfold innermost at h ⊢
  split at h
  · cases h
  next hv =>
    have hne : g.dstk ≠ [] := fun hn => by simp [hn] at h
    have hd : visibleDepth (setInnermost g e') = visibleDepth g := by
      have hlen : (setInnermost g e').dstk.length = g.dstk.length := by
        have := List.length_pos_iff.mpr hne
        simp only [setInnermost, List.length_append, List.length_dropLast, List.length_singleton]
        omega
      exact congrArg (· - hiddenDepth g) hlen
    rw [hd, if_neg hv]
    simp [setInnermost]

theorem settleArms_elsewhere {n : Nat} (h : innermost g = some e) (hpc : g.pc ≠ e.jaddr) :
    settleArms (n + 1) g = g := by
  simp [settleArms, h, hpc]

theorem settleArms_joined {n : Nat} (h : innermost g = some e) (hpc : g.pc = e.jaddr) (hp : e.phase = true) :
    settleArms (n + 1) g = closeRegion { g with amask := g.amask ||| e.mask } := by
  simp [settleArms, h, hpc, hp]

theorem settleArms_noneWaits {n : Nat} (h : innermost g = some e) (hpc : g.pc = e.jaddr) (hp : e.phase = false)
    (hm : e.mask = 0) : settleArms (n + 1) g = setInnermost g { e with phase := true } := by
  simp [settleArms, h, hpc, hp, hm]

/-- The group in which the waiting arm of its innermost entry has taken the place of the fall-through arm. -/
def otherArm (g : Group) (e : Div) : Group :=
  closeRegion (setInnermost { g with amask := e.mask, pc := divTarget e } { e with mask := g.amask, phase := true })

theorem settleArms_otherArm {n : Nat} (h : innermost g = some e) (hpc : g.pc = e.jaddr) (hp : e.phase = false)
    (hm : e.mask ≠ 0) : settleArms (n + 1) g = settleArms n (otherArm g e) := by
  simp only [settleArms, h]
  rw [if_neg (not_not.mpr hpc), if_neg (by simp [hp]), if_neg hm]
  rfl

theorem innermost_otherArm (h : innermost g = some e) :
    innermost (otherArm g e) = some { e with mask := g.amask, phase := true } :=
  innermost_setInnermost (g := { g with amask := e.mask, pc := divTarget e }) h _

/-- The waiting arm starts at the join address exactly where TREL is 0 in the 61 bits that reach the address. -/
theorem divTarget_eq_jaddr_iff : divTarget e = e.jaddr ↔ e.trel % 2 ^ 61 = 0 := by
  rw [divTarget, add_eq_left, ← BitVec.toNat_inj, BitVec.toNat_ofInt]
  change (e.trel * 8 % 2 ^ 64).toNat = 0 ↔ _
  omega

theorem setInnermost_of_dstk {l : List Div} (h : g.dstk = l ++ [e]) (e' : Div) :
    setInnermost g e' = { g with dstk := l ++ [e'] } := by
  simp [setInnermost, h]

theorem otherArm_of_dstk {l : List Div} (h : g.dstk = l ++ [e]) : otherArm g e =
    { g with amask := e.mask, pc := divTarget e, ropen := false,
             dstk := l ++ [{ e with mask := g.amask, phase := true }] } :=
  congrArg closeRegion (setInnermost_of_dstk (g := { g with amask := e.mask, pc := divTarget e }) h _)

/-- The group with its next PC, before an arm ends (R79). -/
def advanced (g : Group) (pc : Word) : Group :=
  { g with pc, st := .ready, wreason := .none, wdcnt := 0, peerOk := none,
           step := if g.step = .armed then .due g.pc else g.step }

theorem completed_eq_settleArms (pc : Word) : completed g pc = settleArms 2 (advanced g pc) := rfl

variable {pc : Word}

theorem completed_elsewhere (he : innermost g = some e) (hpc : pc ≠ e.jaddr) : completed g pc = advanced g pc :=
  settleArms_elsewhere (g := advanced g pc) he hpc

theorem completed_joined (he : innermost g = some e) (hpc : pc = e.jaddr) (hp : e.phase = true) :
    completed g pc = { advanced g pc with amask := g.amask ||| e.mask, ropen := false } :=
  settleArms_joined (g := advanced g pc) he hpc hp

variable {l : List Div}

theorem completed_noneWaits (he : innermost g = some e) (hd : g.dstk = l ++ [e]) (hpc : pc = e.jaddr)
    (hp : e.phase = false) (hm : e.mask = 0) :
    completed g pc = { advanced g pc with dstk := l ++ [{ e with phase := true }] } := by
  rw [completed_eq_settleArms, settleArms_noneWaits (g := advanced g pc) he hpc hp hm]
  exact setInnermost_of_dstk (g := advanced g pc) hd _

/-- The fall-through arm gives way: what follows is the waiting arm, which the same rule may end at once. -/
theorem completed_otherArm (he : innermost g = some e) (hpc : pc = e.jaddr) (hp : e.phase = false) (hm : e.mask ≠ 0) :
    completed g pc = settleArms 1 (otherArm (advanced g pc) e) := by
  rw [completed_eq_settleArms, settleArms_otherArm (g := advanced g pc) he hpc hp hm]

theorem completed_switches (he : innermost g = some e) (hd : g.dstk = l ++ [e]) (hpc : pc = e.jaddr)
    (hp : e.phase = false) (hm : e.mask ≠ 0) (ht : e.trel % 2 ^ 61 ≠ 0) :
    completed g pc = { advanced g pc with amask := e.mask, pc := divTarget e, ropen := false,
                                          dstk := l ++ [{ e with mask := g.amask, phase := true }] } := by
  have hin := innermost_otherArm (g := advanced g pc) he
  rw [completed_otherArm he hpc hp hm, settleArms_elsewhere hin (mt divTarget_eq_jaddr_iff.mp ht),
    otherArm_of_dstk (g := advanced g pc) (l := l) hd]
  rfl

theorem completed_emptyArm (he : innermost g = some e) (hd : g.dstk = l ++ [e]) (hpc : pc = e.jaddr)
    (hp : e.phase = false) (hm : e.mask ≠ 0) (ht : e.trel % 2 ^ 61 = 0) :
    completed g pc = { advanced g pc with amask := e.mask ||| g.amask, ropen := false,
                                          dstk := l ++ [{ e with mask := g.amask, phase := true }] } := by
  have hin := innermost_otherArm (g := advanced g pc) he
  have hjoin : divTarget e = e.jaddr := divTarget_eq_jaddr_iff.mpr ht
  rw [completed_otherArm he hpc hp hm, settleArms_joined hin hjoin rfl,
    otherArm_of_dstk (g := advanced g pc) (l := l) hd, hjoin, ← hpc]
  rfl

end
/-- Settles O12: one lemma a case of the arm's end, and for the trap the checks that the instruction has passed. -/
theorem armEndsAtTheJoinAddress : Obligations.ArmEndsAtTheJoinAddress := by
  unfold Obligations.ArmEndsAtTheJoinAddress
  refine ⟨fun g pc e l he hd => ⟨?_, ?_, ?_, ?_, ?_⟩, ?_⟩
  · exact completed_elsewhere he
  · exact fun hpc hp => ⟨false, nofun, completed_joined he hpc hp⟩
  · exact fun hpc hp hm => ⟨g.ropen, id, completed_noneWaits he hd hpc hp hm⟩
  · exact completed_switches he hd
  · exact completed_emptyArm he hd
  · exact fun i w s g e hi hg hc he hpc hj => trapsAt_joinlay hi hg hc he hpc hj

end Sys2Proof.Machine
end

section
/-! R133 to R137, integer arithmetic. The model's wrapping, clamping and sign extension are first put in the words of the
rows (`low`, `fits`). Then a meaning that packs the row's elements, or whose entry is the row's one element, pushes what the
row says, and each instruction is brought to one of these two shapes. -/

namespace Sys2Proof.Machine
open Sys2Proof.Claims

/-! ### Exact integers in `w` bits (R20, R21) -/

theorem wrapInt_eq_low (w : Nat) (x : Int) : wrapInt w x = low w x := by
  simp [wrapInt, low]

theorem fitInt_eq_fits (sg : Bool) (w : Nat) (sat : Bool) (x : Int) : fitInt sg w sat x = fits sg w sat x := by
  have hmin : intMin sg w = minOf sg w := by simp [intMin, minOf]
  have hmax : intMax sg w = maxOf sg w := by simp [intMax, maxOf]
  cases sat <;> simp [fitInt, fits, wrapInt_eq_low, hmin, hmax]

theorem low_lt (w : Nat) (x : Int) : low w x < 2 ^ w := by
  have hlt : x % 2 ^ w < 2 ^ w := Int.emod_lt_of_pos x (by positivity)
  have hcast : ((2 ^ w : Nat) : Int) = 2 ^ w := Nat.cast_pow 2 w
  unfold low
  omega

theorem fits_lt (sg : Bool) (w : Nat) (sat : Bool) (x : Int) : (fits sg w sat x).1 < 2 ^ w := by
  unfold fits
  split_ifs <;> exact low_lt w _

/-- A number that differs from an exact integer by a multiple of 2^w has the same low bits. -/
theorem mod_eq_low {w n : Nat} {x k : Int} (h : (n : Int) = x + 2 ^ w * k) : n % 2 ^ w = low w x := by
  have hmod : ((n % 2 ^ w : Nat) : Int) = x % 2 ^ w := by
    push_cast
    rw [h, Int.add_mul_emod_self_left]
  rw [low, ← hmod, Int.toNat_natCast]

theorem low_neg_one (w : Nat) : low w (-1) = 2 ^ w - 1 := by
  have hpos := Nat.two_pow_pos w
  have hcast : ((2 ^ w - 1 : Nat) : Int) = -1 + 2 ^ w * 1 := by
    push_cast [Nat.cast_sub hpos]
    ring
  rw [← mod_eq_low hcast, Nat.mod_eq_of_lt (by omega)]

theorem sxNat_eq_ite {w : Nat} (hw : w ≠ 0) (x : Nat) : sxNat w x =
    if 2 ^ (w - 1) ≤ ((x % 2 ^ w : Nat) : Int) then ((x % 2 ^ w : Nat) : Int) - 2 ^ w else ((x % 2 ^ w : Nat) : Int) := by
  have hcast : ((2 ^ (w - 1) : Nat) : Int) = 2 ^ (w - 1) := Nat.cast_pow 2 (w - 1)
  simp only [sxNat, if_neg hw, ← hcast, Int.ofNat_le]
  by_cases h : x % 2 ^ w < 2 ^ (w - 1)
  · rw [if_pos h, if_neg (not_le.mpr h)]
  · rw [if_neg h, if_pos (not_lt.mp h)]
    push_cast
    rfl

theorem b2n_getLsbD {n : Nat} (v : BitVec n) (i : Nat) : b2n (v.getLsbD i) = v.toNat / 2 ^ i % 2 := by
  rw [← Nat.toNat_testBit]
  change b2n (v.toNat.testBit i) = _
  cases v.toNat.testBit i <;> rfl

theorem b2n_le_one (b : Bool) : b2n b ≤ 1 := by cases b <;> decide

theorem elemAt_lt (w : Nat) (x : Quad) (j : Nat) : elemAt w x j < 2 ^ w := Nat.mod_lt _ (Nat.two_pow_pos w)

/-! ### What a well-formed word tells (R62) -/

theorem wf_of_acts {s : State} {g : Group} {i : Instr} {c : Ctl} (h : Acts s g i c) : i.wf = true := by
  obtain ⟨-, htrap⟩ := h
  by_contra hwf
  have hfields : fieldsOk i g = false := by simp only [fieldsOk, (Bool.not_eq_true _).mp hwf, Bool.false_and]
  simp [issueTrap, hfields] at htrap

theorem Q3.ty_of_ok {f : Q3} {c : Ctl} {r : Q3Rule} (h : f.ok c r = true) : r.ty f.ty = true := by
  simp only [Sys2Proof.Q3.ok, Bool.and_eq_true] at h
  tauto

theorem Q3.sat_eq_false_of_ok {f : Q3} {c : Ctl} {r : Q3Rule} (h : f.ok c r = true) (hr : r.sat = false) :
    f.sat = false := by
  simp only [Sys2Proof.Q3.ok, Bool.and_eq_true, hr, Bool.false_or, Bool.not_eq_true'] at h
  tauto

/-! ### The two shapes of a row -/

/-- What `PushesRow` says of one instruction and its row. -/
def Pushes (i : Instr) (r : ValueRow) : Prop :=
  ∀ s g, Acts s g i r.ctl → Readable g (execLanes g r.ctl) r.args → trapsFp g (r.raised g) = false →
    ∃ v : Nat → Quad,
      (∀ l ∈ execLanes g r.ctl, IsEntry r.width r.count (fun j => (r.elem g l (r.vals g l) j).1) (v l)) ∧
      CompletesWith s i (pushed r.ctl v (flagged (r.raised g) g)) (g.pc + 8)

theorem pushesRow_of_pushes {row : Instr → Option ValueRow} (h : ∀ i r, row i = some r → Pushes i r) : PushesRow row :=
  fun i r s g hr => h i r hr s g

section
variable {i : Instr} {r : ValueRow} {fn : LaneFn}

/-- An instruction that packs the elements of its row. -/
theorem pushes_of_elementwise {t : Ty} (hx : ∀ s, exec i s = issue i r.ctl (valueBody r.ctl r.args fn) s)
    (hw : r.width = t.width) (hc : r.count = t.count)
    (hfn : i.wf = true → ∀ g l xs, fn g l xs = elementwise t (r.elem g l xs)) : Pushes i r := by
  intro s g ha hr ht
  have hfn := hfn (wf_of_acts ha)
  refine pushes_of_value (hx s) ha hr ht (fun l _ => ?_) (fun l _ => ?_)
  · rw [hfn, hw, hc]
    exact elementwise_entry t _ _ fun _ _ => rfl
  · rw [hfn, elementwise_flags, hc]

/-- An instruction whose entry is the one element of its row. -/
theorem pushes_of_scalar (hx : ∀ s, exec i s = issue i r.ctl (valueBody r.ctl r.args fn) s) (hc : r.count = 1)
    (hw : i.wf = true → r.width ≤ 128) (hlt : ∀ g l xs, (r.elem g l xs 0).1 < 2 ^ r.width)
    (hfn : ∀ g l xs, fn g l xs = (quadOf (r.elem g l xs 0).1, (r.elem g l xs 0).2)) : Pushes i r := by
  intro s g ha hr ht
  refine pushes_of_value (hx s) ha hr ht (fun l _ => ?_) (fun l _ => ?_)
  · rw [hfn, hc]
    exact quadOf_entry _ _ (hw (wf_of_acts ha)) (hlt g l _) _ rfl
  · rw [hfn, hc, orFlags_one]

end

/-! ### The instructions -/

/-- R133: an exact operation on each element, then R21. -/
theorem pushes_intOp {i : Instr} {c : Ctl} {f : Q3} {args : List Arg} {op op' : Int → Int → Int → Int}
    (hx : ∀ s, exec i s = issue i c (valueBody c args (intFn f op)) s) (hop : ∀ a b d, op a b d = op' a b d) :
    Pushes i (intOp c f args op') :=
  pushes_of_elementwise hx rfl rfl fun _ _ _ _ => by simp only [intFn, intOp, fitInt_eq_fits, hop]

/-- R136: the quotient, with its division by zero. -/
theorem divElem_quotient (t : Ty) (sat : Bool) (a b : Int) : divElem t sat false a b =
    if b = 0 then (2 ^ t.width - 1, 8) else fits t.signed t.width sat (a.tdiv b) := by
  simp [divElem, fitInt_eq_fits, wrapInt_eq_low, low_neg_one]

/-- R136: the remainder, which REM, having no SAT, does not clamp. -/
theorem divElem_remainder (t : Ty) (a b : Int) : divElem t false true a b =
    if b = 0 then (low t.width a, 8) else (low t.width (a - b * a.tdiv b), 0) := by
  simp [divElem, fitInt_eq_fits, fits, wrapInt_eq_low, Int.tmod_def]

theorem div_pushes (c : Ctl) (f : Q3) {r : ValueRow} (hr : arithRow (.div c f) = some r) : Pushes (.div c f) r := by
  cases hr
  refine pushes_of_elementwise (fn := divFn f false) (fun _ => rfl) rfl rfl fun _ g l xs => ?_
  simp only [divFn, divElem_quotient]

theorem rem_pushes (c : Ctl) (f : Q3) {r : ValueRow} (hr : arithRow (.rem c f) = some r) : Pushes (.rem c f) r := by
  cases hr
  refine pushes_of_elementwise (fn := divFn f true) (fun _ => rfl) rfl rfl fun hwf g l xs => ?_
  have hsat : f.sat = false := Q3.sat_eq_false_of_ok hwf rfl
  simp only [divFn, hsat, divElem_remainder]

/-- R134: operand c of MADW, read at twice the width. -/
theorem madw_addend {w : Nat} (hw : w ≠ 0) (sg : Bool) (x : Nat) :
    (if sg then sxNat w x else ((x % 2 ^ w : Nat) : Int)) =
      if sg ∧ 2 ^ (w - 1) ≤ ((x % 2 ^ w : Nat) : Int) then ((x % 2 ^ w : Nat) : Int) - 2 ^ w else ((x % 2 ^ w : Nat) : Int) := by
  cases sg
  · simp
  · simp [sxNat_eq_ite hw]

theorem Ty.width_ne_zero (t : Ty) : t.width ≠ 0 := by cases t <;> decide

theorem madw_pushes (c : Ctl) (f : Q3) {r : ValueRow} (hr : arithRow (.madw c f) = some r) : Pushes (.madw c f) r := by
  cases hr
  refine pushes_of_scalar (fn := madwFn f) (fun _ => rfl) rfl (fun hwf => ?_) (fun _ _ _ => fits_lt _ _ _ _) fun g l xs => ?_
  · have hwidths : ∀ t ∈ [Ty.i8, .n8, .i16, .n16, .i32, .n32], 2 * t.width ≤ 128 := by decide
    exact hwidths f.ty (List.contains_iff_mem.mp (Q3.ty_of_ok hwf))
  · have hw : 2 * f.ty.width ≠ 0 := by have := Ty.width_ne_zero f.ty; omega
    simp only [madwFn, fitInt_eq_fits, madw_addend hw]

/-- R137: the difference with its borrow in bit w, or the sum with its carry there. -/
theorem addxVal_eq {w a b k : Nat} (m : BitVec 4) (ha : a < 2 ^ w) (hb : b < 2 ^ w) (hk : k ≤ 1) :
    addxVal w m.toNat a b k =
      if m.getLsbD 1 then low w (a - b - k) + (if a < b + k then 2 ^ w else 0) else a + b + k := by
  have hpow : 2 ^ (w + 1) = 2 * 2 ^ w := by ring
  simp only [addxVal, BitVec.ofNat_toNat, BitVec.setWidth_eq, bitAt, hpow]
  split
  · have hcast : ((a + 2 * 2 ^ w - b - k : Nat) : Int) = (a - b - k : Int) + 2 ^ w * 2 := by
      have hpowInt : ((2 ^ w : Nat) : Int) = 2 ^ w := Nat.cast_pow 2 w
      omega
    rw [mod_eq_low hcast]
    simp [b2n]
  · exact Nat.mod_eq_of_lt (by omega)

theorem addx_elem_lt {w a b k : Nat} (m : BitVec 4) (ha : a < 2 ^ w) (hb : b < 2 ^ w) (hk : k ≤ 1) :
    (if m.getLsbD 1 then low w (a - b - k) + (if a < b + k then 2 ^ w else 0) else a + b + k) < 2 ^ (w + 1) := by
  have hpow : 2 ^ (w + 1) = 2 * 2 ^ w := by ring
  have hlow := low_lt w (a - b - k)
  split_ifs <;> omega

theorem carryIn_le_one (f : Q3) (xs : List Quad) :
    (if f.mod.getLsbD 0 then 0 else b2n ((opnd xs 2).getLsbD f.ty.width)) ≤ 1 := by
  split
  · exact Nat.zero_le 1
  · exact b2n_le_one _

theorem addx_pushes (c : Ctl) (f : Q3) {r : ValueRow} (hr : arithRow (.addx c f) = some r) : Pushes (.addx c f) r := by
  cases hr
  refine pushes_of_scalar (fn := addxFn f) (fun _ => rfl) rfl (fun hwf => ?_) (fun _ _ xs => ?_) fun g l xs => ?_
  · have hwidths : ∀ t ∈ [Ty.n32, .n64], t.width + 1 ≤ 128 := by decide
    exact hwidths f.ty (List.contains_iff_mem.mp (Q3.ty_of_ok hwf))
  · exact addx_elem_lt f.mod (elemAt_lt _ _ _) (elemAt_lt _ _ _) (carryIn_le_one f xs)
  · simp only [addxFn, bitAt, ← b2n_getLsbD]
    rw [addxVal_eq f.mod (elemAt_lt _ _ _) (elemAt_lt _ _ _) (carryIn_le_one f xs)]

theorem arithRow_pushes {i : Instr} {r : ValueRow} (hr : arithRow i = some r) : Pushes i r := by
  cases i with
  | div c f => exact div_pushes c f hr
  | rem c f => exact rem_pushes c f hr
  | madw c f => exact madw_pushes c f hr
  | addx c f => exact addx_pushes c f hr
  | mulh c f =>
    cases hr
    exact pushes_intOp (fun _ => rfl) fun a b _ => congrArg (a * b / ·) (Nat.cast_pow 2 f.ty.width)
  | min c f =>
    cases hr
    exact pushes_intOp (fun _ => rfl) fun a b _ => (min_def a b).symm
  | max c f =>
    cases hr
    exact pushes_intOp (fun _ => rfl) fun a b _ => (max_def a b).symm
  | abs c f =>
    cases hr
    exact pushes_intOp (fun _ => rfl) fun a _ _ => Int.natCast_natAbs a
  | adif c f =>
    cases hr
    exact pushes_intOp (fun _ => rfl) fun a b _ => Int.natCast_natAbs (a - b)
  | add | sub | mul | mad | neg | clamp =>
    cases hr
    exact pushes_intOp (fun _ => rfl) fun _ _ _ => rfl
  | _ => cases hr

/-- Settles O1: each row has one of two shapes, and the meaning of its instruction computes the row's elements. -/
theorem integerArithmeticPushesExactResults : Obligations.IntegerArithmeticPushesExactResults :=
  pushesRow_of_pushes fun _ _ => arithRow_pushes

end Sys2Proof.Machine
end
